-- ==== Sys2Proof/Word.lean ====
section
/-!
DEFINITION. The word types of the ZX4160: a scalar register, an instruction word and an address value are 64 bits
(R35, R84, 08_encoding_and_opcode_map.md), memory is a sequence of bytes, bit 0 is the least significant bit (R5).
-/
namespace Sys2Proof

/-- A 64-bit register, instruction word or address value (R35, R84). -/
abbrev Word := BitVec 64

/-- One byte of memory (R5). -/
abbrev Byte := BitVec 8

end Sys2Proof
end

