-- ==== Sys2Proof/Machine/Bits.lean ====
section
/-!
DEFINITION. Bit fields of words and of register images held as numbers (R5, R6, R38): field slices, field replacement,
sign and zero extension, population counts. A register image is a number whose bit i is bit i of the register.
-/
namespace Sys2Proof.Machine

/-- x[off + w − 1 : off] of an image (R5). -/
def imgGet (x off w : Nat) : Nat := (x >>> off) % 2 ^ w

/-- The image with x[off + w − 1 : off] replaced by the low `w` bits of `v`. -/
def imgSet (x off w v : Nat) : Nat := ((x >>> (off + w)) <<< (off + w)) + ((v % 2 ^ w) <<< off) + x % 2 ^ off

/-- x[hi:lo] of a word as a number (R5). -/
def fld (x : Word) (hi lo : Nat) : Nat := imgGet x.toNat lo (hi + 1 - lo)

/-- One bit of a word. -/
def bitAt (x : Word) (n : Nat) : Bool := x.getLsbD n

/-- A word from a number, modulo 2^64. -/
def w64 (n : Nat) : Word := BitVec.ofNat 64 n

/-- The signed reading of the low `w` bits of `n`. -/
def sgn (w n : Nat) : Int :=
  let m := n % 2 ^ w
  if m < 2 ^ (w - 1) then (m : Int) else (m : Int) - (2 ^ w : Nat)

/-- An integer modulo 2^w as a bit pattern. -/
def pat (w : Nat) (i : Int) : Nat := (i % ((2 ^ w : Nat) : Int)).toNat

/-- sext(x, 64) of a `w`-bit pattern (R6). -/
def sext64 (w n : Nat) : Word := w64 (pat 64 (sgn w n))

/-- floor(log2 n), 0 for 0: the number of the highest set bit. -/
def log2 (n : Nat) : Nat := n.log2

/-- All ones in `w` bits. -/
def ones (w : Nat) : Nat := 2 ^ w - 1

/-- The integers from `lo` up to but not including `hi`, ascending. -/
def upTo (lo hi : Nat) : List Nat := (List.range (hi - lo)).map (lo + ·)

/-- Ceiling division. -/
def cdiv (a b : Nat) : Nat := (a + b - 1) / b

/-- The number of set bits among bits 0 to `w` − 1. -/
def popcount (w x : Nat) : Nat := ((List.range w).filter fun i => x.testBit i).length

/-- The signed integer quotient and remainder, truncated toward zero (R140 tq). -/
def tquot (x y : Int) : Int := Int.tdiv x y
def trem (x y : Int) : Int := Int.tmod x y

/-- n / 8 bytes of a number as a little-endian list. -/
def toBytes : Nat → Nat → List Byte
  | 0, _ => []
  | n + 1, v => BitVec.ofNat 8 v :: toBytes n (v / 256)

/-- A little-endian list of bytes as a number. -/
def ofBytes : List Byte → Nat
  | [] => 0
  | b :: r => b.toNat + 256 * ofBytes r

/-- Values of `w` bits side by side, the first lowest. -/
def pack (w : Nat) : List Nat → Nat
  | [] => 0
  | x :: r => x % 2 ^ w + 2 ^ w * pack w r

end Sys2Proof.Machine
end

