-- ==== Sys2Proof/Syntax.lean ====
section
/-!
DEFINITION. The instructions of the ZX4160: one constructor per row of spec/opcode_table.json. The rows of encoded words
carry the fields of R120 to R135; the rows that the table calls events (95_what_each_step_holds.md) carry the unit the step
belongs to and what arrives from outside. A scalar word, a convoy slot and an event are all steps of the machine.
-/
namespace Sys2Proof

abbrev SReg := BitVec 5
abbrev CReg := BitVec 4
abbrev VReg := BitVec 6
abbrev PReg := BitVec 7
abbrev KReg := BitVec 5
abbrev OReg := BitVec 3
abbrev QReg := BitVec 3
abbrev MSlot := BitVec 3
abbrev TReg := BitVec 3

/-- Guard of a scalar word: truth table and three condition registers (R126, R127). -/
structure SG where
  tt : BitVec 8
  ca : CReg
  cb : CReg
  cc : CReg
  deriving DecidableEq, Repr

/-- Guard of a vector word: truth table and three predicates (R122, R127). -/
structure VG where
  tt : BitVec 8
  pa : PReg
  pb : PReg
  pc : PReg
  deriving DecidableEq, Repr

/-- Second operand of a VA instruction (R128). -/
inductive Op2 where
  | vs2 (r : VReg)
  | xa
  | xb
  | ximm
  | wide (r : VReg)
  deriving DecidableEq, Repr

/-- A captured scalar operand: OSEL 001, 010, 011 (R128). -/
inductive Sel3 where
  | xa | xb | ximm
  deriving DecidableEq, Repr

/-- Second operand of KADD to KMIN (R207). -/
inductive KOp2 where
  | ks (k : KReg)
  | sel (s : Sel3)
  deriving DecidableEq, Repr

/-- Rounding modes (R67). -/
inductive RMode where
  | rne | rtz | rdn | rup | rmm | sr
  deriving DecidableEq, Repr

/-- Rounding of a scalar FP word: a mode, or FRM (R130). -/
inductive SRm where
  | mode (m : RMode)
  | dyn
  deriving DecidableEq, Repr

/-- Formats of the scalar FP format field (R130). -/
inductive FP where
  | f32 | f64 | f16 | bf16
  deriving DecidableEq, Repr

/-- Compare conditions (R131). -/
inductive Cond where
  | eq | ne | lt | ge | ltu | geu | gt | le | gtu | leu
  deriving DecidableEq, Repr

/-- Ordering scopes (R107, R130). -/
inductive Scope where
  | core | cl | die | mod | sys
  deriving DecidableEq, Repr

/-- Atomic operations (R186, R241). -/
inductive AmoOp where
  | swap | add | and | or | xor | min | max | minu | maxu | fadd
  deriving DecidableEq, Repr

/-- Fence kinds (R106). -/
inductive FenceKind where
  | sv | vs | vv | all
  deriving DecidableEq, Repr

/-- MOD of a VM word: TAG, BASE and OFF (R129, R176). -/
structure MemForm where
  tag : Bool
  base : Bool
  off : Bool
  deriving DecidableEq, Repr

/-- The three host agents that may own the module; their classes are 1, 2, 3 (R312). -/
inductive HostAgent where
  | driver | board | network
  deriving DecidableEq, Repr

/-- Who makes a Burxus call (R307). -/
inductive Caller where
  | hart (n : Nat) (sd : SReg)
  | host (a : HostAgent)
  deriving DecidableEq, Repr

/-- A call: caller and the values of s10 to s15 (R307). -/
structure CallFrame where
  caller : Caller
  a0 : Word
  a1 : Word
  a2 : Word
  a3 : Word
  a4 : Word
  a5 : Word
  deriving DecidableEq, Repr

/-- What a termination names (R326). -/
inductive TermTarget where
  | hart (n : Nat)
  | slate (launch : Nat)
  deriving DecidableEq, Repr

/-- What a debug READ or WRITE names (R297). -/
inductive DbgItem where
  | s (n : SReg)
  | cond
  | v (n : VReg)
  | p (n : PReg)
  | k (n : KReg)
  | o (n : OReg)
  | q (n : QReg)
  | csr (n : BitVec 12)
  | msh
  | pc
  | tile (t : TReg) (row : BitVec 5)
  | bstore (row : Nat)
  | mem (va : Word)
  | bkpa (n : BitVec 2)
  | bkpc (n : BitVec 2)
  deriving DecidableEq, Repr

/-- What a partition record names; the manual lists the contents and gives no layout (R310, R274, R279, R280). -/
structure PartRecord where
  cores : List Nat
  asids : List Nat
  pages : List (Nat × Nat)
  reserve : List Nat
  ports : List Nat
  units : List (Nat × Nat)
  hbmw : BitVec 8
  netw : BitVec 8
  linkw : BitVec 8
  budget : Nat
  sprio : BitVec 3
  deriving DecidableEq, Repr, Inhabited

/-- The storage of a hart that R352 lists, and the place of R366. -/
inductive HartStore where
  | vectors | tiles | queues | bStore
  deriving DecidableEq, Repr

/-- What a read finds (R352, R353, R357): an error in the line, or in storage that a hart holds. -/
inductive Finding where
  | clean
  | corrected
  | uncorrectable (words : List Nat)
  | storage (hart : Nat) (store : HartStore) (lost : Bool)
  deriving DecidableEq, Repr

/-- A contribution to a collective as it arrives at the coordinator (R293). -/
structure Contribution where
  /-- the session over which it came -/
  sid : Nat
  group : Nat
  epoch : Nat
  member : Nat
  members : BitVec 48
  wire : Word
  elems : List (BitVec 32)
  deriving DecidableEq, Repr

/-- A result of a collective as it arrives at a member (R293, R294). -/
structure CollectiveAnswer where
  group : Nat
  epoch : Nat
  outcome : BitVec 8
  mask : BitVec 48
  elems : List (BitVec 32)
  deriving DecidableEq, Repr

/-- What a bring-up stage found (R378): whether stage 1 or 3 failed, the management cores that failed, the ways of banks, the cores
and the spare cores that failed their tests, and the ports that did not train or took a spare lane. -/
structure StageReport where
  held : Bool
  mgmtFailed : Nat
  ways : List Nat
  coresFailed : List Nat
  sparesBad : List Nat
  portsDown : List Nat
  lanesSpared : List Nat
  deriving DecidableEq, Repr

/-- The instructions and steps, one constructor per row of the opcode table, in its order. -/
inductive Instr where
  | add (g : SG) (sd sa sb : SReg)
  | sub (g : SG) (sd sa sb : SReg)
  | and (g : SG) (sd sa sb : SReg)
  | or (g : SG) (sd sa sb : SReg)
  | xor (g : SG) (sd sa sb : SReg)
  | sll (g : SG) (sd sa sb : SReg)
  | srl (g : SG) (sd sa sb : SReg)
  | sra (g : SG) (sd sa sb : SReg)
  | mul (g : SG) (sd sa sb : SReg)
  | mulh (g : SG) (sd sa sb : SReg)
  | mulhu (g : SG) (sd sa sb : SReg)
  | div (g : SG) (sd sa sb : SReg)
  | divu (g : SG) (sd sa sb : SReg)
  | rem (g : SG) (sd sa sb : SReg)
  | remu (g : SG) (sd sa sb : SReg)
  | min (g : SG) (sd sa sb : SReg)
  | max (g : SG) (sd sa sb : SReg)
  | minu (g : SG) (sd sa sb : SReg)
  | maxu (g : SG) (sd sa sb : SReg)
  | addImm (g : SG) (sd sa : SReg) (imm : BitVec 24)
  | andImm (g : SG) (sd sa : SReg) (imm : BitVec 24)
  | orImm (g : SG) (sd sa : SReg) (imm : BitVec 24)
  | xorImm (g : SG) (sd sa : SReg) (imm : BitVec 24)
  | sllImm (g : SG) (sd sa : SReg) (sh : BitVec 6)
  | srlImm (g : SG) (sd sa : SReg) (sh : BitVec 6)
  | sraImm (g : SG) (sd sa : SReg) (sh : BitVec 6)
  | lih (g : SG) (sd : SReg) (imm : BitVec 29)
  | ldB (g : SG) (sd sa : SReg) (imm : BitVec 24)
  | ldH (g : SG) (sd sa : SReg) (imm : BitVec 24)
  | ldW (g : SG) (sd sa : SReg) (imm : BitVec 24)
  | ldD (g : SG) (sd sa : SReg) (imm : BitVec 24)
  | ldBu (g : SG) (sd sa : SReg) (imm : BitVec 24)
  | ldHu (g : SG) (sd sa : SReg) (imm : BitVec 24)
  | ldWu (g : SG) (sd sa : SReg) (imm : BitVec 24)
  | stB (g : SG) (sd sa : SReg) (imm : BitVec 24)
  | stH (g : SG) (sd sa : SReg) (imm : BitVec 24)
  | stW (g : SG) (sd sa : SReg) (imm : BitVec 24)
  | stD (g : SG) (sd sa : SReg) (imm : BitVec 24)
  | cmp (g : SG) (cd : CReg) (sa sb : SReg) (cc : Cond)
  | b (g : SG) (off : BitVec 29)
  | bc (g : SG) (sd : SReg) (off : BitVec 29)
  | call (g : SG) (sd : SReg) (off : BitVec 29)
  | jr (g : SG) (sd sa : SReg)
  | ret (g : SG) (sa : SReg)
  | bany (g : SG) (p : PReg) (off : BitVec 22)
  | ball (g : SG) (p : PReg) (off : BitVec 22)
  | bnone (g : SG) (p : PReg) (off : BitVec 22)
  | fadd (g : SG) (sd sa sb : SReg) (rm : SRm) (f : FP)
  | fsub (g : SG) (sd sa sb : SReg) (rm : SRm) (f : FP)
  | fmul (g : SG) (sd sa sb : SReg) (rm : SRm) (f : FP)
  | fma (g : SG) (sd sa sb sc : SReg) (rm : SRm) (f : FP)
  | fdiv (g : SG) (sd sa sb : SReg) (rm : SRm) (f : FP)
  | fsqrt (g : SG) (sd sa : SReg) (rm : SRm) (f : FP)
  | fmin (g : SG) (sd sa sb : SReg) (f : FP)
  | fmax (g : SG) (sd sa sb : SReg) (f : FP)
  | fcvt (g : SG) (sd sa : SReg) (rm : SRm) (f : FP) (sub : BitVec 4)
  | fcmp (g : SG) (cd : CReg) (sa sb : SReg) (cc : Cond) (f : FP)
  | fclass (g : SG) (sd sa : SReg) (f : FP)
  | csrr (g : SG) (sd : SReg) (n : BitVec 12)
  | csrw (g : SG) (sa : SReg) (n : BitVec 12)
  | csrs (g : SG) (sa : SReg) (n : BitVec 12)
  | csrc (g : SG) (sa : SReg) (n : BitVec 12)
  | csrrC (g : SG) (sd : SReg)
  | csrwC (g : SG) (sa : SReg)
  | setvl (g : SG) (sd sa sb : SReg) (vt : BitVec 16)
  | setvlN (g : SG) (sd sa sb : SReg) (vt : BitVec 16)
  | vconf (g : SG) (n : BitVec 2)
  | amo (g : SG) (sd sa sb : SReg) (sc : Scope) (acq rel dbl : Bool) (op : AmoOp)
  | cas (g : SG) (sd sa sb : SReg) (sc : Scope) (acq rel dbl : Bool)
  | fence (g : SG) (kind : FenceKind) (sc : Scope)
  | bararv (g : SG) (sd : SReg)
  | barwait (g : SG) (sd : SReg)
  | barset (g : SG) (sd sa : SReg)
  | epush (g : SG) (eng : BitVec 2) (sa : SReg)
  | epop (g : SG) (sd : SReg) (eng : BitVec 2)
  | tstamp (g : SG) (sa sb : SReg)
  | strmcfg (g : SG) (m : MSlot) (sa sb kbase stride : SReg) (zc : Bool) (gap : SReg)
  | strmend (g : SG) (m : MSlot)
  | strmwait (g : SG) (m : MSlot) (sa : SReg)
  | strmavail (g : SG) (sd : SReg) (m : MSlot)
  | mshape (g : SG) (sd sa : SReg) (r : Bool)
  | mbld (g : SG) (sa sb sk sn sc : SReg)
  | mma (g : SG) (t : TReg) (v : VReg) (sa : SReg)
  | mmas (g : SG) (t : TReg) (v : VReg) (sa : SReg)
  | mzero (g : SG) (t : TReg)
  | maccld (g : SG) (t : TReg) (sa : SReg)
  | maccst (g : SG) (t : TReg) (sa : SReg)
  | mwait (g : SG)
  | launch (g : SG) (sd sa : SReg)
  | exit (g : SG) (sa : SReg)
  /-- event: the EXIT of a hart completes (R252) -/
  | exitComplete (hart : Nat)
  | cacheIinv (g : SG) (sa : SReg)
  | cacheIall (g : SG) (sa : SReg)
  | cacheDinv (g : SG) (sa : SReg)
  | cacheClean (g : SG) (sa : SReg)
  | cacheFlush (g : SG) (sa : SReg)
  | cacheTlbiva (g : SG) (sa sb : SReg) (sc : Scope)
  | cacheTlbiasid (g : SG) (sa sb : SReg) (sc : Scope)
  | cacheTlbiall (g : SG) (sa sb : SReg) (sc : Scope)
  | svc (g : SG) (n : BitVec 16)
  | brk (g : SG) (n : BitVec 16)
  | bcall (g : SG) (sd : SReg) (n : BitVec 16)
  | eret (g : SG)
  | wfe (g : SG)
  /-- event: 65,536 control clocks have passed in a WFE (R256) -/
  | wfeTimeout (hart : Nat)
  /-- event (R30) -/
  | scalarCommit (hart : Nat)
  /-- event (R20) -/
  | convoyHandoff (hart : Nat)
  /-- event (R24) -/
  | convoyStart (hart : Nat)
  /-- event (R29) -/
  | sequencerDecision (core : Nat)
  | vadd (g : VG) (vd vs1 : VReg) (o : Op2) (sat u : Bool)
  | vsub (g : VG) (vd vs1 : VReg) (o : Op2) (sat u : Bool)
  | vrsub (g : VG) (vd vs1 : VReg) (o : Op2) (sat u : Bool)
  | vmul (g : VG) (vd vs1 : VReg) (o : Op2) (sat u : Bool)
  | vmulh (g : VG) (vd vs1 : VReg) (o : Op2) (sat u : Bool)
  | vdiv (g : VG) (vd vs1 : VReg) (o : Op2) (sat u : Bool)
  | vrem (g : VG) (vd vs1 : VReg) (o : Op2) (sat u : Bool)
  | vmin (g : VG) (vd vs1 : VReg) (o : Op2) (sat u : Bool)
  | vmax (g : VG) (vd vs1 : VReg) (o : Op2) (sat u : Bool)
  | vand (g : VG) (vd vs1 : VReg) (o : Op2) (sat u : Bool)
  | vor (g : VG) (vd vs1 : VReg) (o : Op2) (sat u : Bool)
  | vxor (g : VG) (vd vs1 : VReg) (o : Op2) (sat u : Bool)
  | vsll (g : VG) (vd vs1 : VReg) (o : Op2) (sat u : Bool)
  | vsrl (g : VG) (vd vs1 : VReg) (o : Op2) (sat u : Bool)
  | vsra (g : VG) (vd vs1 : VReg) (o : Op2) (sat u : Bool)
  | vaddw (g : VG) (vd vs1 : VReg) (o : Op2) (sat u : Bool)
  | vsubw (g : VG) (vd vs1 : VReg) (o : Op2) (sat u : Bool)
  | vmulw (g : VG) (vd vs1 : VReg) (o : Op2) (sat u : Bool)
  | vmacc (g : VG) (vd vs1 : VReg) (o : Op2) (sat u : Bool)
  | vnsrl (g : VG) (vd vs1 : VReg) (o : Op2) (sat u : Bool)
  | vnclip (g : VG) (vd vs1 : VReg) (o : Op2) (sat u : Bool)
  | vabs (g : VG) (vd vs1 : VReg) (sat : Bool)
  | vavg (g : VG) (vd vs1 : VReg) (o : Op2) (sat u : Bool)
  | vfadd (g : VG) (vd vs1 : VReg) (o : Op2) (rm : RMode)
  | vfsub (g : VG) (vd vs1 : VReg) (o : Op2) (rm : RMode)
  | vfmul (g : VG) (vd vs1 : VReg) (o : Op2) (rm : RMode)
  | vfdiv (g : VG) (vd vs1 : VReg) (o : Op2) (rm : RMode)
  | vfsqrt (g : VG) (vd vs1 : VReg) (rm : RMode)
  | vfmin (g : VG) (vd vs1 : VReg) (o : Op2)
  | vfmax (g : VG) (vd vs1 : VReg) (o : Op2)
  | vfma (g : VG) (vd vs1 : VReg) (o : Op2) (rm : RMode)
  | vfms (g : VG) (vd vs1 : VReg) (o : Op2) (rm : RMode)
  | vfnma (g : VG) (vd vs1 : VReg) (o : Op2) (rm : RMode)
  | vfnms (g : VG) (vd vs1 : VReg) (o : Op2) (rm : RMode)
  | vfclamp (g : VG) (vd vs1 : VReg) (o : Op2)
  | vfabs (g : VG) (vd vs1 : VReg)
  | vfneg (g : VG) (vd vs1 : VReg)
  | vfsgnj (g : VG) (vd vs1 : VReg) (o : Op2)
  | vfwadd (g : VG) (vd vs1 : VReg) (o : Op2) (rm : RMode)
  | vfwmul (g : VG) (vd vs1 : VReg) (o : Op2) (rm : RMode)
  | vfwma (g : VG) (vd vs1 : VReg) (o : Op2) (rm : RMode)
  | vfcvt (g : VG) (vd vs1 : VReg) (rm : RMode)
  | vfcvti (g : VG) (vd vs1 : VReg) (u : Bool) (rm : RMode) (sat : Bool)
  | vicvtf (g : VG) (vd vs1 : VReg) (u : Bool) (rm : RMode)
  | vfncvt (g : VG) (vd vs1 : VReg) (rm : RMode) (sat : Bool)
  | vfwcvt (g : VG) (vd vs1 : VReg)
  | vcmp (g : VG) (pair : BitVec 6) (vs1 : VReg) (o : Op2) (cc : Cond)
  | vfcmp (g : VG) (pair : BitVec 6) (vs1 : VReg) (o : Op2) (cc : Cond)
  | vmv (g : VG) (vd : VReg) (o : Op2)
  | vmerge (g : VG) (vd vs1 : VReg) (o : Op2)
  | vext (g : VG) (sd : SReg) (vs1 : VReg) (i : Sel3)
  | vins (g : VG) (vd : VReg) (v : Sel3)
  | vid (g : VG) (vd : VReg)
  | plogic (g : VG) (pd : PReg)
  | pset (g : VG) (pd : PReg)
  | psets (g : VG) (pd : PReg) (useB : Bool)
  | pclr (g : VG) (pd : PReg)
  | psbf (g : VG) (pd ps : PReg)
  | psif (g : VG) (pd ps : PReg)
  | psof (g : VG) (pd ps : PReg)
  | pcount (g : VG) (sd : SReg) (ps : PReg)
  | pffs (g : VG) (sd : SReg) (ps : PReg)
  | pkill (pd plast : PReg)
  | pfromv (g : VG) (pd : PReg) (vs : VReg)
  | ptov (g : VG) (vd : VReg) (ps : PReg)
  | kadd (g : VG) (kd ks1 : KReg) (o : KOp2)
  | ksub (g : VG) (kd ks1 : KReg) (o : KOp2)
  | kmax (g : VG) (kd ks1 : KReg) (o : KOp2)
  | kmin (g : VG) (kd ks1 : KReg) (o : KOp2)
  | kmov (g : VG) (kd ks : KReg)
  | kset (g : VG) (kd : KReg) (v : Sel3)
  | kfromv (g : VG) (kd : KReg) (vs : VReg) (v : Sel3)
  | vbind (g : VG) (vd : VReg) (kd : KReg)
  | vunbind (g : VG) (vd : VReg)
  | vskip (g : VG) (ps : PReg) (n : BitVec 6)
  | bfop (g : VG) (od : OReg) (v : Sel3)
  | vld (g : VG) (vd : VReg) (m : MemForm)
  | vlds (g : VG) (vd : VReg) (m : MemForm)
  | vldx (g : VG) (vd vs2 : VReg) (m : MemForm)
  | vldff (g : VG) (vd : VReg) (m : MemForm)
  | vldz (vd : VReg) (sd : SReg)
  | vldk (g : VG) (vd : VReg) (kd : KReg) (m : MemForm)
  | vst (g : VG) (vd : VReg) (m : MemForm)
  | vsts (g : VG) (vd : VReg) (m : MemForm)
  | vstx (g : VG) (vd vs2 : VReg) (m : MemForm)
  | vstk (g : VG) (vd : VReg) (ks : KReg) (m : MemForm)
  | vamo (g : VG) (vd vs2 : VReg) (op : AmoOp) (m : MemForm)
  | pld (g : VG) (pd : PReg) (m : MemForm)
  | pst (g : VG) (pd : PReg) (m : MemForm)
  | kld (g : VG) (k : KReg) (m : MemForm)
  | kst (g : VG) (k : KReg) (m : MemForm)
  | strmbind (g : VG) (vd : VReg) (m : MSlot) (kd : KReg)
  | strmunbind (g : VG) (m : MSlot)
  | bfseq (g : VG) (q : QReg) (m : MemForm)
  | bftab (g : VG) (o : OReg) (m : MemForm)
  | vpref (g : VG) (strided : Bool) (m : MemForm)
  | bfpass (g : VG) (vd vs : VReg) (o : OReg) (q : QReg) (vc : VReg) (sw : BitVec 2)
  | bfpassKp (g : VG) (vd vs : VReg) (o : OReg) (q : QReg) (vc : VReg) (sw : BitVec 2)
  | mdrn (g : VG) (vd : VReg) (t : TReg) (r : Sel3)
  | mdrnt (g : VG) (vd : VReg) (t : TReg) (r : Sel3)
  | mput (g : VG) (vd : VReg) (t : TReg) (r : Sel3)
  /-- event (R238) -/
  | matrixCommandStart (core : Nat)
  /-- event (R231) -/
  | matrixCommandComplete (core : Nat)
  /-- event (R235) -/
  | matrixAsyncFault (core : Nat)
  /-- event (R85) -/
  | tableWalk (core asid : Nat) (va : Word)
  /-- event (R318) -/
  | interrupt (hart : Nat) (source : Word)
  /-- event (R327) -/
  | preemption (gang : Nat)
  /-- event (R326) -/
  | termination (who : TermTarget)
  /-- event (R192) -/
  | streamFetch (hart : Nat) (m : MSlot)
  /-- event (R249) -/
  | copy (hart : Nat)
  /-- event (R248) -/
  | fill (hart : Nat)
  /-- event (R249) -/
  | note (hart : Nat)
  /-- event (R304) -/
  | drain (hart : Nat)
  /-- event (R248) -/
  | engineReservedOp (hart : Nat) (eng : BitVec 2)
  /-- event (R248) -/
  | engineResultPost (hart : Nat) (eng : BitVec 2)
  /-- event (R293) -/
  | allreduce (hart : Nat)
  /-- event (R293) -/
  | bcast (hart : Nat)
  /-- event (R286) -/
  | linkOpen (hart : Nat)
  /-- event (R291) -/
  | linkClose (hart : Nat)
  /-- event (R287) -/
  | rekey (hart : Nat)
  /-- event (R291) -/
  | send (hart : Nat)
  /-- event (R292) -/
  | recv (hart : Nat)
  /-- event (R287) -/
  | dataFrame (port : Nat) (f : List Byte)
  /-- event (R288) -/
  | acknowledgement (port : Nat) (f : List Byte)
  /-- event (R286) -/
  | handshakeMessage1 (port : Nat) (f : List Byte)
  /-- event (R286) -/
  | handshakeMessage2 (port : Nat) (f : List Byte)
  /-- event (R286) -/
  | handshakeMessage3 (port : Nat) (f : List Byte)
  /-- event (R374) -/
  | closeFrame (port : Nat) (f : List Byte)
  /-- event (R288) -/
  | resendTimer (sid seq : Nat)
  /-- event (R374) -/
  | noFrameTimeout (sid : Nat)
  /-- event (R374) -/
  | rekeyTimeout (sid : Nat)
  /-- event (R292) -/
  | openTimeout (sid : Nat)
  /-- event (R287) -/
  | frameCountRekey (sid : Nat)
  /-- event (R293) -/
  | collectiveContribution (c : Contribution)
  /-- event (R293) -/
  | collectiveDeadline (group epoch : Nat)
  /-- event (R294) -/
  | collectiveResult (r : CollectiveAnswer)
  /-- event (R293) -/
  | coordinatorLostTimeout (group epoch : Nat)
  /-- event (R293) -/
  | contributionHoldExpiry (group epoch member : Nat)
  /-- event (R373) -/
  | laneFailure (port lane : Nat)
  /-- event (R373) -/
  | laneErrorRateWindow (port lane : Nat) (high : Bool)
  /-- event (R373) -/
  | portRetrainComplete (port : Nat)
  /-- event (R262) -/
  | schedulingQuantum
  /-- event (R297) -/
  | halt (who : HostAgent) (hart : Nat)
  /-- event (R297) -/
  | haltGang (who : HostAgent) (hart : Nat)
  /-- event (R297) -/
  | resume (who : HostAgent) (hart : Nat)
  /-- event (R300) -/
  | stepUnit (who : HostAgent) (hart : Nat)
  /-- event (R300) -/
  | stepGroup (who : HostAgent) (hart : Nat)
  /-- event (R297) -/
  | dbgRead (who : HostAgent) (hart : Nat) (item : DbgItem)
  /-- event (R301) -/
  | dbgWrite (who : HostAgent) (hart : Nat) (item : DbgItem) (v : Nat)
  /-- event (R297) -/
  | setbp (who : HostAgent) (hart : Nat) (n : BitVec 2) (a c : Word)
  /-- event (R305) -/
  | traceSample (hart : Nat)
  /-- event (R303) -/
  | dlyCtlClr (hart : Nat)
  /-- event (R310) -/
  | version (f : CallFrame)
  /-- event (R310) -/
  | features (f : CallFrame)
  /-- event (R310) -/
  | accept (f : CallFrame)
  /-- event (R310) -/
  | asidRoot (f : CallFrame)
  /-- event (R310) -/
  | cacheSet (f : CallFrame)
  /-- event (R310) -/
  | cacheLock (f : CallFrame)
  /-- event (R310) -/
  | slatePost (f : CallFrame)
  /-- event (R310) -/
  | slateWithdraw (f : CallFrame)
  /-- event (R310) -/
  | partSet (f : CallFrame) (r : PartRecord)
  /-- event (R310) -/
  | powerRead (f : CallFrame)
  /-- event (R293) -/
  | groupSet (f : CallFrame) (sids : List Nat)
  /-- event (R310) -/
  | claim (f : CallFrame)
  /-- event (R310) -/
  | handover (f : CallFrame)
  /-- event (R310) -/
  | release (f : CallFrame)
  /-- event (R310) -/
  | mboluxLoad (f : CallFrame)
  /-- event (R312) -/
  | ownershipLapse
  /-- event (R353) -/
  | patrolRead (line : Nat) (found : Finding)
  /-- event (R377) -/
  | spareCoreSubstitution (core : Nat)
  /-- event (R367) -/
  | rasInjWrite (part : Nat) (v : Word)
  /-- event (R366) -/
  | rasCtlPop (part : Nat)
  /-- event (R371) -/
  | evtCtlPop (part : Nat)
  /-- event (R281): of a partition, or of the module, 32 (log 26) -/
  | powerMeasurement (part mw : Nat)
  /-- event (R281) -/
  | shedStepRise (part : Nat)
  /-- event (R281) -/
  | shedStepFall (part : Nat)
  /-- event (R376) -/
  | moduleLimitChange (watts : Nat)
  /-- event (R376) -/
  | coolantTemperatureHigh
  /-- event (R376) -/
  | limitReductionTick
  /-- event (R376) -/
  | coolantFlowLoss
  /-- event (R280) -/
  | modulePowerRemoval
  /-- event (R378) -/
  | moduleReset
  /-- event (R378) -/
  | bringupStageComplete (r : StageReport)
  /-- event (R93) -/
  | hostMemoryAccess (write : Bool) (addr : Nat) (bytes : List Byte)
  /-- event (R376) -/
  | coolantFlowRestore
  /-- event (R376) -/
  | coolantTemperatureRecovery
  /-- event (R307) -/
  | managementCoreSpareTakeover
  /-- event (R309) -/
  | hostAgentReset (who : HostAgent)
  /-- event (R285) -/
  | reservedKindFrame (port : Nat) (f : List Byte)
  /-- event (R299) -/
  | debuggerAttach (who : HostAgent) (opened : Bool)
  deriving DecidableEq, Repr

end Sys2Proof
end

