-- ==== Sys2Proof/Machine/Flags.lean ====
section
/-!
DEFINITION. The accrued flags (R54, R83) and the rounding decision (R67, R69, R70): everything that decides which flags an
operation sets.
-/
namespace Sys2Proof.Machine

/-- FFLAGS bits (R54). -/
def fNX : BitVec 6 := 1#6
def fUF : BitVec 6 := 2#6
def fOF : BitVec 6 := 4#6
def fDZ : BitVec 6 := 8#6
def fNV : BitVec 6 := 16#6
def fSX : BitVec 6 := 32#6

def flagIf (b : Bool) (f : BitVec 6) : BitVec 6 := if b then f else 0

/-- A result with the flags it sets. -/
abbrev FR := Nat × BitVec 6

/-- The random value of R70. -/
def srRandom (seed : BitVec 32) (e : Nat) (strip : BitVec 32) : Nat :=
  let h : BitVec 32 := seed ^^^ (BitVec.ofNat 32 e * 0x9E3779B9#32) ^^^ (strip * 0x85EBCA6B#32)
  let h := h ^^^ (h >>> 16)
  let h := h * 0x7FEB352D#32
  let h := h ^^^ (h >>> 15)
  let h := h * 0x846CA68B#32
  (h ^^^ (h >>> 16)).toNat

/-- A rounding mode with the random value that SR uses (R67, R69). -/
structure Rnd where
  mode : RMode
  h : Nat
  deriving DecidableEq, Repr

def Rnd.rne : Rnd := ⟨.rne, 0⟩

/-- Whether the mode chooses t′ (R67, R69): `t` is even or odd, the remainder is `r` of `sh` bits below it, `sticky` adds a
part below that. Called only when the value is not exact. -/
def chooseUp (m : Rnd) (neg odd : Bool) (r sh : Nat) (sticky : Bool) : Bool :=
  let half := 2 ^ (sh - 1)
  match m.mode with
  | .rne => decide (half < r) || (decide (r = half) && (sticky || odd))
  | .rtz => false
  | .rdn => neg
  | .rup => !neg
  | .rmm => decide (half ≤ r)
  | .sr => decide (m.h < r * 2 ^ 32 / 2 ^ sh)

/-- The magnitude m·2^e (and a part below it when `sticky`) as a multiple of 2^u, and whether that is inexact (R67). -/
def roundAt (md : Rnd) (neg : Bool) (m : Nat) (e : Int) (sticky : Bool) (u : Int) : Nat × Bool :=
  if u ≤ e then (m * 2 ^ (e - u).toNat, sticky)
  else
    let sh := (u - e).toNat
    let t := m / 2 ^ sh
    let r := m % 2 ^ sh
    if r = 0 ∧ sticky = false then (t, false)
    else (if chooseUp md neg (t % 2 = 1) r sh sticky then t + 1 else t, true)

/-- An exact integer brought to `w` bits (R66, R163): wrapped, or clamped with SX. -/
def narrowInt (w : Nat) (uns sat : Bool) (x : Int) : FR :=
  let lo : Int := if uns then 0 else -((2 ^ (w - 1) : Nat) : Int)
  let hi : Int := if uns then ((2 ^ w : Nat) : Int) - 1 else ((2 ^ (w - 1) : Nat) : Int) - 1
  if sat then
    if x < lo then (pat w lo, fSX) else if hi < x then (pat w hi, fSX) else (pat w x, 0)
  else (pat w x, 0)

end Sys2Proof.Machine
end

