-- ==== Sys2Proof/Machine/Float.lean ====
section
/-!
DEFINITION. Floating-point formats and arithmetic (R61 to R69, R83): every operation decodes its operands to exact values,
computes exactly, and rounds once.
-/
namespace Sys2Proof.Machine

/-- How a format codes its specials (R61): as IEEE formats, as E4M3, or all finite. -/
inductive Specials where
  | ieee | e4m3 | finite
  deriving DecidableEq, Repr

/-- A floating-point format (R61). -/
structure Fmt where
  we : Nat
  wf : Nat
  bias : Nat
  sp : Specials
  deriving DecidableEq, Repr

def fmtF64 : Fmt := ⟨11, 52, 1023, .ieee⟩
def fmtF32 : Fmt := ⟨8, 23, 127, .ieee⟩
def fmtF16 : Fmt := ⟨5, 10, 15, .ieee⟩
def fmtBF16 : Fmt := ⟨8, 7, 127, .ieee⟩
def fmtE5M2 : Fmt := ⟨5, 2, 15, .ieee⟩
def fmtE4M3 : Fmt := ⟨4, 3, 7, .e4m3⟩
def fmtE3M2 : Fmt := ⟨3, 2, 3, .finite⟩
def fmtE2M3 : Fmt := ⟨2, 3, 1, .finite⟩
def fmtE2M1 : Fmt := ⟨2, 1, 1, .finite⟩

def Fmt.width (f : Fmt) : Nat := 1 + f.we + f.wf
def Fmt.signBit (f : Fmt) : Nat := 2 ^ (f.we + f.wf)

/-- The magnitude field of the largest finite number (R61). -/
def Fmt.maxMag (f : Fmt) : Nat :=
  match f.sp with
  | .ieee => (2 ^ f.we - 1) * 2 ^ f.wf - 1
  | .e4m3 => 0x7E
  | .finite => 2 ^ (f.we + f.wf) - 1

def Fmt.infMag (f : Fmt) : Nat := (2 ^ f.we - 1) * 2 ^ f.wf

/-- The canonical NaN (R61); 0 in a format without NaN (R68). -/
def Fmt.nan (f : Fmt) : Nat :=
  match f.sp with
  | .ieee => f.infMag + 2 ^ (f.wf - 1)
  | .e4m3 => 0x7F
  | .finite => 0

/-- An exact value: a NaN, an infinity, or (−1)^neg · m · 2^e, plus a part below 2^e when `sticky` (only from division and
square root). -/
inductive FV where
  | nan (signalling : Bool)
  | inf (neg : Bool)
  | fin (neg : Bool) (m : Nat) (e : Int) (sticky : Bool)
  deriving DecidableEq, Repr

/-- The value of an encoding (R61). -/
def Fmt.decode (f : Fmt) (x : Nat) : FV :=
  let neg := x.testBit (f.we + f.wf)
  let e := imgGet x f.wf f.we
  let m := x % 2 ^ f.wf
  let finite : FV := if e = 0 then .fin neg m (1 - (f.bias : Int) - f.wf) false
    else .fin neg (2 ^ f.wf + m) ((e : Int) - f.bias - f.wf) false
  match f.sp with
  | .finite => finite
  | .e4m3 => if x % 2 ^ 7 = 0x7F then .nan false else finite
  | .ieee =>
    if e = 2 ^ f.we - 1 then (if m = 0 then .inf neg else .nan (f.wf > 2 && !m.testBit (f.wf - 1)))
    else finite

/-- An encoding from sign and magnitude field. -/
def Fmt.pack (f : Fmt) (neg : Bool) (mag : Nat) : Nat := (if neg then f.signBit else 0) + mag

/-- What an overflowing result becomes (R68). -/
def Fmt.overflow (f : Fmt) (md : Rnd) (neg sat : Bool) : Nat :=
  let toInf := !sat && (match md.mode with
    | .rne | .rmm | .sr => true
    | .rtz => false
    | .rdn => neg
    | .rup => !neg)
  match f.sp with
  | .ieee => f.pack neg (if toInf then f.infMag else f.maxMag)
  | .e4m3 => if toInf then 0x7F else f.pack neg f.maxMag
  | .finite => f.pack neg f.maxMag

/-- round(x, f, mode) with its flags (R67, R68, R83). The zero of an exact zero keeps the sign it carries. -/
def Fmt.round (f : Fmt) (md : Rnd) (sat : Bool) (v : FV) : FR :=
  match v with
  | .nan s => (f.nan, if f.sp = .finite then fNV else flagIf s fNV)
  | .inf neg =>
    match f.sp with
    | .ieee => (f.pack neg f.infMag, 0)
    | .e4m3 => (if sat then f.pack neg f.maxMag else f.nan, fNV)
    | .finite => (f.pack neg f.maxMag, fNV)
  | .fin neg m e sticky =>
    if m = 0 ∧ sticky = false then (f.pack neg 0, 0)
    else
      let top : Int := (log2 m : Int) + e
      let emin : Int := 1 - (f.bias : Int)
      let u : Int := max top emin - f.wf
      let (t, inexact) := roundAt md neg m e sticky u
      let (t, u) := if t = 2 ^ (f.wf + 1) then (2 ^ f.wf, u + 1) else (t, u)
      let mag := if t < 2 ^ f.wf then t else ((u + f.wf + f.bias).toNat) * 2 ^ f.wf + (t - 2 ^ f.wf)
      if f.maxMag < mag then (f.overflow md neg sat, fOF ||| fNX)
      else (f.pack neg mag, flagIf inexact fNX ||| flagIf (inexact && decide (t < 2 ^ f.wf ∧ t ≠ 0)) fUF)

/-- The signed mantissa of a finite value at a common exponent. -/
def signedAt (neg : Bool) (m : Nat) (e u : Int) : Int :=
  let x : Int := (m * 2 ^ (e - u).toNat : Nat)
  if neg then -x else x

/-- The sign of an exact zero sum (R67). -/
def zeroSign (md : Rnd) (na nb : Bool) : Bool := if na = nb then na else decide (md.mode = .rdn)

/-- An exact integer times 2^u as a value; `z` is the sign of zero. -/
def fvOfInt (x : Int) (u : Int) (z : Bool) : FV :=
  if x = 0 then .fin z 0 u false else .fin (decide (x < 0)) x.natAbs u false

def FV.isSNaN : FV → Bool
  | .nan s => s
  | _ => false

def FV.isNaN : FV → Bool
  | .nan _ => true
  | _ => false

def FV.quiet : FV → FV
  | .nan _ => .nan false
  | v => v

/-- A NaN operand that signals sets NV (R62). -/
def snan2 (a b : FV) : BitVec 6 := flagIf (a.isSNaN || b.isSNaN) fNV

/-- a + b exactly (R83). -/
def FV.add (md : Rnd) (a b : FV) : FV × BitVec 6 :=
  match a, b with
  | .nan _, _ => (.nan false, snan2 a b)
  | _, .nan _ => (.nan false, snan2 a b)
  | .inf na, .inf nb => if na = nb then (.inf na, 0) else (.nan false, fNV)
  | .inf na, _ => (.inf na, 0)
  | _, .inf nb => (.inf nb, 0)
  | .fin na ma ea _, .fin nb mb eb _ =>
    if ma = 0 ∧ mb = 0 then (.fin (zeroSign md na nb) 0 (min ea eb) false, 0)
    else
      let u := min ea eb
      (fvOfInt (signedAt na ma ea u + signedAt nb mb eb u) u (decide (md.mode = .rdn)), 0)

def FV.neg : FV → FV
  | .nan s => .nan s
  | .inf n => .inf !n
  | .fin n m e k => .fin (!n) m e k

/-- a × b exactly (R83). -/
def FV.mul (a b : FV) : FV × BitVec 6 :=
  match a, b with
  | .nan _, _ => (.nan false, snan2 a b)
  | _, .nan _ => (.nan false, snan2 a b)
  | .inf na, .inf nb => (.inf (na != nb), 0)
  | .inf na, .fin nb m _ _ => if m = 0 then (.nan false, fNV) else (.inf (na != nb), 0)
  | .fin na m _ _, .inf nb => if m = 0 then (.nan false, fNV) else (.inf (na != nb), 0)
  | .fin na ma ea _, .fin nb mb eb _ => (.fin (na != nb) (ma * mb) (ea + eb) false, 0)

/-- a × b + c exactly (R83, R165). -/
def FV.fma (md : Rnd) (a b c : FV) : FV × BitVec 6 :=
  let (p, f) := a.mul b
  let (r, g) := p.add md c
  (r, f ||| g)

/-- a / b to 64 bits beyond any format, with what lies below marked (R83). -/
def FV.div (a b : FV) : FV × BitVec 6 :=
  match a, b with
  | .nan _, _ => (.nan false, snan2 a b)
  | _, .nan _ => (.nan false, snan2 a b)
  | .inf _, .inf _ => (.nan false, fNV)
  | .inf na, .fin nb _ _ _ => (.inf (na != nb), 0)
  | .fin na _ _ _, .inf nb => (.fin (na != nb) 0 0 false, 0)
  | .fin na ma ea _, .fin nb mb eb _ =>
    if mb = 0 then (if ma = 0 then (.nan false, fNV) else (.inf (na != nb), fDZ))
    else
      let k := 128 + log2 mb
      (.fin (na != nb) (ma * 2 ^ k / mb) (ea - eb - k) (decide (ma * 2 ^ k % mb ≠ 0)), 0)

/-- Integer square root of `n` by binary digits. -/
def isqrtGo : Nat → Nat → Nat → Nat
  | 0, _, r => r
  | b + 1, n, r => let c := r + 2 ^ b; isqrtGo b n (if c * c ≤ n then c else r)

def isqrt (n : Nat) : Nat := isqrtGo (log2 n / 2 + 1) n 0

/-- √a (R83, R148): √−0 is −0. -/
def FV.sqrt (a : FV) : FV × BitVec 6 :=
  match a with
  | .nan s => (.nan false, flagIf s fNV)
  | .inf neg => if neg then (.nan false, fNV) else (.inf false, 0)
  | .fin neg m e _ =>
    if m = 0 then (.fin neg 0 e false, 0)
    else if neg then (.nan false, fNV)
    else
      let m' := if e % 2 = 0 then m else 2 * m
      let e' := if e % 2 = 0 then e else e - 1
      let x := m' * 2 ^ 256
      let r := isqrt x
      (.fin false r ((e' - 256) / 2) (decide (r * r ≠ x)), 0)

/-- The order of two values, none when unordered (R131, R150). -/
def FV.cmp (a b : FV) : Option Ordering :=
  match a, b with
  | .nan _, _ => none
  | _, .nan _ => none
  | .inf na, .inf nb => some (if na = nb then .eq else if na then .lt else .gt)
  | .inf na, _ => some (if na then .lt else .gt)
  | _, .inf nb => some (if nb then .gt else .lt)
  | .fin na ma ea _, .fin nb mb eb _ =>
    let u := min ea eb
    some (compare (signedAt na ma ea u) (signedAt nb mb eb u))

/-- A condition on two values, with NV (R131, R150). -/
def fpCond (cc : Cond) (a b : FV) : Bool × BitVec 6 :=
  let o := a.cmp b
  let r := match cc, o with
    | _, none => false
    | .eq, some o => decide (o = .eq)
    | .ne, some o => decide (o ≠ .eq)
    | .lt, some o => decide (o = .lt)
    | .ge, some o => decide (o ≠ .lt)
    | .gt, some o => decide (o = .gt)
    | .le, some o => decide (o ≠ .gt)
    | _, some _ => false
  let quietOnly := cc = .eq ∨ cc = .ne
  (r, if quietOnly then snan2 a b else flagIf (a.isNaN || b.isNaN) fNV)

/-- Lesser or greater operand, −0 below +0, as an encoding (R149). -/
def Fmt.minMax (f : Fmt) (greater : Bool) (x y : Nat) : FR :=
  let a := f.decode x
  let b := f.decode y
  let fl := snan2 a b
  if a.isNaN ∧ b.isNaN then (f.nan, fl)
  else if a.isNaN then (y, fl)
  else if b.isNaN then (x, fl)
  else
    match a.cmp b with
    | some .lt => (if greater then y else x, fl)
    | some .gt => (if greater then x else y, fl)
    | _ =>
      let negx := decide (f.signBit ≤ x % (2 * f.signBit))
      (if greater then (if negx then y else x) else (if negx then x else y), fl)

/-- FP to integer (R66): rounds, clamps, NaN to 0. -/
def toInteger (md : Rnd) (w : Nat) (uns : Bool) (v : FV) : FR :=
  let lo : Int := if uns then 0 else -((2 ^ (w - 1) : Nat) : Int)
  let hi : Int := if uns then ((2 ^ w : Nat) : Int) - 1 else ((2 ^ (w - 1) : Nat) : Int) - 1
  match v with
  | .nan _ => (0, fNV)
  | .inf neg => (pat w (if neg then lo else hi), fNV)
  | .fin neg m e sticky =>
    let (t, inexact) := roundAt md neg m e sticky 0
    let x : Int := if neg then -(t : Int) else t
    if x < lo then (pat w lo, fNV) else if hi < x then (pat w hi, fNV) else (pat w x, flagIf inexact fNX)

/-- Integer to FP (R66). -/
def fromInteger (f : Fmt) (md : Rnd) (x : Int) : FR := f.round md false (fvOfInt x 0 false)

/-- One rounded operation in a format. -/
def Fmt.op (f : Fmt) (md : Rnd) (r : FV × BitVec 6) : FR :=
  let (p, g) := f.round md false r.1
  (p, r.2 ||| g)

def Fmt.fadd (f : Fmt) (md : Rnd) (x y : Nat) : FR := f.op md ((f.decode x).add md (f.decode y))
def Fmt.fsub (f : Fmt) (md : Rnd) (x y : Nat) : FR := f.op md ((f.decode x).add md (f.decode y).neg)
def Fmt.fmul (f : Fmt) (md : Rnd) (x y : Nat) : FR := f.op md ((f.decode x).mul (f.decode y))
def Fmt.fdiv (f : Fmt) (md : Rnd) (x y : Nat) : FR := f.op md ((f.decode x).div (f.decode y))
def Fmt.fsqrt (f : Fmt) (md : Rnd) (x : Nat) : FR := f.op md (f.decode x).sqrt

/-- The four fused forms (R165): `np` negates the product, `na` the addend. -/
def Fmt.fused (f : Fmt) (md : Rnd) (np na : Bool) (x y z : Nat) : FR :=
  let a := f.decode x
  let c := f.decode z
  f.op md (FV.fma md (if np then a.neg else a) (f.decode y) (if na then c.neg else c))

/-- A value converted from one format to another (R68, R151). -/
def Fmt.convert (src dst : Fmt) (md : Rnd) (sat : Bool) (x : Nat) : FR := dst.round md sat (src.decode x)

/-- The class bits of FCLASS (R152). -/
def Fmt.classify (f : Fmt) (x : Nat) : Nat :=
  match f.decode x with
  | .inf neg => if neg then 1 else 128
  | .nan s => if s then 256 else 512
  | .fin neg m _ _ =>
    if m = 0 then (if neg then 8 else 16)
    else if m < 2 ^ f.wf then (if neg then 4 else 32)
    else (if neg then 2 else 64)

/-- floor(log2 |x|) of a finite nonzero value (R208, R289). -/
def FV.ilog (v : FV) : Int :=
  match v with
  | .fin _ m e _ => (log2 m : Int) + e
  | _ => 0

/-- The value times 2^k (R65). -/
def FV.scale (v : FV) (k : Int) : FV :=
  match v with
  | .fin n m e s => .fin n m (e + k) s
  | v => v

/-- A scale entry (R64): none is a NaN scale. `exp8` says SCFMT 01. -/
def scaleExp (exp8 : Bool) (s : Nat) : Option Int :=
  if exp8 then some (sgn 8 s) else if s = 255 then none else some ((s : Int) - 127)

/-- decode(element) × value(scale) (R65). -/
def FV.scaled (v : FV) (sc : Option Int) : FV :=
  match sc with
  | some k => v.scale k
  | none => .nan v.isSNaN

/-- The format of a scalar FP word (R130). -/
def fpFmt : FP → Fmt
  | .f32 => fmtF32 | .f64 => fmtF64 | .f16 => fmtF16 | .bf16 => fmtBF16

/-- The float kind that FK names at a width (R50). -/
def kindFmt (sew fk : Nat) : Fmt :=
  if sew = 64 then fmtF64 else if sew = 32 then fmtF32
  else if sew = 16 then (if fk = 0 then fmtF16 else fmtBF16)
  else (if fk = 0 then fmtE4M3 else fmtE5M2)

end Sys2Proof.Machine
end

