-- ==== Sys2Proof/WellFormed.lean ====
section
/-!
DEFINITION. Which terms of the instruction type stand for instructions that exist: an encoded instruction whose operands
its encoding admits (R129 to R136, R161, R162, R180, R198), or an event that names units of the module (R10, R11, R17).
-/
namespace Sys2Proof

/-- Conditions that an FP compare may use (R131). -/
def Cond.fpLegal : Cond → Bool
  | .eq | .ne | .lt | .ge | .gt | .le => true
  | _ => false

/-- OSEL 100 is legal only on the widening forms (R128, R161). -/
def Op2.narrow : Op2 → Bool
  | .wide _ => false
  | _ => true

/-- U only together with SAT (R162, "with SAT"). -/
def satU (o : Op2) (sat u : Bool) : Bool := o.narrow && (sat || !u)

/-- A memory operand without TAG (R129, R180). -/
def MemForm.plain (m : MemForm) : Bool := !m.tag

/-- TAG together with OFF is reserved (R129). -/
def MemForm.tagged (m : MemForm) : Bool := !(m.tag && m.off)

/-- 160 cores of 4 harts (R11, R12). -/
def hartExists (n : Nat) : Bool := decide (n < 640)
def coreExists (n : Nat) : Bool := decide (n < 160)
/-- 16 Swieb Link ports (R10, R16). -/
def portExists (n : Nat) : Bool := decide (n < 16)
/-- 32 partitions (R259, R274). -/
def partExists (n : Nat) : Bool := decide (n < 32)

/-- Well-formedness of the scalar words. -/
def wfScalar : Instr → Bool
  | .cmp _ cd _ _ _ => decide (cd.extractLsb' 0 1 = 0#1)
  | .bc _ sd _ => decide (sd ≠ 0#5)
  | .fcmp _ cd _ _ cc _ => decide (cd.extractLsb' 0 1 = 0#1) && cc.fpLegal
  | .strmcfg _ _ _ _ _ _ zc gap => zc || decide (gap = 0#5)
  | .mshape _ _ sa r => !r || decide (sa = 0#5)
  | _ => true

/-- Well-formedness of the VA, VM, BF and MD words. -/
def wfVector : Instr → Bool
  | .vadd _ _ _ o s u | .vsub _ _ _ o s u | .vrsub _ _ _ o s u | .vmul _ _ _ o s u | .vmacc _ _ _ o s u => satU o s u
  | .vmulh _ _ _ o s _ | .vdiv _ _ _ o s _ | .vrem _ _ _ o s _ | .vmin _ _ _ o s _ | .vmax _ _ _ o s _
  | .vmulw _ _ _ o s _ | .vnclip _ _ _ o s _ | .vavg _ _ _ o s _ => o.narrow && !s
  | .vand _ _ _ o s u | .vor _ _ _ o s u | .vxor _ _ _ o s u | .vsll _ _ _ o s u | .vsrl _ _ _ o s u | .vsra _ _ _ o s u
  | .vnsrl _ _ _ o s u => o.narrow && !s && !u
  | .vfadd _ _ _ o _ | .vfsub _ _ _ o _ | .vfmul _ _ _ o _ | .vfdiv _ _ _ o _ | .vfma _ _ _ o _ | .vfms _ _ _ o _
  | .vfnma _ _ _ o _ | .vfnms _ _ _ o _ | .vfwmul _ _ _ o _ => o.narrow
  | .vfmin _ _ _ o | .vfmax _ _ _ o | .vfclamp _ _ _ o | .vfsgnj _ _ _ o | .vmerge _ _ _ o => o.narrow
  | .vcmp _ _ _ o _ => o.narrow
  | .vfcmp _ _ _ o cc => o.narrow && cc.fpLegal
  | .vmv _ _ o => o.narrow
  | .pkill pd plast => decide (plast = 0#7) || decide (pd.toNat ≤ plast.toNat)
  | .vskip _ _ n => decide (n ≠ 0#6)
  | .vld _ _ m | .vlds _ _ m => m.tagged
  | .vldx _ _ _ m => m.tagged
  | .vldff _ _ m | .vst _ _ m | .vsts _ _ m => m.plain
  | .vstx _ _ _ m | .vamo _ _ _ _ m => m.plain
  | .vldk _ _ _ m | .vstk _ _ _ m => m.plain && !m.base
  | .pld _ _ m | .pst _ _ m => m.plain
  | .kld _ _ m | .kst _ _ m => m.plain
  | .bfseq _ _ m | .bftab _ _ m => m.plain
  | .vpref _ _ m => m.plain
  | .bfpass _ _ _ _ _ _ sw | .bfpassKp _ _ _ _ _ _ sw => decide (sw ≠ 3#2)
  | _ => true

/-- Well-formedness of the event rows: the units they name exist. -/
def wfEvent : Instr → Bool
  | .exitComplete h | .wfeTimeout h | .scalarCommit h | .convoyHandoff h | .convoyStart h | .interrupt h _
  | .streamFetch h _ | .copy h | .fill h | .note h | .drain h | .engineReservedOp h _ | .engineResultPost h _
  | .allreduce h | .bcast h | .linkOpen h | .linkClose h | .rekey h | .send h | .recv h | .halt _ h | .haltGang _ h
  | .resume _ h | .stepUnit _ h | .stepGroup _ h | .dbgRead _ h _ | .dbgWrite _ h _ _ | .setbp _ h _ _ _
  | .traceSample h | .dlyCtlClr h => hartExists h
  | .sequencerDecision c | .matrixCommandStart c | .matrixCommandComplete c | .matrixAsyncFault c | .tableWalk c _ _
  | .spareCoreSubstitution c => coreExists c
  | .dataFrame p _ | .acknowledgement p _ | .handshakeMessage1 p _ | .handshakeMessage2 p _ | .handshakeMessage3 p _
  | .closeFrame p _ | .laneFailure p _ | .laneErrorRateWindow p _ _ | .portRetrainComplete p | .reservedKindFrame p _ => portExists p
  | .rasInjWrite p _ | .rasCtlPop p | .evtCtlPop p | .shedStepRise p | .shedStepFall p => partExists p
  | .powerMeasurement p _ => p == 32 || partExists p
  | _ => true

/-- An instruction term that stands for something. -/
def Instr.wf (i : Instr) : Bool := wfScalar i && wfVector i && wfEvent i

end Sys2Proof
end

