-- ==== Sys2Proof/Decode.lean ====
section
/-!
DEFINITION. The decoder and the encoder of instruction words (08_encoding_and_opcode_map.md, R120 to R136), and how a word
of the opcode table is laid out for them. Decoding is total: what no instruction uses is rejected by name.
-/
namespace Sys2Proof

/-- Why a word is an illegal encoding (R136). -/
inductive Reject where
  /-- class 10 or 11 at an issue-unit address -/
  | reservedClass
  /-- an opcode that R132 to R135 do not assign, 0x00 included -/
  | reservedOpcode
  /-- a selector, modifier, scope, size, rounding, condition or register number marked reserved -/
  | reservedValue
  /-- a nonzero bit in a field the opcode does not use -/
  | nonzeroField
  /-- a header that breaks R121 -/
  | badHeader
  deriving DecidableEq, Repr

/-- The unit in whose opcode space a word is read (R120). -/
inductive WUnit where
  | sc | va | vm | bf | md
  deriving DecidableEq, Repr

/-- The fields of a scalar word; `sa ++ sb ++ fn` is IMM29 and `sb ++ fn` is IMM24 (R126). -/
structure ScF where
  opc : BitVec 8
  g : SG
  sd : SReg
  sa : SReg
  sb : SReg
  fn : BitVec 19
  deriving DecidableEq, Repr

/-- The fields of a V-layout word (R122). -/
structure VF where
  opc : BitVec 8
  g : VG
  vd : BitVec 6
  vs1 : BitVec 6
  vs2 : BitVec 6
  osel : BitVec 3
  md : BitVec 6
  deriving DecidableEq, Repr

/-- The fields of a P-layout word (R123). -/
structure PF where
  opc : BitVec 8
  g : VG
  pd : BitVec 7
  ps1 : BitVec 7
  ps2 : BitVec 7
  md : BitVec 6
  deriving DecidableEq, Repr

/-- The fields of a BF-layout word (R124). -/
structure BF where
  opc : BitVec 8
  g : VG
  vd : BitVec 6
  vs : BitVec 6
  oreg : BitVec 3
  qreg : BitVec 3
  vc : BitVec 6
  sw : BitVec 2
  rsv : BitVec 1
  deriving DecidableEq, Repr

def packSc (f : ScF) : Word :=
  (0#2 ++ f.opc ++ f.g.tt ++ f.g.ca ++ f.g.cb ++ f.g.cc ++ f.sd ++ f.sa ++ f.sb ++ f.fn : BitVec 64)

def splitSc (w : Word) : ScF :=
  ⟨w.extractLsb' 54 8, ⟨w.extractLsb' 46 8, w.extractLsb' 42 4, w.extractLsb' 38 4, w.extractLsb' 34 4⟩,
   w.extractLsb' 29 5, w.extractLsb' 24 5, w.extractLsb' 19 5, w.extractLsb' 0 19⟩

/-- The guard of a vector word (R122). -/
def splitG (w : Word) : VG := ⟨w.extractLsb' 48 8, w.extractLsb' 41 7, w.extractLsb' 34 7, w.extractLsb' 27 7⟩

def packV (f : VF) : Word :=
  (f.opc ++ f.g.tt ++ f.g.pa ++ f.g.pb ++ f.g.pc ++ f.vd ++ f.vs1 ++ f.vs2 ++ f.osel ++ f.md : BitVec 64)

def splitV (w : Word) : VF :=
  ⟨w.extractLsb' 56 8, splitG w, w.extractLsb' 21 6, w.extractLsb' 15 6, w.extractLsb' 9 6, w.extractLsb' 6 3,
   w.extractLsb' 0 6⟩

def packP (f : PF) : Word :=
  (f.opc ++ f.g.tt ++ f.g.pa ++ f.g.pb ++ f.g.pc ++ f.pd ++ f.ps1 ++ f.ps2 ++ f.md : BitVec 64)

def splitP (w : Word) : PF :=
  ⟨w.extractLsb' 56 8, splitG w, w.extractLsb' 20 7, w.extractLsb' 13 7, w.extractLsb' 6 7, w.extractLsb' 0 6⟩

def packB (f : BF) : Word :=
  (f.opc ++ f.g.tt ++ f.g.pa ++ f.g.pb ++ f.g.pc ++ f.vd ++ f.vs ++ f.oreg ++ f.qreg ++ f.vc ++ f.sw ++ f.rsv : BitVec 64)

def splitB (w : Word) : BF :=
  ⟨w.extractLsb' 56 8, splitG w, w.extractLsb' 21 6, w.extractLsb' 15 6, w.extractLsb' 12 3, w.extractLsb' 9 3,
   w.extractLsb' 3 6, w.extractLsb' 1 2, w.extractLsb' 0 1⟩

/-- The instruction, when the fields it does not use are zero. -/
def need (c : Bool) (i : Instr) : Except Reject Instr := if c then .ok i else .error .nonzeroField

/-- The instruction with the operand that a selector names, when the selector is not reserved. -/
def oper {α : Type} (o : Option α) (k : α → Except Reject Instr) : Except Reject Instr :=
  match o with
  | some a => k a
  | none => .error .reservedValue

/-- A reserved combination (R128 to R131), or what follows. -/
def legal (c : Bool) (k : Except Reject Instr) : Except Reject Instr := if c then k else .error .reservedValue

/-- Condition codes (R131). -/
def condCode : Cond → BitVec 4
  | .eq => 0#4
  | .ne => 1#4
  | .lt => 2#4
  | .ge => 3#4
  | .ltu => 4#4
  | .geu => 5#4
  | .gt => 6#4
  | .le => 7#4
  | .gtu => 8#4
  | .leu => 9#4

def condOf (n : BitVec 4) : Option Cond :=
  match n.toNat with
  | 0 => some .eq
  | 1 => some .ne
  | 2 => some .lt
  | 3 => some .ge
  | 4 => some .ltu
  | 5 => some .geu
  | 6 => some .gt
  | 7 => some .le
  | 8 => some .gtu
  | 9 => some .leu
  | _ => none

/-- Rounding codes (R67, R129). -/
def rmodeCode : RMode → BitVec 3
  | .rne => 0#3
  | .rtz => 1#3
  | .rdn => 2#3
  | .rup => 3#3
  | .rmm => 4#3
  | .sr => 5#3

def rmodeOf (n : BitVec 3) : Option RMode :=
  match n.toNat with
  | 0 => some .rne
  | 1 => some .rtz
  | 2 => some .rdn
  | 3 => some .rup
  | 4 => some .rmm
  | 5 => some .sr
  | _ => none

/-- Scope codes (R130). -/
def scopeCode : Scope → BitVec 3
  | .core => 0#3
  | .cl => 1#3
  | .die => 2#3
  | .mod => 3#3
  | .sys => 4#3

def scopeOf (n : BitVec 3) : Option Scope :=
  match n.toNat with
  | 0 => some .core
  | 1 => some .cl
  | 2 => some .die
  | 3 => some .mod
  | 4 => some .sys
  | _ => none

/-- Atomic operation codes (R186, R241). -/
def amoCode : AmoOp → BitVec 4
  | .swap => 0#4
  | .add => 1#4
  | .and => 2#4
  | .or => 3#4
  | .xor => 4#4
  | .min => 5#4
  | .max => 6#4
  | .minu => 7#4
  | .maxu => 8#4
  | .fadd => 9#4

def amoOf (n : BitVec 4) : Option AmoOp :=
  match n.toNat with
  | 0 => some .swap
  | 1 => some .add
  | 2 => some .and
  | 3 => some .or
  | 4 => some .xor
  | 5 => some .min
  | 6 => some .max
  | 7 => some .minu
  | 8 => some .maxu
  | 9 => some .fadd
  | _ => none

/-- Scalar FP format codes (R130). -/
def fpCode : FP → BitVec 2
  | .f32 => 0#2
  | .f64 => 1#2
  | .f16 => 2#2
  | .bf16 => 3#2

def fpOf (n : BitVec 2) : Option FP :=
  match n.toNat with
  | 0 => some .f32
  | 1 => some .f64
  | 2 => some .f16
  | _ => some .bf16

/-- Fence kinds (R106, R130). -/
def kindCode : FenceKind → BitVec 2
  | .sv => 0#2
  | .vs => 1#2
  | .vv => 2#2
  | .all => 3#2

def kindOf (n : BitVec 2) : Option FenceKind :=
  match n.toNat with
  | 0 => some .sv
  | 1 => some .vs
  | 2 => some .vv
  | _ => some .all

/-- Scalar rounding field: a mode, or 110 for FRM (R130, R148). -/
def srmCode : SRm → BitVec 3
  | .mode m => rmodeCode m
  | .dyn => 6#3

def srmOf (n : BitVec 3) : Option SRm := if n = 6#3 then some .dyn else (rmodeOf n).map .mode

/-- OSEL and VS2 of a second operand (R128). -/
def op2Osel : Op2 → BitVec 3
  | .vs2 _ => 0#3 | .xa => 1#3 | .xb => 2#3 | .ximm => 3#3 | .wide _ => 4#3

def op2Vs2 : Op2 → BitVec 6
  | .vs2 r => r | .xa => 0#6 | .xb => 0#6 | .ximm => 0#6 | .wide r => r

/-- The second operand; `w` says whether OSEL 100 is legal, and VS2 must be 0 in a form that does not read it. -/
def op2Of (w : Bool) (osel : BitVec 3) (vs2 : BitVec 6) (k : Op2 → Except Reject Instr) : Except Reject Instr :=
  match osel.toNat with
  | 0 => k (.vs2 vs2)
  | 1 => if vs2 = 0#6 then k .xa else .error .nonzeroField
  | 2 => if vs2 = 0#6 then k .xb else .error .nonzeroField
  | 3 => if vs2 = 0#6 then k .ximm else .error .nonzeroField
  | 4 => if w then k (.wide vs2) else .error .reservedValue
  | _ => .error .reservedValue

/-- OSEL 001, 010 and 011 (R128). -/
def sel3Code : Sel3 → BitVec 3
  | .xa => 1#3 | .xb => 2#3 | .ximm => 3#3

def sel3Of (n : BitVec 3) : Option Sel3 :=
  match n.toNat with
  | 1 => some .xa
  | 2 => some .xb
  | 3 => some .ximm
  | _ => none

/-- OSEL and VS2 of the second operand of KADD to KMIN (R207). -/
def kop2Osel : KOp2 → BitVec 3
  | .ks _ => 0#3 | .sel s => sel3Code s

def kop2Vs2 : KOp2 → BitVec 6
  | .ks k => (0#1 ++ k : BitVec 6) | .sel _ => 0#6

def kop2Of (osel : BitVec 3) (vs2 : BitVec 6) (k : KOp2 → Except Reject Instr) : Except Reject Instr :=
  if osel = 0#3 then (if vs2.extractLsb' 5 1 = 0#1 then k (.ks (vs2.extractLsb' 0 5)) else .error .reservedValue)
  else if vs2 = 0#6 then oper (sel3Of osel) fun s => k (.sel s) else .error .nonzeroField

/-- A 5-bit register number in a 6-bit field (R136, R206). -/
def lowOf (x : BitVec 6) (k : BitVec 5 → Except Reject Instr) : Except Reject Instr :=
  if x.extractLsb' 5 1 = 0#1 then k (x.extractLsb' 0 5) else .error .reservedValue

def low6 (k : BitVec 5) : BitVec 6 := (0#1 ++ k : BitVec 6)

/-- A 3-bit register number in a 6-bit or 5-bit field (R189, R228). -/
def triOf (x : BitVec 6) (k : BitVec 3 → Except Reject Instr) : Except Reject Instr :=
  if x.extractLsb' 3 3 = 0#3 then k (x.extractLsb' 0 3) else .error .reservedValue

def tri6 (k : BitVec 3) : BitVec 6 := (0#3 ++ k : BitVec 6)

def tri5Of (x : BitVec 5) (k : BitVec 3 → Except Reject Instr) : Except Reject Instr :=
  if x.extractLsb' 3 2 = 0#2 then k (x.extractLsb' 0 3) else .error .reservedValue

def tri5 (k : BitVec 3) : BitVec 5 := (0#2 ++ k : BitVec 5)

/-- A pair destination: bit [33] zero, cd even (R126, R144). -/
def pairOf (x : BitVec 5) (k : CReg → Except Reject Instr) : Except Reject Instr :=
  if x.extractLsb' 4 1 = 0#1 ∧ x.extractLsb' 0 1 = 0#1 then k (x.extractLsb' 0 4) else .error .reservedValue

def pair5 (c : CReg) : BitVec 5 := (0#1 ++ c : BitVec 5)

def bit1 (b : Bool) : BitVec 1 := if b then 1#1 else 0#1

/-- MOD of a VA integer word: SAT and U (R129). -/
def satMod (sat u : Bool) : BitVec 6 := (bit1 sat ++ bit1 u ++ 0#4 : BitVec 6)

/-- MOD of a VA FP word: rounding and SAT (R129). -/
def rmMod (rm : BitVec 3) (sat : Bool) : BitVec 6 := (rm ++ bit1 sat ++ 0#2 : BitVec 6)

/-- MOD of a VM word (R129). -/
def memMod (m : MemForm) : BitVec 6 := (bit1 m.tag ++ bit1 m.base ++ bit1 m.off ++ 0#3 : BitVec 6)

def memOf (md : BitVec 6) : MemForm :=
  ⟨md.extractLsb' 5 1 = 1#1, md.extractLsb' 4 1 = 1#1, md.extractLsb' 3 1 = 1#1⟩

/-- FUNC of a scalar FP word (R130). -/
def fpFn (rm : BitVec 3) (f : FP) (sc : BitVec 5) (sub : BitVec 4) : BitVec 19 :=
  (rm ++ fpCode f ++ sc ++ sub ++ 0#5 : BitVec 19)

/-- FUNC of AMO, CAS and FENCE (R130). -/
def amoFn (sc : Scope) (acq rel : Bool) (size : BitVec 2) (op : BitVec 4) (kind : BitVec 2) : BitVec 19 :=
  (scopeCode sc ++ bit1 acq ++ bit1 rel ++ size ++ op ++ 0#6 ++ kind : BitVec 19)

/-- The always-true guard. -/
def vgTrue : VG := ⟨0xFF#8, 0#7, 0#7, 0#7⟩

/-- Scalar opcodes 0x00 to 0x0F (R132). -/
def decodeScInt (f : ScF) : Except Reject Instr :=
  match f.opc.toNat with
  | 0x01 => need (f.fn = 0#19) (.add f.g f.sd f.sa f.sb)
  | 0x02 => need (f.fn = 0#19) (.sub f.g f.sd f.sa f.sb)
  | 0x03 => need (f.fn = 0#19) (.and f.g f.sd f.sa f.sb)
  | 0x04 => need (f.fn = 0#19) (.or f.g f.sd f.sa f.sb)
  | 0x05 => need (f.fn = 0#19) (.xor f.g f.sd f.sa f.sb)
  | 0x06 => need (f.fn = 0#19) (.sll f.g f.sd f.sa f.sb)
  | 0x07 => need (f.fn = 0#19) (.srl f.g f.sd f.sa f.sb)
  | 0x08 => need (f.fn = 0#19) (.sra f.g f.sd f.sa f.sb)
  | 0x09 => need (f.fn = 0#19) (.mul f.g f.sd f.sa f.sb)
  | 0x0A => need (f.fn = 0#19) (.mulh f.g f.sd f.sa f.sb)
  | 0x0B => need (f.fn = 0#19) (.mulhu f.g f.sd f.sa f.sb)
  | 0x0C => need (f.fn = 0#19) (.div f.g f.sd f.sa f.sb)
  | 0x0D => need (f.fn = 0#19) (.divu f.g f.sd f.sa f.sb)
  | 0x0E => need (f.fn = 0#19) (.rem f.g f.sd f.sa f.sb)
  | 0x0F => need (f.fn = 0#19) (.remu f.g f.sd f.sa f.sb)
  | _ => .error .reservedOpcode

/-- Scalar opcodes 0x10 to 0x1F (R132). -/
def decodeScInt1 (f : ScF) : Except Reject Instr :=
  match f.opc.toNat with
  | 0x10 => need (f.fn = 0#19) (.min f.g f.sd f.sa f.sb)
  | 0x11 => need (f.fn = 0#19) (.max f.g f.sd f.sa f.sb)
  | 0x12 => need (f.fn = 0#19) (.minu f.g f.sd f.sa f.sb)
  | 0x13 => need (f.fn = 0#19) (.maxu f.g f.sd f.sa f.sb)
  | _ => .error .reservedOpcode

/-- Scalar opcodes 0x20 to 0x2F (R132). -/
def decodeScImm (f : ScF) : Except Reject Instr :=
  match f.opc.toNat with
  | 0x20 => .ok (.lih f.g f.sd (f.sa ++ f.sb ++ f.fn))
  | 0x21 => .ok (.addImm f.g f.sd f.sa (f.sb ++ f.fn))
  | 0x23 => .ok (.andImm f.g f.sd f.sa (f.sb ++ f.fn))
  | 0x24 => .ok (.orImm f.g f.sd f.sa (f.sb ++ f.fn))
  | 0x25 => .ok (.xorImm f.g f.sd f.sa (f.sb ++ f.fn))
  | 0x26 => need (f.sb = 0#5 ∧ f.fn.extractLsb' 6 13 = 0#13) (.sllImm f.g f.sd f.sa (f.fn.extractLsb' 0 6))
  | 0x27 => need (f.sb = 0#5 ∧ f.fn.extractLsb' 6 13 = 0#13) (.srlImm f.g f.sd f.sa (f.fn.extractLsb' 0 6))
  | 0x28 => need (f.sb = 0#5 ∧ f.fn.extractLsb' 6 13 = 0#13) (.sraImm f.g f.sd f.sa (f.fn.extractLsb' 0 6))
  | _ => .error .reservedOpcode

/-- Scalar opcodes 0x30 to 0x3F (R132). -/
def decodeScMem (f : ScF) : Except Reject Instr :=
  match f.opc.toNat with
  | 0x30 => .ok (.ldB f.g f.sd f.sa (f.sb ++ f.fn))
  | 0x31 => .ok (.ldH f.g f.sd f.sa (f.sb ++ f.fn))
  | 0x32 => .ok (.ldW f.g f.sd f.sa (f.sb ++ f.fn))
  | 0x33 => .ok (.ldD f.g f.sd f.sa (f.sb ++ f.fn))
  | 0x34 => .ok (.ldBu f.g f.sd f.sa (f.sb ++ f.fn))
  | 0x35 => .ok (.ldHu f.g f.sd f.sa (f.sb ++ f.fn))
  | 0x36 => .ok (.ldWu f.g f.sd f.sa (f.sb ++ f.fn))
  | 0x38 => .ok (.stB f.g f.sd f.sa (f.sb ++ f.fn))
  | 0x39 => .ok (.stH f.g f.sd f.sa (f.sb ++ f.fn))
  | 0x3A => .ok (.stW f.g f.sd f.sa (f.sb ++ f.fn))
  | 0x3B => .ok (.stD f.g f.sd f.sa (f.sb ++ f.fn))
  | _ => .error .reservedOpcode

/-- Scalar opcodes 0x40 to 0x4F (R132). A BC with SD = 0 is refused here, so it faults whatever its guard: R145 does not say (DESIGN
CHOICE, log 54). -/
def decodeScBranch (f : ScF) : Except Reject Instr :=
  match f.opc.toNat with
  | 0x40 => pairOf f.sd fun cd => oper (condOf (f.fn.extractLsb' 0 4)) fun cc => need (f.fn.extractLsb' 4 15 = 0#15) (.cmp f.g cd f.sa f.sb cc)
  | 0x48 => need (f.sd = 0#5) (.b f.g (f.sa ++ f.sb ++ f.fn))
  | 0x49 => legal (f.sd ≠ 0#5) (.ok (.bc f.g f.sd (f.sa ++ f.sb ++ f.fn)))
  | 0x4A => .ok (.call f.g f.sd (f.sa ++ f.sb ++ f.fn))
  | 0x4B => need (f.sb = 0#5 ∧ f.fn = 0#19) (.jr f.g f.sd f.sa)
  | 0x4C => need (f.sd = 0#5 ∧ f.sb = 0#5 ∧ f.fn = 0#19) (.ret f.g f.sa)
  | 0x4D => need (f.sd = 0#5) (.bany f.g (f.sa ++ f.sb.extractLsb' 3 2) (f.sb.extractLsb' 0 3 ++ f.fn))
  | 0x4E => need (f.sd = 0#5) (.ball f.g (f.sa ++ f.sb.extractLsb' 3 2) (f.sb.extractLsb' 0 3 ++ f.fn))
  | 0x4F => need (f.sd = 0#5) (.bnone f.g (f.sa ++ f.sb.extractLsb' 3 2) (f.sb.extractLsb' 0 3 ++ f.fn))
  | _ => .error .reservedOpcode

/-- Scalar opcodes 0x50 to 0x5F (R132). -/
def decodeScFp (f : ScF) : Except Reject Instr :=
  match f.opc.toNat with
  | 0x50 => oper (srmOf (f.fn.extractLsb' 16 3)) fun rm => oper (fpOf (f.fn.extractLsb' 14 2)) fun p => need (f.fn.extractLsb' 9 5 = 0#5 ∧ f.fn.extractLsb' 5 4 = 0#4 ∧ f.fn.extractLsb' 0 5 = 0#5) (.fadd f.g f.sd f.sa f.sb rm p)
  | 0x51 => oper (srmOf (f.fn.extractLsb' 16 3)) fun rm => oper (fpOf (f.fn.extractLsb' 14 2)) fun p => need (f.fn.extractLsb' 9 5 = 0#5 ∧ f.fn.extractLsb' 5 4 = 0#4 ∧ f.fn.extractLsb' 0 5 = 0#5) (.fsub f.g f.sd f.sa f.sb rm p)
  | 0x52 => oper (srmOf (f.fn.extractLsb' 16 3)) fun rm => oper (fpOf (f.fn.extractLsb' 14 2)) fun p => need (f.fn.extractLsb' 9 5 = 0#5 ∧ f.fn.extractLsb' 5 4 = 0#4 ∧ f.fn.extractLsb' 0 5 = 0#5) (.fmul f.g f.sd f.sa f.sb rm p)
  | 0x54 => oper (srmOf (f.fn.extractLsb' 16 3)) fun rm => oper (fpOf (f.fn.extractLsb' 14 2)) fun p => need (f.fn.extractLsb' 9 5 = 0#5 ∧ f.fn.extractLsb' 5 4 = 0#4 ∧ f.fn.extractLsb' 0 5 = 0#5) (.fdiv f.g f.sd f.sa f.sb rm p)
  | 0x53 => oper (srmOf (f.fn.extractLsb' 16 3)) fun rm => oper (fpOf (f.fn.extractLsb' 14 2)) fun p => need (f.fn.extractLsb' 5 4 = 0#4 ∧ f.fn.extractLsb' 0 5 = 0#5) (.fma f.g f.sd f.sa f.sb (f.fn.extractLsb' 9 5) rm p)
  | 0x55 => oper (srmOf (f.fn.extractLsb' 16 3)) fun rm => oper (fpOf (f.fn.extractLsb' 14 2)) fun p => need (f.sb = 0#5 ∧ f.fn.extractLsb' 9 5 = 0#5 ∧ f.fn.extractLsb' 5 4 = 0#4 ∧ f.fn.extractLsb' 0 5 = 0#5) (.fsqrt f.g f.sd f.sa rm p)
  | 0x56 => oper (fpOf (f.fn.extractLsb' 14 2)) fun p => legal (f.fn.extractLsb' 16 3 = 0#3) (need (f.fn.extractLsb' 9 5 = 0#5 ∧ f.fn.extractLsb' 5 4 = 0#4 ∧ f.fn.extractLsb' 0 5 = 0#5) (.fmin f.g f.sd f.sa f.sb p))
  | 0x57 => oper (fpOf (f.fn.extractLsb' 14 2)) fun p => legal (f.fn.extractLsb' 16 3 = 0#3) (need (f.fn.extractLsb' 9 5 = 0#5 ∧ f.fn.extractLsb' 5 4 = 0#4 ∧ f.fn.extractLsb' 0 5 = 0#5) (.fmax f.g f.sd f.sa f.sb p))
  | 0x58 => oper (srmOf (f.fn.extractLsb' 16 3)) fun rm => oper (fpOf (f.fn.extractLsb' 14 2)) fun p => need (f.sb = 0#5 ∧ f.fn.extractLsb' 9 5 = 0#5 ∧ f.fn.extractLsb' 0 5 = 0#5) (.fcvt f.g f.sd f.sa rm p (f.fn.extractLsb' 5 4))
  | 0x59 => pairOf f.sd fun cd => oper (condOf (f.fn.extractLsb' 5 4)) fun cc => oper (fpOf (f.fn.extractLsb' 14 2)) fun p => legal (cc.fpLegal ∧ f.fn.extractLsb' 16 3 = 0#3) (need (f.fn.extractLsb' 9 5 = 0#5 ∧ f.fn.extractLsb' 0 5 = 0#5) (.fcmp f.g cd f.sa f.sb cc p))
  | 0x5A => oper (fpOf (f.fn.extractLsb' 14 2)) fun p => legal (f.fn.extractLsb' 16 3 = 0#3 ∧ f.fn.extractLsb' 5 4 = 0#4) (need (f.sb = 0#5 ∧ f.fn.extractLsb' 9 5 = 0#5 ∧ f.fn.extractLsb' 0 5 = 0#5) (.fclass f.g f.sd f.sa p))
  | _ => .error .reservedOpcode

/-- Scalar opcodes 0x60 to 0x6F (R132). -/
def decodeScCsr (f : ScF) : Except Reject Instr :=
  match f.opc.toNat with
  | 0x60 => need (f.sa = 0#5 ∧ f.sb = 0#5 ∧ f.fn.extractLsb' 12 7 = 0#7) (.csrr f.g f.sd (f.fn.extractLsb' 0 12))
  | 0x61 => need (f.sd = 0#5 ∧ f.sb = 0#5 ∧ f.fn.extractLsb' 12 7 = 0#7) (.csrw f.g f.sa (f.fn.extractLsb' 0 12))
  | 0x62 => need (f.sd = 0#5 ∧ f.sb = 0#5 ∧ f.fn.extractLsb' 12 7 = 0#7) (.csrs f.g f.sa (f.fn.extractLsb' 0 12))
  | 0x63 => need (f.sd = 0#5 ∧ f.sb = 0#5 ∧ f.fn.extractLsb' 12 7 = 0#7) (.csrc f.g f.sa (f.fn.extractLsb' 0 12))
  | 0x64 => need (f.sa = 0#5 ∧ f.sb = 0#5 ∧ f.fn = 0#19) (.csrrC f.g f.sd)
  | 0x65 => need (f.sd = 0#5 ∧ f.sb = 0#5 ∧ f.fn = 0#19) (.csrwC f.g f.sa)
  | 0x68 => need (f.fn.extractLsb' 16 3 = 0#3) (.setvl f.g f.sd f.sa f.sb (f.fn.extractLsb' 0 16))
  | 0x69 => need (f.fn.extractLsb' 16 3 = 0#3) (.setvlN f.g f.sd f.sa f.sb (f.fn.extractLsb' 0 16))
  | 0x6A => need (f.sd = 0#5 ∧ f.sa = 0#5 ∧ f.sb = 0#5 ∧ f.fn.extractLsb' 2 17 = 0#17) (.vconf f.g (f.fn.extractLsb' 0 2))
  | _ => .error .reservedOpcode

/-- Scalar opcodes 0x70 to 0x7F (R132). -/
def decodeScSync (f : ScF) : Except Reject Instr :=
  match f.opc.toNat with
  | 0x70 => oper (scopeOf (f.fn.extractLsb' 16 3)) fun sc => oper (amoOf (f.fn.extractLsb' 8 4)) fun op => legal (f.fn.extractLsb' 13 1 = 1#1) (need (f.fn.extractLsb' 0 8 = 0#8) (.amo f.g f.sd f.sa f.sb sc (f.fn.extractLsb' 15 1 = 1#1) (f.fn.extractLsb' 14 1 = 1#1) (f.fn.extractLsb' 12 1 = 1#1) op))
  | 0x71 => oper (scopeOf (f.fn.extractLsb' 16 3)) fun sc => legal (f.fn.extractLsb' 13 1 = 1#1 ∧ f.fn.extractLsb' 8 4 = 0#4) (need (f.fn.extractLsb' 0 8 = 0#8) (.cas f.g f.sd f.sa f.sb sc (f.fn.extractLsb' 15 1 = 1#1) (f.fn.extractLsb' 14 1 = 1#1) (f.fn.extractLsb' 12 1 = 1#1)))
  | 0x72 => oper (scopeOf (f.fn.extractLsb' 16 3)) fun sc => oper (kindOf (f.fn.extractLsb' 0 2)) fun k => need (f.sd = 0#5 ∧ f.sa = 0#5 ∧ f.sb = 0#5 ∧ f.fn.extractLsb' 2 14 = 0#14) (.fence f.g k sc)
  | 0x73 => need (f.sa = 0#5 ∧ f.sb = 0#5 ∧ f.fn = 0#19) (.bararv f.g f.sd)
  | 0x74 => need (f.sa = 0#5 ∧ f.sb = 0#5 ∧ f.fn = 0#19) (.barwait f.g f.sd)
  | 0x75 => need (f.sb = 0#5 ∧ f.fn = 0#19) (.barset f.g f.sd f.sa)
  | 0x76 => need (f.sd = 0#5 ∧ f.sb = 0#5 ∧ f.fn.extractLsb' 2 17 = 0#17) (.epush f.g (f.fn.extractLsb' 0 2) f.sa)
  | 0x77 => need (f.sa = 0#5 ∧ f.sb = 0#5 ∧ f.fn.extractLsb' 2 17 = 0#17) (.epop f.g f.sd (f.fn.extractLsb' 0 2))
  | 0x78 => need (f.sd = 0#5 ∧ f.fn = 0#19) (.tstamp f.g f.sa f.sb)
  | _ => .error .reservedOpcode

/-- Scalar opcodes 0x80 to 0x8F (R132). -/
def decodeScUnit (f : ScF) : Except Reject Instr :=
  match f.opc.toNat with
  | 0x80 => tri5Of f.sd fun m => legal (f.fn.extractLsb' 5 1 = 1#1 ∨ f.fn.extractLsb' 0 5 = 0#5) (need (f.fn.extractLsb' 6 3 = 0#3) (.strmcfg f.g m f.sa f.sb (f.fn.extractLsb' 14 5) (f.fn.extractLsb' 9 5) (f.fn.extractLsb' 5 1 = 1#1) (f.fn.extractLsb' 0 5)))
  | 0x81 => tri5Of f.sd fun m => need (f.sa = 0#5 ∧ f.sb = 0#5 ∧ f.fn = 0#19) (.strmend f.g m)
  | 0x82 => tri5Of f.sd fun m => need (f.sb = 0#5 ∧ f.fn = 0#19) (.strmwait f.g m f.sa)
  | 0x83 => tri5Of f.sa fun m => need (f.sb = 0#5 ∧ f.fn = 0#19) (.strmavail f.g f.sd m)
  | 0x88 => legal (f.fn.extractLsb' 0 1 = 0#1 ∨ f.sa = 0#5) (need (f.sb = 0#5 ∧ f.fn.extractLsb' 1 18 = 0#18) (.mshape f.g f.sd f.sa (f.fn.extractLsb' 0 1 = 1#1)))
  | 0x89 => need (f.sd = 0#5 ∧ f.fn.extractLsb' 0 4 = 0#4) (.mbld f.g f.sa f.sb (f.fn.extractLsb' 14 5) (f.fn.extractLsb' 9 5) (f.fn.extractLsb' 4 5))
  | 0x8A => tri5Of f.sd fun t => need (f.sb = 0#5 ∧ f.fn.extractLsb' 0 13 = 0#13) (.mma f.g t (f.fn.extractLsb' 13 6) f.sa)
  | 0x8B => tri5Of f.sd fun t => need (f.sb = 0#5 ∧ f.fn.extractLsb' 0 13 = 0#13) (.mmas f.g t (f.fn.extractLsb' 13 6) f.sa)
  | 0x8C => tri5Of f.sd fun t => need (f.sa = 0#5 ∧ f.sb = 0#5 ∧ f.fn = 0#19) (.mzero f.g t)
  | 0x8D => tri5Of f.sd fun t => need (f.sb = 0#5 ∧ f.fn = 0#19) (.maccld f.g t f.sa)
  | 0x8E => tri5Of f.sd fun t => need (f.sb = 0#5 ∧ f.fn = 0#19) (.maccst f.g t f.sa)
  | 0x8F => need (f.sd = 0#5 ∧ f.sa = 0#5 ∧ f.sb = 0#5 ∧ f.fn = 0#19) (.mwait f.g)
  | _ => .error .reservedOpcode

/-- CACHE operations by FUNC[3:0] (R253). The fields SA of .tlbiasid and .tlbiall, and SB of .tlbiall, which name no operand there,
may hold anything: R253 asks zeros of SD and of FUNC bits alone (DESIGN CHOICE, log 60). -/
def decodeCache (f : ScF) : Except Reject Instr :=
  match (f.fn.extractLsb' 0 4).toNat with
  | 0 => legal (f.fn.extractLsb' 16 3 = 0#3) (need (f.sd = 0#5 ∧ f.sb = 0#5 ∧ f.fn.extractLsb' 4 12 = 0#12) (.cacheIinv f.g f.sa))
  | 1 => legal (f.fn.extractLsb' 16 3 = 0#3) (need (f.sd = 0#5 ∧ f.sb = 0#5 ∧ f.fn.extractLsb' 4 12 = 0#12) (.cacheIall f.g f.sa))
  | 2 => legal (f.fn.extractLsb' 16 3 = 0#3) (need (f.sd = 0#5 ∧ f.sb = 0#5 ∧ f.fn.extractLsb' 4 12 = 0#12) (.cacheDinv f.g f.sa))
  | 3 => legal (f.fn.extractLsb' 16 3 = 0#3) (need (f.sd = 0#5 ∧ f.sb = 0#5 ∧ f.fn.extractLsb' 4 12 = 0#12) (.cacheClean f.g f.sa))
  | 4 => legal (f.fn.extractLsb' 16 3 = 0#3) (need (f.sd = 0#5 ∧ f.sb = 0#5 ∧ f.fn.extractLsb' 4 12 = 0#12) (.cacheFlush f.g f.sa))
  | 5 => oper (scopeOf (f.fn.extractLsb' 16 3)) fun sc => need (f.sd = 0#5 ∧ f.fn.extractLsb' 4 12 = 0#12) (.cacheTlbiva f.g f.sa f.sb sc)
  | 6 => oper (scopeOf (f.fn.extractLsb' 16 3)) fun sc => need (f.sd = 0#5 ∧ f.fn.extractLsb' 4 12 = 0#12) (.cacheTlbiasid f.g f.sa f.sb sc)
  | 7 => oper (scopeOf (f.fn.extractLsb' 16 3)) fun sc => need (f.sd = 0#5 ∧ f.fn.extractLsb' 4 12 = 0#12) (.cacheTlbiall f.g f.sa f.sb sc)
  | _ => .error .reservedValue

/-- Scalar opcodes 0x90 to 0x9F (R132). -/
def decodeScSys (f : ScF) : Except Reject Instr :=
  match f.opc.toNat with
  | 0x90 => need (f.sb = 0#5 ∧ f.fn = 0#19) (.launch f.g f.sd f.sa)
  | 0x91 => need (f.sd = 0#5 ∧ f.sb = 0#5 ∧ f.fn = 0#19) (.exit f.g f.sa)
  | 0x93 => need (f.sd = 0#5 ∧ f.sa = 0#5 ∧ f.sb = 0#5 ∧ f.fn.extractLsb' 16 3 = 0#3) (.svc f.g (f.fn.extractLsb' 0 16))
  | 0x97 => need (f.sd = 0#5 ∧ f.sa = 0#5 ∧ f.sb = 0#5 ∧ f.fn.extractLsb' 16 3 = 0#3) (.brk f.g (f.fn.extractLsb' 0 16))
  | 0x94 => need (f.sa = 0#5 ∧ f.sb = 0#5 ∧ f.fn.extractLsb' 16 3 = 0#3) (.bcall f.g f.sd (f.fn.extractLsb' 0 16))
  | 0x95 => need (f.sd = 0#5 ∧ f.sa = 0#5 ∧ f.sb = 0#5 ∧ f.fn = 0#19) (.eret f.g)
  | 0x96 => need (f.sd = 0#5 ∧ f.sa = 0#5 ∧ f.sb = 0#5 ∧ f.fn = 0#19) (.wfe f.g)
  | 0x92 => decodeCache f
  | _ => .error .reservedOpcode

/-- A scalar word from its fields (R132). -/
def decodeSc (f : ScF) : Except Reject Instr :=
  match (f.opc.extractLsb' 4 4).toNat with
  | 0 => decodeScInt f
  | 1 => decodeScInt1 f
  | 2 => decodeScImm f
  | 3 => decodeScMem f
  | 4 => decodeScBranch f
  | 5 => decodeScFp f
  | 6 => decodeScCsr f
  | 7 => decodeScSync f
  | 8 => decodeScUnit f
  | 9 => decodeScSys f
  | _ => .error .reservedOpcode

/-- VA opcodes 0x01 to 0x17 (R133, R161, R162). -/
def decodeVaInt (f : VF) : Except Reject Instr :=
  match f.opc.toNat with
  | 0x01 => op2Of false f.osel f.vs2 fun o => legal (f.md.extractLsb' 5 1 = 1#1 ∨ f.md.extractLsb' 4 1 = 0#1) (need (f.md.extractLsb' 0 4 = 0#4) (.vadd f.g f.vd f.vs1 o (f.md.extractLsb' 5 1 = 1#1) (f.md.extractLsb' 4 1 = 1#1)))
  | 0x02 => op2Of false f.osel f.vs2 fun o => legal (f.md.extractLsb' 5 1 = 1#1 ∨ f.md.extractLsb' 4 1 = 0#1) (need (f.md.extractLsb' 0 4 = 0#4) (.vsub f.g f.vd f.vs1 o (f.md.extractLsb' 5 1 = 1#1) (f.md.extractLsb' 4 1 = 1#1)))
  | 0x03 => op2Of false f.osel f.vs2 fun o => legal (f.md.extractLsb' 5 1 = 1#1 ∨ f.md.extractLsb' 4 1 = 0#1) (need (f.md.extractLsb' 0 4 = 0#4) (.vrsub f.g f.vd f.vs1 o (f.md.extractLsb' 5 1 = 1#1) (f.md.extractLsb' 4 1 = 1#1)))
  | 0x04 => op2Of false f.osel f.vs2 fun o => legal (f.md.extractLsb' 5 1 = 1#1 ∨ f.md.extractLsb' 4 1 = 0#1) (need (f.md.extractLsb' 0 4 = 0#4) (.vmul f.g f.vd f.vs1 o (f.md.extractLsb' 5 1 = 1#1) (f.md.extractLsb' 4 1 = 1#1)))
  | 0x05 => op2Of false f.osel f.vs2 fun o => legal (f.md.extractLsb' 5 1 = 0#1) (need (f.md.extractLsb' 0 4 = 0#4) (.vmulh f.g f.vd f.vs1 o (f.md.extractLsb' 5 1 = 1#1) (f.md.extractLsb' 4 1 = 1#1)))
  | 0x06 => op2Of false f.osel f.vs2 fun o => legal (f.md.extractLsb' 5 1 = 0#1) (need (f.md.extractLsb' 0 4 = 0#4) (.vdiv f.g f.vd f.vs1 o (f.md.extractLsb' 5 1 = 1#1) (f.md.extractLsb' 4 1 = 1#1)))
  | 0x07 => op2Of false f.osel f.vs2 fun o => legal (f.md.extractLsb' 5 1 = 0#1) (need (f.md.extractLsb' 0 4 = 0#4) (.vrem f.g f.vd f.vs1 o (f.md.extractLsb' 5 1 = 1#1) (f.md.extractLsb' 4 1 = 1#1)))
  | 0x08 => op2Of false f.osel f.vs2 fun o => legal (f.md.extractLsb' 5 1 = 0#1) (need (f.md.extractLsb' 0 4 = 0#4) (.vmin f.g f.vd f.vs1 o (f.md.extractLsb' 5 1 = 1#1) (f.md.extractLsb' 4 1 = 1#1)))
  | 0x09 => op2Of false f.osel f.vs2 fun o => legal (f.md.extractLsb' 5 1 = 0#1) (need (f.md.extractLsb' 0 4 = 0#4) (.vmax f.g f.vd f.vs1 o (f.md.extractLsb' 5 1 = 1#1) (f.md.extractLsb' 4 1 = 1#1)))
  | 0x0A => op2Of false f.osel f.vs2 fun o => legal (f.md.extractLsb' 4 2 = 0#2) (need (f.md.extractLsb' 0 4 = 0#4) (.vand f.g f.vd f.vs1 o (f.md.extractLsb' 5 1 = 1#1) (f.md.extractLsb' 4 1 = 1#1)))
  | 0x0B => op2Of false f.osel f.vs2 fun o => legal (f.md.extractLsb' 4 2 = 0#2) (need (f.md.extractLsb' 0 4 = 0#4) (.vor f.g f.vd f.vs1 o (f.md.extractLsb' 5 1 = 1#1) (f.md.extractLsb' 4 1 = 1#1)))
  | 0x0C => op2Of false f.osel f.vs2 fun o => legal (f.md.extractLsb' 4 2 = 0#2) (need (f.md.extractLsb' 0 4 = 0#4) (.vxor f.g f.vd f.vs1 o (f.md.extractLsb' 5 1 = 1#1) (f.md.extractLsb' 4 1 = 1#1)))
  | 0x0D => op2Of false f.osel f.vs2 fun o => legal (f.md.extractLsb' 4 2 = 0#2) (need (f.md.extractLsb' 0 4 = 0#4) (.vsll f.g f.vd f.vs1 o (f.md.extractLsb' 5 1 = 1#1) (f.md.extractLsb' 4 1 = 1#1)))
  | 0x0E => op2Of false f.osel f.vs2 fun o => legal (f.md.extractLsb' 4 2 = 0#2) (need (f.md.extractLsb' 0 4 = 0#4) (.vsrl f.g f.vd f.vs1 o (f.md.extractLsb' 5 1 = 1#1) (f.md.extractLsb' 4 1 = 1#1)))
  | 0x0F => op2Of false f.osel f.vs2 fun o => legal (f.md.extractLsb' 4 2 = 0#2) (need (f.md.extractLsb' 0 4 = 0#4) (.vsra f.g f.vd f.vs1 o (f.md.extractLsb' 5 1 = 1#1) (f.md.extractLsb' 4 1 = 1#1)))
  | 0x10 => op2Of true f.osel f.vs2 fun o => legal true (need (f.md.extractLsb' 0 4 = 0#4) (.vaddw f.g f.vd f.vs1 o (f.md.extractLsb' 5 1 = 1#1) (f.md.extractLsb' 4 1 = 1#1)))
  | 0x11 => op2Of true f.osel f.vs2 fun o => legal true (need (f.md.extractLsb' 0 4 = 0#4) (.vsubw f.g f.vd f.vs1 o (f.md.extractLsb' 5 1 = 1#1) (f.md.extractLsb' 4 1 = 1#1)))
  | 0x12 => op2Of false f.osel f.vs2 fun o => legal (f.md.extractLsb' 5 1 = 0#1) (need (f.md.extractLsb' 0 4 = 0#4) (.vmulw f.g f.vd f.vs1 o (f.md.extractLsb' 5 1 = 1#1) (f.md.extractLsb' 4 1 = 1#1)))
  | 0x13 => op2Of false f.osel f.vs2 fun o => legal (f.md.extractLsb' 5 1 = 1#1 ∨ f.md.extractLsb' 4 1 = 0#1) (need (f.md.extractLsb' 0 4 = 0#4) (.vmacc f.g f.vd f.vs1 o (f.md.extractLsb' 5 1 = 1#1) (f.md.extractLsb' 4 1 = 1#1)))
  | 0x14 => op2Of false f.osel f.vs2 fun o => legal (f.md.extractLsb' 4 2 = 0#2) (need (f.md.extractLsb' 0 4 = 0#4) (.vnsrl f.g f.vd f.vs1 o (f.md.extractLsb' 5 1 = 1#1) (f.md.extractLsb' 4 1 = 1#1)))
  | 0x15 => op2Of false f.osel f.vs2 fun o => legal (f.md.extractLsb' 5 1 = 0#1) (need (f.md.extractLsb' 0 4 = 0#4) (.vnclip f.g f.vd f.vs1 o (f.md.extractLsb' 5 1 = 1#1) (f.md.extractLsb' 4 1 = 1#1)))
  | 0x16 => legal (f.osel = 0#3) (need (f.vs2 = 0#6 ∧ f.md.extractLsb' 0 5 = 0#5) (.vabs f.g f.vd f.vs1 (f.md.extractLsb' 5 1 = 1#1)))
  | 0x17 => op2Of false f.osel f.vs2 fun o => legal (f.md.extractLsb' 5 1 = 0#1) (need (f.md.extractLsb' 0 4 = 0#4) (.vavg f.g f.vd f.vs1 o (f.md.extractLsb' 5 1 = 1#1) (f.md.extractLsb' 4 1 = 1#1)))
  | _ => .error .reservedOpcode

/-- VA opcodes 0x20 to 0x36 (R133, R164 to R168). -/
def decodeVaFp (f : VF) : Except Reject Instr :=
  match f.opc.toNat with
  | 0x20 => op2Of false f.osel f.vs2 fun o => oper (rmodeOf (f.md.extractLsb' 3 3)) fun rm => need (f.md.extractLsb' 0 3 = 0#3) (.vfadd f.g f.vd f.vs1 o rm)
  | 0x21 => op2Of false f.osel f.vs2 fun o => oper (rmodeOf (f.md.extractLsb' 3 3)) fun rm => need (f.md.extractLsb' 0 3 = 0#3) (.vfsub f.g f.vd f.vs1 o rm)
  | 0x22 => op2Of false f.osel f.vs2 fun o => oper (rmodeOf (f.md.extractLsb' 3 3)) fun rm => need (f.md.extractLsb' 0 3 = 0#3) (.vfmul f.g f.vd f.vs1 o rm)
  | 0x23 => op2Of false f.osel f.vs2 fun o => oper (rmodeOf (f.md.extractLsb' 3 3)) fun rm => need (f.md.extractLsb' 0 3 = 0#3) (.vfdiv f.g f.vd f.vs1 o rm)
  | 0x24 => legal (f.osel = 0#3) (oper (rmodeOf (f.md.extractLsb' 3 3)) fun rm => need (f.vs2 = 0#6 ∧ f.md.extractLsb' 0 3 = 0#3) (.vfsqrt f.g f.vd f.vs1 rm))
  | 0x25 => op2Of false f.osel f.vs2 fun o => need (f.md = 0#6) (.vfmin f.g f.vd f.vs1 o)
  | 0x26 => op2Of false f.osel f.vs2 fun o => need (f.md = 0#6) (.vfmax f.g f.vd f.vs1 o)
  | 0x27 => op2Of false f.osel f.vs2 fun o => oper (rmodeOf (f.md.extractLsb' 3 3)) fun rm => need (f.md.extractLsb' 0 3 = 0#3) (.vfma f.g f.vd f.vs1 o rm)
  | 0x28 => op2Of false f.osel f.vs2 fun o => oper (rmodeOf (f.md.extractLsb' 3 3)) fun rm => need (f.md.extractLsb' 0 3 = 0#3) (.vfms f.g f.vd f.vs1 o rm)
  | 0x29 => op2Of false f.osel f.vs2 fun o => oper (rmodeOf (f.md.extractLsb' 3 3)) fun rm => need (f.md.extractLsb' 0 3 = 0#3) (.vfnma f.g f.vd f.vs1 o rm)
  | 0x2A => op2Of false f.osel f.vs2 fun o => oper (rmodeOf (f.md.extractLsb' 3 3)) fun rm => need (f.md.extractLsb' 0 3 = 0#3) (.vfnms f.g f.vd f.vs1 o rm)
  | 0x2B => op2Of false f.osel f.vs2 fun o => need (f.md = 0#6) (.vfclamp f.g f.vd f.vs1 o)
  | 0x2C => legal (f.osel = 0#3) (need (f.vs2 = 0#6 ∧ f.md = 0#6) (.vfabs f.g f.vd f.vs1))
  | 0x2D => legal (f.osel = 0#3) (need (f.vs2 = 0#6 ∧ f.md = 0#6) (.vfneg f.g f.vd f.vs1))
  | 0x2E => op2Of false f.osel f.vs2 fun o => need (f.md = 0#6) (.vfsgnj f.g f.vd f.vs1 o)
  | 0x2F => op2Of true f.osel f.vs2 fun o => oper (rmodeOf (f.md.extractLsb' 3 3)) fun rm => need (f.md.extractLsb' 0 3 = 0#3) (.vfwadd f.g f.vd f.vs1 o rm)
  | 0x30 => op2Of false f.osel f.vs2 fun o => oper (rmodeOf (f.md.extractLsb' 3 3)) fun rm => need (f.md.extractLsb' 0 3 = 0#3) (.vfwmul f.g f.vd f.vs1 o rm)
  | 0x31 => op2Of true f.osel f.vs2 fun o => oper (rmodeOf (f.md.extractLsb' 3 3)) fun rm => need (f.md.extractLsb' 0 3 = 0#3) (.vfwma f.g f.vd f.vs1 o rm)
  | 0x32 => legal (f.osel = 0#3) (oper (rmodeOf (f.md.extractLsb' 3 3)) fun rm => need (f.vs2 = 0#6 ∧ f.md.extractLsb' 0 3 = 0#3) (.vfcvt f.g f.vd f.vs1 rm))
  | 0x33 => legal (f.osel = 0#3) (oper (rmodeOf (f.md.extractLsb' 3 3)) fun rm => need (f.vs2.extractLsb' 1 5 = 0#5 ∧ f.md.extractLsb' 0 2 = 0#2) (.vfcvti f.g f.vd f.vs1 (f.vs2.extractLsb' 0 1 = 1#1) rm (f.md.extractLsb' 2 1 = 1#1)))
  | 0x34 => legal (f.osel = 0#3) (oper (rmodeOf (f.md.extractLsb' 3 3)) fun rm => need (f.vs2.extractLsb' 1 5 = 0#5 ∧ f.md.extractLsb' 0 3 = 0#3) (.vicvtf f.g f.vd f.vs1 (f.vs2.extractLsb' 0 1 = 1#1) rm))
  | 0x35 => legal (f.osel = 0#3) (oper (rmodeOf (f.md.extractLsb' 3 3)) fun rm => need (f.vs2 = 0#6 ∧ f.md.extractLsb' 0 2 = 0#2) (.vfncvt f.g f.vd f.vs1 rm (f.md.extractLsb' 2 1 = 1#1)))
  | 0x36 => legal (f.osel = 0#3) (need (f.vs2 = 0#6 ∧ f.md = 0#6) (.vfwcvt f.g f.vd f.vs1))
  | _ => .error .reservedOpcode

/-- VA opcodes 0x40 to 0x48 (R133, R169 to R175). -/
def decodeVaMove (f : VF) : Except Reject Instr :=
  match f.opc.toNat with
  | 0x40 => op2Of false f.osel f.vs2 fun o => oper (condOf (f.md.extractLsb' 0 4)) fun cc => need (f.md.extractLsb' 4 2 = 0#2) (.vcmp f.g f.vd f.vs1 o cc)
  | 0x41 => op2Of false f.osel f.vs2 fun o => oper (condOf (f.md.extractLsb' 0 4)) fun cc => legal cc.fpLegal (need (f.md.extractLsb' 4 2 = 0#2) (.vfcmp f.g f.vd f.vs1 o cc))
  | 0x44 => op2Of false f.osel f.vs2 fun o => need (f.vs1 = 0#6 ∧ f.md = 0#6) (.vmv f.g f.vd o)
  | 0x45 => op2Of false f.osel f.vs2 fun o => need (f.md = 0#6) (.vmerge f.g f.vd f.vs1 o)
  | 0x46 => lowOf f.vd fun sd => oper (sel3Of f.osel) fun i => need (f.vs2 = 0#6 ∧ f.md = 0#6) (.vext f.g sd f.vs1 i)
  | 0x47 => oper (sel3Of f.osel) fun v => need (f.vs1 = 0#6 ∧ f.vs2 = 0#6 ∧ f.md = 0#6) (.vins f.g f.vd v)
  | 0x48 => legal (f.osel = 0#3) (need (f.vs1 = 0#6 ∧ f.vs2 = 0#6 ∧ f.md = 0#6) (.vid f.g f.vd))
  | _ => .error .reservedOpcode

/-- VA opcodes 0x60 to 0x68 and 0x71 (R133, R207, R223). -/
def decodeVaScale (f : VF) : Except Reject Instr :=
  match f.opc.toNat with
  | 0x60 => lowOf f.vd fun kd => lowOf f.vs1 fun ks1 => kop2Of f.osel f.vs2 fun o => need (f.md = 0#6) (.kadd f.g kd ks1 o)
  | 0x61 => lowOf f.vd fun kd => lowOf f.vs1 fun ks1 => kop2Of f.osel f.vs2 fun o => need (f.md = 0#6) (.ksub f.g kd ks1 o)
  | 0x62 => lowOf f.vd fun kd => lowOf f.vs1 fun ks1 => kop2Of f.osel f.vs2 fun o => need (f.md = 0#6) (.kmax f.g kd ks1 o)
  | 0x63 => lowOf f.vd fun kd => lowOf f.vs1 fun ks1 => kop2Of f.osel f.vs2 fun o => need (f.md = 0#6) (.kmin f.g kd ks1 o)
  | 0x64 => legal (f.osel = 0#3) (lowOf f.vd fun kd => lowOf f.vs2 fun ks => need (f.vs1 = 0#6 ∧ f.md = 0#6) (.kmov f.g kd ks))
  | 0x65 => oper (sel3Of f.osel) fun v => lowOf f.vd fun kd => need (f.vs1 = 0#6 ∧ f.vs2 = 0#6 ∧ f.md = 0#6) (.kset f.g kd v)
  | 0x66 => oper (sel3Of f.osel) fun v => lowOf f.vd fun kd => need (f.vs2 = 0#6 ∧ f.md = 0#6) (.kfromv f.g kd f.vs1 v)
  | 0x67 => legal (f.osel = 0#3) (lowOf f.vs1 fun kd => need (f.vs2 = 0#6 ∧ f.md = 0#6) (.vbind f.g f.vd kd))
  | 0x68 => legal (f.osel = 0#3) (need (f.vs1 = 0#6 ∧ f.vs2 = 0#6 ∧ f.md = 0#6) (.vunbind f.g f.vd))
  | 0x71 => oper (sel3Of f.osel) fun v => triOf f.vd fun od => need (f.vs1 = 0#6 ∧ f.vs2 = 0#6 ∧ f.md = 0#6) (.bfop f.g od v)
  | _ => .error .reservedOpcode

/-- VA opcodes in P layout: 0x50 to 0x5B and 0x70 (R133, R198). -/
def decodeVaPred (f : PF) : Except Reject Instr :=
  match f.opc.toNat with
  | 0x50 => need (f.ps1 = 0#7 ∧ f.ps2 = 0#7 ∧ f.md = 0#6) (.plogic f.g f.pd)
  | 0x51 => need (f.ps1 = 0#7 ∧ f.ps2 = 0#7 ∧ f.md = 0#6) (.pset f.g f.pd)
  | 0x53 => need (f.ps1 = 0#7 ∧ f.ps2 = 0#7 ∧ f.md = 0#6) (.pclr f.g f.pd)
  | 0x52 => legal (f.md = 1#6 ∨ f.md = 2#6) (need (f.ps1 = 0#7 ∧ f.ps2 = 0#7) (.psets f.g f.pd (f.md = 2#6)))
  | 0x54 => need (f.ps2 = 0#7 ∧ f.md = 0#6) (.psbf f.g f.pd f.ps1)
  | 0x55 => need (f.ps2 = 0#7 ∧ f.md = 0#6) (.psif f.g f.pd f.ps1)
  | 0x56 => need (f.ps2 = 0#7 ∧ f.md = 0#6) (.psof f.g f.pd f.ps1)
  | 0x57 => legal (f.pd.extractLsb' 5 2 = 0#2) (need (f.ps2 = 0#7 ∧ f.md = 0#6) (.pcount f.g (f.pd.extractLsb' 0 5) f.ps1))
  | 0x58 => legal (f.pd.extractLsb' 5 2 = 0#2) (need (f.ps2 = 0#7 ∧ f.md = 0#6) (.pffs f.g (f.pd.extractLsb' 0 5) f.ps1))
  | 0x59 => legal (f.g = vgTrue ∧ (f.ps1 = 0#7 ∨ f.pd.toNat ≤ f.ps1.toNat)) (need (f.ps2 = 0#7 ∧ f.md = 0#6) (.pkill f.pd f.ps1))
  | 0x5A => legal (f.ps1.extractLsb' 6 1 = 0#1) (need (f.ps2 = 0#7 ∧ f.md = 0#6) (.pfromv f.g f.pd (f.ps1.extractLsb' 0 6)))
  | 0x5B => legal (f.pd.extractLsb' 6 1 = 0#1) (need (f.ps2 = 0#7 ∧ f.md = 0#6) (.ptov f.g (f.pd.extractLsb' 0 6) f.ps1))
  | 0x70 => legal (f.md ≠ 0#6) (need (f.pd = 0#7 ∧ f.ps2 = 0#7) (.vskip f.g f.ps1 f.md))
  | _ => .error .reservedOpcode

/-- A word of the VA opcode space (R133). -/
def decodeVa (w : Word) : Except Reject Instr :=
  match (w.extractLsb' 60 4).toNat with
  | 0 | 1 => decodeVaInt (splitV w)
  | 2 | 3 => decodeVaFp (splitV w)
  | 4 => decodeVaMove (splitV w)
  | 5 => decodeVaPred (splitP w)
  | 6 => decodeVaScale (splitV w)
  | 7 => if w.extractLsb' 56 8 = 0x70#8 then decodeVaPred (splitP w) else decodeVaScale (splitV w)
  | _ => .error .reservedOpcode

/-- VM opcodes in V layout (R134, R180). -/
def decodeVmV (f : VF) : Except Reject Instr :=
  match f.opc.toNat with
  | 0x01 => legal (f.md.extractLsb' 5 1 = 0#1 ∨ f.md.extractLsb' 3 1 = 0#1) (need (f.osel = 0#3 ∧ f.vs1 = 0#6 ∧ f.vs2 = 0#6 ∧ f.md.extractLsb' 0 3 = 0#3) (.vld f.g f.vd (memOf f.md)))
  | 0x02 => legal (f.md.extractLsb' 5 1 = 0#1 ∨ f.md.extractLsb' 3 1 = 0#1) (need (f.osel = 0#3 ∧ f.vs1 = 0#6 ∧ f.vs2 = 0#6 ∧ f.md.extractLsb' 0 3 = 0#3) (.vlds f.g f.vd (memOf f.md)))
  | 0x03 => legal (f.md.extractLsb' 5 1 = 0#1 ∨ f.md.extractLsb' 3 1 = 0#1) (need (f.osel = 0#3 ∧ f.vs1 = 0#6 ∧ f.md.extractLsb' 0 3 = 0#3) (.vldx f.g f.vd f.vs2 (memOf f.md)))
  | 0x04 => legal (f.md.extractLsb' 5 1 = 0#1) (need (f.osel = 0#3 ∧ f.vs1 = 0#6 ∧ f.vs2 = 0#6 ∧ f.md.extractLsb' 0 3 = 0#3) (.vldff f.g f.vd (memOf f.md)))
  | 0x05 => lowOf f.vs1 fun sd => legal (f.g = vgTrue) (need (f.osel = 0#3 ∧ f.vs2 = 0#6 ∧ f.md = 0#6) (.vldz f.vd sd))
  | 0x06 => lowOf f.vs1 fun k => legal (f.md.extractLsb' 4 2 = 0#2) (need (f.osel = 0#3 ∧ f.vs2 = 0#6 ∧ f.md.extractLsb' 0 3 = 0#3) (.vldk f.g f.vd k (memOf f.md)))
  | 0x0B => lowOf f.vs1 fun k => legal (f.md.extractLsb' 4 2 = 0#2) (need (f.osel = 0#3 ∧ f.vs2 = 0#6 ∧ f.md.extractLsb' 0 3 = 0#3) (.vstk f.g f.vd k (memOf f.md)))
  | 0x08 => legal (f.md.extractLsb' 5 1 = 0#1) (need (f.osel = 0#3 ∧ f.vs1 = 0#6 ∧ f.vs2 = 0#6 ∧ f.md.extractLsb' 0 3 = 0#3) (.vst f.g f.vd (memOf f.md)))
  | 0x09 => legal (f.md.extractLsb' 5 1 = 0#1) (need (f.osel = 0#3 ∧ f.vs1 = 0#6 ∧ f.vs2 = 0#6 ∧ f.md.extractLsb' 0 3 = 0#3) (.vsts f.g f.vd (memOf f.md)))
  | 0x0A => legal (f.md.extractLsb' 5 1 = 0#1) (need (f.osel = 0#3 ∧ f.vs1 = 0#6 ∧ f.md.extractLsb' 0 3 = 0#3) (.vstx f.g f.vd f.vs2 (memOf f.md)))
  | 0x10 => oper (amoOf (f.vs1.extractLsb' 0 4)) fun op => legal (f.md.extractLsb' 5 1 = 0#1) (need (f.osel = 0#3 ∧ f.vs1.extractLsb' 4 2 = 0#2 ∧ f.md.extractLsb' 0 3 = 0#3) (.vamo f.g f.vd f.vs2 op (memOf f.md)))
  | 0x1A => lowOf f.vd fun k => legal (f.md.extractLsb' 5 1 = 0#1) (need (f.osel = 0#3 ∧ f.vs1 = 0#6 ∧ f.vs2 = 0#6 ∧ f.md.extractLsb' 0 3 = 0#3) (.kld f.g k (memOf f.md)))
  | 0x1B => lowOf f.vd fun k => legal (f.md.extractLsb' 5 1 = 0#1) (need (f.osel = 0#3 ∧ f.vs1 = 0#6 ∧ f.vs2 = 0#6 ∧ f.md.extractLsb' 0 3 = 0#3) (.kst f.g k (memOf f.md)))
  | 0x20 => triOf f.vs1 fun m => lowOf f.vs2 fun kd => need (f.osel = 0#3 ∧ f.md = 0#6) (.strmbind f.g f.vd m kd)
  | 0x21 => triOf f.vs1 fun m => need (f.osel = 0#3 ∧ f.vd = 0#6 ∧ f.vs2 = 0#6 ∧ f.md = 0#6) (.strmunbind f.g m)
  | 0x28 => triOf f.vd fun q => legal (f.md.extractLsb' 5 1 = 0#1) (need (f.osel = 0#3 ∧ f.vs1 = 0#6 ∧ f.vs2 = 0#6 ∧ f.md.extractLsb' 0 3 = 0#3) (.bfseq f.g q (memOf f.md)))
  | 0x29 => triOf f.vd fun q => legal (f.md.extractLsb' 5 1 = 0#1) (need (f.osel = 0#3 ∧ f.vs1 = 0#6 ∧ f.vs2 = 0#6 ∧ f.md.extractLsb' 0 3 = 0#3) (.bftab f.g q (memOf f.md)))
  | 0x30 => legal (f.md.extractLsb' 5 1 = 0#1) (need (f.osel = 0#3 ∧ f.vd = 0#6 ∧ f.vs1.extractLsb' 1 5 = 0#5 ∧ f.vs2 = 0#6 ∧ f.md.extractLsb' 0 3 = 0#3) (.vpref f.g (f.vs1.extractLsb' 0 1 = 1#1) (memOf f.md)))
  | _ => .error .reservedOpcode

/-- VM opcodes in P layout (R134, R187). -/
def decodeVmP (f : PF) : Except Reject Instr :=
  match f.opc.toNat with
  | 0x18 => legal (f.md.extractLsb' 5 1 = 0#1) (need (f.ps1 = 0#7 ∧ f.ps2 = 0#7 ∧ f.md.extractLsb' 0 3 = 0#3) (.pld f.g f.pd (memOf f.md)))
  | 0x19 => legal (f.md.extractLsb' 5 1 = 0#1) (need (f.ps1 = 0#7 ∧ f.ps2 = 0#7 ∧ f.md.extractLsb' 0 3 = 0#3) (.pst f.g f.pd (memOf f.md)))
  | _ => .error .reservedOpcode

/-- A word of the VM opcode space (R134). -/
def decodeVm (w : Word) : Except Reject Instr :=
  if w.extractLsb' 57 7 = 0x0C#7 then decodeVmP (splitP w) else decodeVmV (splitV w)

/-- A word of the BF opcode space (R124, R135). -/
def decodeBf (f : BF) : Except Reject Instr :=
  match f.opc.toNat with
  | 0x01 => legal (f.sw ≠ 3#2) (need (f.rsv = 0#1) (.bfpass f.g f.vd f.vs f.oreg f.qreg f.vc f.sw))
  | 0x02 => legal (f.sw ≠ 3#2) (need (f.rsv = 0#1) (.bfpassKp f.g f.vd f.vs f.oreg f.qreg f.vc f.sw))
  | _ => .error .reservedOpcode

/-- A word of the MD opcode space (R125, R135). -/
def decodeMd (f : VF) : Except Reject Instr :=
  match f.opc.toNat with
  | 0x01 => oper (sel3Of f.osel) fun r => triOf f.vs1 fun t => need (f.vs2 = 0#6 ∧ f.md = 0#6) (.mdrn f.g f.vd t r)
  | 0x02 => oper (sel3Of f.osel) fun r => triOf f.vs1 fun t => need (f.vs2 = 0#6 ∧ f.md = 0#6) (.mdrnt f.g f.vd t r)
  | 0x03 => oper (sel3Of f.osel) fun r => triOf f.vs1 fun t => need (f.vs2 = 0#6 ∧ f.md = 0#6) (.mput f.g f.vd t r)
  | _ => .error .reservedOpcode

/-- The instruction that a word stands for in the opcode space of a unit (R120). -/
def decodeIn (u : WUnit) (w : Word) : Except Reject Instr :=
  match u with
  | .sc => if w.extractLsb' 62 2 = 0#2 then decodeSc (splitSc w) else .error .reservedClass
  | .va => decodeVa w
  | .vm => decodeVm w
  | .bf => decodeBf (splitB w)
  | .md => decodeMd (splitV w)

/-- The unit codes of a header (R121). -/
def unitOf (n : BitVec 2) : WUnit :=
  match n.toNat with
  | 0 => .va
  | 1 => .vm
  | 2 => .bf
  | _ => .md

def unitCode : WUnit → BitVec 2
  | .va => 0#2 | .vm => 1#2 | .bf => 2#2 | .md => 3#2 | .sc => 0#2

/-- What a legal convoy header says (R121). -/
structure Header where
  units : List WUnit
  sa : SReg
  sb : SReg
  imm : BitVec 16
  deriving DecidableEq, Repr

/-- The slot count that a header word carries in [61:59] (R18). -/
def headerCount (w : Word) : Nat := (w.extractLsb' 59 3).toNat

/-- R19: at most two VA, two VM, one MD and only in slot 1, and a BF alone. -/
def unitsLegal (us : List WUnit) : Bool :=
  decide (1 ≤ us.length ∧ us.length ≤ 5 ∧ us.count .va ≤ 2 ∧ us.count .vm ≤ 2 ∧ us.tail.count .md = 0 ∧
    (us.count .bf = 0 ∨ us.length = 1) ∧ us.count .sc = 0)

/-- A convoy header (R121). -/
def decodeHeader (w : Word) : Except Reject Header :=
  let codes := [w.extractLsb' 57 2, w.extractLsb' 55 2, w.extractLsb' 53 2, w.extractLsb' 51 2, w.extractLsb' 49 2, w.extractLsb' 47 2]
  let n := headerCount w
  let us := (codes.take n).map unitOf
  if w.extractLsb' 62 2 ≠ 1#2 then .error .reservedClass
  else if n = 0 ∨ 6 ≤ n then .error .badHeader
  else if w.extractLsb' 32 15 ≠ 0#15 ∨ w.extractLsb' 16 6 ≠ 0#6 then .error .badHeader
  else if (codes.drop n).any (· ≠ 0#2) then .error .badHeader
  else if unitsLegal us = false then .error .badHeader
  else .ok ⟨us, w.extractLsb' 27 5, w.extractLsb' 22 5, w.extractLsb' 0 16⟩

/-- The header word of a convoy (R121). -/
def encodeHeader (h : Header) : Word :=
  let u (n : Nat) : BitVec 2 := ((h.units[n]?).map unitCode).getD 0#2
  (1#2 ++ BitVec.ofNat 3 h.units.length ++ u 0 ++ u 1 ++ u 2 ++ u 3 ++ u 4 ++ 0#2 ++ 0#15 ++ h.sa ++ h.sb ++ 0#6 ++ h.imm : BitVec 64)

/-- A word and the opcode space it belongs to. -/
structure Code where
  unit : WUnit
  word : Word
  deriving DecidableEq, Repr

/-- Scalar instructions to words (R126, R132). -/
def encodeSc : Instr → Option Code
  | .add g sd sa sb => some ⟨.sc, packSc ⟨0x01#8, g, sd, sa, sb, 0#19⟩⟩
  | .sub g sd sa sb => some ⟨.sc, packSc ⟨0x02#8, g, sd, sa, sb, 0#19⟩⟩
  | .and g sd sa sb => some ⟨.sc, packSc ⟨0x03#8, g, sd, sa, sb, 0#19⟩⟩
  | .or g sd sa sb => some ⟨.sc, packSc ⟨0x04#8, g, sd, sa, sb, 0#19⟩⟩
  | .xor g sd sa sb => some ⟨.sc, packSc ⟨0x05#8, g, sd, sa, sb, 0#19⟩⟩
  | .sll g sd sa sb => some ⟨.sc, packSc ⟨0x06#8, g, sd, sa, sb, 0#19⟩⟩
  | .srl g sd sa sb => some ⟨.sc, packSc ⟨0x07#8, g, sd, sa, sb, 0#19⟩⟩
  | .sra g sd sa sb => some ⟨.sc, packSc ⟨0x08#8, g, sd, sa, sb, 0#19⟩⟩
  | .mul g sd sa sb => some ⟨.sc, packSc ⟨0x09#8, g, sd, sa, sb, 0#19⟩⟩
  | .mulh g sd sa sb => some ⟨.sc, packSc ⟨0x0A#8, g, sd, sa, sb, 0#19⟩⟩
  | .mulhu g sd sa sb => some ⟨.sc, packSc ⟨0x0B#8, g, sd, sa, sb, 0#19⟩⟩
  | .div g sd sa sb => some ⟨.sc, packSc ⟨0x0C#8, g, sd, sa, sb, 0#19⟩⟩
  | .divu g sd sa sb => some ⟨.sc, packSc ⟨0x0D#8, g, sd, sa, sb, 0#19⟩⟩
  | .rem g sd sa sb => some ⟨.sc, packSc ⟨0x0E#8, g, sd, sa, sb, 0#19⟩⟩
  | .remu g sd sa sb => some ⟨.sc, packSc ⟨0x0F#8, g, sd, sa, sb, 0#19⟩⟩
  | .min g sd sa sb => some ⟨.sc, packSc ⟨0x10#8, g, sd, sa, sb, 0#19⟩⟩
  | .max g sd sa sb => some ⟨.sc, packSc ⟨0x11#8, g, sd, sa, sb, 0#19⟩⟩
  | .minu g sd sa sb => some ⟨.sc, packSc ⟨0x12#8, g, sd, sa, sb, 0#19⟩⟩
  | .maxu g sd sa sb => some ⟨.sc, packSc ⟨0x13#8, g, sd, sa, sb, 0#19⟩⟩
  | .lih g sd imm => some ⟨.sc, packSc ⟨0x20#8, g, sd, imm.extractLsb' 24 5, imm.extractLsb' 19 5, imm.extractLsb' 0 19⟩⟩
  | .addImm g sd sa imm => some ⟨.sc, packSc ⟨0x21#8, g, sd, sa, imm.extractLsb' 19 5, imm.extractLsb' 0 19⟩⟩
  | .andImm g sd sa imm => some ⟨.sc, packSc ⟨0x23#8, g, sd, sa, imm.extractLsb' 19 5, imm.extractLsb' 0 19⟩⟩
  | .orImm g sd sa imm => some ⟨.sc, packSc ⟨0x24#8, g, sd, sa, imm.extractLsb' 19 5, imm.extractLsb' 0 19⟩⟩
  | .xorImm g sd sa imm => some ⟨.sc, packSc ⟨0x25#8, g, sd, sa, imm.extractLsb' 19 5, imm.extractLsb' 0 19⟩⟩
  | .ldB g sd sa imm => some ⟨.sc, packSc ⟨0x30#8, g, sd, sa, imm.extractLsb' 19 5, imm.extractLsb' 0 19⟩⟩
  | .ldH g sd sa imm => some ⟨.sc, packSc ⟨0x31#8, g, sd, sa, imm.extractLsb' 19 5, imm.extractLsb' 0 19⟩⟩
  | .ldW g sd sa imm => some ⟨.sc, packSc ⟨0x32#8, g, sd, sa, imm.extractLsb' 19 5, imm.extractLsb' 0 19⟩⟩
  | .ldD g sd sa imm => some ⟨.sc, packSc ⟨0x33#8, g, sd, sa, imm.extractLsb' 19 5, imm.extractLsb' 0 19⟩⟩
  | .ldBu g sd sa imm => some ⟨.sc, packSc ⟨0x34#8, g, sd, sa, imm.extractLsb' 19 5, imm.extractLsb' 0 19⟩⟩
  | .ldHu g sd sa imm => some ⟨.sc, packSc ⟨0x35#8, g, sd, sa, imm.extractLsb' 19 5, imm.extractLsb' 0 19⟩⟩
  | .ldWu g sd sa imm => some ⟨.sc, packSc ⟨0x36#8, g, sd, sa, imm.extractLsb' 19 5, imm.extractLsb' 0 19⟩⟩
  | .stB g sd sa imm => some ⟨.sc, packSc ⟨0x38#8, g, sd, sa, imm.extractLsb' 19 5, imm.extractLsb' 0 19⟩⟩
  | .stH g sd sa imm => some ⟨.sc, packSc ⟨0x39#8, g, sd, sa, imm.extractLsb' 19 5, imm.extractLsb' 0 19⟩⟩
  | .stW g sd sa imm => some ⟨.sc, packSc ⟨0x3A#8, g, sd, sa, imm.extractLsb' 19 5, imm.extractLsb' 0 19⟩⟩
  | .stD g sd sa imm => some ⟨.sc, packSc ⟨0x3B#8, g, sd, sa, imm.extractLsb' 19 5, imm.extractLsb' 0 19⟩⟩
  | .sllImm g sd sa sh => some ⟨.sc, packSc ⟨0x26#8, g, sd, sa, 0#5, (0#13 ++ sh : BitVec 19)⟩⟩
  | .srlImm g sd sa sh => some ⟨.sc, packSc ⟨0x27#8, g, sd, sa, 0#5, (0#13 ++ sh : BitVec 19)⟩⟩
  | .sraImm g sd sa sh => some ⟨.sc, packSc ⟨0x28#8, g, sd, sa, 0#5, (0#13 ++ sh : BitVec 19)⟩⟩
  | .cmp g cd sa sb cc => some ⟨.sc, packSc ⟨0x40#8, g, pair5 cd, sa, sb, (0#15 ++ condCode cc : BitVec 19)⟩⟩
  | .b g off => some ⟨.sc, packSc ⟨0x48#8, g, 0#5, off.extractLsb' 24 5, off.extractLsb' 19 5, off.extractLsb' 0 19⟩⟩
  | .bc g sd off => some ⟨.sc, packSc ⟨0x49#8, g, sd, off.extractLsb' 24 5, off.extractLsb' 19 5, off.extractLsb' 0 19⟩⟩
  | .call g sd off => some ⟨.sc, packSc ⟨0x4A#8, g, sd, off.extractLsb' 24 5, off.extractLsb' 19 5, off.extractLsb' 0 19⟩⟩
  | .jr g sd sa => some ⟨.sc, packSc ⟨0x4B#8, g, sd, sa, 0#5, 0#19⟩⟩
  | .ret g sa => some ⟨.sc, packSc ⟨0x4C#8, g, 0#5, sa, 0#5, 0#19⟩⟩
  | .bany g p off => some ⟨.sc, packSc ⟨0x4D#8, g, 0#5, p.extractLsb' 2 5, (p.extractLsb' 0 2 ++ off.extractLsb' 19 3 : BitVec 5), off.extractLsb' 0 19⟩⟩
  | .ball g p off => some ⟨.sc, packSc ⟨0x4E#8, g, 0#5, p.extractLsb' 2 5, (p.extractLsb' 0 2 ++ off.extractLsb' 19 3 : BitVec 5), off.extractLsb' 0 19⟩⟩
  | .bnone g p off => some ⟨.sc, packSc ⟨0x4F#8, g, 0#5, p.extractLsb' 2 5, (p.extractLsb' 0 2 ++ off.extractLsb' 19 3 : BitVec 5), off.extractLsb' 0 19⟩⟩
  | .fadd g sd sa sb rm p => some ⟨.sc, packSc ⟨0x50#8, g, sd, sa, sb, fpFn (srmCode rm) p 0#5 0#4⟩⟩
  | .fsub g sd sa sb rm p => some ⟨.sc, packSc ⟨0x51#8, g, sd, sa, sb, fpFn (srmCode rm) p 0#5 0#4⟩⟩
  | .fmul g sd sa sb rm p => some ⟨.sc, packSc ⟨0x52#8, g, sd, sa, sb, fpFn (srmCode rm) p 0#5 0#4⟩⟩
  | .fdiv g sd sa sb rm p => some ⟨.sc, packSc ⟨0x54#8, g, sd, sa, sb, fpFn (srmCode rm) p 0#5 0#4⟩⟩
  | .fma g sd sa sb sc rm p => some ⟨.sc, packSc ⟨0x53#8, g, sd, sa, sb, fpFn (srmCode rm) p sc 0#4⟩⟩
  | .fsqrt g sd sa rm p => some ⟨.sc, packSc ⟨0x55#8, g, sd, sa, 0#5, fpFn (srmCode rm) p 0#5 0#4⟩⟩
  | .fmin g sd sa sb p => some ⟨.sc, packSc ⟨0x56#8, g, sd, sa, sb, fpFn 0#3 p 0#5 0#4⟩⟩
  | .fmax g sd sa sb p => some ⟨.sc, packSc ⟨0x57#8, g, sd, sa, sb, fpFn 0#3 p 0#5 0#4⟩⟩
  | .fcvt g sd sa rm p sub => some ⟨.sc, packSc ⟨0x58#8, g, sd, sa, 0#5, fpFn (srmCode rm) p 0#5 sub⟩⟩
  | .fcmp g cd sa sb cc p => some ⟨.sc, packSc ⟨0x59#8, g, pair5 cd, sa, sb, fpFn 0#3 p 0#5 (condCode cc)⟩⟩
  | .fclass g sd sa p => some ⟨.sc, packSc ⟨0x5A#8, g, sd, sa, 0#5, fpFn 0#3 p 0#5 0#4⟩⟩
  | .csrr g sd n => some ⟨.sc, packSc ⟨0x60#8, g, sd, 0#5, 0#5, (0#7 ++ n : BitVec 19)⟩⟩
  | .csrw g sa n => some ⟨.sc, packSc ⟨0x61#8, g, 0#5, sa, 0#5, (0#7 ++ n : BitVec 19)⟩⟩
  | .csrs g sa n => some ⟨.sc, packSc ⟨0x62#8, g, 0#5, sa, 0#5, (0#7 ++ n : BitVec 19)⟩⟩
  | .csrc g sa n => some ⟨.sc, packSc ⟨0x63#8, g, 0#5, sa, 0#5, (0#7 ++ n : BitVec 19)⟩⟩
  | .csrrC g sd => some ⟨.sc, packSc ⟨0x64#8, g, sd, 0#5, 0#5, 0#19⟩⟩
  | .csrwC g sa => some ⟨.sc, packSc ⟨0x65#8, g, 0#5, sa, 0#5, 0#19⟩⟩
  | .setvl g sd sa sb vt => some ⟨.sc, packSc ⟨0x68#8, g, sd, sa, sb, (0#3 ++ vt : BitVec 19)⟩⟩
  | .setvlN g sd sa sb vt => some ⟨.sc, packSc ⟨0x69#8, g, sd, sa, sb, (0#3 ++ vt : BitVec 19)⟩⟩
  | .vconf g n => some ⟨.sc, packSc ⟨0x6A#8, g, 0#5, 0#5, 0#5, (0#17 ++ n : BitVec 19)⟩⟩
  | .amo g sd sa sb sc acq rel dbl op => some ⟨.sc, packSc ⟨0x70#8, g, sd, sa, sb, amoFn sc acq rel (1#1 ++ bit1 dbl : BitVec 2) (amoCode op) 0#2⟩⟩
  | .cas g sd sa sb sc acq rel dbl => some ⟨.sc, packSc ⟨0x71#8, g, sd, sa, sb, amoFn sc acq rel (1#1 ++ bit1 dbl : BitVec 2) 0#4 0#2⟩⟩
  | .fence g k sc => some ⟨.sc, packSc ⟨0x72#8, g, 0#5, 0#5, 0#5, amoFn sc false false 0#2 0#4 (kindCode k)⟩⟩
  | .bararv g sd => some ⟨.sc, packSc ⟨0x73#8, g, sd, 0#5, 0#5, 0#19⟩⟩
  | .barwait g sd => some ⟨.sc, packSc ⟨0x74#8, g, sd, 0#5, 0#5, 0#19⟩⟩
  | .barset g sd sa => some ⟨.sc, packSc ⟨0x75#8, g, sd, sa, 0#5, 0#19⟩⟩
  | .epush g e sa => some ⟨.sc, packSc ⟨0x76#8, g, 0#5, sa, 0#5, (0#17 ++ e : BitVec 19)⟩⟩
  | .epop g sd e => some ⟨.sc, packSc ⟨0x77#8, g, sd, 0#5, 0#5, (0#17 ++ e : BitVec 19)⟩⟩
  | .tstamp g sa sb => some ⟨.sc, packSc ⟨0x78#8, g, 0#5, sa, sb, 0#19⟩⟩
  | .strmcfg g m sa sb kbase stride zc gap => some ⟨.sc, packSc ⟨0x80#8, g, tri5 m, sa, sb, (kbase ++ stride ++ 0#3 ++ bit1 zc ++ gap : BitVec 19)⟩⟩
  | .strmend g m => some ⟨.sc, packSc ⟨0x81#8, g, tri5 m, 0#5, 0#5, 0#19⟩⟩
  | .strmwait g m sa => some ⟨.sc, packSc ⟨0x82#8, g, tri5 m, sa, 0#5, 0#19⟩⟩
  | .strmavail g sd m => some ⟨.sc, packSc ⟨0x83#8, g, sd, tri5 m, 0#5, 0#19⟩⟩
  | .mshape g sd sa r => some ⟨.sc, packSc ⟨0x88#8, g, sd, sa, 0#5, (0#18 ++ bit1 r : BitVec 19)⟩⟩
  | .mbld g sa sb sk sn sc => some ⟨.sc, packSc ⟨0x89#8, g, 0#5, sa, sb, (sk ++ sn ++ sc ++ 0#4 : BitVec 19)⟩⟩
  | .mma g t v sa => some ⟨.sc, packSc ⟨0x8A#8, g, tri5 t, sa, 0#5, (v ++ 0#13 : BitVec 19)⟩⟩
  | .mmas g t v sa => some ⟨.sc, packSc ⟨0x8B#8, g, tri5 t, sa, 0#5, (v ++ 0#13 : BitVec 19)⟩⟩
  | .mzero g t => some ⟨.sc, packSc ⟨0x8C#8, g, tri5 t, 0#5, 0#5, 0#19⟩⟩
  | .maccld g t sa => some ⟨.sc, packSc ⟨0x8D#8, g, tri5 t, sa, 0#5, 0#19⟩⟩
  | .maccst g t sa => some ⟨.sc, packSc ⟨0x8E#8, g, tri5 t, sa, 0#5, 0#19⟩⟩
  | .mwait g => some ⟨.sc, packSc ⟨0x8F#8, g, 0#5, 0#5, 0#5, 0#19⟩⟩
  | .launch g sd sa => some ⟨.sc, packSc ⟨0x90#8, g, sd, sa, 0#5, 0#19⟩⟩
  | .exit g sa => some ⟨.sc, packSc ⟨0x91#8, g, 0#5, sa, 0#5, 0#19⟩⟩
  | .svc g n => some ⟨.sc, packSc ⟨0x93#8, g, 0#5, 0#5, 0#5, (0#3 ++ n : BitVec 19)⟩⟩
  | .brk g n => some ⟨.sc, packSc ⟨0x97#8, g, 0#5, 0#5, 0#5, (0#3 ++ n : BitVec 19)⟩⟩
  | .bcall g sd n => some ⟨.sc, packSc ⟨0x94#8, g, sd, 0#5, 0#5, (0#3 ++ n : BitVec 19)⟩⟩
  | .eret g => some ⟨.sc, packSc ⟨0x95#8, g, 0#5, 0#5, 0#5, 0#19⟩⟩
  | .wfe g => some ⟨.sc, packSc ⟨0x96#8, g, 0#5, 0#5, 0#5, 0#19⟩⟩
  | .cacheIinv g sa => some ⟨.sc, packSc ⟨0x92#8, g, 0#5, sa, 0#5, (0#19)⟩⟩
  | .cacheIall g sa => some ⟨.sc, packSc ⟨0x92#8, g, 0#5, sa, 0#5, (1#19)⟩⟩
  | .cacheDinv g sa => some ⟨.sc, packSc ⟨0x92#8, g, 0#5, sa, 0#5, (2#19)⟩⟩
  | .cacheClean g sa => some ⟨.sc, packSc ⟨0x92#8, g, 0#5, sa, 0#5, (3#19)⟩⟩
  | .cacheFlush g sa => some ⟨.sc, packSc ⟨0x92#8, g, 0#5, sa, 0#5, (4#19)⟩⟩
  | .cacheTlbiva g sa sb sc => some ⟨.sc, packSc ⟨0x92#8, g, 0#5, sa, sb, (scopeCode sc ++ 5#16 : BitVec 19)⟩⟩
  | .cacheTlbiasid g sa sb sc => some ⟨.sc, packSc ⟨0x92#8, g, 0#5, sa, sb, (scopeCode sc ++ 6#16 : BitVec 19)⟩⟩
  | .cacheTlbiall g sa sb sc => some ⟨.sc, packSc ⟨0x92#8, g, 0#5, sa, sb, (scopeCode sc ++ 7#16 : BitVec 19)⟩⟩
  | _ => none

/-- VA instructions to words (R122, R123, R133). -/
def encodeVa : Instr → Option Code
  | .vadd g vd vs1 o sat u => some ⟨.va, packV ⟨0x01#8, g, vd, vs1, op2Vs2 o, op2Osel o, satMod sat u⟩⟩
  | .vsub g vd vs1 o sat u => some ⟨.va, packV ⟨0x02#8, g, vd, vs1, op2Vs2 o, op2Osel o, satMod sat u⟩⟩
  | .vrsub g vd vs1 o sat u => some ⟨.va, packV ⟨0x03#8, g, vd, vs1, op2Vs2 o, op2Osel o, satMod sat u⟩⟩
  | .vmul g vd vs1 o sat u => some ⟨.va, packV ⟨0x04#8, g, vd, vs1, op2Vs2 o, op2Osel o, satMod sat u⟩⟩
  | .vmulh g vd vs1 o sat u => some ⟨.va, packV ⟨0x05#8, g, vd, vs1, op2Vs2 o, op2Osel o, satMod sat u⟩⟩
  | .vdiv g vd vs1 o sat u => some ⟨.va, packV ⟨0x06#8, g, vd, vs1, op2Vs2 o, op2Osel o, satMod sat u⟩⟩
  | .vrem g vd vs1 o sat u => some ⟨.va, packV ⟨0x07#8, g, vd, vs1, op2Vs2 o, op2Osel o, satMod sat u⟩⟩
  | .vmin g vd vs1 o sat u => some ⟨.va, packV ⟨0x08#8, g, vd, vs1, op2Vs2 o, op2Osel o, satMod sat u⟩⟩
  | .vmax g vd vs1 o sat u => some ⟨.va, packV ⟨0x09#8, g, vd, vs1, op2Vs2 o, op2Osel o, satMod sat u⟩⟩
  | .vand g vd vs1 o sat u => some ⟨.va, packV ⟨0x0A#8, g, vd, vs1, op2Vs2 o, op2Osel o, satMod sat u⟩⟩
  | .vor g vd vs1 o sat u => some ⟨.va, packV ⟨0x0B#8, g, vd, vs1, op2Vs2 o, op2Osel o, satMod sat u⟩⟩
  | .vxor g vd vs1 o sat u => some ⟨.va, packV ⟨0x0C#8, g, vd, vs1, op2Vs2 o, op2Osel o, satMod sat u⟩⟩
  | .vsll g vd vs1 o sat u => some ⟨.va, packV ⟨0x0D#8, g, vd, vs1, op2Vs2 o, op2Osel o, satMod sat u⟩⟩
  | .vsrl g vd vs1 o sat u => some ⟨.va, packV ⟨0x0E#8, g, vd, vs1, op2Vs2 o, op2Osel o, satMod sat u⟩⟩
  | .vsra g vd vs1 o sat u => some ⟨.va, packV ⟨0x0F#8, g, vd, vs1, op2Vs2 o, op2Osel o, satMod sat u⟩⟩
  | .vaddw g vd vs1 o sat u => some ⟨.va, packV ⟨0x10#8, g, vd, vs1, op2Vs2 o, op2Osel o, satMod sat u⟩⟩
  | .vsubw g vd vs1 o sat u => some ⟨.va, packV ⟨0x11#8, g, vd, vs1, op2Vs2 o, op2Osel o, satMod sat u⟩⟩
  | .vmulw g vd vs1 o sat u => some ⟨.va, packV ⟨0x12#8, g, vd, vs1, op2Vs2 o, op2Osel o, satMod sat u⟩⟩
  | .vmacc g vd vs1 o sat u => some ⟨.va, packV ⟨0x13#8, g, vd, vs1, op2Vs2 o, op2Osel o, satMod sat u⟩⟩
  | .vnsrl g vd vs1 o sat u => some ⟨.va, packV ⟨0x14#8, g, vd, vs1, op2Vs2 o, op2Osel o, satMod sat u⟩⟩
  | .vnclip g vd vs1 o sat u => some ⟨.va, packV ⟨0x15#8, g, vd, vs1, op2Vs2 o, op2Osel o, satMod sat u⟩⟩
  | .vabs g vd vs1 sat => some ⟨.va, packV ⟨0x16#8, g, vd, vs1, 0#6, 0#3, satMod sat false⟩⟩
  | .vavg g vd vs1 o sat u => some ⟨.va, packV ⟨0x17#8, g, vd, vs1, op2Vs2 o, op2Osel o, satMod sat u⟩⟩
  | .vfadd g vd vs1 o rm => some ⟨.va, packV ⟨0x20#8, g, vd, vs1, op2Vs2 o, op2Osel o, rmMod (rmodeCode rm) false⟩⟩
  | .vfsub g vd vs1 o rm => some ⟨.va, packV ⟨0x21#8, g, vd, vs1, op2Vs2 o, op2Osel o, rmMod (rmodeCode rm) false⟩⟩
  | .vfmul g vd vs1 o rm => some ⟨.va, packV ⟨0x22#8, g, vd, vs1, op2Vs2 o, op2Osel o, rmMod (rmodeCode rm) false⟩⟩
  | .vfdiv g vd vs1 o rm => some ⟨.va, packV ⟨0x23#8, g, vd, vs1, op2Vs2 o, op2Osel o, rmMod (rmodeCode rm) false⟩⟩
  | .vfsqrt g vd vs1 rm => some ⟨.va, packV ⟨0x24#8, g, vd, vs1, 0#6, 0#3, rmMod (rmodeCode rm) false⟩⟩
  | .vfmin g vd vs1 o => some ⟨.va, packV ⟨0x25#8, g, vd, vs1, op2Vs2 o, op2Osel o, 0#6⟩⟩
  | .vfmax g vd vs1 o => some ⟨.va, packV ⟨0x26#8, g, vd, vs1, op2Vs2 o, op2Osel o, 0#6⟩⟩
  | .vfma g vd vs1 o rm => some ⟨.va, packV ⟨0x27#8, g, vd, vs1, op2Vs2 o, op2Osel o, rmMod (rmodeCode rm) false⟩⟩
  | .vfms g vd vs1 o rm => some ⟨.va, packV ⟨0x28#8, g, vd, vs1, op2Vs2 o, op2Osel o, rmMod (rmodeCode rm) false⟩⟩
  | .vfnma g vd vs1 o rm => some ⟨.va, packV ⟨0x29#8, g, vd, vs1, op2Vs2 o, op2Osel o, rmMod (rmodeCode rm) false⟩⟩
  | .vfnms g vd vs1 o rm => some ⟨.va, packV ⟨0x2A#8, g, vd, vs1, op2Vs2 o, op2Osel o, rmMod (rmodeCode rm) false⟩⟩
  | .vfclamp g vd vs1 o => some ⟨.va, packV ⟨0x2B#8, g, vd, vs1, op2Vs2 o, op2Osel o, 0#6⟩⟩
  | .vfabs g vd vs1 => some ⟨.va, packV ⟨0x2C#8, g, vd, vs1, 0#6, 0#3, 0#6⟩⟩
  | .vfneg g vd vs1 => some ⟨.va, packV ⟨0x2D#8, g, vd, vs1, 0#6, 0#3, 0#6⟩⟩
  | .vfsgnj g vd vs1 o => some ⟨.va, packV ⟨0x2E#8, g, vd, vs1, op2Vs2 o, op2Osel o, 0#6⟩⟩
  | .vfwadd g vd vs1 o rm => some ⟨.va, packV ⟨0x2F#8, g, vd, vs1, op2Vs2 o, op2Osel o, rmMod (rmodeCode rm) false⟩⟩
  | .vfwmul g vd vs1 o rm => some ⟨.va, packV ⟨0x30#8, g, vd, vs1, op2Vs2 o, op2Osel o, rmMod (rmodeCode rm) false⟩⟩
  | .vfwma g vd vs1 o rm => some ⟨.va, packV ⟨0x31#8, g, vd, vs1, op2Vs2 o, op2Osel o, rmMod (rmodeCode rm) false⟩⟩
  | .vfcvt g vd vs1 rm => some ⟨.va, packV ⟨0x32#8, g, vd, vs1, 0#6, 0#3, rmMod (rmodeCode rm) false⟩⟩
  | .vfcvti g vd vs1 u rm sat => some ⟨.va, packV ⟨0x33#8, g, vd, vs1, (0#5 ++ bit1 u : BitVec 6), 0#3, rmMod (rmodeCode rm) sat⟩⟩
  | .vicvtf g vd vs1 u rm => some ⟨.va, packV ⟨0x34#8, g, vd, vs1, (0#5 ++ bit1 u : BitVec 6), 0#3, rmMod (rmodeCode rm) false⟩⟩
  | .vfncvt g vd vs1 rm sat => some ⟨.va, packV ⟨0x35#8, g, vd, vs1, 0#6, 0#3, rmMod (rmodeCode rm) sat⟩⟩
  | .vfwcvt g vd vs1 => some ⟨.va, packV ⟨0x36#8, g, vd, vs1, 0#6, 0#3, 0#6⟩⟩
  | .vcmp g pair vs1 o cc => some ⟨.va, packV ⟨0x40#8, g, pair, vs1, op2Vs2 o, op2Osel o, (0#2 ++ condCode cc : BitVec 6)⟩⟩
  | .vfcmp g pair vs1 o cc => some ⟨.va, packV ⟨0x41#8, g, pair, vs1, op2Vs2 o, op2Osel o, (0#2 ++ condCode cc : BitVec 6)⟩⟩
  | .vmv g vd o => some ⟨.va, packV ⟨0x44#8, g, vd, 0#6, op2Vs2 o, op2Osel o, 0#6⟩⟩
  | .vmerge g vd vs1 o => some ⟨.va, packV ⟨0x45#8, g, vd, vs1, op2Vs2 o, op2Osel o, 0#6⟩⟩
  | .vext g sd vs1 i => some ⟨.va, packV ⟨0x46#8, g, low6 sd, vs1, 0#6, sel3Code i, 0#6⟩⟩
  | .vins g vd v => some ⟨.va, packV ⟨0x47#8, g, vd, 0#6, 0#6, sel3Code v, 0#6⟩⟩
  | .vid g vd => some ⟨.va, packV ⟨0x48#8, g, vd, 0#6, 0#6, 0#3, 0#6⟩⟩
  | .kadd g kd ks1 o => some ⟨.va, packV ⟨0x60#8, g, low6 kd, low6 ks1, kop2Vs2 o, kop2Osel o, 0#6⟩⟩
  | .ksub g kd ks1 o => some ⟨.va, packV ⟨0x61#8, g, low6 kd, low6 ks1, kop2Vs2 o, kop2Osel o, 0#6⟩⟩
  | .kmax g kd ks1 o => some ⟨.va, packV ⟨0x62#8, g, low6 kd, low6 ks1, kop2Vs2 o, kop2Osel o, 0#6⟩⟩
  | .kmin g kd ks1 o => some ⟨.va, packV ⟨0x63#8, g, low6 kd, low6 ks1, kop2Vs2 o, kop2Osel o, 0#6⟩⟩
  | .kmov g kd ks => some ⟨.va, packV ⟨0x64#8, g, low6 kd, 0#6, low6 ks, 0#3, 0#6⟩⟩
  | .kset g kd v => some ⟨.va, packV ⟨0x65#8, g, low6 kd, 0#6, 0#6, sel3Code v, 0#6⟩⟩
  | .kfromv g kd vs v => some ⟨.va, packV ⟨0x66#8, g, low6 kd, vs, 0#6, sel3Code v, 0#6⟩⟩
  | .vbind g vd kd => some ⟨.va, packV ⟨0x67#8, g, vd, low6 kd, 0#6, 0#3, 0#6⟩⟩
  | .vunbind g vd => some ⟨.va, packV ⟨0x68#8, g, vd, 0#6, 0#6, 0#3, 0#6⟩⟩
  | .bfop g od v => some ⟨.va, packV ⟨0x71#8, g, tri6 od, 0#6, 0#6, sel3Code v, 0#6⟩⟩
  | .plogic g pd => some ⟨.va, packP ⟨0x50#8, g, pd, 0#7, 0#7, 0#6⟩⟩
  | .pset g pd => some ⟨.va, packP ⟨0x51#8, g, pd, 0#7, 0#7, 0#6⟩⟩
  | .pclr g pd => some ⟨.va, packP ⟨0x53#8, g, pd, 0#7, 0#7, 0#6⟩⟩
  | .psets g pd useB => some ⟨.va, packP ⟨0x52#8, g, pd, 0#7, 0#7, (0#4 ++ bit1 useB ++ bit1 (!useB) : BitVec 6)⟩⟩
  | .psbf g pd ps => some ⟨.va, packP ⟨0x54#8, g, pd, ps, 0#7, 0#6⟩⟩
  | .psif g pd ps => some ⟨.va, packP ⟨0x55#8, g, pd, ps, 0#7, 0#6⟩⟩
  | .psof g pd ps => some ⟨.va, packP ⟨0x56#8, g, pd, ps, 0#7, 0#6⟩⟩
  | .pcount g sd ps => some ⟨.va, packP ⟨0x57#8, g, (0#2 ++ sd : BitVec 7), ps, 0#7, 0#6⟩⟩
  | .pffs g sd ps => some ⟨.va, packP ⟨0x58#8, g, (0#2 ++ sd : BitVec 7), ps, 0#7, 0#6⟩⟩
  | .pkill pd plast => some ⟨.va, packP ⟨0x59#8, vgTrue, pd, plast, 0#7, 0#6⟩⟩
  | .pfromv g pd vs => some ⟨.va, packP ⟨0x5A#8, g, pd, (0#1 ++ vs : BitVec 7), 0#7, 0#6⟩⟩
  | .ptov g vd ps => some ⟨.va, packP ⟨0x5B#8, g, (0#1 ++ vd : BitVec 7), ps, 0#7, 0#6⟩⟩
  | .vskip g ps n => some ⟨.va, packP ⟨0x70#8, g, 0#7, ps, 0#7, n⟩⟩
  | _ => none

/-- VM, BF and MD instructions to words (R122 to R125, R134, R135). -/
def encodeVm : Instr → Option Code
  | .vld g vd m => some ⟨.vm, packV ⟨0x01#8, g, vd, 0#6, 0#6, 0#3, memMod m⟩⟩
  | .vlds g vd m => some ⟨.vm, packV ⟨0x02#8, g, vd, 0#6, 0#6, 0#3, memMod m⟩⟩
  | .vldx g vd vs2 m => some ⟨.vm, packV ⟨0x03#8, g, vd, 0#6, vs2, 0#3, memMod m⟩⟩
  | .vldff g vd m => some ⟨.vm, packV ⟨0x04#8, g, vd, 0#6, 0#6, 0#3, memMod m⟩⟩
  | .vldz vd sd => some ⟨.vm, packV ⟨0x05#8, vgTrue, vd, low6 sd, 0#6, 0#3, 0#6⟩⟩
  | .vldk g vd k m => some ⟨.vm, packV ⟨0x06#8, g, vd, low6 k, 0#6, 0#3, memMod m⟩⟩
  | .vstk g vd k m => some ⟨.vm, packV ⟨0x0B#8, g, vd, low6 k, 0#6, 0#3, memMod m⟩⟩
  | .vst g vd m => some ⟨.vm, packV ⟨0x08#8, g, vd, 0#6, 0#6, 0#3, memMod m⟩⟩
  | .vsts g vd m => some ⟨.vm, packV ⟨0x09#8, g, vd, 0#6, 0#6, 0#3, memMod m⟩⟩
  | .vstx g vd vs2 m => some ⟨.vm, packV ⟨0x0A#8, g, vd, 0#6, vs2, 0#3, memMod m⟩⟩
  | .vamo g vd vs2 op m => some ⟨.vm, packV ⟨0x10#8, g, vd, (0#2 ++ amoCode op : BitVec 6), vs2, 0#3, memMod m⟩⟩
  | .kld g k m => some ⟨.vm, packV ⟨0x1A#8, g, low6 k, 0#6, 0#6, 0#3, memMod m⟩⟩
  | .kst g k m => some ⟨.vm, packV ⟨0x1B#8, g, low6 k, 0#6, 0#6, 0#3, memMod m⟩⟩
  | .strmbind g vd m kd => some ⟨.vm, packV ⟨0x20#8, g, vd, tri6 m, low6 kd, 0#3, 0#6⟩⟩
  | .strmunbind g m => some ⟨.vm, packV ⟨0x21#8, g, 0#6, tri6 m, 0#6, 0#3, 0#6⟩⟩
  | .bfseq g q m => some ⟨.vm, packV ⟨0x28#8, g, tri6 q, 0#6, 0#6, 0#3, memMod m⟩⟩
  | .bftab g q m => some ⟨.vm, packV ⟨0x29#8, g, tri6 q, 0#6, 0#6, 0#3, memMod m⟩⟩
  | .vpref g strided m => some ⟨.vm, packV ⟨0x30#8, g, 0#6, (0#5 ++ bit1 strided : BitVec 6), 0#6, 0#3, memMod m⟩⟩
  | .pld g pd m => some ⟨.vm, packP ⟨0x18#8, g, pd, 0#7, 0#7, memMod m⟩⟩
  | .pst g pd m => some ⟨.vm, packP ⟨0x19#8, g, pd, 0#7, 0#7, memMod m⟩⟩
  | .bfpass g vd vs o q vc sw => some ⟨.bf, packB ⟨0x01#8, g, vd, vs, o, q, vc, sw, 0#1⟩⟩
  | .bfpassKp g vd vs o q vc sw => some ⟨.bf, packB ⟨0x02#8, g, vd, vs, o, q, vc, sw, 0#1⟩⟩
  | .mdrn g vd t r => some ⟨.md, packV ⟨0x01#8, g, vd, tri6 t, 0#6, sel3Code r, 0#6⟩⟩
  | .mdrnt g vd t r => some ⟨.md, packV ⟨0x02#8, g, vd, tri6 t, 0#6, sel3Code r, 0#6⟩⟩
  | .mput g vd t r => some ⟨.md, packV ⟨0x03#8, g, vd, tri6 t, 0#6, sel3Code r, 0#6⟩⟩
  | _ => none

/-- The word of an instruction that has one; the event rows of the table have none. -/
def encode (i : Instr) : Option Code := (encodeSc i).orElse fun _ => (encodeVa i).orElse fun _ => encodeVm i

/-- The inverse reading of a code. -/
def decodeCode (c : Code) : Option Instr := (decodeIn c.unit c.word).toOption

/-- The instruction that the decoder reads from a table word: a scalar word, or, for more than 64 bits, a convoy header
whose slot 1 is the second word. Memory holds the words in this order, each little-endian (R5, R18), so bit 0 of the number
is bit 0 of the first word. -/
def decodeTableWord (nbits w : Nat) : Option Instr :=
  let w0 : Word := BitVec.ofNat 64 w
  let w1 : Word := BitVec.ofNat 64 (w / 2 ^ 64)
  if nbits ≤ 64 then (decodeIn .sc w0).toOption
  else match decodeHeader w0 with
    | .ok h => match h.units with
      | u :: _ => (decodeIn u w1).toOption
      | [] => none
    | .error _ => none

end Sys2Proof
end

