-- ==== Sys2Proof/Config.lean ====
section
/-!
DEFINITION. What the manual leaves to the implementation or to chance: constants without a value (log 8, 11 to 14). Nothing
in Lean can evaluate them, so whatever is proved holds for every value. They are applied to the counter `State.free` or to
the data they depend on.
-/
namespace Sys2Proof.Config

/-- Whether a core uses the entry its TLB still holds, rather than the table as it stands, before the invalidation
completes (R87). -/
opaque useHeldEntry : Nat → Bool

/-- Whether a fetch is served by the L1 instruction cache line that the core still holds (R254). -/
opaque useHeldLine : Nat → Bool

/-- The victim of an allocation: an index into the ways that the allocating partition may use (R368). -/
opaque victim : Nat → Nat

/-- A byte of a random nonce or private key that a management core draws (R286). -/
opaque randomByte : Nat → Nat → Byte

/-- `n` random bytes of a draw. -/
def randomBytes (n k : Nat) : List Byte := (List.range n).map (randomByte k)

/-- A byte of the private identity key of this module. -/
opaque identityByte : Nat → Byte

/-- The private identity key: 57 bytes (R286). -/
def identitySeed : List Byte := (List.range 57).map identityByte

/-- The peer tables that Burxus sets: partition and entry to identity key (R286). The manual gives no call for it. -/
opaque peerKey : Nat → Nat → List Byte

/-- Whether a peer of a partition's table is reached by UDP rather than by the Ethernet header alone (R283). -/
opaque remoteSite : Nat → Nat → Bool

/-- Whether a slot whose slate of this launch number exits takes the next slate ahead of that slate's completion (R33: it may). -/
opaque entersAhead : Nat → Bool

/-- The EtherType and the UDP port that Burxus configures (R283). -/
opaque etherType : BitVec 16
opaque udpPort : BitVec 16

/-- The length table of a new ZC generation, from the counts of acknowledged symbols (R290: any table that meets R74). -/
opaque zcTable : List Byte → List Byte

/-- Whether the sender forms a new table after 64 acknowledged compressed frames (R290). -/
opaque zcMove : Nat → Bool

/-- What follows the image's own code in a native image when f ≠ 1 (R316), log 12: image bytes, G code, NREG code. -/
opaque mboluxRest : List Byte → Nat → Nat → List Byte

/-- STRIPNO of a physical sub-strip of a translated strip (R316), log 12: the physical VLEN, the strip, the sub-strip. -/
opaque physStrip : Nat → BitVec 32 → Nat → BitVec 32

/-- The TCM units that a translated image adds (R317), log 12. -/
opaque mboluxTcm : List Byte → Nat → Nat → Nat

/-- The element of a contribution that ends before COUNT (R294 sums it and gives no value), log 13. -/
opaque missingElement : Nat → BitVec 32

/-- The OUTCOME of a command of engine 1 or 2 whose memory access fails (R364 gives its STATUS alone), log 13. -/
opaque accessOutcome : Nat → BitVec 3

/-- How many bytes the record of PART.SET and the member list of GROUP.SET take, and what they say (R310 gives no layout),
log 11. -/
opaque recordLength : Nat
opaque recordOf : List Byte → PartRecord
opaque memberListLength : Nat
opaque memberListOf : List Byte → List Nat

/-- The build number of the Burxus image (R310, R379). -/
opaque buildNumber : Word

/-- Lane clocks of start-up dead time before a convoy's first group (R302: the manual gives no latency for them). -/
opaque startupClocks : Nat → Nat

/-- Stalled lane clocks before a group commits (R302). -/
opaque stallClocks : Nat → Nat
/-- The stored element size in bytes that a reserved format code would have: it places the address that the format fault of
a unit-stride access reports (R52, R339). -/
opaque reservedBytes : Nat → Nat

/-- The ADDR of a record of an error in the scratchpad or the TCM, which R88 maps to no physical address (R366). -/
opaque localAddr : Nat → Word

/-- Whether the dispatcher lowers the grant of a SHRINK gang where it may (R265). -/
opaque lowerGrant : Nat → Bool

/-- PLACE of a record for an error in a queue, to which R366 gives no code. -/
opaque queuePlace : Nat → Nat

end Sys2Proof.Config
end

