-- ==== Sys2Proof/Machine/Table.lean ====
section
/-!
DEFINITION. Sparse tables: the one data structure that holds memories, register files and the records of harts, cores and
partitions. A table is a list of (key, value) pairs with strictly rising keys and no entry equal to the default, so equal
tables are equal lists. The laws are in Sys2Proof/Laws/Table.lean.
-/
namespace Sys2Proof.Machine

/-- A sparse table keyed by a number. -/
abbrev Table (α : Type) := List (Nat × α)

/-- The value at key `k`; `d` when the table lists none. -/
def Table.get {α : Type} (d : α) : Table α → Nat → α
  | [], _ => d
  | (a, b) :: r, k => if k < a then d else if k = a then b else Table.get d r k

/-- Drops leading entries whose keys are at most `k` (none in a canonical tail). -/
def Table.dropTo {α : Type} : Table α → Nat → Table α
  | [], _ => []
  | (a, b) :: r, k => if a ≤ k then Table.dropTo r k else (a, b) :: r

/-- Writes `v` at key `k`; writing the default removes the entry. -/
def Table.set {α : Type} [DecidableEq α] (d : α) : Table α → Nat → α → Table α
  | [], k, v => if v = d then [] else [(k, v)]
  | (a, b) :: r, k, v =>
    if k < a then (if v = d then (a, b) :: r else (k, v) :: (a, b) :: r)
    else if k = a then (if v = d then Table.dropTo r k else (k, v) :: r)
    else (a, b) :: Table.set d r k v

/-- The canonical form: keys strictly rising from `lo`, no entry equal to the default. -/
def Table.wfFrom {α : Type} [DecidableEq α] (d : α) : Nat → Table α → Bool
  | _, [] => true
  | lo, (a, b) :: r => decide (lo ≤ a) && decide (b ≠ d) && Table.wfFrom d (a + 1) r

def Table.wf {α : Type} [DecidableEq α] (d : α) (t : Table α) : Bool := Table.wfFrom d 0 t

/-- Removes every entry whose key satisfies `p`. -/
def Table.erase {α : Type} (p : Nat → Bool) (t : Table α) : Table α := t.filter fun e => !p e.1

/-- Byte memory in its canonical form (`Host.Cell` list). -/
abbrev Memory := List Host.Cell

/-- What an address that the list does not name reads as. The manual gives no contents at reset for HBM4E, LPDDR 6,
TCM, scratchpad or host memory. DESIGN CHOICE: zero, see log 2 (unsafe). -/
def Memory.unlisted : Byte := 0

/-- One byte of a memory. -/
def Memory.byte (m : Memory) (a : Nat) : Byte := Table.get Memory.unlisted m a

/-- Writes one byte, keeping the canonical form. -/
def Memory.setByte (m : Memory) (a : Nat) (b : Byte) : Memory := Table.set Memory.unlisted m a b

/-- The canonical form of a memory. -/
def Memory.wf (m : Memory) : Bool := Table.wf Memory.unlisted m

/-- `n` bytes from `a`, little-endian (R5). -/
def Memory.read (m : Memory) (a : Nat) : Nat → Nat
  | 0 => 0
  | n + 1 => (Memory.byte m a).toNat + 256 * Memory.read m (a + 1) n

/-- Writes the low `n` bytes of `v` from `a` upward, little-endian (R5). -/
def Memory.write (m : Memory) (a : Nat) : Nat → Nat → Memory
  | 0, _ => m
  | n + 1, v => Memory.write (Memory.setByte m a (BitVec.ofNat 8 v)) (a + 1) n (v / 256)

/-- Writes a list of bytes from `a` upward. -/
def Memory.writeBytes (m : Memory) (a : Nat) : List Byte → Memory
  | [] => m
  | b :: r => Memory.writeBytes (Memory.setByte m a b) (a + 1) r

/-- `n` bytes from `a` as a list. -/
def Memory.readBytes (m : Memory) (a : Nat) : Nat → List Byte
  | 0 => []
  | n + 1 => Memory.byte m a :: Memory.readBytes m (a + 1) n

end Sys2Proof.Machine
end

