-- ==== Sys2Proof/Machine/State.lean ====
section
/-!
DEFINITION. The state of a whole module (R10): harts, cores, memory, partitions, gangs, links, management state, and the
inputs that are still to come. It is plain data. Each piece names the rule that gives it; INVENTORY.md lists them all with
their reset values.
-/
namespace Sys2Proof.Machine

/-- Modes of a hart (R57, R259). -/
inductive Mode where
  | user | sup | fw
  deriving DecidableEq, Repr

/-- A fault or trap that is held or taken: what trap entry writes beside the resume state (R323, R339, R362). -/
structure Trap where
  cause : BitVec 8
  tval : Word
  tindex : Nat
  telem : Nat
  tdet : Word
  tmpc : Word
  deriving DecidableEq, Repr

/-- A convoy in a vector queue: its entry (R20), its words, and a fault held for its start (R136, R347). -/
structure QEntry where
  addr : Word
  words : List Word
  instrs : List Instr
  /-- N of its header (R19, R299) -/
  count : Nat
  vl : Nat
  vtype : Word
  mfc : Word
  xa : Word
  xb : Word
  imm : BitVec 16
  strip : BitVec 32
  fault : Option Trap
  /-- handed off again by ERET or by a resumption (R31, R324) -/
  resumed : Bool
  /-- its place in the hart's program order among convoys and matrix commands (R30, R238) -/
  seq : Nat
  /-- the numbers handed out while it was stopped: from the first up to the second, 0 while it still is (R238, R319) -/
  away : List (Nat × Nat)
  /-- under 0 to 31 the highest slot that had written that scalar register before the convoy stopped (R346) -/
  wrote : Table Nat
  deriving DecidableEq, Repr

/-- What a VLDZ of a started convoy has decoded so far (R183): its length table, the elements and the position after each word
taken, the byte last read, and its elements, the latest first. -/
structure ZcSave where
  lens : List Nat
  cuts : List (Nat × Nat)
  byte : Option (Nat × Byte)
  elems : List Nat
  deriving DecidableEq, Repr

/-- An aligned 8-byte word that a packed slot has read (R102, R177): the slot, the number of the word in its address space, where it
lies, and its value as the elements that share it take it. -/
structure PackedWord where
  slot : Nat
  word : Nat
  loc : Nat
  val : Nat
  deriving DecidableEq, Repr

/-- The started convoy of a hart (R24). Its entry holds the length after trims, `start` is VSTART at its start, and `moved`
says that a group has committed. `sw` holds what the run has done so far: under 0 to 31 the highest slot that has written
that scalar register (R346), under 32 + slot a scan's position (R201), under 40 whether a slot has trimmed it, under 56 +
slot the register and scale register of a stream that it
consumes (R189, R194), above that the blocks and tiles that a slot has already read (R96, R184). -/
structure Run where
  e : QEntry
  start : Nat
  sw : Table Nat
  moved : Bool
  /-- by slot, what its VLDZ has read and decoded: each coded byte is read once (R86, R183) -/
  zc : Table (Option ZcSave)
  /-- the packed words that its slots have read (R102, R177) -/
  words : List PackedWord
  deriving DecidableEq, Repr

/-- A write of an agent that other agents do not see yet (R104, log 5). -/
structure Held where
  loc : Nat
  bytes : List Byte
  owner : BitVec 9
  /-- the memory type of the access that made it (R86) -/
  attr : Nat
  /-- the bits that it leaves as they are (R177) -/
  keep : Nat
  /-- the slot of the started convoy whose elements still join it (R102, R177), 0 for none -/
  slot : Nat
  /-- the agent has read bytes of it, and: it was made when its agent had read bytes of an older one (R105, R106) -/
  seen : Bool
  after : Bool
  deriving DecidableEq, Repr

/-- A scalar load that has returned its data ahead of the commit point (R30): the load, its address, and the bytes that it read. -/
structure EarlyLoad where
  pc : Word
  va : Word
  bytes : List Byte
  deriving DecidableEq, Repr

/-- The agents of a hart that hold writes: the scalar one, the vector one, and the matrix commands that it posted (R101,
R110). -/
inductive Agent where
  | scalar | vector | matrix
  deriving DecidableEq, Repr

/-- VBR[n] (R43). -/
structure Binding where
  blk : BitVec 3
  valid : Bool
  stale : Bool
  kreg : KReg
  gen : BitVec 8
  deriving DecidableEq, Repr

/-- A stream slot m(n) (R48, R191, R337). `state`: 0 idle, 1 configured, 2 bound, 3 ended, 4 error. -/
structure Stream where
  state : Nat
  err : Nat
  /-- whether VREG holds a live binding (R193) -/
  bound : Bool
  vreg : VReg
  scaled : Bool
  kd : KReg
  sbase : Word
  sstride : Word
  savl : Nat
  /-- decoded elements not yet consumed, oldest first (AVAIL of them) -/
  buf : List Nat
  /-- scale entries fetched, oldest first -/
  sbuf : List Nat
  /-- captured fields in the positions of MFC and VTYPE, ZC in [63] -/
  conf : Word
  base : Word
  kbase : Word
  /-- the base of the gap table, none without one (R76, R191) -/
  gap : Option Word
  /-- elements fetched and consumed since configuration -/
  fetched : Nat
  consumed : Nat
  /-- the decoder's next bit, and the bytes it has produced -/
  bit : Nat
  out : Nat
  /-- segments whose first word has been met (R77) -/
  segs : Nat
  /-- lines that its fetches have asked for, the last 16 (R100) -/
  asked : List Nat
  /-- the aligned words that hold its last packed element: number and value (R102) -/
  words : List (Nat × Nat)
  /-- of a ZC stream its length table once read, the byte last read, and the elements and the length of the word that it is in
  (R97) -/
  lens : Option (List Nat)
  byte : Option (Nat × Byte)
  word : Option (List Nat × Nat)
  deriving DecidableEq, Repr

def Stream.idle : Stream := ⟨0, 0, false, 0, false, 0, 0, 0, 0, [], [], 0, 0, 0, none, 0, 0, 0, 0, 0, [], [], none, none, none⟩

/-- The queues of one engine of one hart (R98, R248): entries pushed, results, finished commands waiting for room. -/
structure Engine where
  cmd : List Word
  res : List Word
  fin : List (List Word)
  deriving DecidableEq, Repr

def Engine.empty : Engine := ⟨[], [], []⟩

/-- A trace record (R304). -/
structure TraceRec where
  w0 : Word
  w1 : Word
  w2 : Word
  w3 : Word
  deriving DecidableEq, Repr

/-- A fault raised by a posted matrix command and not yet taken (R235, R362). -/
structure MFault where
  trap : Trap
  deriving DecidableEq, Repr

/-- Scalar state of a hart (R35, R36, R18, R226, R256). -/
structure HScalar where
  s : Table Word
  c : BitVec 16
  pc : Word
  mode : Mode
  fflags : BitVec 6
  frm : BitVec 3
  srseed : BitVec 32
  msh : Word
  latch : Bool
  deriving DecidableEq, Repr

/-- Vector state of a hart (R35 to R46, R50, R52, R53, R55, R31, R334). -/
structure HVector where
  v : Table Nat
  vdirty : BitVec 64
  p : Table Nat
  plive : BitVec 128
  k : Table Nat
  kgen : Table (BitVec 8)
  vbr : Table Binding
  o : Table (BitVec 32)
  q : Table (BitVec 128)
  vl : Nat
  vtype : Word
  vstart : Nat
  mfc : Word
  bfstart : Word
  mprog : Word
  vskipc : Nat
  stripno : BitVec 32
  vhwb : Nat
  deriving DecidableEq, Repr

/-- Identity, shape and grants of a hart (R17, R27, R28, R47, R51, R56, R89, R259, R260). `g` is the number of lane groups. -/
structure HShape where
  hartid : Nat
  gangsize : Nat
  launch : Nat
  lanes : BitVec 4
  g : Nat
  nreg : BitVec 2
  nnext : BitVec 2
  talloc : BitVec 8
  grant : Word
  sarg : Word
  asid : BitVec 8
  part : Nat
  setvlNs : Nat
  /-- the 64 KiB units of TCM and scratchpad behind the windows, and the 1,024-row units of the B-store window, in order -/
  tcm : List Nat
  spad : List Nat
  bst : List Nat
  /-- the slate runs an image that Burxus translated: its vectors are the image's (R316) -/
  virt : Bool
  deriving DecidableEq, Repr

/-- Trap registers (R57, R322, R362). -/
structure HTrap where
  tcause : BitVec 8
  tval : Word
  tpc : Word
  tindex : BitVec 3
  telem : BitVec 12
  tvec : Word
  tstat : Word
  tnpc : Word
  tq : Table Word
  tscr : Word
  tdet : Word
  tmpc : Word
  deriving DecidableEq, Repr

/-- Where a debugger's step ends (R300). -/
inductive StepMode where
  | unit | group
  deriving DecidableEq, Repr

/-- What a hart slot is doing (R33, R298). -/
inductive Status where
  | free | running | exiting | stopped
  deriving DecidableEq, Repr

/-- Queues, progress and debug state of a hart (R20, R24, R235, R245, R298 to R305, R318). -/
structure HQueue where
  status : Status
  exitCode : BitVec 32
  queue : List QEntry
  run : Option Run
  /-- the traps that have not returned, the last first, each with the convoy inside which it fell, if it fell in one, and the
  element at which that stopped (R319, R323) -/
  stopped : List (Option (QEntry × Nat))
  /-- the number of the next convoy or matrix command in program order (R30, R238) -/
  ticket : Nat
  mfault : Option MFault
  /-- pending barrier generation and last arrival mask (R245) -/
  barPend : Option (BitVec 16)
  barMask : BitVec 32
  /-- interrupts pending, oldest first (R318) -/
  irq : List Word
  passed : Nat
  sheld : List Held
  vheld : List Held
  mheld : List Held
  /-- a debugger's step in progress (R300) -/
  step : Option StepMode
  /-- the breakpoint that the hart stopped at, which RESUME passes: the issue unit, and the element under EMATCH (R299) -/
  skipBp : Option (Word × Option Nat)
  bkpa : Table Word
  bkpc : Table Word
  /-- lines that the running slot has asked for in its element group (R100) -/
  asked : List Nat
  /-- FENCE.VV: accesses of convoys before this place in program order come before those of convoys from it on (R106) -/
  vvFence : Option Nat
  /-- the line that the matrix command in progress last asked for (R100, R306) -/
  mline : Option Nat
  /-- the loads of the uncommitted region that have returned, oldest first (R30) -/
  region : List EarlyLoad
  deriving DecidableEq, Repr

/-- Dailies and trace state of a hart (R302 to R305). -/
structure HTrace where
  dly : Table Word
  dlyEn : Bool
  trcCtl : Word
  /-- records produced and not yet written; records dropped -/
  lost : Nat
  /-- bytes already written by the DRAIN at the head of engine 3's queue -/
  drained : Nat
  recs : List TraceRec
  deriving DecidableEq, Repr

/-- A hart slot: hart `n mod 4` of core `n / 4`. -/
structure Hart where
  sc : HScalar
  vec : HVector
  shape : HShape
  trap : HTrap
  q : HQueue
  trc : HTrace
  str : Table Stream
  eng : Table Engine
  deriving DecidableEq, Repr

/-- The empty sequence, the reset value of a q register (R46). -/
def qReset : BitVec 128 := 0xF0F0F0F0F0F0F0F0F0F0F0F0F0F0F0F0#128

def Binding.clear : Binding := ⟨0, false, false, 0, 0⟩

/-- MFC at reset: PLANES 0b111, all else 0 (R52). -/
def mfcReset : Word := 0x38000#64

def HScalar.reset : HScalar := ⟨[], 0, 0, .user, 0, 0, 0, 0, false⟩

def HVector.reset : HVector := ⟨[], 0, [], 0, [], [], [], [], [], 0, 0, 0, mfcReset, 0, 0, 0, 0, 0⟩

def HShape.reset : HShape := ⟨0, 0, 0, 0, 1, 0, 0, 0, 0, 0, 0, 0, 0, [], [], [], false⟩

def HTrap.reset : HTrap := ⟨0, 0, 0, 0, 0, 0, 0, 0, [], 0, 0, 0⟩

def HQueue.reset : HQueue := ⟨.free, 0, [], none, [], 0, none, none, 0, [], 0, [], [], [], none, none, [], [], [], none, none, []⟩

def HTrace.reset : HTrace := ⟨[], true, 0, 0, 0, []⟩

/-- A hart slot that no slate has entered: every map at its reset value (R58, log 10). -/
def Hart.idle : Hart :=
  ⟨HScalar.reset, HVector.reset, HShape.reset, HTrap.reset, HQueue.reset, HTrace.reset, [], []⟩

/-- The matrix commands that enter the queue (R228, R229). -/
inductive MKind where
  | mbld | mma | mmas | mzero | maccld | maccst
  deriving DecidableEq, Repr

/-- A posted matrix command with what it captured (R228, R336). -/
structure MCmd where
  hart : Nat
  pc : Word
  word : Word
  kind : MKind
  tile : TReg
  vreg : VReg
  msh : Word
  sa : Word
  sb : Word
  sk : Word
  sn : Word
  sc : Word
  scfmt : BitVec 2
  slc : Nat
  /-- its place in the hart's program order (R238) -/
  seq : Nat
  /-- row, pair, chunk and accumulators at which a restored command resumes (R239) -/
  at_ : Option (Nat × Nat × Nat × Table Int)
  /-- the binding of its A operand, once the test for a stale scale has found it live (R210, R231) -/
  bind : Option Binding
  deriving DecidableEq, Repr

/-- The command in progress: row, pair, chunk (R239), and the P(d) accumulators of the row (d, column) of an MMAS. -/
structure MRun where
  cmd : MCmd
  row : Nat
  pair : Nat
  chunk : Nat
  acc : Table Int
  deriving DecidableEq, Repr

/-- A TLB entry (R87): the base and size of the range, the table entry and where it stands. -/
structure TlbEntry where
  asid : BitVec 8
  glob : Bool
  base : Nat
  bits : Nat
  pte : Word
  at_ : Nat
  level : Nat
  deriving DecidableEq, Repr

/-- The histogram unit of a core (R306). -/
structure Hist where
  ctl : Word
  rdh : Table Word
  noReuse : Word
  count : Nat
  /-- sampled lines with the count at which each was sampled -/
  tags : List (Nat × Nat)
  deriving DecidableEq, Repr

/-- A gathered line (R94): the address of its first element, the stride and the size of its elements, the locations of the
elements that it holds, and the lines that it covers. -/
structure Gathered where
  base : Word
  stride : Word
  size : Nat
  elems : List Nat
  lines : List Nat
  deriving DecidableEq, Repr

/-- The units of one core (R12). -/
structure Core where
  enabled : Bool
  tile : Table Nat
  bstore : Table Nat
  mq : List MCmd
  mrun : Option MRun
  tlb : List TlbEntry
  /-- the micro-TLB of each lane group (R87) -/
  utlb : Table (List TlbEntry)
  /-- lines held by the L1 data cache (R12, R93); it is write-through, so their bytes are those of memory -/
  l1d : List Nat
  /-- gathered lines, the most recently used first (R94) -/
  gathered : List Gathered
  /-- lines held by the L1 instruction cache: physical line and its bytes as fetched (R254) -/
  icache : List (Nat × Nat)
  hist : Hist
  deriving DecidableEq, Repr

def Hist.reset : Hist := ⟨0, [], 0, 0, []⟩

/-- A core after reset: enabled, empty (R11, log 10). -/
def Core.reset : Core := ⟨true, [], [], [], none, [], [], [], [], [], Hist.reset⟩

/-- A line held in the shared SRAM: where it lies, whether it is dirty, its owner tag, and the core whose L1D last
filled it (R91, R93, R276, R356). -/
structure Line where
  die : Nat
  bank : Nat
  set : Nat
  way : Nat
  dirty : Bool
  owner : BitVec 9
  l1 : Option Nat
  /-- words of the storage behind it that do not hold what the copy does, since an error was found in one of them (R352, R355):
  index, value, and whether they are poisoned -/
  behind : List (Nat × Nat × Bool)
  deriving DecidableEq, Repr

/-- Errors of one copy of a line that nothing has found yet (R352, R367): a bit for each 8-byte word that holds a corrected
error, and for each that holds an uncorrectable one; and for a carriage-check mismatch a bit for each byte of its chunk that
has not been written since. -/
structure Err where
  corr : Nat
  unc : Nat
  car : Nat
  deriving DecidableEq, Repr

def Err.none : Err := ⟨0, 0, 0⟩

/-- The errors of the copy in the shared SRAM, and of the storage behind it. -/
structure Latent where
  copy : Err
  back : Err
  deriving DecidableEq, Repr

def Latent.none : Latent := ⟨Err.none, Err.none⟩

/-- The gang barrier record (R245). -/
structure Barrier where
  gen : BitVec 16
  npart : BitVec 32
  arrived : BitVec 32
  part : BitVec 32
  deriving DecidableEq, Repr

/-- A saved gang (R329 to R337, log 18): for each member its hart, or none once it has exited, its tiles and its matrix
commands; their order in the queues; the barrier; the B-store window of each core of the gang; the grant. -/
structure Image where
  /-- the image as it is written: little-endian words, header first (R329, R330) -/
  words : List Word
  /-- the cluster of the save, whose scratchpad units a collective in flight still names (R295) -/
  cluster : Nat
  harts : List (Option Hart)
  tiles : List (Table Nat)
  cmds : List (List MCmd)
  /-- for each core of the gang the members whose commands stood in its queue, in order (R238) -/
  order : List (List Nat)
  windows : List (Table Nat)
  bar : Barrier
  grant : Word
  exits : List (Nat × BitVec 32)
  live : BitVec 32
  /-- the first cause that terminated a member (R326) -/
  term : Option (BitVec 8)
  deriving DecidableEq, Repr

/-- A slate in a queue (R259, R262). -/
structure QSlate where
  launch : Nat
  /-- the address of its words (R330) -/
  addr : Word
  words : List Word
  eff : Nat
  waited : Nat
  condRead : Bool
  /-- whether every DEP was met when they were last read (R262) -/
  ready : Bool
  /-- a DEP was read unmet since the last quantum boundary (R262) -/
  unmet : Bool
  order : Nat
  image : Option Image
  /-- a termination that named the slate while it waited (R357) -/
  term : Option (BitVec 8)
  deriving DecidableEq, Repr

/-- A placed gang (R17, R28, R264). -/
structure Gang where
  slate : QSlate
  cluster : Nat
  cores : List Nat
  members : List Nat
  /-- tiles of each member, and by core of the gang the TCM and B-store units; the scratchpad units -/
  tiles : List (BitVec 8)
  tcm : List (List Nat)
  bst : List (List Nat)
  spad : List Nat
  g : Nat
  /-- grants posted: epoch and G (R28, R265) -/
  posts : List (Nat × Nat)
  grant : Word
  bar : Barrier
  live : BitVec 32
  exits : List (Nat × BitVec 32)
  term : Option (BitVec 8)
  /-- a termination that has not acted yet, with its cause (R357) -/
  stopReq : Option (BitVec 8)
  deriving DecidableEq, Repr

/-- An error record (R366). -/
structure RasRec where
  w0 : Word
  w1 : Word
  w2 : Word
  w3 : Word
  deriving DecidableEq, Repr

/-- A service event record (R371). -/
structure EvtRec where
  w0 : Word
  w1 : Word
  deriving DecidableEq, Repr

/-- The cache share of a partition on one die (R275). -/
structure Share where
  pcache : Word
  bt : List Nat
  deriving DecidableEq, Repr

/-- The error and event queues of a partition (R366, R367, R371). -/
structure PQueues where
  rasCnt : Word
  ras : List RasRec
  rasLost : Nat
  rasIen : Bool
  rasInj : Word
  evt : List EvtRec
  evtLost : Nat
  evtIen : Bool
  deriving DecidableEq, Repr

/-- The power record of a partition (R280, R281, R376). `forced` holds the causes that force its step, none twice. -/
structure Power where
  budget : Nat
  sprio : BitVec 3
  step : Nat
  measured : Nat
  steps : Nat
  forced : List Nat
  deriving DecidableEq, Repr

/-- A partition (R274). -/
structure Partition where
  exists_ : Bool
  cores : List Nat
  asids : List Nat
  pages : List (Nat × Nat)
  reserve : List Nat
  ports : List Nat
  /-- the 64 KiB scratchpad units that it owns of clusters split between partitions: cluster and unit -/
  units : List (Nat × Nat)
  hbmw : BitVec 8
  netw : BitVec 8
  linkw : BitVec 8
  accepted : Word
  posted : Bool
  shares : Table Share
  queue : List QSlate
  pq : PQueues
  power : Power
  deriving DecidableEq, Repr

def PQueues.reset : PQueues := ⟨0, [], 0, false, 0, [], 0, false⟩

def Partition.none_ : Partition :=
  ⟨false, [], [], [], [], [], [], 0, 0, 0, 0, false, [], [], PQueues.reset, ⟨0, 0, 0, 0, 0, []⟩⟩

/-- What is registered for an ASID (R85, R309, R310). -/
structure Asid where
  root : Option Nat
  vector : Word
  version : Nat
  /-- the partition that had it last (R309) -/
  last : Option Nat
  deriving DecidableEq, Repr

/-- A Swieb Link port (R283, R373). -/
structure Port where
  up : Bool
  spareUsed : Bool
  retraining : Bool
  deriving DecidableEq, Repr

/-- A frame that its receiver has not acknowledged (R288): its bytes as they were sent, how often they were sent again, and,
under ZC, its generation and the bytes that it codes (R290). -/
structure Unacked where
  seq : Nat
  bytes : List Byte
  resends : Nat
  tg : Nat
  plain : List Byte
  deriving DecidableEq, Repr

/-- A command of engine 1 or 2 that waits for something from outside: the member of the gang that pushed it, its context,
the engine, and the command's entries. -/
structure Pending where
  launch : Nat
  member : Nat
  asid : Nat
  user : Bool
  part : Nat
  eng : Nat
  entries : List Word
  deriving DecidableEq, Repr

/-- A handshake in progress (R286, R287): the private key, messages 1 and 2, and the REKEY that asked for it. A responder has
answered once message 2 is sent. -/
structure Handshake where
  initiator : Bool
  answered : Bool
  priv : List Byte
  msg1 : List Byte
  msg2 : List Byte
  cmd : Option Pending
  deriving DecidableEq, Repr

/-- A message whose bytes are not yet all in frames (R288), and the SEND that waits for that; a collective's has none. -/
structure Sending where
  cmd : Option Pending
  chunks : List (List Byte)
  zc : Bool
  deriving DecidableEq, Repr

/-- A frame accepted ahead of one before it: its SEQ, its generation and its payload (R288). -/
structure Early where
  seq : Nat
  tg : Nat
  payload : List Byte
  deriving DecidableEq, Repr

/-- A message of a session: the bytes of a SEND, or what a collective sends (R293, R294). -/
inductive LinkMsg where
  | bytes (l : List Byte)
  | contribution (c : Contribution)
  | answer (a : CollectiveAnswer)
  deriving DecidableEq, Repr

/-- A session (R286 to R290, R374). `part` 32 is network management on the protected port (R284). -/
structure Session where
  port : Nat
  peer : Nat
  part : Nat
  initiator : Bool
  opened : Bool
  hs : Option Handshake
  keys : List Byte
  /-- the peer's number for the session -/
  remote : Nat
  txSeq : Nat
  rxNext : Nat
  rxHigh : Nat
  rxSeen : List Nat
  early : List Early
  /-- bytes received in order that do not end a message yet, whole messages of SENDs, and those of collectives -/
  asm : List Byte
  inbox : List (List Byte)
  came : List LinkMsg
  unacked : List Unacked
  /-- generation, its table, whether no frame has carried it yet, compressed frames and symbols acknowledged under it -/
  tg : Nat
  table : List Byte
  fresh : Bool
  acked : Nat
  counts : Table Nat
  rxTables : Table (List Byte)
  opener : Option Pending
  sends : List Sending
  recvs : List Pending
  deriving DecidableEq, Repr

/-- A collective in flight on this module (R293 to R295). -/
structure Collective where
  cmd : Pending
  group : Nat
  members : BitVec 48
  wire : Word
  count : Nat
  root : Option Nat
  own : List (BitVec 32)
  parts : List (Nat × List (BitVec 32))
  deriving DecidableEq, Repr

/-- A group (R293): sessions of the members and the module's own index. -/
structure Group where
  sids : List Nat
  self : Nat
  deriving DecidableEq, Repr

/-- How a frame travels: after the Ethernet header, or in a UDP datagram (R283). -/
inductive Carriage where
  | ethernet (etherType : Nat)
  | udp (port : Nat)
  deriving DecidableEq, Repr

/-- A frame that left a port (R283). -/
structure SentFrame where
  port : Nat
  via : Carriage
  bytes : List Byte
  deriving DecidableEq, Repr

/-- Link state of the module (R283 to R296, R371 to R375). -/
structure Links where
  ports : Table Port
  protectedPort : Option Nat
  sessions : Table Session
  groups : Table Group
  colls : List Collective
  held : List Contribution
  /-- frames that have left, oldest first -/
  sent : List SentFrame
  nextSid : Nat
  /-- the EtherType and the UDP port that Burxus configures (R283), and its peer tables: the identity key of entry `i` of
  partition `p` is at 1024 p + i, partition 32 being network management (R286) -/
  etherType : Nat
  udpPort : Nat
  peers : Table (List Byte)
  deriving DecidableEq, Repr

/-- Management state (R307 to R312, R366, R376 to R379). -/
structure Mgmt where
  powered : Bool
  stage : Nat
  held : Bool
  failed : Nat
  owner : Option HostAgent
  handover : Option HostAgent
  attached : Bool
  versions : Table Nat
  mailbox : Table (List Word)
  /-- the debug port's last answer: 0 OK, 1 BUSY, 2 REFUSED, 3 FAULT, and the value read (log 16) -/
  answer : Nat × Nat
  seq : Nat
  limit : Nat
  boardLimit : Nat
  hot : Bool
  noFlow : Bool
  /-- the module's measured power in milliwatts (R281, log 26) -/
  drawn : Nat
  mgmtSpare : Bool
  /-- spares of clusters that have failed or have taken over a core (R11, R379) -/
  spares : Table Bool
  /-- the eight words of the bring-up report (R379), as numbers: words 1 and 2 are masks of 80 bits (log 71) -/
  report : List Nat
  /-- the MBOLUX images that Burxus has translated: the ASID, and the address and length of the translated code (R316) -/
  images : List (Nat × Nat × Nat)
  deriving DecidableEq, Repr

/-- Physical placement facts that survive slates (R92, R354, R358, R359, R96). -/
structure Storage where
  mem : Memory
  poison : Table Bool
  latent : Table Latent
  lines : Table Line
  retired : List (Nat × Option Nat)
  /-- quarantined ways and locked ways that wait for quarantine: die * 2048 + bank * 16 + way -/
  quar : List Nat
  quarLater : List Nat
  spareBanks : Table Nat
  tags : Table (BitVec 16)
  /-- what the last read of a host agent returned, and whether CXL poison was signalled (R354) -/
  hostRead : List Byte × Bool
  deriving DecidableEq, Repr

/-- What acts next when no input is pending (log 3). -/
inductive Turn where
  | hart (n : Nat)
  /-- the member that waits to enter hart slot `n` behind an old slate (R33) -/
  | ahead (n : Nat)
  | matrix (c : Nat)
  | stream (h m : Nat)
  | engine (h e : Nat)
  | dispatcher
  deriving DecidableEq, Repr

/-- What the world or the schedule does next (log 3, log 5). -/
inductive Input where
  /-- a step of the opcode table's event rows -/
  | event (i : Instr)
  /-- the named agent acts next -/
  | act (t : Turn)
  /-- whether writes of harts stay held until something orders or performs them (log 5) -/
  | hold (on : Bool)
  /-- the `n`-th held write of an agent of a hart becomes visible -/
  | perform (hart : Nat) (ag : Agent) (n : Nat)
  /-- control clocks pass -/
  | elapse (n : Nat)
  /-- the front end of a hart takes in the next load of its uncommitted region (R30) -/
  | runAhead (hart : Nat)
  /-- a call frame of a host agent with any function number (R307, R310) -/
  | frame (fn : Nat) (f : CallFrame)
  deriving DecidableEq, Repr

/-- The whole machine. -/
structure State where
  harts : Table Hart
  /-- members that are placed in hart slots whose old slate has not yet completed (R33, R266) -/
  ahead : Table (Option Hart)
  cores : Table Core
  sto : Storage
  parts : Table Partition
  asids : Table Asid
  gangs : Table Gang
  links : Links
  mgmt : Mgmt
  nextLaunch : Nat
  order : Nat
  /-- control clocks since module reset (R304) -/
  clock : Nat
  /-- scheduling quanta so far (R262) -/
  quanta : Nat
  /-- MODEL'S OWN: the hart whose words the constructors of scalar and vector words act on (log 3) -/
  cur : Nat
  /-- MODEL'S OWN: who acts when no input is pending (log 3) -/
  turn : Turn
  /-- MODEL'S OWN: pending inputs, soonest first (log 3) -/
  inputs : List Input
  /-- MODEL'S OWN: writes are held (log 5) -/
  holding : Bool
  /-- MODEL'S OWN: free values drawn so far (log 8) -/
  free : Nat
  deriving DecidableEq, Repr

/-- Why the machine stops with a fault. -/
inductive Fault where
  /-- A trap of a hart in firmware mode: it is handled by Burxus and follows none of R323. Raised by trap entry. Safe. -/
  | firmwareTrap
  deriving DecidableEq, Repr

/-- Why a step is refused. -/
inductive Refusal where
  /-- No meaning written yet. Raised by exec's arms only. Safe. -/
  | notModelled (mnemonic : String)
  deriving DecidableEq, Repr

/-- Module state after reset (R378, R379, R312): stage 1 of bring-up begun, no owner, no partition. -/
def Mgmt.reset : Mgmt :=
  ⟨true, 1, false, 0, none, none, false, [], [], (0, 0), 0, 3200, 3200, false, false, 0, true, [],
    [0x0800000000000000, 0, 0, 0, 0, 0, 0, 0], []⟩

def Storage.reset : Storage := ⟨[], [], [], [], [], [], [], [], [], ([], false)⟩

def Links.reset : Links := ⟨[], none, [], [], [], [], [], 1, 0, 0, []⟩

/-- The machine right after module reset (R378): bring-up at stage 1, nothing placed. How a program comes to run from here
is log 1. -/
def State.reset : State :=
  { harts := [], ahead := [], cores := [], sto := Storage.reset, parts := [], asids := [], gangs := [], links := Links.reset,
    mgmt := Mgmt.reset, nextLaunch := 1, order := 0, clock := 0, quanta := 0, cur := 0, turn := .hart 0, inputs := [],
    holding := false, free := 0 }

end Sys2Proof.Machine
end

