-- ==== Sys2Proof/Machine/Regs.lean ====
section
/-!
DEFINITION. Reading and writing the registers of a hart and the records of the module: every access to a register file goes
through these accessors, which hold its special behaviour (R35, R36, R39, R41, R42, R44).
-/
namespace Sys2Proof.Machine

/-- One step's outcome. -/
abbrev Out := Host.Outcome State Fault Refusal

def State.hart (s : State) (n : Nat) : Hart := Table.get Hart.idle s.harts n
def State.setHart (s : State) (n : Nat) (h : Hart) : State := { s with harts := Table.set Hart.idle s.harts n h }
def State.updHart (s : State) (n : Nat) (f : Hart → Hart) : State := s.setHart n (f (s.hart n))

def State.core (s : State) (n : Nat) : Core := Table.get Core.reset s.cores n
def State.setCore (s : State) (n : Nat) (c : Core) : State := { s with cores := Table.set Core.reset s.cores n c }
def State.updCore (s : State) (n : Nat) (f : Core → Core) : State := s.setCore n (f (s.core n))

def State.part (s : State) (n : Nat) : Partition := Table.get Partition.none_ s.parts n
def State.updPart (s : State) (n : Nat) (f : Partition → Partition) : State :=
  { s with parts := Table.set Partition.none_ s.parts n (f (s.part n)) }

/-- An ASID nobody has named: no level-1 table, no vector, version 1 (R85, R309). -/
def Asid.unnamed : Asid := ⟨none, 0, 1, none⟩
def State.asid (s : State) (n : Nat) : Asid := Table.get Asid.unnamed s.asids n
def State.updAsid (s : State) (n : Nat) (f : Asid → Asid) : State :=
  { s with asids := Table.set Asid.unnamed s.asids n (f (s.asid n)) }

/-- The member that waits to enter a hart slot behind an old slate (R33). -/
def State.aheadOf (s : State) (n : Nat) : Option Hart := Table.get none s.ahead n
def State.setAhead (s : State) (n : Nat) (a : Option Hart) : State := { s with ahead := Table.set none s.ahead n a }

/-- A record that stands for "no gang of this launch number". -/
def Gang.none_ : Gang := ⟨⟨0, 0, [], 0, 0, false, false, false, 0, none, none⟩, 0, [], [], [], [], [], [], 1, [], 0, ⟨0, 0, 0, 0⟩, 0, [], none, none⟩
def State.gang (s : State) (n : Nat) : Gang := Table.get Gang.none_ s.gangs n
def State.updGang (s : State) (n : Nat) (f : Gang → Gang) : State :=
  { s with gangs := Table.set Gang.none_ s.gangs n (f (s.gang n)) }
def State.dropGang (s : State) (n : Nat) : State := { s with gangs := Table.set Gang.none_ s.gangs n Gang.none_ }

/-- The core, the cluster (0 to 19) and the die of a hart (R11, R17). -/
def coreOf (n : Nat) : Nat := n / 4
def clusterOf (core : Nat) : Nat := core / 8
def dieOf (core : Nat) : Nat := core / 40

/-- A free value is drawn (log 8). -/
def State.draw (s : State) : Nat × State := (s.free, { s with free := s.free + 1 })

/-! ### Scalar and condition registers (R35, R36) -/

def Hart.rdS (h : Hart) (r : SReg) : Word := if r = 0#5 then 0 else Table.get 0 h.sc.s r.toNat

def Hart.wrS (h : Hart) (r : SReg) (v : Word) : Hart :=
  if r = 0#5 then h else { h with sc := { h.sc with s := Table.set 0 h.sc.s r.toNat v } }

def Hart.rdC (h : Hart) (r : CReg) : Bool := r = 0#4 ∨ h.sc.c.getLsbD r.toNat

/-- One bit of a condition word replaced. -/
def setBit16 (x : BitVec 16) (n : Nat) (b : Bool) : BitVec 16 :=
  if b then x ||| (1#16 <<< n) else x &&& ~~~(1#16 <<< n)

def Hart.wrC (h : Hart) (r : CReg) (b : Bool) : Hart :=
  if r = 0#4 then h else { h with sc := { h.sc with c := setBit16 h.sc.c r.toNat b } }

/-- The pair write of CMP and FCMP (R144). -/
def Hart.wrPair (h : Hart) (cd : CReg) (b : Bool) : Hart := (h.wrC cd b).wrC (cd + 1#4) (!b)

/-- The guard of a scalar word (R127). -/
def Hart.guard (h : Hart) (g : SG) : Bool :=
  g.tt.getLsbD (4 * (h.rdC g.ca).toNat + 2 * (h.rdC g.cb).toNat + (h.rdC g.cc).toNat)

/-- A breakpoint that RESUME had to pass at an issue unit; one at an element of a convoy is another (R299). -/
def atUnit : Option (Word × Option Nat) → Option (Word × Option Nat)
  | some (_, none) => none
  | b => b

/-- A scalar instruction commits and the PC moves on. A breakpoint that RESUME had to pass before it is behind it (R299). -/
def Hart.setPc (h : Hart) (pc : Word) : Hart := { h with sc := { h.sc with pc := pc }, q := { h.q with skipBp := atUnit h.q.skipBp } }

/-- The next issue unit after a scalar word (R18). -/
def Hart.nextPc (h : Hart) : Hart := h.setPc (h.sc.pc + 8)

/-- Flags are ORed into FFLAGS (R54). -/
def Hart.flags (h : Hart) (f : BitVec 6) : Hart := { h with sc := { h.sc with fflags := h.sc.fflags ||| f } }

def Hart.setLatch (h : Hart) : Hart := { h with sc := { h.sc with latch := true } }

/-- TSTAT fields (R57). -/
def tstatIE (t : Word) : Bool := t.getLsbD 0
def tstatPIE (t : Word) : Bool := t.getLsbD 1
def tstatPMode (t : Word) : Nat := fld t 3 2
def tstatINCV (t : Word) : Bool := t.getLsbD 6
def tstatINBF (t : Word) : Bool := t.getLsbD 7

def modeCode : Mode → Nat
  | .user => 0 | .sup => 1 | .fw => 2

def modeOf (n : Nat) : Mode := if n = 0 then .user else if n = 1 then .sup else .fw

/-- A TSTAT value (R57). -/
def tstatOf (inmm inbf incv : Bool) (pmode : Nat) (pie ie : Bool) : Word :=
  w64 (256 * inmm.toNat + 128 * inbf.toNat + 64 * incv.toNat + 4 * pmode + 2 * pie.toNat + ie.toNat)

/-! ### Vector shape (R27, R37, R50) -/

/-- NREG from its code (R51). -/
def nregOf (c : BitVec 2) : Nat := 8 * 2 ^ c.toNat

/-- VLEN in bits (R27). -/
def vlenOf (g : Nat) (nreg : BitVec 2) : Nat := 16 * g * 8192 / nregOf nreg

/-- The hart's own VLEN (R27), and the one that its program sees: of a translated image, that of its virtual machine (R315, R316). -/
def Hart.physVlen (h : Hart) : Nat := vlenOf h.shape.g h.shape.nreg
def Hart.vlen (h : Hart) : Nat := if h.shape.virt then 16384 else h.physVlen

/-- The vector registers that a hart's program sees (R51, R315). -/
def Hart.nregs (h : Hart) : Nat := if h.shape.virt then 32 else nregOf h.shape.nreg

/-- VTYPE fields (R50). -/
def vtSew (t : Word) : Nat := 8 * 2 ^ fld t 1 0
def vtLmul (t : Word) : Nat := 2 ^ fld t 7 6
def vtFk (t : Word) : Nat := fld t 5 4
def vtTp (t : Word) : Bool := t.getLsbD 8
def vtMp (t : Word) : Bool := t.getLsbD 9
def vtBlk (t : Word) : Nat := fld t 12 10
def vtSlc (t : Word) : Nat := fld t 15 13
/-- The block shift (R42, R50). -/
def vtShift (t : Word) : Nat := vtBlk t + 3

/-- R50: a legal type. -/
def vtLegal (t : Word) : Bool :=
  decide (fld t 63 16 = 0 ∧ 3 ≤ vtSlc t ∧ vtBlk t ≤ 5 ∧ fld t 3 2 = 0 ∧ (vtFk t = 0 ∨ (vtFk t = 1 ∧ fld t 1 0 ≤ 1)))

/-- VLMAX (R27). -/
def vlmaxOf (vlen : Nat) (t : Word) : Nat := min 4096 (vlen * vtLmul t / vtSew t)

/-! ### Vector registers (R38, R39, R44, R334) -/

/-- Register n as an image; clear when its VDIRTY bit is clear (R39). -/
def Hart.rdV (h : Hart) (n : Nat) : Nat := if h.vec.vdirty.getLsbD n then Table.get 0 h.vec.v n else 0

def setBit64 (x : BitVec 64) (n : Nat) : BitVec 64 := x ||| (1#64 <<< n)

/-- Register n replaced, VDIRTY set (R39). -/
def Hart.wrV (h : Hart) (n : Nat) (x : Nat) : Hart :=
  { h with vec := { h.vec with v := Table.set 0 h.vec.v n x, vdirty := setBit64 h.vec.vdirty n } }

/-- Element `i` of width `w` of the group that starts at register `r` (R38). -/
def Hart.rdE (h : Hart) (r i w : Nat) : Nat :=
  let b := i * w
  imgGet (h.rdV (r + b / h.vlen)) (b % h.vlen) w

/-- The count of bytes that may be nonzero (R334). -/
def Hart.raiseHwb (h : Hart) (n : Nat) : Hart := { h with vec := { h.vec with vhwb := max h.vec.vhwb n } }

/-- Writes element `i` of the group at `r` (R38, R334). -/
def Hart.wrE (h : Hart) (r i w x : Nat) : Hart :=
  let b := i * w
  let n := r + b / h.vlen
  let off := b % h.vlen
  (h.wrV n (imgSet (h.rdV n) off w x)).raiseHwb ((off + w) / 8)

def Hart.binding (h : Hart) (n : Nat) : Binding := Table.get Binding.clear h.vec.vbr n
def Hart.setBinding (h : Hart) (n : Nat) (b : Binding) : Hart :=
  { h with vec := { h.vec with vbr := Table.set Binding.clear h.vec.vbr n b } }

/-- Clears the records of registers `r` to `r + n − 1` (R44). -/
def Hart.unbind (h : Hart) (r n : Nat) : Hart := (upTo r (r + n)).foldl (fun h i => h.setBinding i Binding.clear) h

/-- The tail of a group of `n` registers from byte position `from_` (in bits) on is written with ones (R158). The registers
written lose their records (R44). Where no element group has committed, only registers whose VDIRTY bit is set take the
bytes, no bit is set, and no record changes (R39, R44; log 9). -/
def Hart.wrTail (h : Hart) (committed : Bool) (r n from_ : Nat) : Hart :=
  (upTo 0 n).foldl (fun h j =>
    let lo := if from_ ≤ j * h.vlen then 0 else min h.vlen (from_ - j * h.vlen)
    if lo < h.vlen ∧ (committed ∨ h.vec.vdirty.getLsbD (r + j)) then
      let h := (h.wrV (r + j) (imgSet (h.rdV (r + j)) lo (h.vlen - lo) (ones (h.vlen - lo)))).raiseHwb (h.vlen / 8)
      if committed then h.setBinding (r + j) Binding.clear else h
    else h) h

/-! ### Predicate registers (R40, R41) -/

/-- p(n): all ones for p0, zeros while its mark is clear. -/
def Hart.rdP (h : Hart) (n : Nat) : Nat :=
  if n = 0 then ones 4096 else if h.vec.plive.getLsbD n then Table.get 0 h.vec.p n else 0

def Hart.pBit (h : Hart) (n e : Nat) : Bool := n = 0 ∨ (h.rdP n).testBit e

/-- The register's bits are replaced; the mark is not touched, a register whose mark is clear still reads zeros (R197). -/
def Hart.wrPraw (h : Hart) (n x : Nat) : Hart :=
  if n = 0 then h
  else if h.vec.plive.getLsbD n then { h with vec := { h.vec with p := Table.set 0 h.vec.p n x } } else h

/-- The mark is set; a register marked afresh starts from zeros (R41, log 9). -/
def Hart.mark (h : Hart) (n : Nat) : Hart :=
  if n = 0 then h
  else if h.vec.plive.getLsbD n then h
  else { h with vec := { h.vec with plive := h.vec.plive ||| (1#128 <<< n), p := Table.set 0 h.vec.p n 0 } }

/-- The mark and the register are cleared (R41). -/
def Hart.kill (h : Hart) (n : Nat) : Hart :=
  { h with vec := { h.vec with plive := h.vec.plive &&& ~~~(1#128 <<< n), p := Table.set 0 h.vec.p n 0 } }

/-- The guard of a vector word at element e (R127). -/
def Hart.vguard (h : Hart) (g : VG) (e : Nat) : Bool :=
  g.tt.getLsbD (4 * (h.pBit g.pa.toNat e).toNat + 2 * (h.pBit g.pb.toNat e).toNat + (h.pBit g.pc.toNat e).toNat)

/-! ### Scale registers (R42 to R44) -/

def Hart.kEnt (h : Hart) (k : KReg) (j : Nat) : Nat := imgGet (Table.get 0 h.vec.k k.toNat) (8 * j) 8
def Hart.setKEnt (h : Hart) (k : KReg) (j v : Nat) : Hart :=
  { h with vec := { h.vec with k := Table.set 0 h.vec.k k.toNat (imgSet (Table.get 0 h.vec.k k.toNat) (8 * j) 8 v) } }
def Hart.kgen (h : Hart) (k : KReg) : BitVec 8 := Table.get 0 h.vec.kgen k.toNat

/-- KGEN advances; the wrap from 255 marks every valid record of the register stale (R42, R44). -/
def Hart.advance (h : Hart) (k : KReg) : Hart :=
  let wrap := h.kgen k = 255#8
  let h := { h with vec := { h.vec with kgen := Table.set 0 h.vec.kgen k.toNat (h.kgen k + 1#8) } }
  if wrap then
    (upTo 0 64).foldl (fun h n =>
      let b := h.binding n
      if b.valid ∧ b.kreg = k then h.setBinding n { b with stale := true } else h) h
  else h

/-- The record that VLDK and VBIND make (R44). -/
def Hart.bindTo (h : Hart) (r n : Nat) (k : KReg) (blk : Nat) : Hart :=
  (h.unbind r n).setBinding r ⟨BitVec.ofNat 3 blk, true, false, k, h.kgen k⟩

/-- The binding as its register reads (R43). -/
def Binding.word (b : Binding) : Word :=
  w64 (b.blk.toNat * 65536 + b.valid.toNat * 32768 + b.stale.toNat * 16384 + b.kreg.toNat * 256 + b.gen.toNat)

/-! ### Operator, sequence, stream and engine registers -/

def Hart.rdO (h : Hart) (r : OReg) : BitVec 32 := Table.get 0 h.vec.o r.toNat
def Hart.wrO (h : Hart) (r : OReg) (v : BitVec 32) : Hart := { h with vec := { h.vec with o := Table.set 0 h.vec.o r.toNat v } }
def Hart.rdQ (h : Hart) (r : QReg) : BitVec 128 := Table.get qReset h.vec.q r.toNat
def Hart.wrQ (h : Hart) (r : QReg) (v : BitVec 128) : Hart :=
  { h with vec := { h.vec with q := Table.set qReset h.vec.q r.toNat v } }

def Hart.stream (h : Hart) (m : Nat) : Stream := Table.get Stream.idle h.str m
def Hart.setStream (h : Hart) (m : Nat) (x : Stream) : Hart := { h with str := Table.set Stream.idle h.str m x }
def Hart.engine (h : Hart) (e : Nat) : Engine := Table.get Engine.empty h.eng e
def Hart.setEngine (h : Hart) (e : Nat) (x : Engine) : Hart := { h with eng := Table.set Engine.empty h.eng e x }

/-- The slot whose stream is bound to register r, if any (R193 to R195). -/
def Hart.boundSlot (h : Hart) (r : Nat) : Option Nat :=
  (upTo 0 8).find? fun m => (h.stream m).bound && decide ((h.stream m).vreg.toNat = r)

end Sys2Proof.Machine
end

