-- ==== Sys2Proof/Machine/Errors.lean ====
section
/-!
DEFINITION. Where bytes live and what happens to lines and errors: the physical map (R88), the shared SRAM (R91 to R93,
R276, R368), poison (R354), the detection of errors (R352, R355, R357 to R359), and the records of R366 and R371.

Every byte of storage has one location number: a physical address below 2^52, or one of the spaces below.
-/
namespace Sys2Proof.Machine

/-- Locations of the TCM of a core and of the scratchpad of a cluster (R89), and of a partition's window (R92). -/
def tcmLoc (core off : Nat) : Nat := 2 ^ 60 + core * 2 ^ 21 + off
def spadLoc (cluster off : Nat) : Nat := 2 ^ 61 + cluster * 2 ^ 24 + off
def winLoc (part die off : Nat) : Nat := 2 ^ 62 + (part * 4 + die) * 2 ^ 29 + off

/-- What kind of storage a location lies in (R88, R89). -/
inductive Place where
  | hbm | lpddr | host | window | spad | tcm | none
  deriving DecidableEq, Repr

/-- R88 for physical addresses, and the model's local spaces. -/
def placeOf (loc : Nat) : Place :=
  if 2 ^ 62 ≤ loc then .window
  else if 2 ^ 61 ≤ loc then .spad
  else if 2 ^ 60 ≤ loc then .tcm
  else if loc < 2 ^ 39 then .hbm
  else if 0x10000000000 ≤ loc ∧ loc < 0x28000000000 then .lpddr
  else if 0x8000000000000 ≤ loc ∧ loc < 2 ^ 52 then .host
  else .none

/-- The die of a physical address in the shared SRAM windows, and the offset in that window (R88). -/
def windowOf (pa : Nat) : Option (Nat × Nat) :=
  if 0x40000000000 ≤ pa ∧ pa < 0x40080000000 then some ((pa - 0x40000000000) / 2 ^ 29, pa % 2 ^ 29) else none

/-- The home die of a cacheable address (R88). -/
def homeDie (pa : Nat) : Nat := if pa < 2 ^ 39 then pa / 4096 % 8 / 2 else pa / 4096 % 4

/-- The partition that owns the 64 KiB page of a physical address (R274). -/
def State.pageOwner (s : State) (pa : Nat) : Option Nat :=
  (s.parts.find? fun e => e.2.exists_ && (e.2.pages.any fun r => decide (r.1 ≤ pa / 65536 ∧ pa / 65536 < r.1 + r.2))).map (·.1)

/-- The partition that owns a core (R274). -/
def State.coreOwner (s : State) (c : Nat) : Option Nat :=
  (s.parts.find? fun e => e.2.exists_ && e.2.cores.contains c).map (·.1)

/-- PCACHE fields (R275). -/
def Share.ways (x : Share) : Nat := fld x.pcache 63 48
def Share.n (x : Share) : Nat := fld x.pcache 39 32
def Share.lock (x : Share) : Nat := fld x.pcache 31 16
def Share.none_ : Share := ⟨0, []⟩
def Partition.share (p : Partition) (die : Nat) : Share := Table.get Share.none_ p.shares die

/-- The bank and set of a line under a share (R276). -/
def Share.bankSet (x : Share) (l : Nat) : Nat × Nat := ((x.bt[l % x.n]?).getD 0, l / x.n % 2048)

/-- The bytes that a window of a partition has on a die (R92). -/
def Share.windowSize (x : Share) : Nat := popcount 16 x.lock * x.n * 262144

/-- Key of a way in the quarantine lists (R359). -/
def wayKey (die bank way : Nat) : Nat := (die * 128 + bank) * 16 + way

/-- A frame of HBM4E or LPDDR 6 that is retired (R358). -/
def State.isRetired (s : State) (loc : Nat) : Bool := (s.sto.retired.any fun r => r.1 == loc / 65536) && decide (loc < 2 ^ 52)

def State.poisoned (s : State) (loc : Nat) : Bool := Table.get false s.sto.poison (loc / 8)

def State.setPoison (s : State) (loc : Nat) (b : Bool) : State :=
  { s with sto := { s.sto with poison := Table.set false s.sto.poison (loc / 8) b } }

/-- Data of a poisoned word reads as zero (R354). -/
def State.poisonWord (s : State) (loc : Nat) : State :=
  { s with sto := { s.sto with poison := Table.set false s.sto.poison (loc / 8) true, mem := Memory.write s.sto.mem (loc / 8 * 8) 8 0 } }

def State.latent (s : State) (line : Nat) : Latent := Table.get Latent.none s.sto.latent line
def State.setLatent (s : State) (line : Nat) (x : Latent) : State :=
  { s with sto := { s.sto with latent := Table.set Latent.none s.sto.latent line x } }

/-- The words of a line that an access of `n` bytes at `loc` touches. -/
def wordMask (loc n : Nat) : Nat :=
  (upTo (loc % 128 / 8) ((min (loc % 128 + n) 128 - 1) / 8 + 1)).foldl (fun m i => m + 2 ^ i) 0

/-- The whole 64-byte chunks that the words `m` touch. -/
def chunksOf (m : Nat) : Nat := (if m % 256 = 0 then 0 else 255) + (if m / 256 % 256 = 0 then 0 else 65280)

/-- The words among `m` whose chunk fails its carriage check (R355, R367). -/
def Err.carHit (x : Err) (m : Nat) : Nat :=
  (if imgGet x.car 0 64 = 0 then 0 else m % 256) + (if imgGet x.car 64 64 = 0 then 0 else m / 256 % 256 * 256)

/-- The words of a line that a write of `n` bytes at `loc` replaces whole: `keep` has the bits that it leaves (R354, R357). -/
def wholeMask (loc n keep : Nat) : Nat :=
  (upTo 0 16).foldl (fun m i =>
    if loc % 128 ≤ 8 * i ∧ 8 * i + 8 ≤ loc % 128 + n ∧ imgGet keep (8 * (8 * i - loc % 128)) 64 = 0 then m + 2 ^ i else m) 0

/-- The errors of a copy after a write of `n` bytes at `loc` in its line: the whole words `m` lose theirs, and a carriage mismatch
the bytes that are written (R357, R367). -/
def Err.wrote (x : Err) (loc n m : Nat) : Err :=
  let b := (2 ^ n - 1) * 2 ^ (loc % 128)
  ⟨x.corr - (x.corr &&& m), x.unc - (x.unc &&& m), x.car - (x.car &&& b)⟩

def State.line? (s : State) (line : Nat) : Option Line := (s.sto.lines.find? fun e => e.1 == line).map (·.2)

def lineNone : Line := ⟨0, 0, 0, 16, false, 0, none, []⟩
def State.setLine (s : State) (line : Nat) (x : Line) : State := { s with sto := { s.sto with lines := Table.set lineNone s.sto.lines line x } }
def State.dropLine (s : State) (line : Nat) : State := { s with sto := { s.sto with lines := Table.set lineNone s.sto.lines line lineNone } }

/-- Whether the shared SRAM holds a copy of a line of memory. -/
def State.cachedHere (s : State) (line : Nat) : Bool := (s.line? line).isSome && decide (placeOf (line * 128) ≠ .window)

/-- The errors of the copy that holds a line (R367). -/
def State.errOf (s : State) (line : Nat) : Err := if s.cachedHere line then (s.latent line).copy else (s.latent line).back
def State.setErr (s : State) (line : Nat) (e : Err) : State :=
  s.setLatent line (if s.cachedHere line then { (s.latent line) with copy := e } else { (s.latent line) with back := e })

/-! ### Copies in a core (R93, R94) -/

/-- A core gives up its copies of a line: in its L1D and in gathered lines that cover it. -/
def Core.forget (c : Core) (line : Nat) : Core :=
  { c with l1d := c.l1d.filter (· != line), gathered := c.gathered.filter fun g => !g.lines.contains line }

/-- The recorded core gives up its copies of a line. -/
def State.dropCopies (s : State) (line : Nat) : State :=
  match s.line? line with
  | some l => (match l.l1 with | some c => s.updCore c fun k => k.forget line | none => s)
  | none => s

/-- A line is recorded as present in a core; another core's copies are given up first. -/
def State.present (s : State) (line c : Nat) : State :=
  match s.line? line with
  | some l => (if l.l1 = some c then s else s.dropCopies line).setLine line { l with l1 := some c }
  | none => s

/-- A list with a new head, which loses an entry when it is full: the victim is open (log 8). -/
def insertCap {α : Type} (cap k : Nat) (x : α) (l : List α) : List α := if l.length < cap then x :: l else x :: l.eraseIdx (k % cap)

/-- Lines of an L1 cache (R12). -/
def l1Lines : Nat := 512

/-- A line enters the L1D of a core. -/
def State.fillL1 (s : State) (line c : Nat) : State :=
  if (s.line? line).isNone then s
  else
    let s := s.present line c
    let l := (s.core c).l1d
    if l.contains line then s
    else
      let (k, t) := s.draw
      (if l.length < l1Lines then s else t).updCore c fun u => { u with l1d := insertCap l1Lines (Config.victim k) line l }

/-! ### Records (R366, R371) -/

/-- The supervisor hart that a partition's interrupts go to: the lowest-numbered running hart of a slate of MODE supervisor
(R366, R371). DEDUCED, log 20. -/
def State.supHart (s : State) (part : Nat) : Option Nat :=
  (s.harts.find? fun e => decide (e.2.q.status ≠ .free ∧ e.2.shape.part = part) &&
    decide (fld ((s.gang e.2.shape.launch).slate.words[1]?.getD 0) 44 43 = 1)).map (·.1)

/-- An interrupt is pending at a hart and sets its event latch (R256, R318). -/
def State.raiseIrq (s : State) (n : Nat) (src : Word) : State :=
  s.updHart n fun h => { h.setLatch with q := { h.q with irq := h.q.irq ++ [src] } }

def State.raisePart (s : State) (part : Nat) (src : Word) : State :=
  match s.supHart part with
  | some n => s.raiseIrq n src
  | none => s

/-- The address of a location in a record (R366). A window line has the address of R88; the spec maps neither the
scratchpad nor the TCM, so theirs is free (log 8). -/
def rasAddr (loc : Nat) : Word :=
  match placeOf loc with
  | .window => w64 (0x40000000000 + (loc - 2 ^ 62) % 2 ^ 31)
  | .spad | .tcm => Config.localAddr loc
  | _ => w64 loc

/-- Adds an error record: KIND, PLACE, owner tag, TERM, RETIRED, QUAR, address, replacement, die, bank, way (R366). -/
def State.addRas (s : State) (part : Option Nat) (kind place : Nat) (owner : BitVec 9) (term ret quar : Bool)
    (addr repl die bank way : Nat) : State :=
  match part with
  | none => s
  | some p =>
    let seq := (s.mgmt.seq + 1) % 2 ^ 32
    let s := { s with mgmt := { s.mgmt with seq := seq } }
    let w0 := w64 (2 ^ 63 + kind * 2 ^ 56 + place * 2 ^ 52 + owner.toNat * 2 ^ 43 + p * 2 ^ 38 + term.toNat * 2 ^ 37 +
      ret.toNat * 2 ^ 36 + quar.toNat * 2 ^ 35 + seq)
    let w3 := w64 (die * 2 ^ 62 + bank * 2 ^ 55 + way * 2 ^ 51)
    let q := (s.part p).pq
    if 64 ≤ q.ras.length then s.updPart p fun x => { x with pq := { q with rasLost := min 255 (q.rasLost + 1) } }
    else
      let s' := s.updPart p fun x => { x with pq := { q with ras := q.ras ++ [⟨w0, rasAddr addr, w64 repl, w3⟩] } }
      if q.ras.isEmpty ∧ q.rasIen then s'.raisePart p 1 else s'

/-- Adds a service event to one partition (R371). -/
def State.addEvt (s : State) (p kind data : Nat) : State :=
  let seq := (s.mgmt.seq + 1) % 2 ^ 32
  let s := { s with mgmt := { s.mgmt with seq := seq } }
  let q := (s.part p).pq
  if 32 ≤ q.evt.length then s.updPart p fun x => { x with pq := { q with evtLost := min 255 (q.evtLost + 1) } }
  else
    let s' := s.updPart p fun x =>
      { x with pq := { q with evt := q.evt ++ [⟨w64 (2 ^ 63 + kind * 2 ^ 56 + p * 2 ^ 51 + seq), w64 data⟩] } }
    if q.evt.isEmpty ∧ q.evtIen then s'.raisePart p 2 else s'

/-- The partitions that exist, ascending. -/
def State.partsList (s : State) : List Nat := (s.parts.filter fun e => e.2.exists_).map (·.1)

/-- A module-wide event goes to every partition (R371). -/
def State.addEvtAll (s : State) (kind data : Nat) : State := s.partsList.foldl (fun s p => s.addEvt p kind data) s

/-- A corrected error is counted (R353). -/
def State.countCorrected (s : State) (part : Option Nat) : State :=
  match part with
  | none => s
  | some p => s.updPart p fun x => { x with pq := { x.pq with rasCnt := x.pq.rasCnt + 1 } }

/-! ### Lines, quarantine and retirement -/

/-- Ways of a set that a share may allocate into (R275, R368). -/
def State.usableWays (s : State) (x : Share) (die bank : Nat) : List Nat :=
  (upTo 0 16).filter fun w => x.ways.testBit w && !x.lock.testBit w && !s.sto.quar.contains (wayKey die bank w)

/-- Whether partition `p` owns a 64 KiB unit of a cluster's scratchpad (R274): every unit where no other partition has a core of the
cluster, and of a split cluster the units that its record lists. -/
def State.ownsUnit (s : State) (p cluster unit : Nat) : Bool :=
  let l := (upTo (8 * cluster) (8 * cluster + 8)).filterMap s.coreOwner
  l.contains p && (l.all (· == p) || (s.part p).units.contains (cluster, unit))

/-- The partition of a unit of a cluster's scratchpad. -/
def State.spadOwner (s : State) (cluster unit : Nat) : Option Nat := s.partsList.find? fun p => s.ownsUnit p cluster unit

/-- The partition that a location's records go to (R366). -/
def State.locOwner (s : State) (loc : Nat) : Option Nat :=
  match placeOf loc with
  | .window => some ((loc - 2 ^ 62) / 2 ^ 31)
  | .spad => s.spadOwner ((loc - 2 ^ 61) / 2 ^ 24) ((loc - 2 ^ 61) % 2 ^ 24 / 65536)
  | .tcm => s.coreOwner ((loc - 2 ^ 60) / 2 ^ 21)
  | _ => s.pageOwner loc

/-- PLACE codes (R366). -/
def placeCode (cached : Bool) : Place → Nat
  | .hbm => if cached then 0 else 2
  | .lpddr => if cached then 0 else 3
  | .window => 1
  | .spad => 4
  | .tcm => 5
  | _ => 0

/-- How an error that is not corrected shows (R352, R355). -/
inductive Found where
  | nothing | refetch | lost | poison | carriage
  deriving DecidableEq, Repr

/-- The words that a read of the words `m` decodes: HBM4E and LPDDR 6 decode whole 64-byte chunks (R352). -/
def State.decoded (s : State) (line m : Nat) : Nat :=
  if s.cachedHere line then m
  else match placeOf (line * 128) with
    | .hbm | .lpddr => chunksOf m
    | _ => m

/-- The chunks that a failed carriage check of the words `m` loses: none that is poisoned already (R355). -/
def State.carLost (s : State) (line : Nat) (e : Err) (m : Nat) : Nat :=
  let lost := chunksOf (e.carHit m)
  if (upTo 0 16).all fun i => !lost.testBit i || s.poisoned (line * 128 + 8 * i) then 0 else lost

/-- What an access that reads the words `m` of a line finds in the copy that holds it. -/
def State.found (s : State) (line m : Nat) : Found :=
  let e := s.errOf line
  if e.unc &&& s.decoded line m ≠ 0 then
    match placeOf (line * 128), s.line? line with
    | .window, _ => .lost
    | _, some l => if l.dirty then .lost else .refetch
    | _, none => .poison
  else if s.carLost line e m ≠ 0 then .carriage
  else .nothing

/-- The same once a line that is fetched again has come from its backing store. -/
def State.meets (s : State) (line m : Nat) : Found :=
  match s.found line m with
  | .refetch =>
    let e := (s.latent line).back
    if e.unc &&& chunksOf m ≠ 0 then .poison else if s.carLost line e m ≠ 0 then .carriage else .nothing
  | f => f

/-- An error of a kind of RAS_INJ is planted in all sixteen words of the copy that holds a line (R367). -/
def State.plant (s : State) (line kind : Nat) : State :=
  let e := s.errOf line
  s.setErr line
    (if kind = 0 then { e with corr := 0xFFFF } else if kind = 1 then { e with unc := 0xFFFF } else { e with car := 2 ^ 128 - 1 })

/-- Corrected errors in the words that a read decodes are counted (R353). -/
def State.correct (s : State) (line mask : Nat) : State :=
  let e := s.errOf line
  let c := e.corr &&& s.decoded line mask
  if c = 0 then s else (s.setErr line { e with corr := e.corr - c }).countCorrected (s.locOwner (line * 128))

/-- Lines of a frame. -/
def inFrame (f line : Nat) : Bool := line / 512 == f

/-- The copy of a retired frame into its replacement, once the errors that its reads find have been detected: corrected errors are
counted, and every word goes over whole with its poison flag (R353, R354, R358). No line of either frame leaves the shared SRAM; one
of the replacement that stands there takes the new bytes and Burxus's tag, as any write gives it (R356, R368). -/
def State.copyFrame (s : State) (src dst : Nat) : State :=
  let s := ((s.sto.latent.map (·.1)).filter (inFrame src)).foldl (fun s line => s.correct line 0xFFFF) s
  let s := ((s.sto.latent.map (·.1)).filter (inFrame dst)).foldl (fun s line => s.setErr line Err.none) s
  let s := (s.sto.lines.filter fun e => inFrame dst e.1).foldl (fun s e =>
    (s.dropCopies e.1).setLine e.1 { e.2 with l1 := none, dirty := true, owner := 0x100#9, behind := [] }) s
  let t := { s with sto := { s.sto with
    mem := Memory.writeBytes s.sto.mem (dst * 65536) (Memory.readBytes s.sto.mem (src * 65536) 65536) } }
  (upTo 0 8192).foldl (fun t i => t.setPoison (dst * 65536 + 8 * i) (s.poisoned (src * 65536 + 8 * i))) t

/-- A reserve frame that can be used: neither retired nor a replacement already (R358). -/
def State.frameFresh (s : State) (f : Nat) : Bool := s.sto.retired.all fun r => r.1 != f && r.2 != some f

/-- The frame of a location is marked retired (R358): whether it was not retired yet, and where its replacement begins, 0 without
one. The detection that retires it makes the copy at its end. -/
def State.retire (s : State) (loc : Nat) : State × Bool × Nat :=
  let f := loc / 65536
  let bare (s : State) : State := { s with sto := { s.sto with retired := (f, none) :: s.sto.retired } }
  if s.isRetired loc then (s, false, 0)
  else match s.pageOwner loc with
  | none => (bare s, true, 0)
  | some p =>
    match (s.part p).reserve.find? fun r => r != f && s.frameFresh r with
    | none => (bare s, true, 0)
    | some r =>
      let s := s.updPart p fun x => { x with reserve := x.reserve.filter (· != r) }
      ({ s with sto := { s.sto with retired := (f, some r) :: s.sto.retired } }, true, r * 65536)

/-- Where a write that has begun lands: in the replacement of a frame that was retired meanwhile (R358, log 48). -/
def State.landing (s : State) (loc : Nat) : Nat :=
  match s.sto.retired.find? fun r => r.1 == loc / 65536 && decide (loc < 2 ^ 52) with
  | some (_, some r) => r * 65536 + loc % 65536
  | _ => loc

/-- The words of the storage behind a line are what they are without the copy. -/
def State.uncover (s : State) (line : Nat) (l : List (Nat × Nat × Bool)) : State :=
  l.foldl (fun s x =>
    let loc := line * 128 + 8 * x.1
    if x.2.2 then s.poisonWord loc
    else { s with sto := { s.sto with poison := Table.set false s.sto.poison (loc / 8) false, mem := Memory.write s.sto.mem loc 8 x.2.1 } }) s

/-- A line leaves the shared SRAM, its recorded copies first (R93). The errors of a clean copy go with it; a dirty one is read and
written back whole, with its check bits unchanged (R99, R353, R357, R368). -/
def State.evict (s : State) (line : Nat) : State :=
  match s.line? line with
  | none => s
  | some l =>
    if l.dirty then
      let s := s.correct line 0xFFFF
      ((s.dropCopies line).dropLine line).setLatent line ⟨Err.none, ⟨0, 0, (s.latent line).copy.car⟩⟩
    else (((s.dropCopies line).dropLine line).setLatent line ⟨Err.none, (s.latent line).back⟩).uncover line l.behind

/-- A cause is kept once it is set. -/
def keepCause (old : Option (BitVec 8)) (cause : BitVec 8) : Option (BitVec 8) :=
  match old with
  | some c => some c
  | none => some cause

/-- Every running or queued slate of an ASID is to be terminated with this cause (R357 step 2). Running gangs get a stop
request, queued slates a mark that the dispatcher acts on. -/
def State.condemn (s : State) (asid : Nat) (cause : BitVec 8) : State :=
  let names (q : QSlate) : Bool := decide (fld (q.words[1]?.getD 0) 63 56 = asid)
  { s with
    gangs := s.gangs.map fun e => if names e.2.slate then (e.1, { e.2 with stopReq := keepCause e.2.stopReq cause }) else e
    parts := s.parts.map fun e =>
      (e.1, { e.2 with queue := e.2.queue.map fun q => if names q then { q with term := keepCause q.term cause } else q }) }

/-- Whether a location lies in a way that is locked (R359). -/
def State.winWay (s : State) (loc : Nat) : Nat × Nat × Nat :=
  let p := (loc - 2 ^ 62) / 2 ^ 31
  let die := (loc - 2 ^ 62) / 2 ^ 29 % 4
  let x := (s.part p).share die
  let j := (loc - 2 ^ 62) % 2 ^ 29 / 128
  let locked := (upTo 0 16).filter fun w => x.lock.testBit w
  (die, (x.bankSet j).1, (locked[j / (2048 * x.n)]?).getD 0)

/-- Steps 1 to 3 of R357: poison, termination of the last writer's slates, retirement of the frame. A carriage mismatch
stays in the check bits that are written back (R367). The result also says where the line lay, its tag, whether a frame was
retired, and the replacement. -/
def State.losePart (s : State) (line : Nat) : State × Line × Bool × Nat :=
  let loc := line * 128
  let win := placeOf loc = .window
  let l := (s.line? line).getD lineNone
  let car := (s.errOf line).car
  let s := (s.dropCopies line).setLatent line ⟨Err.none, ⟨0, 0, car⟩⟩
  let s := (upTo 0 16).foldl (fun s i => s.poisonWord (loc + 8 * i)) s
  let s := if win then s else s.dropLine line
  let s := if l.owner.getLsbD 8 then s else s.condemn (l.owner.toNat % 256) 0x23#8
  let ram := placeOf loc = .hbm ∨ placeOf loc = .lpddr
  let (s, did, repl) := if ram then s.retire loc else (s, false, 0)
  (s, l, did, repl)

/-- A line leaves a quarantined way: written back if dirty, which finds an uncorrectable error in it (R357, R359). -/
def State.leaveWay (s : State) (line : Nat) : State :=
  if s.found line 0xFFFF = .lost then
    let own := s.locOwner (line * 128)
    let (s, l, did, repl) := s.losePart line
    s.addRas own 1 0 l.owner (!l.owner.getLsbD 8) did true (line * 128) repl l.die l.bank l.way
  else s.evict line

/-- Lines of a bank that lie in a way, and the spare that replaces a bank on its fifth quarantined way (R359). -/
def State.quarantine (s : State) (die bank way : Nat) (locked : Bool) : State :=
  if locked then { s with sto := { s.sto with quarLater := wayKey die bank way :: s.sto.quarLater } }
  else if s.sto.quar.contains (wayKey die bank way) then s
  else
    let gone := s.sto.lines.filter fun e => e.2.die == die && e.2.bank == bank && e.2.way == way
    let s := gone.foldl (fun s e => s.leaveWay e.1) s
    let s := { s with sto := { s.sto with quar := wayKey die bank way :: s.sto.quar } }
    let inBank : List Nat := s.sto.quar.filter fun k => k / 16 == die * 128 + bank
    if 5 ≤ inBank.length ∧ Table.get (0 : Nat) s.sto.spareBanks die < 4 then
      let s := { s with sto := { s.sto with quar := s.sto.quar.filter (fun k => k / 16 != die * 128 + bank), quarLater := s.sto.quarLater.filter (fun k => k / 16 != die * 128 + bank), spareBanks := Table.set 0 s.sto.spareBanks die (Table.get 0 s.sto.spareBanks die + 1) } }
      s.partsList.foldl (fun s p => if ((s.part p).share die).bt.contains bank then s.addEvt p 6 (die * 256 + bank) else s) s
    else s

/-- R357: a dirty line or a window line is lost. -/
def State.loseOne (s : State) (line kind place : Nat) (addr : Nat) : State :=
  let win := placeOf (line * 128) = .window
  let own := s.locOwner (line * 128)
  let at_ := s.winWay (line * 128)
  let (s, l, did, repl) := s.losePart line
  let (die, bank, way) := if win then at_ else (l.die, l.bank, l.way)
  let s := s.quarantine die bank way win
  s.addRas own kind place l.owner (!l.owner.getLsbD 8) did true addr repl die bank way

/-- The address of the lowest word of a line that a mask names. -/
def firstWord (loc m : Nat) : Nat := loc + 8 * ((upTo 0 16).find? fun i => m.testBit i).getD 0

/-- The words `m` of a line are poisoned. -/
def State.poisonWords (s : State) (line m : Nat) : State :=
  (upTo 0 16).foldl (fun s i => if m.testBit i then s.poisonWord (line * 128 + 8 * i) else s) s

/-- Words of a line as they stand in the storage behind it, beside those that differ from the copy already. -/
def State.hide (s : State) (line m : Nat) (l : Line) : State :=
  let new := ((upTo 0 16).filter fun i => m.testBit i && !(l.behind.any fun x => x.1 == i)).map fun i =>
    (i, Memory.read s.sto.mem (line * 128 + 8 * i) 8, s.poisoned (line * 128 + 8 * i))
  s.setLine line { l with behind := l.behind ++ new }

/-- The record of a detection that lost no line, and the retirement of its frame (R358, R361, R366). -/
def State.poisonRecord (s : State) (line kind : Nat) (ret : Bool) (place addr : Nat) : State :=
  let loc := line * 128
  let own := s.locOwner loc
  let owner := match s.line? line with | some l => l.owner | none => 0#9
  let ram := ret && decide (placeOf loc = .hbm ∨ placeOf loc = .lpddr)
  let (s, did, repl) := if ram then s.retire loc else (s, false, 0)
  s.addRas own kind place owner false did false addr repl 0 0 0

/-- What finding an error does, in the copy that holds the line (R352 to R359, R361). `mask` holds the words read. `walk` has
the address of the table entry that a walk reads. -/
def State.detectOne (s : State) (line mask : Nat) (walk : Option Nat) : State :=
  let s := s.correct line mask
  let loc := line * 128
  let e := s.errOf line
  let place := if walk.isSome then 9 else placeCode (s.cachedHere line) (placeOf loc)
  match s.found line mask with
  | .nothing =>
    match walk with
    | some at_ => if s.poisoned at_ then s.poisonRecord line 2 true 9 at_ else s
    | none => s
  | .refetch =>
    let l := (s.line? line).getD lineNone
    let s := (s.evict line).quarantine l.die l.bank l.way false
    s.addRas (s.locOwner loc) 5 place l.owner false false true loc 0 l.die l.bank l.way
  | .lost => s.loseOne line 1 place (walk.getD loc)
  | .poison =>
    let lost := match placeOf loc with
      | .hbm | .lpddr => chunksOf (e.unc &&& s.decoded line mask)
      | _ => e.unc &&& mask
    let s := (s.setErr line { e with unc := e.unc - (e.unc &&& lost) }).poisonWords line lost
    if placeOf loc = .host then s else s.poisonRecord line 2 true place (walk.getD (firstWord loc lost))
  | .carriage =>
    let lost := s.carLost line e mask
    let l := (s.line? line).getD lineNone
    if l.dirty ∧ placeOf loc ≠ .window then s.loseOne line 1 place (walk.getD loc)
    else
      let s := if s.cachedHere line then s.hide line lost l else s
      (s.poisonWords line lost).poisonRecord line 3 walk.isSome place (walk.getD (firstWord loc lost))

/-- The frames retired since `k` were, the first one first, each with its replacement. -/
def State.newFrames (s : State) (k : Nat) : List (Nat × Nat) :=
  (s.sto.retired.take (s.sto.retired.length - k)).reverse.filterMap fun r => r.2.map fun d => (r.1, d)

/-- The reads of the copies of new frames: each line in which one finds an error is detected as by any read of the whole line, with
its own record and consequences (R352, R357, R358, R366; log 48). -/
def State.copyReads (k : Nat) : Nat → State → State
  | 0, s => s
  | fuel + 1, s =>
    match s.sto.latent.find? fun e => ((s.newFrames k).any fun f => inFrame f.1 e.1) && decide (s.found e.1 0xFFFF ≠ .nothing) with
    | some e => State.copyReads k fuel (s.detectOne e.1 0xFFFF none)
    | none => s

/-- The copies of the frames retired since `k` were: what their reads find, and then the words (R358). -/
def State.settle (s : State) (k : Nat) : State :=
  let s := State.copyReads k (4 * s.sto.latent.length + 4) s
  (s.newFrames k).foldl (fun s f => s.copyFrame f.1 f.2) s

/-- Something that may retire frames, and the copies of those. -/
def State.settling (s : State) (f : State → State) : State := (f s).settle s.sto.retired.length

/-- A detection with the copies of the frames that it retires. -/
def State.detectIn (s : State) (line mask : Nat) (walk : Option Nat) : State := s.settling fun s => s.detectOne line mask walk

/-- What the patrol read finds in the storage behind a line that the shared SRAM holds (R353): a corrected error is counted, and a
chunk that cannot be corrected, or that fails its carriage check, is poisoned there. -/
def State.detectBehind (s : State) (line : Nat) : State :=
  match s.line? line with
  | none => s
  | some l =>
    let loc := line * 128
    let e := (s.latent line).back
    let s := if e.corr = 0 then s else s.countCorrected (s.locOwner loc)
    let s := s.setLatent line { (s.latent line) with back := ⟨0, 0, e.car⟩ }
    let bad := chunksOf e.unc
    let lost := if bad ≠ 0 then bad else chunksOf (e.carHit 0xFFFF)
    let done := (upTo 0 16).all fun i => !lost.testBit i || l.behind.contains (i, 0, true)
    if s.cachedHere line = false ∨ done then s
    else
      let poison := ((upTo 0 16).filter fun i => lost.testBit i).map fun i => (i, 0, true)
      let s := s.setLine line { l with behind := poison ++ l.behind.filter fun x => !lost.testBit x.1 }
      s.settling fun s => s.poisonRecord line (if bad ≠ 0 then 2 else 3) (decide (bad ≠ 0)) (placeCode false (placeOf loc)) (firstWord loc lost)

/-- A line that leaves its way outside a quarantine: its write-back finds an uncorrectable error in it (R357). -/
def State.writeBack (s : State) (line : Nat) : State :=
  if s.found line 0xFFFF = .lost then s.settling fun s => s.loseOne line 1 0 (line * 128) else s.evict line

/-- Whether the shared SRAM can take a line (R275, R276, R368). -/
def State.canAlloc (s : State) (line : Nat) : Bool :=
  match s.pageOwner (line * 128) with
  | none => false
  | some p =>
    let die := homeDie (line * 128)
    let x := (s.part p).share die
    decide (x.n ≠ 0) && !(s.usableWays x die (x.bankSet line).1).isEmpty && !s.isRetired (line * 128)

/-- A line takes its place: its check bits come with it (R99). -/
def State.enter (s : State) (line : Nat) (x : Line) : State :=
  (s.setLine line x).setLatent line ⟨⟨0, 0, (s.latent line).back.car⟩, (s.latent line).back⟩

/-- A line of a page that its partition caches is brought into the shared SRAM, evicting if it must (R276, R368). -/
def State.allocLine (s : State) (line : Nat) : State :=
  match s.line? line with
  | some _ => s
  | none =>
    match s.pageOwner (line * 128) with
    | none => s
    | some p =>
      let die := homeDie (line * 128)
      let x := (s.part p).share die
      if s.canAlloc line = false then s
      else
        let (bank, set) := x.bankSet line
        let ways := s.usableWays x die bank
        let inSet := s.sto.lines.filter fun e => e.2.die == die && e.2.bank == bank && e.2.set == set
        let free := ways.filter fun w => !(inSet.any fun e => e.2.way == w)
        let (k, s) := s.draw
        match free, ways with
        | _, [] => s
        | w :: ws, _ => s.enter line ⟨die, bank, set, ((w :: ws)[Config.victim k % (w :: ws).length]?).getD w, false, 0x100#9, none, []⟩
        | [], w :: ws =>
          let v := ((w :: ws)[Config.victim k % (w :: ws).length]?).getD w
          let s := match inSet.find? fun e => e.2.way == v with
            | some e => s.writeBack e.1
            | none => s
          if s.usableWays x die bank |>.contains v then s.enter line ⟨die, bank, set, v, false, 0x100#9, none, []⟩ else s

/-- A cacheable access brings a line in: the fill reads every word but those that a store wholly replaces (R357). -/
def State.fill (s : State) (line skip : Nat) : State :=
  if (s.line? line).isSome ∨ s.canAlloc line = false then s
  else (s.detectIn line (0xFFFF - skip) none).allocLine line

/-- What a read of the words `mask` of a line finds and does: a clean line with an uncorrectable error is fetched again from the
storage behind it (R352). -/
def State.detect (s : State) (line mask : Nat) (walk : Option Nat) : State :=
  match s.found line mask with
  | .refetch => ((s.detectIn line mask walk).detectIn line mask walk).fill line 0
  | _ => s.detectIn line mask walk

end Sys2Proof.Machine
end

