-- ==== Sys2Proof/Machine/Memory.lean ====
section
/-!
DEFINITION. Accesses: address checks (R84, R95), the local region (R89), translation (R85 to R87, R362, R363), the physical
access with its checks (R88, R92, R354, R358), and the writes of an agent before they are visible (R104, log 5).
-/
namespace Sys2Proof.Machine

/-- Kinds of access, as TDET.ACC codes them (R362). -/
inductive Acc where
  | read | write | fetch | atomic
  deriving DecidableEq, Repr

def Acc.code : Acc → Nat
  | .read => 0 | .write => 1 | .fetch => 2 | .atomic => 3

/-- A read that meets errors: the line, the words read, and the table entry for a read of a walk (R354, R357, R361). -/
structure Seen where
  line : Nat
  mask : Nat
  walk : Option Nat
  deriving DecidableEq, Repr

/-- A failed access: its cause, TVAL and TDET, and the reads whose errors it detects (R354, R357). -/
structure AErr where
  cause : BitVec 8
  tval : Word
  tdet : Word
  found : List Seen
  deriving DecidableEq, Repr

def AErr.plain (cause : BitVec 8) (va : Word) (a : Acc) : AErr := ⟨cause, va, w64 (a.code * 256), []⟩

/-- A translation fault with REASON and LEVEL (R362). -/
def AErr.trans (va : Word) (a : Acc) (reason level : Nat) : AErr := ⟨0x08#8, va, w64 (level * 1024 + a.code * 256 + reason), []⟩

/-- What reads of a walk or of an access detect (R352 to R361). -/
def State.seen (s : State) (l : List Seen) : State := l.foldl (fun s x => s.detect x.line x.mask x.walk) s

/-- Who makes an access: the hart whose resources the local region names, the ASID, whether the mode is user, the owner tag
of its writes (R89, R356), the partition, whether it may reach a TCM (R89), and the lane groups whose micro-TLBs serve it
(R87). -/
structure Who where
  hart : Nat
  asid : Nat
  user : Bool
  tag : BitVec 9
  part : Option Nat
  tcm : Bool
  lanes : BitVec 4
  /-- scratchpad units of a saved gang, by their first bytes (R295) -/
  saved : List Nat
  deriving DecidableEq, Repr

/-- A hart as an accessing agent. -/
def State.who (s : State) (n : Nat) : Who :=
  let h := s.hart n
  ⟨n, h.shape.asid.toNat, decide (h.sc.mode = .user), BitVec.ofNat 9 h.shape.asid.toNat, some h.shape.part, true, 0, []⟩

/-- A hart's agent: the vector agent's accesses go through the micro-TLBs of its lane groups (R87). -/
def State.whoOf (s : State) (n : Nat) (ag : Agent) : Who :=
  if ag = .vector then { (s.who n) with lanes := (s.hart n).shape.lanes } else s.who n

/-- A physical address as a location for an agent of a partition: windows are the partition's own (R92), where it has accepted them
(R311), and an address outside R88 has none. -/
def State.physLoc (s : State) (part : Option Nat) (pa : Nat) : Option Nat :=
  match windowOf pa with
  | some (die, off) =>
    match part with
    | some p => if (s.part p).accepted.getLsbD 3 ∧ off < ((s.part p).share die).windowSize then some (winLoc p die off) else none
    | none => none
  | none => if placeOf pa = .none ∨ 2 ^ 52 ≤ pa then none else some pa

/-- The entry that 8 bytes of a table hold, or none when it is poisoned or failing (R362 reason 9). -/
def State.tableWord (s : State) (loc : Nat) : Option Word :=
  if s.poisoned loc ∨ s.meets (loc / 128) (wordMask loc 8) ≠ .nothing then none
  else some (w64 (Memory.read s.sto.mem loc 8))

/-- A successful walk: the entry, where it stands, its level, and the entries that were read (R85). -/
structure Leaf where
  pte : Word
  at_ : Nat
  level : Nat
  path : List Nat
  deriving DecidableEq, Repr

/-- A failed walk: the reason and the level (R362), reason 0 for an entry outside the physical map (R88), 10 for one in a retired
frame (R358); the entries that were read. -/
structure WalkErr where
  reason : Nat
  level : Nat
  path : List Nat
  deriving DecidableEq, Repr

/-- Bits of the range that an entry of a level maps (R85). -/
def levelBits (level : Nat) : Nat := if level = 1 then 42 else if level = 2 then 29 else 16

/-- The walk from a table at physical address `base`, for an agent of a partition: `fuel` levels are left (R85, R88, R362).
`path` holds the entries read so far. -/
def State.walk (s : State) (part : Option Nat) (va : Nat) : Nat → Nat → List Nat → Except WalkErr Leaf
  | 0, _, path => .error ⟨2, 3, path⟩
  | fuel + 1, base, path =>
    let level := 3 - fuel
    match s.physLoc part (base + 8 * (va / 2 ^ levelBits level % 8192)) with
    | none => .error ⟨0, level, path⟩
    | some at_ =>
      if s.isRetired at_ then .error ⟨10, level, path⟩
      else
      let path := path ++ [at_]
      match s.tableWord at_ with
      | none => .error ⟨9, level, path⟩
      | some e =>
        let kind := fld e 2 1
        if e.getLsbD 0 = false then .error ⟨1, level, path⟩
        else if fld e 63 52 ≠ 0 ∨ fld e 15 12 ≠ 0 ∨ kind = 3 ∨ (kind = 0 ∧ level ≠ 3) ∨ (kind ≠ 0 ∧ level = 3) then .error ⟨2, level, path⟩
        else if kind = 2 ∧ fld e 51 16 * 65536 % 2 ^ levelBits level ≠ 0 then .error ⟨3, level, path⟩
        else if kind = 1 then State.walk s part va fuel (fld e 51 16 * 65536) path
        else .ok ⟨e, at_, level, path⟩

/-- The walk of an ASID (R85). -/
def State.walkAsid (s : State) (part : Option Nat) (asid : Nat) (va : Nat) : Except WalkErr Leaf :=
  match (s.asid asid).root with
  | none => .error ⟨1, 1, []⟩
  | some r => s.walk part va 3 r []

/-- What the reads of a walk detect, each at PLACE 9 (R361, R366). -/
def walkSeen (path : List Nat) : List Seen := path.map fun x => ⟨x / 128, wordMask x 8, some x⟩

def WalkErr.seen (e : WalkErr) : List Seen := walkSeen e.path
def Leaf.seen (f : Leaf) : List Seen := walkSeen f.path

/-- A failed walk as a fault of an access (R88, R358, R362). -/
def WalkErr.err (e : WalkErr) (va : Word) (a : Acc) : AErr :=
  { (if e.reason = 0 then AErr.plain 0x07#8 va a else if e.reason = 10 then AErr.plain 0x22#8 va a else AErr.trans va a e.reason e.level) with found := e.seen }

/-- The checks at the leaf or block entry, in the order of R362. -/
def permit (pte : Word) (attr : Nat) (user : Bool) (a : Acc) : Option Nat :=
  if attr = 3 then some 8
  else if user ∧ pte.getLsbD 6 = false then some 7
  else match a with
  | .read => if pte.getLsbD 3 then none else some 4
  | .write => if pte.getLsbD 4 then none else some 5
  | .fetch => if pte.getLsbD 5 then none else some 6
  | .atomic => if pte.getLsbD 3 = false then some 4 else if pte.getLsbD 4 = false then some 5 else none

/-- An entry that maps an address of an ASID (R87). -/
def tlbFind (l : List TlbEntry) (asid va : Nat) : Option TlbEntry :=
  l.find? fun e => (e.glob || decide (e.asid.toNat = asid)) && decide (va / 2 ^ e.bits = e.base / 2 ^ e.bits)

/-- Entries of a TLB and of a micro-TLB (R87). -/
def tlbSize : Nat := 8192
def utlbSize : Nat := 64

/-- The lane groups of a mask. -/
def groupsOf (lanes : BitVec 4) : List Nat := (upTo 0 4).filter fun g => lanes.getLsbD g

/-- The entry that a core holds for an access: in a micro-TLB that serves it, or in the core's TLB (R87). -/
def Core.tlbHit (c : Core) (lanes : BitVec 4) (asid va : Nat) : Option TlbEntry :=
  match (groupsOf lanes).findSome? fun g => tlbFind (Table.get [] c.utlb g) asid va with
  | some e => some e
  | none => tlbFind c.tlb asid va

/-- Two entries of one range. -/
def TlbEntry.same (x e : TlbEntry) : Bool := x.glob == e.glob && x.asid == e.asid && x.base == e.base && x.bits == e.bits

/-- An entry enters a core's TLB and the micro-TLBs that serve the access; `k` picks the victims of full ones (R87, log 8). -/
def Core.tlbFill (c : Core) (lanes : BitVec 4) (k : Nat) (e : TlbEntry) : Core :=
  let put (cap : Nat) (l : List TlbEntry) : List TlbEntry := insertCap cap (Config.victim k) e (l.filter fun x => !x.same e)
  { c with
    tlb := put tlbSize c.tlb
    utlb := (groupsOf lanes).foldl (fun t g => Table.set [] t g (put utlbSize (Table.get [] t g))) c.utlb }

/-- Whether an entry would enter a full one. -/
def Core.tlbFull (c : Core) (lanes : BitVec 4) : Bool :=
  decide (tlbSize ≤ c.tlb.length) || (groupsOf lanes).any fun g => decide (utlbSize ≤ (Table.get [] c.utlb g).length)

/-- The TLB fill of an access; only a full TLB draws a victim. -/
def State.tlbFill (s : State) (w : Who) (e : TlbEntry) : State :=
  let core := coreOf w.hart
  let (k, t) := s.draw
  (if (s.core core).tlbFull w.lanes then t else s).updCore core fun c => c.tlbFill w.lanes k e

/-- A translated address. `entry` is where the table entry stands, for its A and D bits; `seen` has the reads of the walk. -/
structure Trans where
  loc : Nat
  attr : Nat
  entry : Option (Nat × Word)
  seen : List Seen
  deriving DecidableEq, Repr

/-- A failure of an access whose walk had succeeded: what the walk read is detected all the same (R352, R353). -/
def AErr.after (e : AErr) (t : Trans) : AErr := { e with found := t.seen ++ e.found }

/-- The physical address of `va` under an entry. -/
def entryPa (pte : Word) (level va : Nat) : Nat :=
  fld pte 51 16 * 65536 / 2 ^ levelBits level * 2 ^ levelBits level + va % 2 ^ levelBits level

/-- The entry that a successful walk gives a TLB. -/
def Leaf.entry (f : Leaf) (asid va : Nat) : TlbEntry :=
  ⟨BitVec.ofNat 8 asid, f.pte.getLsbD 7, va / 2 ^ levelBits f.level * 2 ^ levelBits f.level, levelBits f.level, f.pte, f.at_, f.level⟩

/-- The memory type of an access under an entry: a page of memory that no partition owns acts as ATTR 10, whatever the entry
says (R276). -/
def State.attrOf (s : State) (pte : Word) (level va : Nat) : Nat :=
  let pa := entryPa pte level va
  if (windowOf pa).isNone ∧ s.pageOwner pa = none then 2 else fld pte 11 10

/-- An access under an entry: the checks of R362, and the address (R85, R86). -/
def State.useEntry (s : State) (w : Who) (va : Nat) (a : Acc) (pte : Word) (at_ level : Nat) (seen : List Seen) :
    Except AErr (State × Trans) :=
  let attr := s.attrOf pte level va
  match permit pte attr w.user a with
  | some r => .error { AErr.trans (w64 va) a r level with found := seen }
  | none => .ok (s, ⟨entryPa pte level va, attr, some (at_, pte), seen⟩)

/-- A walk, and the access under what it gives (R85, R363). -/
def State.walkUse (s : State) (w : Who) (va : Nat) (a : Acc) : Except AErr (State × Trans) :=
  match s.walkAsid w.part w.asid va with
  | .error e => .error (e.err (w64 va) a)
  | .ok f => ((s.seen f.seen).tlbFill w (f.entry w.asid va)).useEntry w va a f.pte f.at_ f.level f.seen

/-- Translation: walk, or the entry that the core still holds, as R87 leaves open. The new state holds the TLB entry that a
successful walk installs (R363). -/
def State.translate (s : State) (w : Who) (va : Nat) (a : Acc) : Except AErr (State × Trans) :=
  match (s.core (coreOf w.hart)).tlbHit w.lanes w.asid va with
  | none => s.walkUse w va a
  | some e =>
    let same : Bool := match s.walkAsid w.part w.asid va with
      | .ok f => decide (f.pte ||| 0x300#64 = e.pte ||| 0x300#64 ∧ f.at_ = e.at_)
      | .error _ => false
    if same then s.useEntry w va a e.pte e.at_ e.level []
    else
      let (k, s) := s.draw
      if Config.useHeldEntry k then s.useEntry w va a e.pte e.at_ e.level [] else s.walkUse w va a

/-- The local region (R89): the location, or an access fault. `unit` marks the stream unit and the hardware, which may reach
the strip buffers (R97). -/
def Hart.localLoc (h : Hart) (n va : Nat) : Option Nat :=
  let off := va - 0x7FFFFFFC000000
  if off < 0x2000000 then none
  else if off < 0x3000000 then
    let o := off - 0x2000000
    (h.shape.spad[o / 65536]?).map fun u => spadLoc (clusterOf (coreOf n)) (u * 65536 + o % 65536)
  else if off < 0x3E00000 then none
  else
    let o := off - 0x3E00000
    if o < 0x1C0000 then (h.shape.tcm[o / 65536]?).map fun u => tcmLoc (coreOf n) (u * 65536 + o % 65536) else none

/-- The scratchpad byte of a saved gang's window (R89, R295). -/
def savedLoc (units : List Nat) (va : Nat) : Option Nat :=
  let o := va - 0x7FFFFFFC000000 - 0x2000000
  if va < 0x7FFFFFFC000000 + 0x2000000 ∨ 0x1000000 ≤ o then none else (units[o / 65536]?).map fun u => u + o % 65536

/-- First address of the local region (R89). -/
def localBase : Nat := 0x7FFFFFFC000000

/-- Address, local region, translation and the physical map, for one access (R84, R85, R88, R89). Alignment is the caller's. -/
def State.locate (s : State) (w : Who) (va : Word) (a : Acc) : Except AErr (State × Trans) :=
  if fld va 63 55 ≠ 0 then .error (AErr.plain 0x05#8 va a)
  else if localBase ≤ va.toNat then
    match (if w.saved.isEmpty then (s.hart w.hart).localLoc w.hart va.toNat else savedLoc w.saved va.toNat) with
    | some loc => if placeOf loc = .tcm ∧ w.tcm = false then .error (AErr.plain 0x07#8 va a) else .ok (s, ⟨loc, 2, none, []⟩)
    | none => .error (AErr.plain 0x07#8 va a)
  else
    match s.translate w va.toNat a with
    | .error e => .error e
    | .ok (s, t) =>
      match s.physLoc w.part t.loc with
      | some loc => .ok (s, { t with loc := loc })
      | none => .error ((AErr.plain 0x07#8 va a).after t)

/-- A and D are set in the table entry, if it still stands as it was used (R85, R363). The shared SRAM line of the entry stays as
it is, its dirty bit and its tag included, and A is set in the leaf or block entry alone, in none of the KIND 01 entries that the
walk passes: the spec is silent on both (DESIGN CHOICE, log 58). -/
def State.setAD (s : State) (t : Trans) (dirty : Bool) : State :=
  match t.entry with
  | none => s
  | some (at_, pte) =>
    let cur := Memory.read s.sto.mem at_ 8
    let want := (w64 cur ||| 0x100#64) ||| (if dirty then 0x200#64 else 0)
    if w64 cur ||| 0x300#64 = pte ||| 0x300#64 ∧ w64 cur ≠ want then
      { s with sto := { s.sto with mem := Memory.write s.sto.mem at_ 8 want.toNat } }
    else s

/-- The byte that a held write leaves at an address where `b` stood. -/
def Held.byteAt (w : Held) (a : Nat) (b : Byte) : Byte :=
  if w.loc ≤ a ∧ a < w.loc + w.bytes.length then
    let k : Byte := BitVec.ofNat 8 (imgGet w.keep (8 * (a - w.loc)) 8)
    (b &&& k) ||| ((w.bytes[a - w.loc]?).getD 0 &&& ~~~k)
  else b

/-- The held writes of an agent that lie over `n` bytes at `loc`, applied to the bytes of memory (R104). -/
def overlay (held : List Held) (loc n : Nat) (bytes : List Byte) : List Byte :=
  held.foldl (fun bs w => (List.range n).zipWith (fun i b => w.byteAt (loc + i) b) bs) bytes

/-- Whether an access is cached: cacheable memory of an owned page (R86, R276). A line of a shared SRAM window never is, in an L1D
neither: the spec does not say whether a scalar load of one fills an L1D (DESIGN CHOICE, log 59). -/
def State.caches (s : State) (t : Trans) : Bool :=
  decide (t.attr = 0 ∧ t.loc < 2 ^ 52) && (s.pageOwner t.loc).isSome

/-- What a read of `n` bytes (within one 128-byte line) detects: the whole line when the read fills it (R357). -/
def State.seenBy (s : State) (t : Trans) (n : Nat) : Seen :=
  let line := t.loc / 128
  ⟨line, if s.caches t ∧ s.line? line = none ∧ s.canAlloc line then 0xFFFF else wordMask t.loc n, none⟩

/-- What a read of `n` bytes (within one 128-byte line) raises: retired frame, poison, or an error that it detects, in its own words
or in others that its fill reads (R354, R357). -/
def State.readErr (s : State) (va : Word) (t : Trans) (n : Nat) (a : Acc) : Option AErr :=
  let lost (cause : BitVec 8) : Option AErr := some ({ AErr.plain cause va a with found := [s.seenBy t n] }.after t)
  if s.isRetired t.loc then some ((AErr.plain 0x22#8 va a).after t)
  else
    match s.meets (t.loc / 128) (s.seenBy t n).mask with
    | .lost | .poison => lost 0x20#8
    | f =>
      if (upTo (t.loc / 8) ((t.loc + n - 1) / 8 + 1)).any fun k => s.poisoned (8 * k) then lost 0x20#8
      else if f = .carriage then lost 0x21#8
      else none

/-- The bytes of a read that passes its checks, and what the read does to the line: corrected and refetched errors, the
line brought in, the L1D of a scalar read (R91, R93, R352). -/
def State.readOk (s : State) (t : Trans) (n : Nat) (l1 : Option Nat) : State × List Byte :=
  let bytes := Memory.readBytes s.sto.mem t.loc n
  let line := t.loc / 128
  let s := s.detect line (wordMask t.loc n) none
  let s := if s.caches t then
      let s := s.fill line 0
      match l1 with
      | some c => s.fillL1 line c
      | none => s
    else s
  (s.setAD t false, bytes)

/-- Applies the detection that a failed access made (R354, R357, R361), once its fault is taken. -/
def State.applyFound (s : State) (e : AErr) : State := s.seen e.found

/-- A store to a line invalidates the recorded core's copies and clears the presence bit; a scalar store of that core leaves
its L1D's line, which it writes through, and gives up the gathered lines that cover it (R93, R94). -/
def State.stored (s : State) (line : Nat) (by_ : Option Nat) : State :=
  match s.line? line with
  | some l =>
    match l.l1 with
    | some c =>
      if by_ = some c then s.updCore c fun k => { k with gathered := k.gathered.filter fun g => !g.lines.contains line }
      else (s.dropCopies line).setLine line { l with l1 := none }
    | none => s
  | none => s

/-- Bytes are written where they land: the words `m`, which they replace whole, lose their poison and their errors (R354, R357). -/
def State.putRaw (s : State) (loc : Nat) (bytes : List Byte) (m : Nat) : State :=
  let s := s.setErr (loc / 128) ((s.errOf (loc / 128)).wrote loc bytes.length m)
  let s := (upTo 0 16).foldl (fun s i => if m.testBit i then s.setPoison (loc / 128 * 128 + 8 * i) false else s) s
  { s with sto := { s.sto with mem := Memory.writeBytes s.sto.mem loc bytes } }

/-- Bytes land where their line stands now: they are merged, the line becomes dirty, and it takes the tag. -/
def State.land (s : State) (loc : Nat) (bytes : List Byte) (keep : Nat) (tag : BitVec 9) (by_ : Option Nat) : State :=
  let loc := s.landing loc
  let line := loc / 128
  let m := wholeMask loc bytes.length keep
  let bytes := if keep = 0 then bytes
    else overlay [⟨loc, bytes, tag, 0, keep, 0, false, false⟩] loc bytes.length (Memory.readBytes s.sto.mem loc bytes.length)
  let s := (s.stored line by_).putRaw loc bytes m
  match placeOf loc with
  | .window =>
    let (die, bank, way) := s.winWay loc
    let l := (s.line? line).getD ⟨die, bank, (loc - 2 ^ 62) % 2 ^ 29 / 128 / (max 1 ((s.part ((loc - 2 ^ 62) / 2 ^ 31)).share die).n) % 2048, way, false, 0, none, []⟩
    s.setLine line { l with owner := tag }
  | .spad | .tcm => s
  | _ =>
    match s.line? line with
    | some l => s.setLine line { l with dirty := true, owner := tag }
    | none => s

/-- A write becomes visible: what its fill or its merge detects, bytes, poison, errors, line, owner tag (R93, R354, R356, R357).
The bytes lie in one line. `by_` names the core of a scalar store. A frame that the detection retires has been copied by then,
and the write lands in the replacement (R358). The bits of `keep` stay as they are. -/
def State.merge (s : State) (loc : Nat) (bytes : List Byte) (keep : Nat) (tag : BitVec 9) (cached : Bool) (by_ : Option Nat) : State :=
  let whole := wholeMask loc bytes.length keep
  let m := wordMask loc bytes.length - whole
  let s := if cached then s.fill (loc / 128) whole else s
  let s := if m = 0 then s else s.detect (loc / 128) m none
  s.land loc bytes keep tag by_

/-- A write of whole bytes. -/
def State.put (s : State) (loc : Nat) (bytes : List Byte) (tag : BitVec 9) (cached : Bool) (by_ : Option Nat) : State :=
  s.merge loc bytes 0 tag cached by_

/-- The histogram counts one line request of a core's hart (R306). -/
def Hist.request (x : Hist) (asid line : Nat) : Hist :=
  if x.ctl.getLsbD 0 = false ∨ fld x.ctl 15 8 ≠ asid then x
  else
    let c := x.count + 1
    let hit := x.tags.filter fun t => t.1 == line
    let gone := x.tags.filter fun t => t.1 != line && decide (c - t.2 ≥ 2 ^ 24)
    let keep := x.tags.filter fun t => t.1 != line && decide (c - t.2 < 2 ^ 24)
    let rdh := hit.foldl (fun r t => let b := min 24 (log2 (c - t.2)); Table.set 0 r b (Table.get 0 r b + 1)) x.rdh
    let rdh := gone.foldl (fun r _ => Table.set 0 r 24 (Table.get 0 r 24 + 1)) rdh
    let tags := if c % 2 ^ fld x.ctl 7 4 = 0 ∧ keep.length < 256 then keep ++ [(line, c)] else keep
    { x with rdh := rdh, count := c, tags := tags }

/-- Whether the partition of a core has accepted reuse-distance histograms: without that the unit is absent (R311). -/
def State.histOn (s : State) (c : Nat) : Bool :=
  match s.coreOwner c with
  | some p => (s.part p).accepted.getLsbD 4
  | none => false

/-- A line request of a hart (R100, R306). TCM and scratchpad requests are of words, not lines. The elements of one vector
instruction that fall in one line of an element group make one request, and so do the pieces of a line that a matrix command moves in
a row: `mline` is the line that it last asked for. A scalar load makes one whether or not the L1D holds the line, and an element taken
from a gathered line makes none (DESIGN CHOICE, log 37). -/
def State.request (s : State) (n : Nat) (ag : Agent) (loc : Nat) : State :=
  if (s.core (coreOf n)).hist.ctl.getLsbD 0 ∧ s.histOn (coreOf n) then
    let h := s.hart n
    if placeOf loc = .spad ∨ placeOf loc = .tcm ∨ (ag = .matrix ∧ h.q.mline = some (loc / 128)) ∨ (ag = .vector ∧ h.q.asked.contains (loc / 128)) then s
    else
      let s := match ag with
        | .vector => s.setHart n { h with q := { h.q with asked := loc / 128 :: h.q.asked } }
        | .matrix => s.setHart n { h with q := { h.q with mline := some (loc / 128) } }
        | .scalar => s
      s.updCore (coreOf n) fun c => { c with hist := c.hist.request h.shape.asid.toNat (loc / 128) }
  else s

/-- A new element group has asked for no line (R100). -/
def State.clearAsked (s : State) (n : Nat) : State :=
  if (s.hart n).q.asked.isEmpty then s else s.updHart n fun h => { h with q := { h.q with asked := [] } }

def Hart.heldOf (h : Hart) : Agent → List Held
  | .scalar => h.q.sheld
  | .vector => h.q.vheld
  | .matrix => h.q.mheld

def Hart.setHeld (h : Hart) (ag : Agent) (l : List Held) : Hart :=
  match ag with
  | .scalar => { h with q := { h.q with sheld := l } }
  | .vector => { h with q := { h.q with vheld := l } }
  | .matrix => { h with q := { h.q with mheld := l } }

/-- The core of a scalar store (R93). -/
def storeBy (n : Nat) (ag : Agent) : Option Nat := if ag = .scalar then some (coreOf n) else none

/-- Performs a list of writes of an agent in order (R86, R276). -/
def State.putAll (s : State) (by_ : Option Nat) (l : List Held) : State :=
  l.foldl (fun s w => s.merge w.loc w.bytes w.keep w.owner (s.caches ⟨w.loc, w.attr, none, []⟩) by_) s

/-- Two ranges of bytes that meet. -/
def Held.over (w : Held) (loc n : Nat) : Bool := decide (w.loc < loc + n ∧ loc < w.loc + w.bytes.length)

/-- An older held write that a write of its agent comes after: one to the same bytes, or, where `w` was made after the agent had
read bytes of older ones, one of these. Every later write of the agent counts as one that depends on the read (R103, R105, R106;
log 5). -/
def Held.before (v w : Held) : Bool := v.over w.loc w.bytes.length || (w.after && v.seen)

/-- The held writes that come before a write of `n` bytes at `loc` that its agent makes now, and the others (R103, R106). -/
def splitHeld (l : List Held) (loc n : Nat) : List Held × List Held :=
  l.foldr (fun w (x : List Held × List Held) =>
    if w.over loc n || w.seen || x.1.any w.before then (w :: x.1, x.2) else (x.1, w :: x.2)) ([], [])

/-- The agent reads bytes of its own held writes (R104). -/
def markSeen (l : List Held) (loc n : Nat) : List Held := l.map fun w => if w.over loc n then { w with seen := true } else w

/-- A write that comes after reads of older ones. -/
def Held.follow (w : Held) (l : List Held) : Held := { w with after := l.any fun v => v.seen }

/-- The held writes of an agent to the same bytes become visible (R103). -/
def State.performOver (s : State) (n : Nat) (ag : Agent) (loc k : Nat) : State :=
  let (a, b) := splitHeld ((s.hart n).heldOf ag) loc k
  if a.isEmpty then s else (s.updHart n fun h => h.setHeld ag b).putAll (storeBy n ag) a

/-- Every held write of an agent becomes visible (R106, R109, R113). -/
def State.performAll (s : State) (n : Nat) (ag : Agent) : State :=
  let l := (s.hart n).heldOf ag
  if l.isEmpty then s else (s.updHart n fun h => h.setHeld ag []).putAll (storeBy n ag) l

/-- Every agent of a hart. -/
def State.performBoth (s : State) (n : Nat) : State := ((s.performAll n .scalar).performAll n .vector).performAll n .matrix

/-- Whether the agent's held writes give every byte of a read (R104). -/
def forwarded (held : List Held) (loc n : Nat) : Bool := (upTo loc (loc + n)).all fun a => held.any fun w => w.over a 1 && decide (imgGet w.keep (8 * (a - w.loc)) 8 = 0)

/-- A checked read of `n` bytes that do not cross a line, by an agent of a hart, with the location that it reads. Bytes that the
agent's own held writes give are not read from memory (R104). -/
def State.loadAt (s : State) (n : Nat) (ag : Agent) (va : Word) (bytes : Nat) (a : Acc) : Except AErr (State × Nat × List Byte) :=
  match s.locate (s.whoOf n ag) va a with
  | .error e => .error e
  | .ok (s, t) =>
    let held := (s.hart n).heldOf ag
    let done (s : State) : State :=
      let s := s.request n ag t.loc
      if held.any fun w => w.over t.loc bytes then s.updHart n fun h => h.setHeld ag (markSeen (h.heldOf ag) t.loc bytes) else s
    if forwarded held t.loc bytes ∧ s.isRetired t.loc = false then
      .ok (done (s.setAD t false), t.loc, overlay held t.loc bytes (List.replicate bytes 0))
    else
    match s.readErr va t bytes a with
    | some e => .error e
    | none =>
      let (s, bs) := s.readOk t bytes (if ag = .scalar ∧ a = .read then some (coreOf n) else none)
      .ok (done s, t.loc, overlay held t.loc bytes bs)

def State.load (s : State) (n : Nat) (ag : Agent) (va : Word) (bytes : Nat) (a : Acc) : Except AErr (State × List Byte) :=
  (s.loadAt n ag va bytes a).map fun x => (x.1, x.2.2)

/-- A write of the vector agent gives its bits to the packed words that the slots of its convoy have read: the elements that still share
such a word take them, and the word is read no second time (R22, R102, R104). -/
def Hart.patchWords (h : Hart) (w : Held) : Hart :=
  match h.q.run with
  | none => h
  | some r =>
    if r.words.any fun x => w.over x.loc 8 then
      let take (x : PackedWord) : PackedWord :=
        if w.over x.loc 8 then { x with val := ofBytes (overlay [w] x.loc 8 (toBytes 8 x.val)) } else x
      { h with q := { h.q with run := some { r with words := r.words.map take } } }
    else h

/-- The same for a write that any agent of a hart makes. -/
def State.patch (s : State) (n : Nat) (ag : Agent) (w : Held) : State := if ag = .vector then s.updHart n fun h => h.patchWords w else s

/-- A checked write of bytes that do not cross a line, by an agent of a hart (R104, log 5). One that is not held makes the older
writes that it comes after visible first (R103); a packed word among them that takes more elements keeps it held until that word is
complete (R102). A store under ATTR 01 is visible at once: R86 and R105 give it no order to the stores that follow (DESIGN CHOICE,
log 5). -/
def State.store (s : State) (n : Nat) (ag : Agent) (va : Word) (bs : List Byte) : Except AErr State :=
  match s.locate (s.whoOf n ag) va .write with
  | .error e => .error e
  | .ok (s, t) =>
    if s.isRetired t.loc then .error ((AErr.plain 0x22#8 va .write).after t)
    else
      let w : Held := ⟨t.loc, bs, (s.who n).tag, t.attr, 0, 0, false, false⟩
      let s := ((s.setAD t true).request n ag t.loc).patch n ag w
      let l := (s.hart n).heldOf ag
      if t.attr ≠ 1 ∧ (s.holding ∨ (splitHeld l t.loc bs.length).1.any fun v => decide (v.slot ≠ 0)) then
        .ok (s.updHart n fun h => h.setHeld ag (l ++ [w.follow l]))
      else .ok ((s.performOver n ag t.loc bs.length).put t.loc bs (s.who n).tag (s.caches t) (storeBy n ag))

/-- Held writes that need not wait for a packed word that takes more elements, and those that do, in order (R102, R103, R106). -/
def splitOpen (l : List Held) : List Held × List Held :=
  l.foldl (fun (x : List Held × List Held) w =>
    if w.slot ≠ 0 ∨ x.2.any fun v => v.before w then (x.1, x.2 ++ [w]) else (x.1 ++ [w], x.2)) ([], [])

/-- The parts of packed accesses that a predicate selects take no more elements: they become visible with what waited for them, or stay
held as any write (R102, R177, log 5). -/
def State.closeHeld (s : State) (n : Nat) (p : Held → Bool) : State :=
  let l := (s.hart n).heldOf .vector
  if (l.any fun w => decide (w.slot ≠ 0) && p w) = false then s
  else
    let l := l.map fun w => if p w then { w with slot := 0 } else w
    if s.holding then s.updHart n fun h => h.setHeld .vector l
    else
      let (a, b) := splitOpen l
      (s.updHart n fun h => h.setHeld .vector b).putAll none a

/-- The bits of the word at `loc` that a held write gives. -/
def Held.bits (w : Held) (loc : Nat) : Nat :=
  (upTo 0 8).foldl (fun m i =>
    if w.over (loc + i) 1 then m ||| (255 - imgGet w.keep (8 * (loc + i - w.loc)) 8) <<< (8 * i) else m) 0

/-- Bits join the write of a word. -/
def Held.join (w : Held) (mask val : Nat) : Held :=
  { w with
    bytes := toBytes 8 (ofBytes w.bytes - (ofBytes w.bytes &&& mask) + (val &&& mask))
    keep := w.keep - (w.keep &&& mask) }

/-- Bits of an element join the open write `w` of its word, `older` and `later` being the agent's other held writes. Where a later one
has given some of these bits, or the agent has read it, the word moves behind them all without the bits that they have written over: so
each bit keeps the agent's order (R22, R103), and the write comes after all that the agent had read (R105, R106). None where the word
may not move, since a later write depends on it (DESIGN CHOICE, log 5). -/
def joinHeld (older : List Held) (w : Held) (later : List Held) (mask val : Nat) : Option (List Held) :=
  let after := w.after || (older ++ later).any (·.seen)
  if later.any fun v => v.seen || decide (v.bits w.loc &&& mask ≠ 0) then
    if w.seen && later.any (·.after) then none
    else
      let gone := later.foldl (fun m v => m ||| v.bits w.loc) 0
      some (older ++ later ++ [{ (({ w with keep := w.keep ||| gone } : Held).join mask val) with after := after }])
  else some (older ++ { w.join mask val with after := after } :: later)

/-- Bits of one aligned 8-byte word are written for an element of a packed format: the enabled elements of a slot that share the
word make one write of it (R102, R177). `mask` and `val` are images of the word; the result has its location. -/
def State.mergeWord (s : State) (n slot : Nat) (va : Word) (mask val : Nat) : Except AErr (State × Nat) :=
  match s.locate (s.whoOf n .vector) va .write with
  | .error e => .error e
  | .ok (s, t) =>
    if s.isRetired t.loc then .error ((AErr.plain 0x22#8 va .write).after t)
    else
      let s := (s.setAD t true).request n .vector t.loc
      let loc := t.loc / 8 * 8
      let l := (s.hart n).heldOf .vector
      let new : Held := Held.join ⟨loc, List.replicate 8 0, (s.who n).tag, t.attr, ones 64, slot, false, false⟩ mask val
      let joined := match ((upTo 0 l.length).reverse.find? fun k => match l[k]? with | some w => decide (w.slot = slot ∧ w.loc = loc) | none => false) with
        | some k => (match l[k]? with | some w => joinHeld (l.take k) w (l.drop (k + 1)) mask val | none => none)
        | none => none
      .ok ((s.updHart n fun h => h.setHeld .vector (joined.getD (l ++ [new.follow l]))).patch n .vector new, loc)

/-- An atomic read-modify-write: the new bytes from the old ones, or none to write nothing (R242, R243). The agent's earlier
writes to the location are performed first (R103), a packed word that takes more elements too (DESIGN CHOICE, log 5); no other is
(R108). -/
def State.rmw (s : State) (n : Nat) (ag : Agent) (va : Word) (bytes : Nat) (f : List Byte → Option (List Byte)) :
    Except AErr (State × List Byte) :=
  match s.locate (s.whoOf n ag) va .atomic with
  | .error e => .error e
  | .ok (s, t) =>
    let s := s.performOver n ag t.loc bytes
    match s.readErr va t bytes .atomic with
    | some e => .error e
    | none =>
      let (s, old) := s.readOk t bytes none
      let s := s.request n ag t.loc
      match f old with
      | none => .ok (s, old)
      | some new => .ok (((s.setAD t true).patch n ag ⟨t.loc, new, 0, 0, 0, 0, false, false⟩).put t.loc new (s.who n).tag (s.caches t) none, old)

/-- An access as a fault of a scalar instruction or of an element. -/
def AErr.trap (e : AErr) (tindex telem : Nat) : Trap := ⟨e.cause, e.tval, tindex, telem, e.tdet, 0⟩

end Sys2Proof.Machine
end

