-- ==== Sys2Proof/Machine/Ops.lean ====
section
/-!
DEFINITION. The shared operations of a hart: the frame of every scalar instruction, taking an exception (R323, R325),
termination (R326), the end of a member and of a gang (R252, R261), the gang barrier's completion (R245), trace records
(R304), and the points where a hart stops (R319).
-/
namespace Sys2Proof.Machine

/-- The management cores as an agent under an ASID: no local region, no page of a hart (R101, R356). -/
def mgmtWho (asid : Nat) (user : Bool) (part : Option Nat) : Who := ⟨640, asid, user, 0x100#9, part, true, 0, []⟩

/-! ### Trace (R304, R305) -/

/-- Whether a DRAIN stands at the head of engine 3's queue. -/
def Hart.draining (h : Hart) : Bool :=
  match (h.engine 3).cmd with
  | e :: _ :: _ => decide (fld e 63 56 = 0x10)
  | _ => false

/-- A record of the hart's trace stream; without a DRAIN it is dropped and counted (R304). -/
def State.emit (s : State) (n kind index : Nat) (pc : Word) (elem : Nat) (w2 w3 : Word) : State :=
  s.updHart n fun h =>
    let r : TraceRec := ⟨w64 (kind * 2 ^ 56 + coreOf n * 2 ^ 48 + n % 4 * 2 ^ 46 + index * 2 ^ 43 + s.clock % 2 ^ 43),
      w64 (fld pc 54 3 * 4096 + elem % 4096), w2, w3⟩
    if h.draining then { h with trc := { h.trc with recs := h.trc.recs ++ [r] } }
    else { h with trc := { h.trc with lost := h.trc.lost + 1 } }

/-- A record that TRC_CTL bit `b` selects (R305). -/
def State.emitIf (s : State) (b n kind index : Nat) (pc : Word) (elem : Nat) (w2 w3 : Word) : State :=
  if (s.hart n).trc.trcCtl.getLsbD b then s.emit n kind index pc elem w2 w3 else s

/-! ### Shedding steps (R281, R282) -/

/-- The shedding step of a hart's partition. -/
def State.shedStep (s : State) (n : Nat) : Nat := (s.part (s.hart n).shape.part).power.step

/-- The hart's partition is paused: no issue, no sequencer decision, no new engine command; stream buffers are state that it
keeps (R281, R282). -/
def State.paused (s : State) (n : Nat) : Bool := decide (6 ≤ s.shedStep n)

/-- The matrix queue of the hart's partition holds (R281). -/
def State.arrayHolds (s : State) (n : Nat) : Bool := decide (5 ≤ s.shedStep n)

/-- A partition's shedding step is set for what follows. -/
def State.setStep (s : State) (p k : Nat) : State := s.updPart p fun x => { x with power := { x.power with step := k } }

/-- What a pre-emption or a termination has a hart do: a paused partition runs at step 5 for it, and is paused again (R282). -/
def State.awake (s : State) (n : Nat) (f : State → Out) : Out :=
  let p := (s.hart n).shape.part
  let k := s.shedStep n
  match f (s.setStep p (min 5 k)) with
  | .next t => .next (t.setStep p k)
  | o => o

/-! ### The gang barrier (R245) -/

/-- The hart that runs member `m` of a gang. -/
def Gang.memberHart (g : Gang) (m : Nat) : Nat := (g.members[m]?).getD 640

/-- Members of a gang that are live, by index. -/
def Gang.liveMembers (g : Gang) : List Nat := (upTo 0 g.members.length).filter fun m => g.live.getLsbD m

/-- Completes the generation when PART ≠ 0 and every bit of PART has arrived (R245); latches are set (R256). -/
def State.barrierCheck (s : State) (launch : Nat) : State :=
  let g := s.gang launch
  let b := g.bar
  if b.part ≠ 0#32 ∧ b.part &&& b.arrived = b.part then
    let s := g.liveMembers.foldl (fun s m =>
      s.updHart (g.memberHart m) fun h =>
        let h := h.setLatch
        if b.arrived.getLsbD m then { h with q := { h.q with barMask := b.arrived } } else h) s
    s.updGang launch fun g => { g with bar := ⟨b.gen + 1#16, b.npart, 0, b.npart⟩ }
  else s

/-! ### Completion (R261) -/

/-- A word of a slate. -/
def slateWord (w : List Word) (i : Nat) : Word := (w[i]?).getD 0

def slateAsid (w : List Word) : Nat := fld (slateWord w 1) 63 56
def slatePart (w : List Word) : Nat := fld (slateWord w 1) 55 51
def slatePrio (w : List Word) : Nat := fld (slateWord w 1) 50 48
def slateMode (w : List Word) : Nat := fld (slateWord w 1) 44 43

/-- The dispatcher writes a word through an ASID, or not when it cannot be written, and what the access detects is detected (R261,
R361, R380). -/
def State.mgmtStore (s : State) (w : Who) (va : Word) (bs : List Byte) : State × Bool :=
  match s.locate w va .write with
  | .error e => (s.applyFound e, false)
  | .ok (s, t) => if s.isRetired t.loc then (s, false) else ((s.setAD t true).put t.loc bs w.tag (s.caches t) none, true)

/-- Reads through an ASID by a management core: none when the access fails, which detects as any read does (R355, R357). -/
def State.mgmtLoad (s : State) (w : Who) (va : Word) (n : Nat) : State × Option (List Byte) :=
  match s.locate w va .read with
  | .error e => (s.applyFound e, none)
  | .ok (s, t) =>
    match s.readErr va t n .read with
    | some e => (s.applyFound e, none)
    | none => let (s, bs) := s.readOk t n none; (s, some bs)

/-- The agent that reads and writes a slate's words: a management core under the slate's ASID. -/
def slateWho (w : List Word) : Who := mgmtWho (slateAsid w) (decide (slateMode w = 0)) (some (slatePart w))

/-- A dependence of a slate reads DONE = 1, or there is none (R262). -/
def State.depDone (s : State) (w : List Word) (i : Nat) : State × Bool :=
  if slateWord w i = 0 then (s, true)
  else match s.mgmtLoad (slateWho w) (slateWord w i) 8 with
    | (s, none) => (s, false)
    | (s, some bs) => (s, (w64 (ofBytes bs)).getLsbD 63)

def State.depsDone (s : State) (w : List Word) : State × Bool :=
  let (s, a) := s.depDone w 4
  let (s, b) := s.depDone w 5
  (s, a && b)

/-- The dependences of a queued slate are read. -/
def State.readDep (s : State) (p : Nat) (q : QSlate) : State :=
  if q.image.isSome then s
  else
    let (s, ok) := s.depsDone q.words
    s.updPart p fun x => { x with queue := x.queue.map fun y => if y.launch = q.launch then { y with ready := ok, unmet := y.unmet || !ok } else y }

/-- The dependences of every queued slate are read: whenever the dispatcher writes a completion word, and at every quantum
boundary (R262). -/
def State.readDeps (s : State) : State :=
  (s.parts.flatMap fun e => e.2.queue.map fun q => (e.1, q)).foldl (fun s x => s.readDep x.1 x.2) s

/-- A completion word is written at an address, if it can be (R261, R380). -/
def State.completeAt (s : State) (who : Who) (va : Word) (status code : Nat) : State :=
  match s.mgmtStore who va (toBytes 8 (2 ^ 63 + status * 2 ^ 48 + code % 2 ^ 32)) with
  | (s, true) => s.readDeps
  | (s, false) => s

/-- The completion word of a slate (R261). -/
def State.complete (s : State) (w : List Word) (status code : Nat) : State :=
  if slateWord w 3 = 0 then s else s.completeAt (slateWho w) (slateWord w 3) status code

/-! ### The end of members and gangs (R252, R326) -/

/-- Whether another hart of the core runs a slate of the ASID (R306). -/
def State.asidOnCore (s : State) (c asid : Nat) (but : Nat) : Bool :=
  (upTo (4 * c) (4 * c + 4)).any fun n => n != but && decide ((s.hart n).q.status ≠ .free ∧ (s.hart n).shape.asid.toNat = asid)

/-- At the exit of the last slate of the unit's ASID, held samples add to NOREUSE, and HIST records are produced (R306). -/
def State.histExit (s : State) (n : Nat) : State :=
  let c := coreOf n
  let h := s.hart n
  let x := (s.core c).hist
  if s.histOn c ∧ fld x.ctl 15 8 = h.shape.asid.toNat ∧ !s.asidOnCore c h.shape.asid.toNat n then
    let x := { x with noReuse := x.noReuse + w64 x.tags.length, tags := [] }
    let s := s.updCore c fun k => { k with hist := x }
    if h.trc.trcCtl.getLsbD 4 then
      (upTo 0 13).foldl (fun s i =>
        s.emit n 5 0 h.sc.pc (2 * i) (Table.get 0 x.rdh (2 * i)) (if i = 12 then x.noReuse else Table.get 0 x.rdh (2 * i + 1))) s
    else s
  else s

/-- The gang ends once no member is live: the completion word, and its resources are free (R252, R261, R326). -/
def State.gangEnd (s : State) (launch : Nat) : State :=
  let g := s.gang launch
  if g.live ≠ 0#32 then s
  else
    let s := match g.term with
      | some c => s.complete g.slate.words 3 c.toNat
      | none =>
        let best := (upTo 0 32).find? fun m => g.exits.any fun (e : Nat × BitVec 32) => e.1 == m
        let code := match best with
          | some m => ((g.exits.find? fun (e : Nat × BitVec 32) => e.1 == m).map fun (e : Nat × BitVec 32) => e.2.toNat).getD 0
          | none => 0
        s.complete g.slate.words 0 code
    s.dropGang launch

/-- A member leaves its gang: barrier, liveness, and the gang's end (R245, R252, R326). -/
def State.leaveGang (s : State) (n : Nat) (code : Option (BitVec 32)) (cause : BitVec 8) : State :=
  let h := s.hart n
  let l := h.shape.launch
  let m := h.shape.hartid
  let off : BitVec 32 := ~~~(1#32 <<< m)
  let s := s.updGang l fun g =>
    { g with
      live := g.live &&& off
      exits := (match code with | some c => g.exits ++ [(m, c)] | none => g.exits)
      term := (match code with | some _ => g.term | none => (match g.term with | some c => some c | none => some cause))
      bar := { g.bar with part := g.bar.part &&& off, npart := g.bar.npart &&& off } }
  (s.barrierCheck l).gangEnd l

/-- The results of the engines are dropped (R326). -/
def Hart.dropResults (h : Hart) : Hart :=
  (upTo 0 4).foldl (fun h k => h.setEngine k { (h.engine k) with res := [], fin := [] }) h

/-- The slot is free; queues and streams are empty (R326). Engine commands that are complete stay until they have run. -/
def Hart.vacate (h : Hart) : Hart :=
  let h := h.dropResults
  { h with
    str := []
    q := { h.q with
      status := .free, queue := [], run := none, stopped := [], mfault := none, irq := [], step := none, vvFence := none, region := [] } }

/-- The slot is free, and nothing runs ahead into it: the slate did not exit (R33). -/
def Hart.forget (h : Hart) : Hart :=
  { h.vacate with shape := { h.shape with launch := 0 } }

/-- Discards the queued matrix commands of a hart (R326); the one in progress runs on (R319). -/
def Core.dropCmds (c : Core) (n : Nat) : Core := { c with mq := c.mq.filter fun k => k.hart != n }

/-- Termination of a hart (R326) with the cause that names it (R261). A debugger's step ends with it (R297). -/
def State.terminate (s : State) (n : Nat) (cause : BitVec 8) : State :=
  if (s.hart n).q.status = .free then s
  else
    let s := s.performBoth n
    let s := s.histExit n
    let s := s.updCore (coreOf n) fun c => c.dropCmds n
    let s := s.leaveGang n none cause
    let s := if (s.hart n).q.step.isSome then { s with mgmt := { s.mgmt with answer := (0, 0) } } else s
    s.updHart n Hart.forget

/-! ### Exceptions (R318 to R325) -/

/-- The oldest issue unit that has not committed (R319): the oldest convoy that was handed off and not started, else the PC.
A convoy that ERET or a debugger handed off again is the stopped convoy, not one of these. -/
def Hart.resumePoint (h : Hart) : Word :=
  match h.q.queue.find? fun e => !e.resumed with
  | some e => e.addr
  | none => h.sc.pc

/-- The convoy inside which the hart stops: the started one, or one that waits to be resumed (R319, R323). -/
def Hart.stopConv (h : Hart) : Option QEntry :=
  match h.q.run with
  | some r => some r.e
  | none => h.q.queue.find? fun e => e.resumed

/-- A convoy as it stops inside: what it had done that its resumption keeps (R346). -/
def Hart.saved (h : Hart) (e : QEntry) : QEntry :=
  { e with
    resumed := true
    wrote := (match h.q.run with | some r => r.sw.filter fun x => decide (x.1 < 32) | none => e.wrote) }

/-- The squash of R319: convoys that have not started are gone with the uncommitted region, and the stopped one waits to be resumed. -/
def Hart.squash (h : Hart) : Hart :=
  { h with
    sc := { h.sc with pc := h.resumePoint }
    q := { h.q with run := none, queue := (match h.stopConv with | some e => [h.saved e] | none => []), region := [] } }

/-- A debug stop (R298 to R300): the squash, the STOP record, and the answer to the step that it ends. `elem` is the stop's
element in a convoy (R304), `bp` the breakpoint that fired. -/
def State.debugStop (s : State) (n reason number elem : Nat) (bp : Option (Word × Option Nat)) : State :=
  let s := s.performBoth n
  let h := s.hart n
  let s := match h.stopConv with
    | some e => s.emitIf 0 n 1 1 e.addr elem (w64 reason) (w64 number)
    | none => s.emitIf 0 n 1 0 h.resumePoint 0 (w64 reason) (w64 number)
  let s := if h.q.step.isSome then { s with mgmt := { s.mgmt with answer := (0, 0) } } else s
  s.updHart n fun h => let h := h.squash; { h with q := { h.q with status := .stopped, step := none, skipBp := bp } }

/-- The queue entry as TQ[0] to TQ[5] hold it (R322); `vl` is the recorded VL after trims. -/
def tqOf (e : QEntry) (vl : Nat) : Table Word :=
  [(0, w64 vl), (1, e.vtype), (2, e.mfc), (3, e.xa), (4, e.xb), (5, w64 (e.strip.toNat * 2 ^ 32 + e.imm.toNat))].foldl
    (fun (t : Table Word) (kv : Nat × Word) => Table.set 0 t kv.1 kv.2) []

/-- Trap entry (R323), or termination instead (R325). `tpc` is the stopped convoy, the faulting instruction or the resume
point; `conv` is the stopped convoy's entry and VL when the stop fell inside a convoy; `bf` marks a stopped pass. Unstarted
convoys are squashed (R319, R320), and every committed access is performed (R113). A debugger's step ends at the handler
(R300). -/
def State.takeTrap (s : State) (n : Nat) (t : Trap) (tpc : Word) (conv : Option (QEntry × Nat)) (resume : Word) (bf : Bool) : Out :=
  let h := s.hart n
  if h.sc.mode = .fw then .fault .firmwareTrap
  else if h.trap.tvec = 0 ∨ (t.cause ≠ 0x1C#8 ∧ tstatIE h.trap.tstat = false ∧ h.sc.mode = .sup) then
    .next (s.terminate n t.cause)
  else
    let s := (s.performBoth n).emitIf 1 n 2 t.tindex tpc t.telem (w64 t.cause.toNat) t.tval
    let s := s.updHart n fun h =>
      { h with
        sc := { h.sc with mode := .sup, pc := h.trap.tvec }
        q := { h.q with
          status := .running
          queue := []
          run := none
          stopped := (match conv with | some (e, vl) => some ({ (h.saved e) with vl := vl, away := e.away ++ [(h.q.ticket, 0)] }, h.vec.vstart) :: h.q.stopped | none => none :: h.q.stopped)
          skipBp := none
          region := [] }
        trap := { h.trap with
          tcause := t.cause
          tval := t.tval
          tpc := tpc
          tindex := BitVec.ofNat 3 t.tindex
          telem := BitVec.ofNat 12 t.telem
          tdet := t.tdet
          tmpc := t.tmpc
          tnpc := (match conv with | some _ => resume | none => h.trap.tnpc)
          tq := (match conv with | some (e, vl) => tqOf e vl | none => h.trap.tq)
          tstat := tstatOf false (conv.isSome && bf) conv.isSome (modeCode h.sc.mode) (tstatIE h.trap.tstat) false } }
    .next (if h.q.step.isSome then s.debugStop n 2 0 0 none else s)

/-- A synchronous fault at a scalar instruction: it waits for the started convoy, and is taken before the instruction
(R318, R320). -/
def State.scalarTrap (s : State) (n : Nat) (t : Trap) : Out :=
  if (s.hart n).q.run.isSome then .next s
  else s.takeTrap n t (s.hart n).sc.pc none (s.hart n).sc.pc false

def trap0 (cause : BitVec 8) (tval : Word) : Trap := ⟨cause, tval, 0, 0, 0, 0⟩

/-- The word of an instruction, for TVAL (R339). -/
def wordOf (i : Instr) : Word :=
  match encode i with
  | some c => c.word
  | none => 0

/-- An illegal-instruction fault of a scalar instruction (R136, R348). -/
def State.illegal (s : State) (n : Nat) (i : Instr) : Out := s.scalarTrap n (trap0 0x01#8 (wordOf i))

/-- A privilege fault of a scalar instruction (R136, R348). -/
def State.privilege (s : State) (n : Nat) (i : Instr) : Out := s.scalarTrap n (trap0 0x02#8 (wordOf i))

/-- A failed access of a scalar instruction: the fault, and then what the access detected (R354, R357). -/
def State.accessTrap (s : State) (n : Nat) (e : AErr) : Out :=
  if (s.hart n).q.run.isSome then .next s
  else
    match s.scalarTrap n (e.trap 0 0) with
    | .next s' => .next (s'.applyFound e)
    | o => o

/-- A hart that has a scalar instruction at its commit point: running, and every older convoy started (R30). -/
def Hart.atCommit (h : Hart) : Bool := decide (h.q.status = .running) && h.q.queue.isEmpty

/-- The scalar register that a vector instruction writes at its convoy's retirement (R173, R183, R203). -/
def scalarDest : Instr → Option SReg
  | .vext _ sd _ _ => some sd
  | .pcount _ sd _ => some sd
  | .pffs _ sd _ => some sd
  | .vldz _ sd => some sd
  | _ => none

/-- The scalar registers that a list of vector instructions writes. -/
def scalarDests (l : List Instr) : List SReg := l.filterMap scalarDest

/-- The started convoy still has to write one of these registers (R32). -/
def Hart.pending (h : Hart) (rs : List SReg) : Bool :=
  match h.q.run with
  | none => false
  | some r => rs.any fun x => decide (x ≠ 0#5) && (scalarDests r.e.instrs).contains x

/-- The frame of a scalar instruction on the current hart (R30, R127, R139): it waits for the commit point, has no effect
when its guard is false, waits for results of the started convoy in the registers `rs` that it names (R32), and otherwise
acts. -/
def State.scalar (s : State) (g : SG) (rs : List SReg) (f : Nat → Hart → Out) : Out :=
  let h := s.hart s.cur
  if h.atCommit = false then .next s
  else if h.guard g = false then .next (s.setHart s.cur h.nextPc)
  else if h.pending rs then .next s
  else f s.cur h

/-- A scalar instruction that writes registers of its hart and goes on to the next issue unit. -/
def State.regOp (s : State) (g : SG) (rs : List SReg) (f : Hart → Hart) : Out :=
  s.scalar g rs fun n h => .next (s.setHart n (f h).nextPc)

/-- A scalar instruction that waits until the hart's vector queue has drained (R32, R49). -/
def State.drained (s : State) (h : Hart) (k : Out) : Out := if h.q.run.isSome then .next s else k

/-- The hart has posted matrix commands that have not completed (R229). -/
def State.matrixBusy (s : State) (n : Nat) : Bool :=
  let c := s.core (coreOf n)
  (c.mq.any fun k => k.hart == n) || (match c.mrun with | some r => r.cmd.hart == n | none => false)

/-- The fault of a matrix command, taken at the named instruction (R235, R340). -/
def State.takeMFault (s : State) (n : Nat) (m : MFault) : Out :=
  if (s.hart n).q.run.isSome then .next s
  else (s.updHart n fun h => { h with q := { h.q with mfault := none } }).takeTrap n m.trap (s.hart n).sc.pc none (s.hart n).sc.pc false

end Sys2Proof.Machine
end

