-- ==== Sys2Proof/Machine/Operands.lean ====
section
/-!
DEFINITION. Operands of vector words: what a convoy captured (R20), the second operand (R128), the groups and registers that
each instruction names (R37, R160, R197), the checks of hand-off (R345), and the frame in which elements are written (R158).
-/
namespace Sys2Proof.Machine

/-! ### The captured entry -/

def QEntry.sew (e : QEntry) : Nat := vtSew e.vtype
def QEntry.lmul (e : QEntry) : Nat := vtLmul e.vtype
def QEntry.fk (e : QEntry) : Nat := vtFk e.vtype
def QEntry.mp (e : QEntry) : Bool := vtMp e.vtype
def QEntry.tp (e : QEntry) : Bool := vtTp e.vtype
/-- The block shift (R42). -/
def QEntry.shift (e : QEntry) : Nat := vtShift e.vtype
def QEntry.scfmt (e : QEntry) : Nat := fld e.mfc 19 18
def QEntry.fmt (e : QEntry) : Fmt := kindFmt e.sew e.fk
/-- The wide float format (R167, R168). -/
def QEntry.wideFmt (e : QEntry) : Fmt := if e.sew = 8 then fmtF16 else if e.sew = 16 then fmtF32 else fmtF64

/-- xa or xb or ximm as an unsigned 64-bit value: an index, a row, a raw entry. -/
def QEntry.raw (e : QEntry) : Sel3 → Nat
  | .xa => e.xa.toNat
  | .xb => e.xb.toNat
  | .ximm => e.imm.toNat

/-- xa, xb or ximm as a signed integer (R207). -/
def QEntry.signed (e : QEntry) : Sel3 → Int
  | .xa => e.xa.toInt
  | .xb => e.xb.toInt
  | .ximm => e.imm.toInt

/-- What a slot acts in: the hart, the slot number (1 to 5) and the entry. -/
structure Ctx where
  n : Nat
  slot : Nat
  e : QEntry
  deriving DecidableEq, Repr

/-- How an instruction reads ximm (R128). -/
inductive ImmKind where
  | int | bf16
  deriving DecidableEq, Repr

/-- ximm as an operand of SEW bits (R128). -/
def QEntry.immAs (e : QEntry) : ImmKind → Nat
  | .int => pat e.sew e.imm.toInt
  | .bf16 => (fmtBF16.convert e.fmt Rnd.rne false e.imm.toNat).1

/-- op2[i]: SEW bits, or 2·SEW bits under OSEL 100 (R128). -/
def Hart.op2 (h : Hart) (e : QEntry) (k : ImmKind) (o : Op2) (i : Nat) : Nat :=
  match o with
  | .vs2 r => h.rdE r.toNat i e.sew
  | .wide r => h.rdE r.toNat i (2 * e.sew)
  | .xa => e.xa.toNat % 2 ^ e.sew
  | .xb => e.xb.toNat % 2 ^ e.sew
  | .ximm => e.immAs k

/-- The element index and STRIPNO of an SR rounding (R70): in a translated image those of the physical sub-strip (R316, log 12). -/
def Hart.srAt (h : Hart) (e : QEntry) (i : Nat) : Nat × BitVec 32 :=
  if h.shape.virt then
    let n := max 1 (vlmaxOf h.physVlen e.vtype)
    (i % n, Config.physStrip h.physVlen e.strip (i / n))
  else (i, e.strip)

/-- The rounding of a vector FP word (R164). -/
def Hart.vrnd (h : Hart) (e : QEntry) (m : RMode) (i : Nat) : Rnd := ⟨m, srRandom h.sc.srseed (h.srAt e i).1 (h.srAt e i).2⟩

/-! ### What an instruction names -/

/-- The registers that a vector word names: groups read and written with their width factor (1 or 2), other groups whose
limits are checked, predicates read (its guard apart) and written, predicates killed, and the scale register written. -/
structure VView where
  guard : VG
  reads : List (Nat × Nat)
  writes : List (Nat × Nat)
  names : List (Nat × Nat)
  preads : List Nat
  pwrites : List Nat
  kills : List Nat
  kwrite : Option KReg
  deriving DecidableEq, Repr

/-- A word without guard (R183, R205). -/
def noGuard : VG := ⟨0xFF#8, 0, 0, 0⟩

def op2Reads : Op2 → List (Nat × Nat)
  | .vs2 r => [(r.toNat, 1)]
  | .wide r => [(r.toNat, 2)]
  | _ => []

def viewV (g : VG) (reads writes : List (Nat × Nat)) : VView := ⟨g, reads, writes, [], [], [], [], none⟩
def viewP (g : VG) (preads pwrites : List Nat) : VView := ⟨g, [], [], [], preads, pwrites, [], none⟩
def viewK (g : VG) (reads : List (Nat × Nat)) (kd : KReg) : VView := ⟨g, reads, [], [], [], [], [], some kd⟩

/-- vd, vs1, op2 at SEW. -/
def view3 (g : VG) (vd vs1 : VReg) (o : Op2) : VView := viewV g ((vs1.toNat, 1) :: (op2Reads o)) [(vd.toNat, 1)]
/-- The same with the old vd as an operand. -/
def view4 (g : VG) (vd vs1 : VReg) (o : Op2) : VView := viewV g ((vs1.toNat, 1) :: (vd.toNat, 1) :: (op2Reads o)) [(vd.toNat, 1)]
/-- A widening form (R160). -/
def viewW (g : VG) (vd vs1 : VReg) (o : Op2) : VView := viewV g ((vs1.toNat, 1) :: (op2Reads o)) [(vd.toNat, 2)]
/-- A narrowing form (R160). -/
def viewN (g : VG) (vd vs1 : VReg) (o : Op2) : VView := viewV g ((vs1.toNat, 2) :: (op2Reads o)) [(vd.toNat, 1)]
def view2 (g : VG) (vd vs1 : VReg) : VView := viewV g [(vs1.toNat, 1)] [(vd.toNat, 1)]
/-- The pair of a compare (R169). -/
def viewC (g : VG) (pair : BitVec 6) (vs1 : VReg) (o : Op2) : VView :=
  ⟨g, (vs1.toNat, 1) :: (op2Reads o), [], [], [], [2 * pair.toNat, 2 * pair.toNat + 1], [], none⟩

/-- What a vector word names; none for other instructions. -/
def vview : Instr → Option VView
  | .vadd g vd vs1 o _ _ | .vsub g vd vs1 o _ _ | .vrsub g vd vs1 o _ _ | .vmul g vd vs1 o _ _ | .vmulh g vd vs1 o _ _
  | .vdiv g vd vs1 o _ _ | .vrem g vd vs1 o _ _ | .vmin g vd vs1 o _ _ | .vmax g vd vs1 o _ _ | .vand g vd vs1 o _ _
  | .vor g vd vs1 o _ _ | .vxor g vd vs1 o _ _ | .vsll g vd vs1 o _ _ | .vsrl g vd vs1 o _ _ | .vsra g vd vs1 o _ _
  | .vavg g vd vs1 o _ _ => some (view3 g vd vs1 o)
  | .vaddw g vd vs1 o _ _ | .vsubw g vd vs1 o _ _ | .vmulw g vd vs1 o _ _ => some (viewW g vd vs1 o)
  | .vmacc g vd vs1 o _ _ => some (view4 g vd vs1 o)
  | .vnsrl g vd vs1 o _ _ | .vnclip g vd vs1 o _ _ => some (viewN g vd vs1 o)
  | .vabs g vd vs1 _ => some (view2 g vd vs1)
  | .vfadd g vd vs1 o _ | .vfsub g vd vs1 o _ | .vfmul g vd vs1 o _ | .vfdiv g vd vs1 o _ => some (view3 g vd vs1 o)
  | .vfsqrt g vd vs1 _ => some (view2 g vd vs1)
  | .vfmin g vd vs1 o | .vfmax g vd vs1 o | .vfclamp g vd vs1 o | .vfsgnj g vd vs1 o => some (view3 g vd vs1 o)
  | .vfma g vd vs1 o _ | .vfms g vd vs1 o _ | .vfnma g vd vs1 o _ | .vfnms g vd vs1 o _ => some (view4 g vd vs1 o)
  | .vfabs g vd vs1 | .vfneg g vd vs1 => some (view2 g vd vs1)
  | .vfwadd g vd vs1 o _ | .vfwmul g vd vs1 o _ => some (viewW g vd vs1 o)
  | .vfwma g vd vs1 o _ => some (viewV g ((vs1.toNat, 1) :: (vd.toNat, 2) :: (op2Reads o)) [(vd.toNat, 2)])
  | .vfcvt g vd vs1 _ | .vfcvti g vd vs1 _ _ _ | .vicvtf g vd vs1 _ _ => some (view2 g vd vs1)
  | .vfncvt g vd vs1 _ _ => some (viewV g [(vs1.toNat, 2)] [(vd.toNat, 1)])
  | .vfwcvt g vd vs1 => some (viewV g [(vs1.toNat, 1)] [(vd.toNat, 2)])
  | .vcmp g pair vs1 o _ | .vfcmp g pair vs1 o _ => some (viewC g pair vs1 o)
  | .vmv g vd o => some (viewV g (op2Reads o) [(vd.toNat, 1)])
  | .vmerge g vd vs1 o => some (view3 g vd vs1 o)
  | .vext g _ vs1 _ => some (viewV g [(vs1.toNat, 1)] [])
  | .vins g vd _ => some (viewV g [] [(vd.toNat, 1)])
  | .vid g vd => some (viewV g [] [(vd.toNat, 1)])
  | .plogic g pd => some (viewP g [] [pd.toNat])
  | .pset g pd | .psets g pd _ | .pclr g pd => some (viewP g [] [pd.toNat])
  | .psbf g pd ps | .psif g pd ps | .psof g pd ps => some (viewP g [ps.toNat] [pd.toNat])
  | .pcount g _ ps | .pffs g _ ps => some (viewP g [ps.toNat] [])
  | .pkill pd plast =>
    some ⟨noGuard, [], [], [], [], [], (upTo pd.toNat ((if plast = 0 then pd.toNat else plast.toNat) + 1)).filter (· ≠ 0), none⟩
  | .pfromv g pd vs => some ⟨g, [(vs.toNat, 1)], [], [], [], [pd.toNat], [], none⟩
  | .ptov g vd ps => some ⟨g, [], [(vd.toNat, 1)], [], [ps.toNat], [], [], none⟩
  | .kadd g kd _ _ | .ksub g kd _ _ | .kmax g kd _ _ | .kmin g kd _ _ => some (viewK g [] kd)
  | .kmov g kd _ => some (viewK g [] kd)
  | .kset g kd _ => some (viewK g [] kd)
  | .kfromv g kd vs _ => some (viewK g [(vs.toNat, 1)] kd)
  | .vbind g vd _ => some ⟨g, [], [], [(vd.toNat, 1)], [], [], [], none⟩
  | .vunbind g vd => some ⟨g, [], [], [(vd.toNat, 1)], [], [], [], none⟩
  | .vskip g ps _ => some (viewP g [ps.toNat] [])
  | .bfop g _ _ => some (viewP g [] [])
  | .vld g vd _ | .vlds g vd _ | .vldff g vd _ => some (viewV g [] [(vd.toNat, 1)])
  | .vldx g vd vs2 _ => some (viewV g [(vs2.toNat, 1)] [(vd.toNat, 1)])
  | .vldz vd _ => some (viewV noGuard [] [(vd.toNat, 1)])
  | .vldk g vd kd _ => some ⟨g, [], [(vd.toNat, 1)], [], [], [], [], some kd⟩
  | .vst g vd _ | .vsts g vd _ => some (viewV g [(vd.toNat, 1)] [])
  | .vstx g vd vs2 _ => some (viewV g [(vd.toNat, 1), (vs2.toNat, 1)] [])
  | .vstk g vd _ _ => some (viewV g [(vd.toNat, 1)] [])
  | .vamo g vd vs2 _ _ => some (viewV g [(vd.toNat, 1), (vs2.toNat, 1)] [(vd.toNat, 1)])
  | .pld g pd _ => some (viewP g [] [pd.toNat])
  | .pst g pd _ => some (viewP g [pd.toNat] [])
  | .kld g k _ => some (viewK g [] k)
  | .kst g _ _ => some (viewP g [] [])
  | .strmbind g vd _ _ => some ⟨g, [], [], [(vd.toNat, 1)], [], [], [], none⟩
  | .strmunbind g _ => some (viewP g [] [])
  | .bfseq g _ _ => some (viewP g [] [])
  | .bftab g _ _ => some (viewP g [] [])
  | .vpref g _ _ => some (viewP g [] [])
  | .bfpass g _ _ _ _ _ _ | .bfpassKp g _ _ _ _ _ _ => some (viewP g [] [])
  | .mdrn g vd _ _ | .mdrnt g vd _ _ => some (viewV g [] [(vd.toNat, 1)])
  | .mput g vd _ _ => some (viewV g [(vd.toNat, 1)] [])
  | _ => none

/-- The widest element of a slot (R21, R197, R215). -/
def slotWidth (e : QEntry) (i : Instr) : Nat :=
  match vview i with
  | none => e.sew
  | some v => (v.reads ++ v.writes).foldl (fun w r => max w (e.sew * r.2)) e.sew

/-- Elements of one group of a convoy (R21). -/
def groupSize (g : Nat) (e : QEntry) : Nat := 512 * g / (e.instrs.foldl (fun w i => max w (slotWidth e i)) e.sew)

/-- The end of the element group that holds element `lo` (R21). -/
def groupEnd (g : Nat) (e : QEntry) (lo : Nat) : Nat := min e.vl ((lo / groupSize g e + 1) * groupSize g e)

/-- A convoy that is a pass (R19, R215). -/
def QEntry.isPass (e : QEntry) : Bool :=
  e.instrs.any fun i => match i with | .bfpass _ _ _ _ _ _ _ | .bfpassKp _ _ _ _ _ _ _ => true | _ => false

/-- Vector registers that a slot reads, one by one (R194). -/
def readRegs (e : QEntry) (i : Instr) : List Nat :=
  match vview i with
  | none => []
  | some v => v.reads.flatMap fun r => upTo r.1 (r.1 + e.lmul * r.2)

/-- Slots bound to registers that a convoy reads (R194). -/
def Hart.consumed (h : Hart) (e : QEntry) : List Nat :=
  (upTo 0 8).filter fun m => (h.stream m).bound && e.instrs.any fun i => (readRegs e i).contains (h.stream m).vreg.toNat

/-- The convoy trims VL or consumes a stream (R32). -/
def Hart.trims (h : Hart) (e : QEntry) : Bool :=
  (e.instrs.any fun i => match i with | .vldff _ _ _ | .vldz _ _ => true | _ => false) || !(h.consumed e).isEmpty

/-! ### Checks at hand-off (R345) -/

/-- A register group within its limits (R37). -/
def groupLegal (nreg first count : Nat) : Bool := decide (first % count = 0 ∧ first + count ≤ nreg)

def groupsMeet (a na b nb : Nat) : Bool := decide (a < b + nb ∧ b < a + na)

/-- Instructions that a width excludes (R160, R164, R168, R186, R236). -/
def sewLegal (sew : Nat) : Instr → Bool
  | .vfadd .. | .vfsub .. | .vfmul .. | .vfdiv .. | .vfsqrt .. | .vfmin .. | .vfmax .. | .vfma .. | .vfms .. | .vfnma ..
  | .vfnms .. | .vfclamp .. | .vfabs .. | .vfneg .. | .vfsgnj .. => decide (sew ≠ 8)
  | .vfwadd .. | .vfwmul .. | .vfwma .. => decide (sew ≠ 8 ∧ sew ≠ 64)
  | .vaddw .. | .vsubw .. | .vmulw .. | .vnsrl .. | .vnclip .. => decide (sew ≠ 64)
  | .vfcvt .. => decide (sew ≤ 16)
  | .vfncvt .. | .vfwcvt .. => decide (sew ≠ 64)
  | .vamo .. => decide (32 ≤ sew)
  | .mdrn .. | .mdrnt .. | .mput .. => decide (sew = 32)
  | _ => true

/-- State width in register groups of a pass word (R124). -/
def passWidth (sw : BitVec 2) : Nat := 2 ^ sw.toNat

/-- The run of state groups of a pass (R215). -/
def passState (e : QEntry) : Instr → Option (Nat × Nat)
  | .bfpass _ vd _ _ _ _ sw | .bfpassKp _ vd _ _ _ _ sw => some (vd.toNat, passWidth sw * e.lmul)
  | _ => none

def tileOf : Instr → Option TReg
  | .mdrn _ _ t _ | .mdrnt _ _ t _ | .mput _ _ t _ => some t
  | _ => none

/-- Scans and counts that reread their source (R202). -/
def isScan : Instr → Bool
  | .psbf .. | .psif .. | .psof .. | .pcount .. | .pffs .. => true
  | _ => false

def guardRegs (g : VG) : List Nat := [g.pa.toNat, g.pb.toNat, g.pc.toNat].filter (· ≠ 0)

/-- Predicates that a slot names in any way (R205). A PKILL names what it kills, so two of one convoy that kill the same predicate are
in conflict (DESIGN CHOICE, log 55). -/
def VView.named (v : VView) : List Nat := guardRegs v.guard ++ v.preads ++ v.pwrites ++ v.kills

/-- R345 for slot `i` of a convoy, `ahead` being the slots before it and `others` every other slot. Of two slots in conflict the
one at fault is the one that the table of R345 makes its subject: the slot that writes what a scan before it reads (R202), and
the slot that names what a PKILL kills (R205). DEDUCED, log 55. p0 is in conflict with no scan, because a write to it is discarded
(DESIGN CHOICE, log 55). -/
def slotLegal (h : Hart) (e : QEntry) (i : Instr) (ahead others : List Instr) : Bool :=
  let nreg := h.nregs
  match vview i with
  | none => false
  | some v =>
    let groups := v.reads ++ v.writes ++ v.names
    let scanned (p : Nat) : Bool := ahead.any fun j => isScan j &&
      match vview j with | some w => (guardRegs w.guard ++ w.preads.filter (· ≠ 0)).contains p | none => false
    sewLegal e.sew i &&
    (groups.all fun r => groupLegal nreg r.1 (e.lmul * r.2)) &&
    (v.writes.all fun d => v.reads.all fun r => r.2 == d.2 || !groupsMeet d.1 (e.lmul * d.2) r.1 (e.lmul * r.2)) &&
    (match i with | .psbf _ pd ps | .psif _ pd ps | .psof _ pd ps => decide (pd ≠ ps) | _ => true) &&
    ((v.pwrites ++ v.kills).all fun p => !scanned p) &&
    (others.all fun j => match vview j with | some w => w.kills.all fun p => !v.named.contains p | none => true) &&
    (match passState e i with | some (first, count) => decide (first % e.lmul = 0 ∧ first + count ≤ nreg) | none => true) &&
    (match tileOf i with | some t => h.shape.talloc.getLsbD t.toNat | none => true)

/-- The lowest slot (from 1) at fault: one whose word is no instruction of its unit, or that breaks R345 (R136). -/
def firstIllegal (h : Hart) (e : QEntry) (slots : List (Option Instr)) : Option Nat :=
  (upTo 0 slots.length).findSome? fun k =>
    match slots[k]? with
    | some (some i) => if slotLegal h e i ((slots.take k).filterMap id) ((slots.eraseIdx k).filterMap id) then none else some (k + 1)
    | _ => some (k + 1)

/-! ### Writing elements (R158) -/

/-- Element `i` is written and its register's record is cleared (R44, R159). -/
def Hart.wrElem (h : Hart) (r i w x : Nat) : Hart :=
  (h.wrE r i w x).setBinding (r + i * w / h.vlen) Binding.clear

/-- One element of a vector destination (R158). -/
def Hart.elem (h : Hart) (e : QEntry) (g : VG) (vd w i : Nat) (op : Hart → FR) : Hart :=
  if h.vguard g i then
    let r := op h
    (h.wrElem vd i w r.1).flags r.2
  else if e.mp then h.wrElem vd i w (ones w)
  else h

/-- One bit of a predicate register, its mark set (R41). -/
def Hart.wrP (h : Hart) (p i : Nat) (b : Bool) : Hart :=
  if p = 0 then h
  else
    let h := h.mark p
    let x := h.rdP p
    h.wrPraw p (if b then x ||| 2 ^ i else x &&& (x ^^^ 2 ^ i))

/-- One element of a predicate destination (R197). -/
def Hart.pelem (h : Hart) (e : QEntry) (g : VG) (pd i : Nat) (op : Hart → Bool) : Hart :=
  if h.vguard g i then h.wrP pd i (op h)
  else if e.mp then h.wrP pd i true
  else h

/-- Elements `lo` to `hi` − 1 in ascending order on a hart. -/
def Hart.each (h : Hart) (lo hi : Nat) (f : Nat → Hart → Hart) : Hart := (upTo lo hi).foldl (fun h i => f i h) h

/-- Tail bits VL to 4,095 of a predicate are written with ones (R40, R197). -/
def Hart.ptail (h : Hart) (e : QEntry) (pd : Nat) : Hart :=
  if e.tp then h.wrPraw pd (h.rdP pd ||| (ones 4096 - ones e.vl)) else h

/-- Whether the convoy that retires, or the word that stands alone, has committed an element group (R39, R158): VSTART lies at
VL when the last group of a run has. -/
def Hart.committed (h : Hart) (e : QEntry) : Bool :=
  (match h.q.run with | some r => r.moved | none => false) || decide (h.vec.vstart < e.vl)

/-- The tail of a vector destination of width `w` (R158). -/
def Hart.vtail (h : Hart) (e : QEntry) (vd w : Nat) : Hart :=
  if e.tp then h.wrTail (h.committed e) vd (e.lmul * w / e.sew) (e.vl * w) else h

/-- The tail of an instruction that has made the record of its destination: the record stands (R44, R171, R184). -/
def Hart.vtailOwn (h : Hart) (e : QEntry) (vd w : Nat) : Hart :=
  let h' := h.vtail e vd w
  { h' with vec := { h'.vec with vbr := h.vec.vbr } }

/-! ### Slots -/

/-- How an element stops a convoy: a fault, or a trim (R25). -/
inductive Halt where
  | fault (e : AErr)
  | trim (found : List Seen)
  deriving DecidableEq, Repr

/-- The outcome of a slot on a run of elements: where it stopped and how, or the new state. -/
abbrev GRes := Except (Nat × Halt) State

/-- What a vector instruction does: when its convoy starts (R189, R223), on a run of elements, and when the convoy retires. -/
structure Slot where
  start : Ctx → State → Except AErr State
  group : Ctx → Nat → Nat → State → GRes
  retire : Ctx → State → State

def noStart (_ : Ctx) (s : State) : Except AErr State := .ok s
def noGroup (_ : Ctx) (_ _ : Nat) (s : State) : GRes := .ok s
def noRetire (_ : Ctx) (s : State) : State := s

/-- A slot that works on registers element by element and cannot fault. -/
def elemSlot (f : Ctx → Nat → Hart → Hart) (tail : Ctx → Hart → Hart) : Slot :=
  ⟨noStart, fun c lo hi s => .ok (s.updHart c.n fun h => h.each lo hi (f c)), fun c s => s.updHart c.n (tail c)⟩

/-- A slot with one vector destination: width factor `k` (R158). -/
def vecSlot (g : VG) (vd : VReg) (k : Nat) (op : Ctx → Nat → Hart → FR) : Slot :=
  elemSlot (fun c i h => h.elem c.e g vd.toNat (c.e.sew * k) i (op c i)) (fun c h => h.vtail c.e vd.toNat (c.e.sew * k))

/-- A slot with one predicate destination (R197). A group of it sets the mark whatever the guard (R41). -/
def predSlot (g : VG) (pd : PReg) (op : Ctx → Nat → Hart → Bool) : Slot :=
  ⟨noStart,
    fun c lo hi s => .ok (s.updHart c.n fun h => (h.mark pd.toNat).each lo hi fun i h => h.pelem c.e g pd.toNat i (op c i)),
    fun c s => s.updHart c.n fun h => h.ptail c.e pd.toNat⟩

/-- A scalar register written by a slot: the highest slot of the convoy stands (R346). -/
def Hart.slotWrite (h : Hart) (slot : Nat) (sd : SReg) (v : Word) : Hart :=
  match h.q.run with
  | none => h.wrS sd v
  | some r =>
    if slot < Table.get 0 r.sw sd.toNat then h
    else { h.wrS sd v with q := { h.q with run := some { r with sw := Table.set 0 r.sw sd.toNat slot } } }

/-- Elements in ascending order that may stop (R341). -/
def eachElem : List Nat → (Nat → State → Except Halt State) → State → GRes
  | [], _, s => .ok s
  | i :: r, f, s =>
    match f i s with
    | .error x => .error (i, x)
    | .ok s => eachElem r f s

end Sys2Proof.Machine
end

