-- ==== Sys2Proof/Machine/Scalar.lean ====
section
/-!
DEFINITION. Scalar integer instructions, loads and stores, compares and branches (R139 to R147).
-/
namespace Sys2Proof.Machine

/-! ### Integer results (R140, R141) -/

def aluMulh (a b : Word) : Word := w64 (pat 128 (a.toInt * b.toInt) / 2 ^ 64)
def aluMulhu (a b : Word) : Word := w64 (a.toNat * b.toNat / 2 ^ 64)

/-- Quotient and remainder of signed `w`-bit division (R140, R163). -/
def divS (w : Nat) (x y : Int) : Int × Int :=
  if y = 0 then (-1, x)
  else if x = -((2 ^ (w - 1) : Nat) : Int) ∧ y = -1 then (x, 0)
  else (tquot x y, trem x y)

/-- Quotient and remainder of unsigned `w`-bit division (R140, R163). -/
def divU (w x y : Nat) : Nat × Nat := if y = 0 then (2 ^ w - 1, x) else (x / y, x % y)

def aluDiv (a b : Word) : Word := BitVec.ofInt 64 (divS 64 a.toInt b.toInt).1
def aluRem (a b : Word) : Word := BitVec.ofInt 64 (divS 64 a.toInt b.toInt).2
def aluDivu (a b : Word) : Word := w64 (divU 64 a.toNat b.toNat).1
def aluRemu (a b : Word) : Word := w64 (divU 64 a.toNat b.toNat).2
def aluSll (a b : Word) : Word := a <<< (b.toNat % 64)
def aluSrl (a b : Word) : Word := a >>> (b.toNat % 64)
def aluSra (a b : Word) : Word := a.sshiftRight (b.toNat % 64)
def aluMin (a b : Word) : Word := if a.slt b then a else b
def aluMax (a b : Word) : Word := if a.slt b then b else a
def aluMinu (a b : Word) : Word := if a.ult b then a else b
def aluMaxu (a b : Word) : Word := if a.ult b then b else a

/-- An R-layout integer instruction (R140). -/
def aluOp (s : State) (f : Word → Word → Word) (g : SG) (sd sa sb : SReg) : Out :=
  s.regOp g [sd, sa, sb] fun h => h.wrS sd (f (h.rdS sa) (h.rdS sb))

def execAdd (g : SG) (sd sa sb : SReg) (s : State) : Out := aluOp s (· + ·) g sd sa sb
def execSub (g : SG) (sd sa sb : SReg) (s : State) : Out := aluOp s (· - ·) g sd sa sb
def execAnd (g : SG) (sd sa sb : SReg) (s : State) : Out := aluOp s (· &&& ·) g sd sa sb
def execOr (g : SG) (sd sa sb : SReg) (s : State) : Out := aluOp s (· ||| ·) g sd sa sb
def execXor (g : SG) (sd sa sb : SReg) (s : State) : Out := aluOp s (· ^^^ ·) g sd sa sb
def execSll (g : SG) (sd sa sb : SReg) (s : State) : Out := aluOp s aluSll g sd sa sb
def execSrl (g : SG) (sd sa sb : SReg) (s : State) : Out := aluOp s aluSrl g sd sa sb
def execSra (g : SG) (sd sa sb : SReg) (s : State) : Out := aluOp s aluSra g sd sa sb
def execMul (g : SG) (sd sa sb : SReg) (s : State) : Out := aluOp s (· * ·) g sd sa sb
def execMulh (g : SG) (sd sa sb : SReg) (s : State) : Out := aluOp s aluMulh g sd sa sb
def execMulhu (g : SG) (sd sa sb : SReg) (s : State) : Out := aluOp s aluMulhu g sd sa sb
def execDiv (g : SG) (sd sa sb : SReg) (s : State) : Out := aluOp s aluDiv g sd sa sb
def execDivu (g : SG) (sd sa sb : SReg) (s : State) : Out := aluOp s aluDivu g sd sa sb
def execRem (g : SG) (sd sa sb : SReg) (s : State) : Out := aluOp s aluRem g sd sa sb
def execRemu (g : SG) (sd sa sb : SReg) (s : State) : Out := aluOp s aluRemu g sd sa sb
def execMin (g : SG) (sd sa sb : SReg) (s : State) : Out := aluOp s aluMin g sd sa sb
def execMax (g : SG) (sd sa sb : SReg) (s : State) : Out := aluOp s aluMax g sd sa sb
def execMinu (g : SG) (sd sa sb : SReg) (s : State) : Out := aluOp s aluMinu g sd sa sb
def execMaxu (g : SG) (sd sa sb : SReg) (s : State) : Out := aluOp s aluMaxu g sd sa sb

/-- An I-layout integer instruction: the R-layout form with the immediate in place of sb (R141). -/
def immOp (s : State) (f : Word → Word → Word) (g : SG) (sd sa : SReg) (x : Word) : Out :=
  s.regOp g [sd, sa] fun h => h.wrS sd (f (h.rdS sa) x)

def execAddImm (g : SG) (sd sa : SReg) (imm : BitVec 24) (s : State) : Out := immOp s (· + ·) g sd sa (imm.signExtend 64)
def execAndImm (g : SG) (sd sa : SReg) (imm : BitVec 24) (s : State) : Out := immOp s (· &&& ·) g sd sa (imm.setWidth 64)
def execOrImm (g : SG) (sd sa : SReg) (imm : BitVec 24) (s : State) : Out := immOp s (· ||| ·) g sd sa (imm.setWidth 64)
def execXorImm (g : SG) (sd sa : SReg) (imm : BitVec 24) (s : State) : Out := immOp s (· ^^^ ·) g sd sa (imm.setWidth 64)
def execSllImm (g : SG) (sd sa : SReg) (sh : BitVec 6) (s : State) : Out := immOp s aluSll g sd sa (sh.setWidth 64)
def execSrlImm (g : SG) (sd sa : SReg) (sh : BitVec 6) (s : State) : Out := immOp s aluSrl g sd sa (sh.setWidth 64)
def execSraImm (g : SG) (sd sa : SReg) (sh : BitVec 6) (s : State) : Out := immOp s aluSra g sd sa (sh.setWidth 64)

/-- LIH (R141). -/
def execLih (g : SG) (sd : SReg) (imm : BitVec 29) (s : State) : Out :=
  s.regOp g [sd] fun h => h.wrS sd (imm.signExtend 64 <<< 24)

/-! ### Loads and stores (R143) -/

/-- Address and alignment checks that come before the local region and translation (R84, R95, R143). -/
def alignErr (va : Word) (bytes : Nat) (a : Acc) : Option AErr :=
  if fld va 63 55 ≠ 0 then some (AErr.plain 0x05#8 va a)
  else if va.toNat % bytes ≠ 0 then some (AErr.plain 0x06#8 va a)
  else none

/-- The address of a scalar load or store. -/
def lsAddr (h : Hart) (sa : SReg) (imm : BitVec 24) : Word := h.rdS sa + imm.signExtend 64

/-- The bytes of a load that commits, `bs` being those that it would read now: where it returned its data ahead of the commit point, those
(R30). The region is given up where it does not begin with this load. -/
def Hart.takeEarly (h : Hart) (va : Word) (bs : List Byte) : Hart × List Byte :=
  match h.q.region with
  | [] => (h, bs)
  | x :: r =>
    if x.pc = h.sc.pc ∧ x.va = va ∧ x.bytes.length = bs.length then ({ h with q := { h.q with region := r } }, x.bytes)
    else ({ h with q := { h.q with region := [] } }, bs)

/-- A scalar load of `bytes` bytes; `ext` extends the loaded pattern (R30, R143). -/
def loadOp (s : State) (bytes : Nat) (ext : Nat → Word) (g : SG) (sd sa : SReg) (imm : BitVec 24) : Out :=
  s.scalar g [sd, sa] fun n h =>
    let va := lsAddr h sa imm
    match alignErr va bytes .read with
    | some e => s.accessTrap n e
    | none =>
      match s.load n .scalar va bytes .read with
      | .error e => s.accessTrap n e
      | .ok (s, bs) => .next (s.updHart n fun h => let x := h.takeEarly va bs; (x.1.wrS sd (ext (ofBytes x.2))).nextPc)

/-- A scalar store of the low bytes of the register named in SD (R143). -/
def storeOp (s : State) (bytes : Nat) (g : SG) (sd sa : SReg) (imm : BitVec 24) : Out :=
  s.scalar g [sd, sa] fun n h =>
    let va := lsAddr h sa imm
    match alignErr va bytes .write with
    | some e => s.accessTrap n e
    | none =>
      match s.store n .scalar va (toBytes bytes (h.rdS sd).toNat) with
      | .error e => s.accessTrap n e
      | .ok s => .next (s.updHart n Hart.nextPc)

def execLdB (g : SG) (sd sa : SReg) (imm : BitVec 24) (s : State) : Out := loadOp s 1 (sext64 8) g sd sa imm
def execLdH (g : SG) (sd sa : SReg) (imm : BitVec 24) (s : State) : Out := loadOp s 2 (sext64 16) g sd sa imm
def execLdW (g : SG) (sd sa : SReg) (imm : BitVec 24) (s : State) : Out := loadOp s 4 (sext64 32) g sd sa imm
def execLdD (g : SG) (sd sa : SReg) (imm : BitVec 24) (s : State) : Out := loadOp s 8 w64 g sd sa imm
def execLdBu (g : SG) (sd sa : SReg) (imm : BitVec 24) (s : State) : Out := loadOp s 1 w64 g sd sa imm
def execLdHu (g : SG) (sd sa : SReg) (imm : BitVec 24) (s : State) : Out := loadOp s 2 w64 g sd sa imm
def execLdWu (g : SG) (sd sa : SReg) (imm : BitVec 24) (s : State) : Out := loadOp s 4 w64 g sd sa imm
def execStB (g : SG) (sd sa : SReg) (imm : BitVec 24) (s : State) : Out := storeOp s 1 g sd sa imm
def execStH (g : SG) (sd sa : SReg) (imm : BitVec 24) (s : State) : Out := storeOp s 2 g sd sa imm
def execStW (g : SG) (sd sa : SReg) (imm : BitVec 24) (s : State) : Out := storeOp s 4 g sd sa imm
def execStD (g : SG) (sd sa : SReg) (imm : BitVec 24) (s : State) : Out := storeOp s 8 g sd sa imm

/-! ### Compares (R144) -/

/-- An integer condition on `w`-bit patterns (R131). -/
def intCond (w : Nat) (cc : Cond) (a b : Nat) : Bool :=
  match cc with
  | .eq => decide (a = b)
  | .ne => decide (a ≠ b)
  | .lt => decide (sgn w a < sgn w b)
  | .ge => decide (sgn w b ≤ sgn w a)
  | .ltu => decide (a < b)
  | .geu => decide (b ≤ a)
  | .gt => decide (sgn w b < sgn w a)
  | .le => decide (sgn w a ≤ sgn w b)
  | .gtu => decide (b < a)
  | .leu => decide (a ≤ b)

def execCmp (g : SG) (cd : CReg) (sa sb : SReg) (cc : Cond) (s : State) : Out :=
  s.regOp g [sa, sb] fun h => h.wrPair cd (intCond 64 cc (h.rdS sa).toNat (h.rdS sb).toNat)

/-! ### Branches (R145 to R147) -/

/-- PC + 8 × a signed word offset. -/
def branchTo (pc : Word) (off : Word) : Word := pc + off <<< 3

/-- A scalar instruction that writes registers and sets the pc. -/
def jumpOp (s : State) (g : SG) (rs : List SReg) (f : Hart → Hart) : Out := s.scalar g rs fun n h => .next (s.setHart n (f h))

def execB (g : SG) (off : BitVec 29) (s : State) : Out :=
  jumpOp s g [] fun h => h.setPc (branchTo h.sc.pc (off.signExtend 64))

def execBc (g : SG) (sd : SReg) (off : BitVec 29) (s : State) : Out :=
  jumpOp s g [sd] fun h =>
    let x := h.rdS sd - 1
    (h.wrS sd x).setPc (if x = 0 then h.sc.pc + 8 else branchTo h.sc.pc (off.signExtend 64))

def execCall (g : SG) (sd : SReg) (off : BitVec 29) (s : State) : Out :=
  jumpOp s g [sd] fun h => (h.wrS sd (h.sc.pc + 8)).setPc (branchTo h.sc.pc (off.signExtend 64))

/-- The checks on a jump target: alignment and R84 (R146). Point 7 before 8 of R339. The spec gives no kind of access for a jump, which
makes none (R362): TDET.ACC is that of a fetch (DESIGN CHOICE, log 75). -/
def targetErr (t : Word) : Option AErr :=
  if fld t 63 55 ≠ 0 then some (AErr.plain 0x05#8 t .fetch)
  else if t.toNat % 8 ≠ 0 then some (AErr.plain 0x06#8 t .fetch)
  else none

/-- A jump to a register with an optional link (R146). -/
def jumpReg (s : State) (g : SG) (sd sa : SReg) (link : Hart → Hart) : Out :=
  s.scalar g [sd, sa] fun n h =>
    let t := h.rdS sa
    match targetErr t with
    | some e => s.accessTrap n e
    | none => .next (s.setHart n ((link h).setPc t))

def execJr (g : SG) (sd sa : SReg) (s : State) : Out := jumpReg s g sd sa fun h => h.wrS sd (h.sc.pc + 8)
def execRet (g : SG) (sa : SReg) (s : State) : Out := jumpReg s g 0 sa id

/-- A vector branch: drains, then tests elements 0 to VL − 1 of a predicate (R32, R147). -/
def predBranch (s : State) (taken : Nat → Nat → Bool) (g : SG) (p : PReg) (off : BitVec 22) : Out :=
  s.scalar g [] fun n h => s.drained h
    (.next (s.setHart n (h.setPc (if taken h.vec.vl (h.rdP p.toNat % 2 ^ h.vec.vl) then branchTo h.sc.pc (off.signExtend 64) else h.sc.pc + 8))))

def execBany (g : SG) (p : PReg) (off : BitVec 22) (s : State) : Out := predBranch s (fun _ x => decide (x ≠ 0)) g p off
def execBall (g : SG) (p : PReg) (off : BitVec 22) (s : State) : Out := predBranch s (fun vl x => decide (x = 2 ^ vl - 1)) g p off
def execBnone (g : SG) (p : PReg) (off : BitVec 22) (s : State) : Out := predBranch s (fun _ x => decide (x = 0)) g p off

end Sys2Proof.Machine
end

