-- ==== Sys2Proof/Machine/Csr.lean ====
section
/-!
DEFINITION. Control registers (R26, R48 to R57, R153, R154, R260, R303, R305, R306, R322, R362, R366, R367, R371) and the
shape of vectors (R27, R28, R155 to R157).
-/
namespace Sys2Proof.Machine

/-! ### Which registers exist (R49 and the rules that add to it) -/

/-- Numbers that user code may read and no one may write. -/
def csrUserRo (n : Nat) : Bool :=
  decide (n = 0 ∨ n = 1 ∨ n = 2 ∨ (6 ≤ n ∧ n ≤ 8) ∨ (0x20 ≤ n ∧ n ≤ 0x23) ∨ (0x30 ≤ n ∧ n ≤ 0x35) ∨ (0x40 ≤ n ∧ n ≤ 0xC5))

/-- Numbers that user code may read and write. -/
def csrUserRw (n : Nat) : Bool := decide ((3 ≤ n ∧ n ≤ 5) ∨ (0x10 ≤ n ∧ n ≤ 0x12) ∨ n = 0xC6)

/-- Supervisor registers that may be written. -/
def csrSupRw (n : Nat) : Bool :=
  decide ((0x100 ≤ n ∧ n ≤ 0x112) ∨ n = 0x140 ∨ n = 0x148 ∨ n = 0x14C)

/-- Supervisor registers that are read-only. -/
def csrSupRo (n : Nat) : Bool :=
  decide ((0x120 ≤ n ∧ n ≤ 0x139) ∨ n = 0x141 ∨ (0x144 ≤ n ∧ n ≤ 0x147) ∨ n = 0x14A ∨ n = 0x14B ∨ (0x180 ≤ n ∧ n ≤ 0x183))

/-- Registers of the histogram unit (R306), which are absent where the partition has not accepted it (R311). -/
def csrHist (n : Nat) : Bool := decide (n = 0x111 ∨ (0x120 ≤ n ∧ n ≤ 0x139))

def csrExists (n : Nat) : Bool := csrUserRo n || csrUserRw n || csrSupRw n || csrSupRo n
def csrWritable (n : Nat) : Bool := csrUserRw n || csrSupRw n
def csrSup (n : Nat) : Bool := csrSupRw n || csrSupRo n

/-! ### Reading -/

def gCode (g : Nat) : Nat := log2 g

/-- SSTAT of a stream (R48). -/
def Stream.stat (x : Stream) : Word :=
  w64 (x.buf.length * 2 ^ 32 + (if x.bound then x.vreg.toNat else 0) * 1024 + x.scaled.toNat * 512 + x.err * 8 + x.state)

/-- LAT of lane group `k` of a core (R26). -/
def State.lat (s : State) (core k : Nat) : Word :=
  w64 ((upTo 0 4).foldl (fun m j =>
    let h := s.hart (4 * core + j)
    if h.q.status ≠ .free ∧ h.shape.lanes.getLsbD k then m + 2 ^ j else m) 0)

def rasWord (r : Option RasRec) (k : Nat) : Word :=
  match r with
  | none => 0
  | some r => if k = 0 then r.w0 else if k = 1 then r.w1 else if k = 2 then r.w2 else r.w3

/-- RAS_CTL and EVT_CTL as they read (R366, R371). -/
def ctlWord (lost count : Nat) (ien : Bool) : Word := w64 (lost * 65536 + count * 256 + 2 * ien.toNat)

/-- The value of control register `k` of hart `n`. -/
def State.csrRead (s : State) (n k : Nat) : Word :=
  let h := s.hart n
  let pq := (s.part h.shape.part).pq
  let hist := (s.core (coreOf n)).hist
  if k = 0 then w64 h.vec.vl
  else if k = 1 then h.vec.vtype
  else if k = 2 then w64 (gCode h.shape.g * 64 + h.shape.nnext.toNat * 4 + (if h.shape.virt then 2 else h.shape.nreg.toNat))
  else if k = 3 then w64 h.vec.vstart
  else if k = 4 then h.vec.mfc
  else if k = 5 then h.vec.bfstart
  else if k = 6 then h.vec.mprog
  else if k = 7 then w64 h.vec.vskipc
  else if k = 8 then h.vec.stripno.setWidth 64
  else if k = 0x10 then h.sc.fflags.setWidth 64
  else if k = 0x11 then h.sc.frm.setWidth 64
  else if k = 0x12 then h.sc.srseed.setWidth 64
  else if k = 0x20 then h.vec.plive.setWidth 64
  else if k = 0x21 then (h.vec.plive >>> 64).setWidth 64
  else if k = 0x22 then h.vec.vdirty
  else if k = 0x23 then h.shape.talloc.setWidth 64
  else if k = 0x30 then w64 h.shape.hartid
  else if k = 0x31 then w64 (h.shape.launch % 65536)
  else if k = 0x32 then w64 h.shape.gangsize
  else if k = 0x33 then h.shape.lanes.setWidth 64
  else if k = 0x34 then h.shape.grant
  else if k = 0x35 then h.shape.sarg
  else if k < 0x40 then 0
  else if k < 0x60 then (h.kgen (BitVec.ofNat 5 (k - 0x40))).setWidth 64
  else if k < 0xA0 then (h.binding (k - 0x60)).word
  else if k < 0xA8 then (h.stream (k - 0xA0)).stat
  else if k < 0xB0 then (h.stream (k - 0xA8)).sbase
  else if k < 0xB8 then (h.stream (k - 0xB0)).sstride
  else if k < 0xC0 then w64 (h.stream (k - 0xB8)).savl
  else if k < 0xC6 then Table.get 0 h.trc.dly (k - 0xC0)
  else if k = 0xC6 then w64 h.trc.dlyEn.toNat
  else if k = 0x100 then h.trap.tcause.setWidth 64
  else if k = 0x101 then h.trap.tval
  else if k = 0x102 then h.trap.tpc
  else if k = 0x103 then h.trap.tindex.setWidth 64
  else if k = 0x104 then h.trap.telem.setWidth 64
  else if k = 0x105 then h.trap.tvec
  else if k = 0x106 then h.trap.tstat
  else if k = 0x107 then h.trap.tnpc
  else if k < 0x10E then Table.get 0 h.trap.tq (k - 0x108)
  else if k = 0x10E then h.trap.tscr
  else if k = 0x10F then h.trap.tdet
  else if k = 0x110 then h.trc.trcCtl
  else if k = 0x111 then hist.ctl
  else if k = 0x112 then h.trap.tmpc
  else if k < 0x139 then Table.get 0 hist.rdh (k - 0x120)
  else if k = 0x139 then hist.noReuse
  else if k = 0x140 then pq.rasInj
  else if k = 0x141 then pq.rasCnt
  else if k < 0x148 then rasWord pq.ras.head? (k - 0x144)
  else if k = 0x148 then ctlWord pq.rasLost pq.ras.length pq.rasIen
  else if k = 0x14A then (match pq.evt.head? with | some r => r.w0 | none => 0)
  else if k = 0x14B then (match pq.evt.head? with | some r => r.w1 | none => 0)
  else if k = 0x14C then ctlWord pq.evtLost pq.evt.length pq.evtIen
  else s.lat (coreOf n) (k - 0x180)

/-! ### Writing -/

/-- Clears the six counters (R303). -/
def HTrace.clear (t : HTrace) : HTrace := { t with dly := [] }

/-- Removes the oldest error record (R366). -/
def PQueues.popRas (q : PQueues) : PQueues :=
  { q with ras := q.ras.tail, rasLost := if q.ras.length ≤ 1 then 0 else q.rasLost }

/-- Removes the oldest service event (R371). -/
def PQueues.popEvt (q : PQueues) : PQueues :=
  { q with evt := q.evt.tail, evtLost := if q.evt.length ≤ 1 then 0 else q.evtLost }

/-- A write of RAS_CTL. -/
def State.rasCtlWrite (s : State) (p : Nat) (v : Word) : State :=
  s.updPart p fun x =>
    let q := { x.pq with rasIen := v.getLsbD 1 }
    { x with pq := if v.getLsbD 0 then q.popRas else q }

/-- A write of EVT_CTL. -/
def State.evtCtlWrite (s : State) (p : Nat) (v : Word) : State :=
  s.updPart p fun x =>
    let q := { x.pq with evtIen := v.getLsbD 1 }
    { x with pq := if v.getLsbD 0 then q.popEvt else q }

/-- A write of RAS_INJ: the error is planted in the copy that holds the line (R367). -/
def State.rasInject (s : State) (p : Nat) (v : Word) : State :=
  let kind := fld v 61 60
  if kind = 3 then s
  else
    let pa := fld v 51 7 * 128
    let body := v &&& 0x300FFFFFFFFFFF80#64
    let put (s : State) (w : Word) : State := s.updPart p fun x => { x with pq := { x.pq with rasInj := w } }
    if v.getLsbD 63 = false then put s (body ||| ((s.part p).pq.rasInj &&& 0x4000000000000000#64))
    else
      let own := match windowOf pa with | some _ => true | none => decide (s.pageOwner pa = some p)
      match s.physLoc (some p) pa with
      | some loc =>
        if own then (put s body).plant (loc / 128) kind
        else put s (body ||| 0x4000000000000000#64)
      | none => put s (body ||| 0x4000000000000000#64)

/-- Control register `k` of hart `n` takes a value; reserved fields ignore it (R9, R153). -/
def State.csrWrite (s : State) (n k : Nat) (v : Word) : State :=
  let p := (s.hart n).shape.part
  let vec (f : HVector → HVector) : State := s.updHart n fun h => { h with vec := f h.vec }
  let sc (f : HScalar → HScalar) : State := s.updHart n fun h => { h with sc := f h.sc }
  let trap (f : HTrap → HTrap) : State := s.updHart n fun h => { h with trap := f h.trap }
  if k = 3 then vec fun x => { x with vstart := fld v 11 0 }
  else if k = 4 then vec fun x => { x with mfc := v &&& 0xFFFFE0#64 }
  else if k = 5 then vec fun x => { x with bfstart := v &&& 0x1F7FF#64 }
  else if k = 0x10 then sc fun x => { x with fflags := v.setWidth 6 }
  else if k = 0x11 then sc fun x => { x with frm := v.setWidth 3 }
  else if k = 0x12 then sc fun x => { x with srseed := v.setWidth 32 }
  else if k = 0xC6 then
    s.updHart n fun h => { h with trc := { (if v.getLsbD 1 then h.trc.clear else h.trc) with dlyEn := v.getLsbD 0 } }
  else if k = 0x100 then trap fun t => { t with tcause := v.setWidth 8 }
  else if k = 0x101 then trap fun t => { t with tval := v }
  else if k = 0x102 then trap fun t => { t with tpc := v }
  else if k = 0x103 then trap fun t => { t with tindex := v.setWidth 3 }
  else if k = 0x104 then trap fun t => { t with telem := v.setWidth 12 }
  else if k = 0x105 then trap fun t => { t with tvec := v &&& ~~~7#64 }
  else if k = 0x106 then trap fun t => { t with tstat := v &&& 0x1CF#64 }
  else if k = 0x107 then trap fun t => { t with tnpc := v &&& ~~~7#64 }
  else if k = 0x108 then trap fun t => { t with tq := Table.set 0 t.tq 0 (v &&& 0x1FFF#64) }
  else if k = 0x10D then trap fun t => { t with tq := Table.set 0 t.tq 5 (v &&& 0xFFFFFFFF0000FFFF#64) }
  else if k < 0x10D then trap fun t => { t with tq := Table.set 0 t.tq (k - 0x108) v }
  else if k = 0x10E then trap fun t => { t with tscr := v }
  else if k = 0x10F then trap fun t => { t with tdet := v &&& 0x8000FFFF00000F0F#64 }
  else if k = 0x110 then s.updHart n fun h => { h with trc := { h.trc with trcCtl := v &&& 0xFF001F#64 } }
  else if k = 0x111 then s.updCore (coreOf n) fun c => { c with hist := { c.hist with ctl := v &&& 0xFFF1#64 } }
  else if k = 0x112 then trap fun t => { t with tmpc := v &&& ~~~7#64 }
  else if k = 0x140 then s.rasInject p v
  else if k = 0x148 then s.rasCtlWrite p v
  else if k = 0x14C then s.evtCtlWrite p v
  else s

/-! ### Waits (R32, R49, R303) -/

/-- Registers whose read waits for the vector queue. -/
def csrReadDrains (k : Nat) : Bool :=
  decide (k = 3 ∨ (5 ≤ k ∧ k ≤ 7) ∨ k = 0x10 ∨ (0x20 ≤ k ∧ k ≤ 0x22) ∨ (0x40 ≤ k ∧ k < 0xA0) ∨ (0xC0 ≤ k ∧ k ≤ 0xC6))

/-- Registers whose write waits for the vector queue. -/
def csrWriteDrains (k : Nat) : Bool := decide ((3 ≤ k ∧ k ≤ 5) ∨ (0x10 ≤ k ∧ k ≤ 0x12) ∨ k = 0xC6)

/-- The started convoy may still trim VL in the current strip (R32). -/
def Hart.vlMoves (h : Hart) : Bool :=
  match h.q.run with
  | none => false
  | some r => decide (r.e.strip = h.vec.stripno) && h.trims r.e

def State.csrReadWaits (s : State) (n k : Nat) : Bool :=
  let h := s.hart n
  (csrReadDrains k && h.q.run.isSome) || (k == 0 && h.vlMoves) || (k == 0x10 && s.matrixBusy n)

def State.csrWriteWaits (s : State) (n k : Nat) : Bool := csrWriteDrains k && (s.hart n).q.run.isSome

/-! ### The instructions -/

/-- A CSR access: existence and the right to write come before privilege (R153, R339), and waits before the effect. Both are
tested only where the guard holds: the spec leaves open whether a number that is not listed, or a write to a read-only one,
faults under a false guard (DESIGN CHOICE, log 54). -/
def csrOp (s : State) (i : Instr) (g : SG) (r : SReg) (k : BitVec 12) (read write : Bool) (f : Nat → Hart → State) : Out :=
  s.scalar g [r] fun n h =>
    let k := k.toNat
    if csrExists k = false ∨ (csrHist k ∧ s.histOn (coreOf n) = false) ∨ (write ∧ csrWritable k = false) then s.illegal n i
    else if csrSup k ∧ h.sc.mode = .user then s.privilege n i
    else if (read ∧ s.csrReadWaits n k) ∨ (write ∧ s.csrWriteWaits n k) then .next s
    else .next ((f n h).updHart n Hart.nextPc)

def execCsrr (g : SG) (sd : SReg) (n : BitVec 12) (s : State) : Out :=
  csrOp s (.csrr g sd n) g sd n true false fun i _ => s.updHart i fun h => h.wrS sd (s.csrRead i n.toNat)

def execCsrw (g : SG) (sa : SReg) (n : BitVec 12) (s : State) : Out :=
  csrOp s (.csrw g sa n) g sa n false true fun i h => s.csrWrite i n.toNat (h.rdS sa)

def execCsrs (g : SG) (sa : SReg) (n : BitVec 12) (s : State) : Out :=
  csrOp s (.csrs g sa n) g sa n true true fun i h => s.csrWrite i n.toNat (s.csrRead i n.toNat ||| h.rdS sa)

def execCsrc (g : SG) (sa : SReg) (n : BitVec 12) (s : State) : Out :=
  csrOp s (.csrc g sa n) g sa n true true fun i h => s.csrWrite i n.toNat (s.csrRead i n.toNat &&& ~~~(h.rdS sa))

def execCsrrC (g : SG) (sd : SReg) (s : State) : Out :=
  s.regOp g [sd] fun h => h.wrS sd (h.sc.c.setWidth 64 ||| 1)

def execCsrwC (g : SG) (sa : SReg) (s : State) : Out :=
  s.regOp g [sa] fun h => { h with sc := { h.sc with c := (h.rdS sa).setWidth 16 &&& 0xFFFE#16 } }

/-! ### Vector length (R28, R155, R156) -/

/-- Lane groups of core hart `j` at a grant (R264). -/
def lanesFor (j g : Nat) : BitVec 4 :=
  if g = 1 then 1#4 <<< j else if g = 2 then (if j % 2 = 0 then 0b0011#4 else 0b1100#4) else 0b1111#4

/-- The latest posted grant whose epoch is at most `k` (R28). -/
def Gang.grantAt (x : Gang) (k : Nat) : Nat := x.posts.foldl (fun g p => if p.1 ≤ k then p.2 else g) x.g

/-- VTYPE, VL, sd and STRIPNO (R155). -/
def Hart.setVl (h : Hart) (sd sa sb : SReg) (vt : BitVec 16) : Hart :=
  let t := vt.setWidth 64
  let top := vlmaxOf h.vlen t
  let ask := min (h.rdS sa).toNat top
  let vl := if sb = 0#5 then ask else min ask (h.rdS sb).toNat
  ({ h with vec := { h.vec with vtype := t, vl := vl, stripno := h.vec.stripno + 1#32 } }).wrS sd (w64 vl)

/-- SETVL (R155). A type that is not legal faults where the guard holds, as VCONF in a gang does: the spec does not say whether it
faults under a false guard (DESIGN CHOICE, log 54). -/
def execSetvl (g : SG) (sd sa sb : SReg) (vt : BitVec 16) (s : State) : Out :=
  s.scalar g [sd, sa, sb] fun n h =>
    if vtLegal (vt.setWidth 64) = false then s.illegal n (.setvl g sd sa sb vt)
    else .next (s.setHart n ((h.setVl sd sa sb vt).nextPc))

/-- The registers die and the shape of the next epoch is taken (R156). -/
def Hart.newShape (h : Hart) (n : Nat) (x : Gang) : Hart :=
  let k := h.shape.setvlNs + 1
  let g := x.grantAt k
  { h with
    shape := { h.shape with nreg := h.shape.nnext, g := g, lanes := lanesFor (n % 4) g, setvlNs := k }
    vec := { h.vec with v := [], vdirty := 0, p := [], plive := 0, vbr := [], vhwb := 0 }
    trc := if g = h.shape.g then h.trc else h.trc.clear }

/-- A queued matrix command of the hart still reads vector registers (R156). -/
def State.matrixReads (s : State) (n : Nat) : Bool :=
  let c := s.core (coreOf n)
  let reads (k : MCmd) : Bool := k.hart == n && (k.kind == .mma || k.kind == .mmas)
  c.mq.any reads || (match c.mrun with | some r => reads r.cmd | none => false)

def execSetvlN (g : SG) (sd sa sb : SReg) (vt : BitVec 16) (s : State) : Out :=
  s.scalar g [sd, sa, sb] fun n h =>
    if vtLegal (vt.setWidth 64) = false then s.illegal n (.setvlN g sd sa sb vt)
    else if h.q.run.isSome ∨ s.matrixReads n then .next s
    else .next (s.setHart n (((h.newShape n (s.gang h.shape.launch)).setVl sd sa sb vt).nextPc))

/-- VCONF (R157): one member only, where the guard holds (log 54). -/
def execVconf (g : SG) (k : BitVec 2) (s : State) : Out :=
  s.scalar g [] fun n h =>
    if 1 < h.shape.gangsize then s.illegal n (.vconf g k)
    else .next (s.setHart n ({ h with shape := { h.shape with nnext := k } }).nextPc)

end Sys2Proof.Machine
end

