-- ==== Sys2Proof/Machine/Groups.lean ====
section
/-!
DEFINITION. Element groups: how the slots of a convoy run on one group and where they stop (R22, R23, R25, R341, R342), the
stop itself (R320, R323), trims (R25), the dailies of a group (R302), and the meaning of one vector word.
-/
namespace Sys2Proof.Machine

/-- A slot of a convoy with its number. -/
structure SlotOf where
  k : Nat
  i : Instr
  sl : Slot

/-- What a group came to: every element of it, a fault of a slot at an element, or a trim at an element. -/
inductive GroupEnd where
  | all
  | fault (slot elem : Nat) (e : AErr)
  | trim (elem : Nat) (found : List Seen)
  deriving DecidableEq, Repr

def GroupEnd.of (slot : Nat) : Nat × Halt → GroupEnd
  | (x, .fault e) => .fault slot x e
  | (x, .trim l) => .trim x l

/-- The slots in order on elements `lo` to `hi` − 1 (R22). -/
def runSlots (n : Nat) (e : QEntry) : List SlotOf → Nat → Nat → State → Except (Nat × (Nat × Halt)) State
  | [], _, _, s => .ok s
  | j :: r, lo, hi, s =>
    match j.sl.group ⟨n, j.k, e⟩ lo hi s with
    | .error x => .error (j.k, x)
    | .ok s => runSlots n e r lo hi s

/-- The group up to the lowest element that stops it: each stop is followed by a run that ends below it (R23, R341). -/
def settle (n : Nat) (e : QEntry) (sl : List SlotOf) (lo : Nat) (s : State) : Nat → Nat → GroupEnd → State × GroupEnd
  | 0, _, g => (s, g)
  | fuel + 1, hi, g =>
    if hi ≤ lo then (s, g)
    else match runSlots n e sl lo hi s with
      | .ok t => (t, g)
      | .error (k, x) => settle n e sl lo s fuel x.1 (GroupEnd.of k x)

/-- Whether some slot trims at element `x` (R342: a trim there precedes a fault there), and what its access detects. -/
def trimsAt (n : Nat) (e : QEntry) (x : Nat) : List SlotOf → State → Option (List Seen)
  | [], _ => none
  | j :: r, s =>
    match j.sl.group ⟨n, j.k, e⟩ x (x + 1) s with
    | .ok t => trimsAt n e x r t
    | .error (_, .trim l) => some l
    | .error _ => trimsAt n e x r s

/-- The slots on one group. -/
def runGroup (n : Nat) (e : QEntry) (sl : List SlotOf) (lo hi : Nat) (s : State) : State × GroupEnd :=
  match settle n e sl lo s (hi - lo + 1) hi .all with
  | (t, .fault k x a) =>
    match trimsAt n e x sl t with
    | some l => (t, .trim x l)
    | none => (t, .fault k x a)
  | r => r

/-- The retirement of each slot, in slot order (R31, R158, R173, R203, R205). So every tail is written after the elements of all
slots, and with it the clearing of the records of the registers that it writes: the spec says only that it is when the last group
commits (DESIGN CHOICE, log 61). -/
def retireSlots (n : Nat) (e : QEntry) : List SlotOf → State → State
  | [], s => s
  | j :: r, s => retireSlots n e r (j.sl.retire ⟨n, j.k, e⟩ s)

/-- The last place at or below `x` at which every VLDZ of a convoy ends a word: a trim by another slot inside a word cuts VL to it,
so VL and sd name the same words (R183; DESIGN CHOICE, log 32). -/
def Hart.zcFloor (h : Hart) (x : Nat) : Nat :=
  match h.q.run with
  | none => x
  | some r => (upTo 0 5).foldl (fun x _ =>
      r.zc.foldl (fun x e => match e.2 with | some z => ((z.cuts.find? fun k => decide (k.1 ≤ x)).getD (x, 0)).1 | none => x) x) x

/-- The end of the last word that a VLDZ of a convoy has decoded. -/
def Hart.zcEnd (h : Hart) : Nat :=
  match h.q.run with
  | none => 0
  | some r => r.zc.foldl (fun x e => match e.2 with | some z => max x z.elems.length | none => x) 0

/-- The slots on one group, so that a trim never parts a word of a VLDZ: one by another slot inside a word takes the elements of that
word with it, those of the group below the trim, and those of an earlier group, for which a group that ends inside a word looks on to
the word's end (R23, R25, R183; log 32). -/
def runWhole (n : Nat) (e : QEntry) (sl : List SlotOf) (lo hi : Nat) (s : State) : State × GroupEnd :=
  let cut (x : Nat) (l : List Seen) : State × GroupEnd := (if lo < x then (runGroup n e sl lo x s).1 else s, .trim x l)
  match runGroup n e sl lo hi s with
  | (t, .trim y l) => let x := (t.hart n).zcFloor y; if x < y then cut x l else (t, .trim y l)
  | (t, .all) =>
    let w := (t.hart n).zcEnd
    if w ≤ hi then (t, .all)
    else match runGroup n e sl hi w t with
      | (u, .trim y l) => let x := (u.hart n).zcFloor y; if x < hi then cut x l else (t, .all)
      | _ => (t, .all)
  | r => r

/-- A length `x` for a convoy and its strip (R25): younger convoys of the strip, and VL while the strip is the live one. -/
def State.trimVl (s : State) (n : Nat) (e : QEntry) (x : Nat) : State :=
  s.updHart n fun h =>
    { h with
      vec := { h.vec with vl := if h.vec.stripno = e.strip then x else h.vec.vl }
      q := { h.q with queue := h.q.queue.map fun y => if y.strip = e.strip then { y with vl := min y.vl x } else y } }

/-- A slot trims a running convoy to `x` (R25). -/
def State.trimTo (s : State) (n : Nat) (e : QEntry) (x : Nat) : State :=
  (s.trimVl n e x).updHart n fun h => { h with q := { h.q with run := h.q.run.map fun r => { r with sw := Table.set 0 r.sw 40 1 } } }

/-- A convoy stops at an element with a fault of a slot (R23, R320, R323), and then the detection that the access made. -/
def State.stopAt (s : State) (n : Nat) (e : QEntry) (slot elem : Nat) (a : AErr) : Out :=
  let s := s.updHart n fun h => { h with vec := { h.vec with vstart := elem } }
  let h := s.hart n
  match s.takeTrap n (a.trap slot elem) e.addr (some (e, e.vl)) h.resumePoint e.isPass with
  | .next t => .next (t.applyFound a)
  | o => o

/-- An illegal-instruction fault of a slot, held from hand-off or found at the start (R136, R345). -/
def illegalSlot (word : Word) : AErr := ⟨0x01#8, word, 0, []⟩

/-! ### Dailies (R302) -/

/-- Whether a slot counts an element as enabled: PLOGIC and VMERGE disable none. -/
def enabledAt (h : Hart) (i : Instr) (x : Nat) : Bool :=
  match i with
  | .plogic _ _ => true
  | .vmerge _ _ _ _ => true
  | _ => match vview i with | some v => h.vguard v.guard x | none => false

/-- Whether no slot writes a predicate that a later slot has in its guard. -/
def guardsKept : List SlotOf → Bool
  | [] => true
  | j :: r =>
    (match vview j.i with
      | some v => v.pwrites.all fun p => r.all fun k => match vview k.i with | some w => !(guardRegs w.guard).contains p | none => true
      | none => true) && guardsKept r

/-- Elements that are enabled in some slot, each slot's guard read as that slot runs. Deliveries of streams run and count none; after
a slot that stops at an element the others run below it. -/
def enabledRun (n : Nat) (e : QEntry) (lo : Nat) : Nat → List SlotOf → State → List Nat
  | _, [], _ => []
  | hi, j :: r, s =>
    let own := if j.k = 0 then [] else (upTo lo hi).filter (enabledAt (s.hart n) j.i)
    own ++
      (match j.sl.group ⟨n, j.k, e⟩ lo hi s with
       | .ok t => enabledRun n e lo hi r t
       | .error (x, _) => (match j.sl.group ⟨n, j.k, e⟩ lo x s with | .ok t => enabledRun n e lo x r t | .error _ => []))

/-- Elements that are enabled in some slot of a group. -/
def enabledIn (n : Nat) (e : QEntry) (sl : List SlotOf) (lo hi : Nat) (s : State) : List Nat :=
  let own := sl.filter (0 < ·.k)
  if guardsKept own then (upTo lo hi).filter fun x => own.any fun j => enabledAt (s.hart n) j.i x
  else enabledRun n e lo hi sl s

/-- Slots of one committing clock: useful, masked, beyond VL. -/
def slotClasses (e : QEntry) (w base size lo hi : Nat) (en : List Nat) : Nat × Nat × Nat :=
  let per := max 1 (32 / w)
  let cls (x : Nat) : Nat := if e.vl ≤ x then 2 else if x < lo then 1 else if x < hi then (if en.contains x then 0 else 1) else 3
  let slots := (List.range (size / per)).map fun i => (upTo (base + i * per) (base + i * per + per)).foldl (fun m x => min m (cls x)) 3
  let k := max 1 (w / 32)
  (k * slots.count 0, k * slots.count 1, k * slots.count 2)

/-- Counts of R303 grow: cycles, useful, masked, beyond, start-up, stalled. -/
def HTrace.add (t : HTrace) (l : List Nat) : HTrace :=
  if t.dlyEn = false then t
  else { t with dly := (l.zip (List.range 6)).foldl (fun d x => Table.set 0 d x.2 (Table.get 0 d x.2 + w64 x.1)) t.dly }

/-- The clocks of a convoy's progress: those of committed groups, and stalled ones; at its start, `first`, the start-up clocks before
it. -/
def State.countGroup (s : State) (n clocks : Nat) (first : Bool) (cls : Nat × Nat × Nat) : State :=
  let (a, s) := s.draw
  let start := if first then Config.startupClocks a else 0
  let stall := if first then 0 else Config.stallClocks a
  s.updHart n fun h =>
    let g16 := 16 * h.shape.g
    { h with trc := h.trc.add [clocks + start + stall, cls.1, cls.2.1, cls.2.2, g16 * start, g16 * stall + (g16 * clocks - (cls.1 + cls.2.1 + cls.2.2))] }

/-! ### One vector word -/

/-- The entry that a convoy of one would have under the live registers, with no captured value (log 6). -/
def liveEntry (h : Hart) (i : Instr) : QEntry :=
  ⟨h.sc.pc, [], [i], 1, h.vec.vl, h.vec.vtype, h.vec.mfc, 0, 0, 0, h.vec.stripno, none, false, h.q.ticket, [], []⟩

/-- The entry in which a vector word acts, and its slot: the started convoy's, or that of a convoy of one (log 6). -/
def Hart.entryFor (h : Hart) (i : Instr) : QEntry × Nat :=
  match h.q.run with
  | some r => (r.e, (r.e.instrs.idxOf i) % r.e.instrs.length + 1)
  | none => (liveEntry h i, 1)

/-- A vector word on the current element group of its hart: its start when it stands alone, its elements, and its retirement
when the group is the last one. VSTART and the convoy's own progress are the sequencer's (Convoy.lean). -/
def vectorOp (s : State) (i : Instr) (sl : Slot) : Out :=
  let n := s.cur
  let h := s.hart n
  let (e, k) := h.entryFor i
  let c : Ctx := ⟨n, k, e⟩
  if h.q.status ≠ .running then .next s
  else if h.q.run.isNone ∧ (vtLegal e.vtype = false ∨ slotLegal h e i [] [] = false) then
    s.stopAt n e 1 h.vec.vstart (illegalSlot (wordOf i))
  else
    match (if h.q.run.isNone then sl.start c s else .ok s) with
    | .error a => s.stopAt n e k h.vec.vstart a
    | .ok s =>
      let lo := h.vec.vstart
      let hi := if lo < e.vl then groupEnd h.shape.g e lo else lo
      match runGroup n e [⟨k, i, sl⟩] lo hi s with
      | (s, .all) => .next (if e.vl ≤ hi then sl.retire c s else s)
      | (s, .fault k x a) => s.stopAt n e k x a
      | (s, .trim x l) =>
        let x := (s.hart n).zcFloor x
        .next (sl.retire { c with e := { e with vl := x } } ((s.seen l).trimTo n e x))

/-- A vector word whose slot keeps what it has done in the run: alone, it acts in the run of a convoy of one (log 6). -/
def runOp (s : State) (i : Instr) (sl : Slot) : Out :=
  let h := s.hart s.cur
  let e := liveEntry h i
  if h.q.run.isSome ∨ h.q.status ≠ .running ∨ vtLegal e.vtype = false ∨ slotLegal h e i [] [] = false then vectorOp s i sl
  else
    match vectorOp (s.updHart s.cur fun h => { h with q := { h.q with run := some ⟨e, h.vec.vstart, [], false, [], []⟩ } }) i sl with
    | .next t => .next (t.updHart s.cur fun h => { h with q := { h.q with run := none } })
    | o => o

end Sys2Proof.Machine
end

