-- ==== Sys2Proof/Machine/VectorPred.lean ====
section
/-!
DEFINITION. Predicate and scale instructions and VSKIP (R31, R197 to R210).
-/
namespace Sys2Proof.Machine

/-! ### Predicates (R199 to R205) -/

def slotPlogic (g : VG) (pd : PReg) : Slot :=
  ⟨noStart,
    fun c lo hi s => .ok (s.updHart c.n fun h => (h.mark pd.toNat).each lo hi fun i h => h.wrP pd.toNat i (h.vguard g i)),
    fun c s => s.updHart c.n fun h => h.ptail c.e pd.toNat⟩

def slotPset (g : VG) (pd : PReg) : Slot := predSlot g pd fun _ _ _ => true
def slotPclr (g : VG) (pd : PReg) : Slot := predSlot g pd fun _ _ _ => false
def slotPsets (g : VG) (pd : PReg) (useB : Bool) : Slot :=
  predSlot g pd fun c _ _ => decide ((if useB then c.e.xb else c.e.xa) ≠ 0)

/-- The least element of a range that is enabled and set (R201). -/
def Hart.scanFind (h : Hart) (g : VG) (ps lo hi : Nat) : Option Nat := (upTo lo hi).find? fun x => h.vguard g x && h.pBit ps x

/-- The position of a scan among the elements below `lo`: what the run has found, or a search of them (R201). The run keeps
it under key 32 + slot: 1 for none, f + 2 for f. -/
def Hart.scanPrior (h : Hart) (c : Ctx) (g : VG) (ps lo : Nat) : Option Nat :=
  match h.q.run with
  | none => h.scanFind g ps 0 lo
  | some r =>
    match Table.get 0 r.sw (32 + c.slot) with
    | 0 => h.scanFind g ps 0 lo
    | 1 => none
    | k + 2 => some k

def Hart.scanKeep (h : Hart) (c : Ctx) (f : Option Nat) : Hart :=
  match h.q.run with
  | none => h
  | some r => { h with q := { h.q with run := some { r with sw := Table.set 0 r.sw (32 + c.slot) (match f with | some x => x + 2 | none => 1) } } }

def scanSlot (g : VG) (pd ps : PReg) (f : Nat → Option Nat → Bool) : Slot :=
  ⟨noStart,
    fun c lo hi s => .ok (s.updHart c.n fun h =>
      let x := (h.scanPrior c g ps.toNat lo).orElse fun _ => h.scanFind g ps.toNat lo hi
      ((h.mark pd.toNat).each lo hi fun i h => h.pelem c.e g pd.toNat i fun _ => f i x).scanKeep c x),
    fun c s => s.updHart c.n fun h => h.ptail c.e pd.toNat⟩

def slotPsbf (g : VG) (pd ps : PReg) : Slot := scanSlot g pd ps fun i f => match f with | some x => decide (i < x) | none => true
def slotPsif (g : VG) (pd ps : PReg) : Slot := scanSlot g pd ps fun i f => match f with | some x => decide (i ≤ x) | none => true
def slotPsof (g : VG) (pd ps : PReg) : Slot := scanSlot g pd ps fun i f => decide (f = some i)

/-- A scalar register written at retirement (R203). -/
def countSlot (sd : SReg) (f : Ctx → Hart → Word) : Slot :=
  ⟨noStart, noGroup, fun c s => s.updHart c.n fun h => h.slotWrite c.slot sd (f c h)⟩

def slotPcount (g : VG) (sd : SReg) (ps : PReg) : Slot :=
  countSlot sd fun c h => w64 ((upTo 0 c.e.vl).filter fun x => h.vguard g x && h.pBit ps.toNat x).length

def slotPffs (g : VG) (sd : SReg) (ps : PReg) : Slot :=
  countSlot sd fun c h => match h.scanFind g ps.toNat 0 c.e.vl with | some x => w64 x | none => w64 (2 ^ 64 - 1)

def slotPkill (pd plast : PReg) : Slot :=
  ⟨noStart, noGroup, fun c s => s.updHart c.n fun h =>
    (upTo pd.toNat ((if plast = 0 then pd.toNat else plast.toNat) + 1)).foldl (fun h p => if p = 0 then h else h.kill p) h⟩

def slotPfromv (g : VG) (pd : PReg) (vs : VReg) : Slot := predSlot g pd fun c i h => decide (h.rdE vs.toNat i c.e.sew ≠ 0)
def slotPtov (g : VG) (vd : VReg) (ps : PReg) : Slot := vecSlot g vd 1 fun _ i h => ((h.pBit ps.toNat i).toNat, 0)

/-- The next `n` convoys of the hart are discarded (R31): queued ones at once, the rest as they arrive. VSKIPC counts in six bits:
where two VSKIPs of one convoy both hold, it stops at 63 (log 34). -/
def Hart.skip (h : Hart) (n : Nat) : Hart :=
  { h with
    q := { h.q with queue := h.q.queue.drop n }
    vec := { h.vec with vskipc := min 63 (h.vec.vskipc + (n - h.q.queue.length)) } }

def slotVskip (g : VG) (ps : PReg) (n : BitVec 6) : Slot :=
  ⟨noStart, noGroup, fun c s => s.updHart c.n fun h => if (h.scanFind g ps.toNat 0 c.e.vl).isNone then h.skip n.toNat else h⟩

/-! ### Scales (R206 to R209) -/

/-- An exponent as an entry, clamped with SX (R207). -/
def encodeExp (exp8 : Bool) (n : Int) : FR :=
  let lo : Int := if exp8 then -128 else -127
  let m := if n < lo then lo else if 127 < n then 127 else n
  (if exp8 then pat 8 m else (m + 127).toNat, flagIf (decide (m ≠ n)) fSX)

/-- A format fault without an address (R339, R350). -/
def formatErr (tval : Word) : AErr := ⟨0x04#8, tval, 0, []⟩

/-- The entries of a scale instruction whose block starts lie in a run of elements (R206); KGEN advances with the first
group (R42). `interp`: the instruction interprets entries (R207). -/
def scaleSlot (g : VG) (kd : KReg) (interp : Bool) (f : Ctx → Nat → Hart → FR) : Slot :=
  ⟨noStart,
    fun c lo hi s =>
      let s := if lo = 0 then s.updHart c.n fun h => h.advance kd else s
      eachElem ((upTo lo hi).filter fun i => i % 2 ^ c.e.shift = 0) (fun i s =>
        let h := s.hart c.n
        if h.vguard g i = false then .ok s
        else if interp ∧ 2 ≤ c.e.scfmt then .error (.fault (formatErr 0))
        else
          let r := f c (i / 2 ^ c.e.shift) h
          .ok (s.setHart c.n ((h.setKEnt kd (i / 2 ^ c.e.shift) r.1).flags r.2))) s,
    noRetire⟩

/-- EXP8 rather than E8M0 (R64). -/
def QEntry.exp8 (e : QEntry) : Bool := decide (e.scfmt = 1)

def expSlot (g : VG) (kd ks1 : KReg) (o : KOp2) (f : Int → Int → Int) : Slot :=
  scaleSlot g kd true fun c j h =>
    let b := match o with | .ks k => scaleExp c.e.exp8 (h.kEnt k j) | .sel x => some (c.e.signed x)
    match scaleExp c.e.exp8 (h.kEnt ks1 j), b with
    | some x, some y => encodeExp c.e.exp8 (f x y)
    | _, _ => (0xFF, 0)

def slotKadd (g : VG) (kd ks1 : KReg) (o : KOp2) : Slot := expSlot g kd ks1 o (· + ·)
def slotKsub (g : VG) (kd ks1 : KReg) (o : KOp2) : Slot := expSlot g kd ks1 o (· - ·)
def slotKmax (g : VG) (kd ks1 : KReg) (o : KOp2) : Slot := expSlot g kd ks1 o fun a b => if a < b then b else a
def slotKmin (g : VG) (kd ks1 : KReg) (o : KOp2) : Slot := expSlot g kd ks1 o fun a b => if a < b then a else b
def slotKmov (g : VG) (kd ks : KReg) : Slot := scaleSlot g kd false fun _ j h => (h.kEnt ks j, 0)
def slotKset (g : VG) (kd : KReg) (v : Sel3) : Slot := scaleSlot g kd false fun c _ _ => (c.e.raw v % 256, 0)

def slotKfromv (g : VG) (kd : KReg) (vs : VReg) (v : Sel3) : Slot :=
  scaleSlot g kd true fun c j h =>
    match c.e.fmt.decode (h.rdE vs.toNat (j * 2 ^ c.e.shift) c.e.sew) with
    | .fin n m x k => if m = 0 then (if c.e.exp8 then 0x80 else 0, 0) else encodeExp c.e.exp8 ((FV.fin n m x k).ilog - c.e.signed v)
    | v => if c.e.exp8 then (127, fNV) else (0xFF, flagIf v.isSNaN fNV)

/-- An instruction that acts once, with element 0's group (R209). -/
def onceSlot (g : VG) (f : Ctx → Hart → Hart) : Slot :=
  ⟨noStart, fun c lo _ s => .ok (s.updHart c.n fun h => if lo = 0 ∧ h.vguard g 0 then f c h else h), noRetire⟩

def slotVbind (g : VG) (vd : VReg) (kd : KReg) : Slot := onceSlot g fun c h => h.bindTo vd.toNat c.e.lmul kd (vtBlk c.e.vtype)
def slotVunbind (g : VG) (vd : VReg) : Slot := onceSlot g fun c h => h.unbind vd.toNat c.e.lmul

/-- BFOP: acts at the start of a convoy with VSTART = 0 (R189, R223). -/
def slotBfop (g : VG) (od : OReg) (v : Sel3) : Slot :=
  ⟨fun c s => .ok (s.updHart c.n fun h =>
      if h.vec.vstart = 0 ∧ h.vguard g 0 then
        h.wrO od (match v with | .ximm => c.e.imm.setWidth 32 <<< 16 | .xa => c.e.xa.setWidth 32 | .xb => c.e.xb.setWidth 32)
      else h),
    noGroup, noRetire⟩

def execPlogic (g : VG) (pd : PReg) (s : State) : Out := vectorOp s (.plogic g pd) (slotPlogic g pd)
def execPset (g : VG) (pd : PReg) (s : State) : Out := vectorOp s (.pset g pd) (slotPset g pd)
def execPsets (g : VG) (pd : PReg) (useB : Bool) (s : State) : Out := vectorOp s (.psets g pd useB) (slotPsets g pd useB)
def execPclr (g : VG) (pd : PReg) (s : State) : Out := vectorOp s (.pclr g pd) (slotPclr g pd)
def execPsbf (g : VG) (pd ps : PReg) (s : State) : Out := vectorOp s (.psbf g pd ps) (slotPsbf g pd ps)
def execPsif (g : VG) (pd ps : PReg) (s : State) : Out := vectorOp s (.psif g pd ps) (slotPsif g pd ps)
def execPsof (g : VG) (pd ps : PReg) (s : State) : Out := vectorOp s (.psof g pd ps) (slotPsof g pd ps)
def execPcount (g : VG) (sd : SReg) (ps : PReg) (s : State) : Out := vectorOp s (.pcount g sd ps) (slotPcount g sd ps)
def execPffs (g : VG) (sd : SReg) (ps : PReg) (s : State) : Out := vectorOp s (.pffs g sd ps) (slotPffs g sd ps)
def execPkill (pd plast : PReg) (s : State) : Out := vectorOp s (.pkill pd plast) (slotPkill pd plast)
def execPfromv (g : VG) (pd : PReg) (vs : VReg) (s : State) : Out := vectorOp s (.pfromv g pd vs) (slotPfromv g pd vs)
def execPtov (g : VG) (vd : VReg) (ps : PReg) (s : State) : Out := vectorOp s (.ptov g vd ps) (slotPtov g vd ps)
def execVskip (g : VG) (ps : PReg) (n : BitVec 6) (s : State) : Out := vectorOp s (.vskip g ps n) (slotVskip g ps n)
def execKadd (g : VG) (kd ks1 : KReg) (o : KOp2) (s : State) : Out := vectorOp s (.kadd g kd ks1 o) (slotKadd g kd ks1 o)
def execKsub (g : VG) (kd ks1 : KReg) (o : KOp2) (s : State) : Out := vectorOp s (.ksub g kd ks1 o) (slotKsub g kd ks1 o)
def execKmax (g : VG) (kd ks1 : KReg) (o : KOp2) (s : State) : Out := vectorOp s (.kmax g kd ks1 o) (slotKmax g kd ks1 o)
def execKmin (g : VG) (kd ks1 : KReg) (o : KOp2) (s : State) : Out := vectorOp s (.kmin g kd ks1 o) (slotKmin g kd ks1 o)
def execKmov (g : VG) (kd ks : KReg) (s : State) : Out := vectorOp s (.kmov g kd ks) (slotKmov g kd ks)
def execKset (g : VG) (kd : KReg) (v : Sel3) (s : State) : Out := vectorOp s (.kset g kd v) (slotKset g kd v)
def execKfromv (g : VG) (kd : KReg) (vs : VReg) (v : Sel3) (s : State) : Out := vectorOp s (.kfromv g kd vs v) (slotKfromv g kd vs v)
def execVbind (g : VG) (vd : VReg) (kd : KReg) (s : State) : Out := vectorOp s (.vbind g vd kd) (slotVbind g vd kd)
def execVunbind (g : VG) (vd : VReg) (s : State) : Out := vectorOp s (.vunbind g vd) (slotVunbind g vd)
def execBfop (g : VG) (od : OReg) (v : Sel3) (s : State) : Out := vectorOp s (.bfop g od v) (slotBfop g od v)

end Sys2Proof.Machine
end

