-- ==== Sys2Proof/Machine/Butterfly.lean ====
section
/-!
DEFINITION. Butterfly passes (R46, R55, R211 to R222, R349).
-/
namespace Sys2Proof.Machine

/-- The fields of a pass word (R124). -/
structure Pass where
  g : VG
  vd : VReg
  vs : VReg
  o : OReg
  q : QReg
  vc : VReg
  sw : BitVec 2
  kp : Bool
  deriving DecidableEq, Repr

def passOf : Instr → Option Pass
  | .bfpass g vd vs o q vc sw => some ⟨g, vd, vs, o, q, vc, sw, false⟩
  | .bfpassKp g vd vs o q vc sw => some ⟨g, vd, vs, o, q, vc, sw, true⟩
  | _ => none

/-! ### The operator register (R211 to R213) -/

structure Oper where
  kind : Nat
  comb : Nat
  type : Nat
  sw : Nat
  csrc : Nat
  inv : Bool
  ftot : Bool
  kp : Bool
  clean : Bool
  deriving DecidableEq, Repr

def operOf (o : BitVec 32) : Oper :=
  let f (lo w : Nat) : Nat := imgGet o.toNat lo w
  ⟨f 28 4, f 24 4, f 20 4, f 16 4, f 12 4, o.getLsbD 10, o.getLsbD 9, o.getLsbD 8, decide (f 11 1 = 0 ∧ f 0 8 = 0)⟩

/-- COMB codes that a TYPE allows (R212). -/
def combType (comb type : Nat) : Bool :=
  if comb = 4 then decide (type = 2) else if 5 ≤ comb ∧ comb ≤ 7 then decide (type ≠ 2) else true

/-- The closed table of R213, at an element width. -/
def Oper.legal (o : Oper) (sew : Nat) : Bool :=
  let wide := decide (o.type ≠ 2 ∨ sew ≠ 8)
  let plain := !o.inv && !o.ftot && !o.kp
  o.clean && decide (o.type ≤ 2) &&
  (if o.kind = 0 then
      decide (o.comb = 0 ∧ o.csrc ≤ 2) && (if o.kp then decide (o.sw = 1 ∨ o.sw = 2) else decide (o.sw = 0)) && !o.inv &&
        (!o.ftot || decide (o.type = 2))
    else if o.kind = 1 then
      decide (1 ≤ o.comb ∧ o.comb ≤ 7 ∧ o.sw = 1 ∧ o.csrc = 0) && combType o.comb o.type && plain &&
        (wide || decide (2 ≤ o.comb ∧ o.comb ≤ 4))
    else if o.kind = 2 then decide (o.comb = 1 ∧ o.sw = 2 ∧ o.csrc = 0) && plain && wide
    else if o.kind = 3 then
      decide (1 ≤ o.comb ∧ o.comb ≤ 8 ∧ o.sw = 0 ∧ o.csrc = 0) && combType o.comb o.type && plain &&
        (wide || decide (2 ≤ o.comb ∧ o.comb ≤ 4))
    else if o.kind = 4 then
      decide (o.comb = 0 ∧ o.type = 2 ∧ o.sw = 1 ∧ o.csrc = 3) && !o.ftot && !o.kp && wide
    else if o.kind = 5 then decide (o.comb = 0 ∧ o.sw ≤ 2 ∧ (o.csrc = 1 ∨ o.csrc = 2 ∨ o.csrc = 4)) && plain
    else false)

/-- Source groups of a legal operator (R213). -/
def Oper.sources (o : Oper) : Nat :=
  if o.kind = 1 ∨ o.kind = 3 then 1 else if o.kind = 2 ∨ o.kind = 4 then 2 else 2 ^ o.sw

/-! ### The sequence register (R46) -/

def seqStage (q : BitVec 128) (j : Nat) : Nat := imgGet q.toNat (8 * j + 4) 4
def seqDsrc (q : BitVec 128) (j : Nat) : Nat := imgGet q.toNat (8 * j) 4

/-- Entries before the first STAGE 15. -/
def seqEnd (q : BitVec 128) : Nat := ((upTo 0 16).find? fun j => seqStage q j = 15).getD 16

/-! ### BFSTART (R55) -/

def bfActive (w : Word) : Bool := w.getLsbD 16
def bfEntry (w : Word) : Nat := fld w 15 12
def bfPair (w : Word) : Nat := fld w 10 0
def bfWord (entry pair : Nat) : Word := w64 (65536 + entry % 16 * 4096 + pair % 2048)

/-- The pass of an entry (R19: it stands alone). -/
def passIn (e : QEntry) : Option Pass :=
  e.instrs.findSome? fun i => match i with
    | .bfpass g vd vs o q vc sw => some ⟨g, vd, vs, o, q, vc, sw, false⟩
    | .bfpassKp g vd vs o q vc sw => some ⟨g, vd, vs, o, q, vc, sw, true⟩
    | _ => none

/-! ### Checks at the start (R219, R349) -/

def operErr (o : BitVec 32) (reason entry : Nat) : AErr := ⟨0x03#8, w64 (o.toNat * 2 ^ 32 + entry * 256 + reason), 0, []⟩

/-- Checks 2 and 3 of R219, in their order. -/
def passCheck (h : Hart) (e : QEntry) (word : Word) (p : Pass) : Option AErr :=
  let raw := h.rdO p.o
  let o := operOf raw
  let q := h.rdQ p.q
  let bad := illegalSlot word
  let nreg := h.nregs
  let state := (p.vd.toNat, passWidth p.sw * e.lmul)
  let src := (p.vs.toNat, o.sources * e.lmul)
  let vc := (p.vc.toNat, e.lmul)
  let useVc := decide (o.csrc = 2)
  let bound (r : Nat × Nat) : Bool := (upTo r.1 (r.1 + r.2)).any fun k => (h.boundSlot k).isSome
  if h.vec.vstart ≠ 0 then some bad
  else if o.legal e.sew = false then some (operErr raw 1 0)
  else if p.sw.toNat ≠ o.sw then some (operErr raw 2 0)
  else if p.kp ≠ o.kp then some (operErr raw 3 0)
  else if useVc ∧ e.sew < seqEnd q then some (operErr raw 4 e.sew)
  else if src.1 % e.lmul ≠ 0 ∨ nreg < src.1 + src.2 ∨ (src.1 ≠ state.1 ∧ groupsMeet src.1 src.2 state.1 state.2) then some bad
  else if useVc ∧ (groupLegal nreg vc.1 vc.2 = false ∨ groupsMeet vc.1 vc.2 state.1 state.2) then some bad
  else if bound state ∨ bound src ∨ (useVc ∧ bound vc) then some bad
  else none

/-! ### Combines (R212, R216) -/

/-- a ⊕ b. -/
def combine (o : Oper) (sew : Nat) (f : Fmt) (a b : Nat) : FR :=
  if o.type = 2 then
    if o.comb = 1 then f.fadd Rnd.rne a b
    else if o.comb = 2 then f.minMax true a b
    else if o.comb = 3 then f.minMax false a b
    else if o.comb = 4 then
      let r := f.minMax true (a % f.signBit) (b % f.signBit)
      (r.1 % f.signBit, r.2)
    else f.fmul Rnd.rne a b
  else
    let less := if o.type = 0 then decide (sgn sew a < sgn sew b) else decide (a < b)
    if o.comb = 1 then ((a + b) % 2 ^ sew, 0)
    else if o.comb = 2 then (if less then b else a, 0)
    else if o.comb = 3 then (if less then a else b, 0)
    else if o.comb = 5 then (a &&& b, 0)
    else if o.comb = 6 then (a ||| b, 0)
    else if o.comb = 7 then (a ^^^ b, 0)
    else (a * b % 2 ^ sew, 0)

/-- The affine composition of R216. -/
def affine (o : Oper) (sew : Nat) (f : Fmt) (x y : Nat × Nat) : (Nat × Nat) × BitVec 6 :=
  if o.type = 2 then
    let a := f.fmul Rnd.rne x.1 y.1
    let b := f.fused Rnd.rne false false y.1 x.2 y.2
    ((a.1, b.1), a.2 ||| b.2)
  else ((x.1 * y.1 % 2 ^ sew, (y.1 * x.2 + y.2) % 2 ^ sew), 0)

/-! ### Twiddles (R214) -/

/-- Fraction bits of the fixed-point values below. -/
def twBits : Nat := 320

/-- π in units of 2^−320. -/
def twPi : Nat := 0x3243f6a8885a308d313198a2e03707344a4093822299f31d0082efa98ec4e6c89452821e638d01377

/-- Σ (−1)^k x^(2k+b)/(2k+b)!, from a term on. -/
def twSeries (x2 : Nat) : Nat → Nat → Nat → Int
  | 0, _, _ => 0
  | fuel + 1, k, t => (t : Int) - twSeries x2 fuel (k + 2) (t * x2 / 2 ^ twBits / 2 ^ twBits / ((k + 1) * (k + 2)))

/-- A fixed-point value strictly between two neighbours as an exact value with a part below it. -/
def twValue (v : Int) : FV := .fin (decide (v < 0)) v.natAbs (-(twBits : Int)) true

/-- (cos θ, sin θ) for θ = π·q / 2^s. -/
def cosSin (q s : Nat) : FV × FV :=
  if q = 0 then (.fin false 1 0 false, .fin false 0 0 false)
  else if 2 * q = 2 ^ s then (.fin false 0 0 false, .fin false 1 0 false)
  else
    let x := twPi * q / 2 ^ s
    (twValue (twSeries (x * x) 100 0 (2 ^ twBits)), twValue (twSeries (x * x) 100 1 x))

/-- The factor w of a node. Its rounding to the format raises no flag (DESIGN CHOICE, log 40: the spec does not say that it raises NX). -/
def twiddle (f : Fmt) (inv : Bool) (q s : Nat) : Nat × Nat :=
  let (c, d) := cosSin q s
  let d := if inv ∨ q = 0 then d else d.neg
  ((f.round Rnd.rne false c).1, (f.round Rnd.rne false d).1)

/-- One complex part: x1·y1 ± x2·y2, formed exactly and rounded once (R216). -/
def rotPart (f : Fmt) (minus : Bool) (x1 y1 x2 y2 : Nat) : FR :=
  let p := (f.decode x1).mul (f.decode y1)
  let r := (f.decode x2).mul (f.decode y2)
  let t := p.1.add Rnd.rne (if minus then r.1.neg else r.1)
  f.op Rnd.rne (t.1, p.2 ||| r.2 ||| t.2)

/-! ### Nodes (R214, R216, R217) -/

/-- The rank of an encoding in total order (R217). -/
def totalKey (f : Fmt) (x : Nat) : Int :=
  if f.signBit ≤ x then -((x - f.signBit : Nat) : Int) - 1 else x

/-- exch(c, a, b) and its flags. -/
def exch (o : Oper) (sew : Nat) (f : Fmt) (c : Bool) (a b : Nat) : Bool × BitVec 6 :=
  let pick (less greater : Bool) : Bool := if c then less else greater
  if o.type = 2 then
    if o.ftot then (pick (decide (totalKey f a < totalKey f b)) (decide (totalKey f b < totalKey f a)), 0)
    else
      let r := (f.decode a).cmp (f.decode b)
      (pick (r == some .lt) (r == some .gt), snan2 (f.decode a) (f.decode b))
  else if o.type = 1 then (pick (decide (a < b)) (decide (b < a)), 0)
  else (pick (decide (sgn sew a < sgn sew b)) (decide (sgn sew b < sgn sew a)), 0)

/-- The pass at work: its context, word, operator and sequence. -/
structure PassCtx where
  e : QEntry
  p : Pass
  o : Oper
  q : BitVec 128

def PassCtx.reg (x : PassCtx) (r : Nat) : Nat := x.p.vd.toNat + r * x.e.lmul
def PassCtx.src (x : PassCtx) (r : Nat) : Nat := x.p.vs.toNat + r * x.e.lmul
def PassCtx.width (x : PassCtx) : Nat := passWidth x.p.sw

/-- The control bit of the node with lower index i at entry j (R214). -/
def PassCtx.bit (x : PassCtx) (h : Hart) (j s i : Nat) : Bool :=
  let d := seqDsrc x.q j
  let k := i % 2 ^ s
  if x.o.csrc = 1 then (if d ≤ 11 then i.testBit d else decide (d = 15))
  else if x.o.csrc = 2 then (h.rdE x.p.vc.toNat i x.e.sew).testBit j
  else if x.o.csrc = 4 then (x.e.xa.getLsbD s) != decide (k < x.e.xa.toNat % 2 ^ s)
  else false

/-- The state at one element. -/
def PassCtx.state (x : PassCtx) (h : Hart) (i : Nat) : List Nat := (List.range x.width).map fun r => h.rdE (x.reg r) i x.e.sew

def PassCtx.put (x : PassCtx) (h : Hart) (i : Nat) (l : List Nat) : Hart :=
  (l.zip (List.range x.width)).foldl (fun h v => h.wrElem (x.reg v.2) i x.e.sew v.1) h

def at0 (l : List Nat) (k : Nat) : Nat := (l[k]?).getD 0

/-- New states of a node from its two old states, with flags (R216). -/
def PassCtx.node (x : PassCtx) (c : Bool) (s i : Nat) (lo hi : List Nat) : List Nat × List Nat × BitVec 6 :=
  let sew := x.e.sew
  let f := x.e.fmt
  let o := x.o
  if o.kind = 0 then
    let r := exch o sew f c (at0 lo 0) (at0 hi 0)
    if r.1 then (hi, lo, r.2) else (lo, hi, r.2)
  else if o.kind = 1 then
    let p := combine o sew f (at0 lo 1) (at0 hi 0)
    let t := combine o sew f (at0 lo 1) (at0 hi 1)
    ([at0 lo 0, t.1], [p.1, t.1], p.2 ||| t.2)
  else if o.kind = 2 then
    let tl := (at0 lo 2, at0 lo 3)
    let p := affine o sew f tl (at0 hi 0, at0 hi 1)
    let t := affine o sew f tl (at0 hi 2, at0 hi 3)
    ([at0 lo 0, at0 lo 1, t.1.1, t.1.2], [p.1.1, p.1.2, t.1.1, t.1.2], p.2 ||| t.2)
  else if o.kind = 3 then
    let t := combine o sew f (at0 lo 0) (at0 hi 0)
    ([t.1], [t.1], t.2)
  else if o.kind = 4 then
    let w := twiddle f o.inv (i % 2 ^ s) s
    let re := rotPart f true w.1 (at0 hi 0) w.2 (at0 hi 1)
    let im := rotPart f false w.1 (at0 hi 1) w.2 (at0 hi 0)
    let a := f.fadd Rnd.rne (at0 lo 0) re.1
    let b := f.fadd Rnd.rne (at0 lo 1) im.1
    let c := f.fsub Rnd.rne (at0 lo 0) re.1
    let d := f.fsub Rnd.rne (at0 lo 1) im.1
    ([a.1, b.1], [c.1, d.1], re.2 ||| im.2 ||| a.2 ||| b.2 ||| c.2 ||| d.2)
  else if c then (hi, lo, 0) else (lo, hi, 0)

/-- The lower index of pair p at stage s (R216). -/
def pairLow (p s : Nat) : Nat := p / 2 ^ s * 2 ^ (s + 1) + p % 2 ^ s

/-- Pairs of a stage whose upper index lies below VL, from pair `p0` on. -/
def stagePairs (vl s p0 : Nat) : List Nat := (upTo p0 2048).filter fun p => pairLow p s + 2 ^ s < vl

/-- One pair of entry j. -/
def PassCtx.pair (x : PassCtx) (j s p : Nat) (h : Hart) : Hart :=
  let i := pairLow p s
  let k := i + 2 ^ s
  if h.vguard x.p.g i ∧ h.vguard x.p.g k then
    let (lo, hi, fl) := x.node (x.bit h j s i) s i (x.state h i) (x.state h k)
    (x.put (x.put h i lo) k hi).flags fl
  else h

/-- The initial state of an element (R216). -/
def PassCtx.init (x : PassCtx) (h : Hart) (i : Nat) : List Nat :=
  let v (r : Nat) : Nat := h.rdE (x.src r) i x.e.sew
  if x.o.kind = 1 then [v 0, v 0]
  else if x.o.kind = 2 then [v 0, v 1, v 0, v 1]
  else if x.o.kind = 3 then [v 0]
  else if x.o.kind = 4 then [v 0, v 1]
  else (List.range x.width).map v

/-- The copy step: VDIRTY and the records of the state registers (R221), their elements, and BFSTART (R216). -/
def PassCtx.copy (x : PassCtx) (h : Hart) : Hart :=
  let h := h.each 0 x.e.vl fun i h =>
    if h.vguard x.p.g i then x.put h i (x.init h i)
    else if x.e.mp then x.put h i (List.replicate x.width (ones x.e.sew))
    else h
  let h := (upTo x.p.vd.toNat (x.p.vd.toNat + x.width * x.e.lmul)).foldl (fun h r => (h.wrV r (h.rdV r)).setBinding r Binding.clear) h
  { h with vec := { h.vec with bfstart := bfWord 0 0 } }

/-- What a piece of a pass came to. -/
inductive PassEnd where
  | more | done
  | fault (e : AErr)
  deriving DecidableEq, Repr

/-- The end of a pass: the tails, and BFSTART (R216). -/
def PassCtx.finish (x : PassCtx) (h : Hart) : Hart :=
  let h := { h with vec := { h.vec with bfstart := 0 } }
  if x.e.tp then (List.range x.width).foldl (fun h r => h.wrTail (h.committed x.e) (x.reg r) x.e.lmul (x.e.vl * x.e.sew)) h else h

/-- Pairs per clock (R222). -/
def passBlock (g : Nat) (e : QEntry) (sw : BitVec 2) : Nat := max 1 (512 * g / (e.sew * passWidth sw) / 2)

/-- Where the block of pair numbers ends that one clock serves, from pair `p0` on (R222). -/
def pairBlock (block p0 : Nat) : Nat := min 2048 ((p0 / block + 1) * block)

/-- A piece of a pass: the copy step, or the pairs below `end_` of the current entry. -/
def PassCtx.step (x : PassCtx) (end_ : Nat) (h : Hart) : Hart × PassEnd :=
  let w := h.vec.bfstart
  if x.e.vl = 0 then (x.finish h, .done)
  else if bfActive w = false then
    let h := x.copy h
    if seqEnd x.q = 0 then (x.finish h, .done) else (h, .more)
  else
    let j := bfEntry w
    if seqEnd x.q ≤ j then (x.finish h, .done)
    else
      let s := seqStage x.q j
      if 12 ≤ s then ({ h with vec := { h.vec with bfstart := bfWord j 0 } }, .fault (operErr (h.rdO x.p.o) 5 j))
      else
        let ps := stagePairs x.e.vl s (bfPair w)
        let h := (ps.filter (· < end_)).foldl (fun h p => x.pair j s p h) h
        match ps.find? fun p => decide (end_ ≤ p) with
        | some p => ({ h with vec := { h.vec with bfstart := bfWord j p } }, .more)
        | none =>
          if seqEnd x.q ≤ j + 1 then (x.finish h, .done)
          else ({ h with vec := { h.vec with bfstart := bfWord (j + 1) 0 } }, .more)

/-! ### Dailies of a pass (R302) -/

/-- Slots of elements of the given classes: 0 useful, 1 masked, 2 beyond VL; a slot of narrower elements takes the least. -/
def slotSums (sew : Nat) (els : List (Nat × Nat)) : Nat × Nat × Nat :=
  if 32 ≤ sew then
    let n (c : Nat) : Nat := sew / 32 * (els.filter fun x => x.2 == c).length
    (n 0, n 1, n 2)
  else
    let keys := (els.map fun x => x.1 * sew / 32).eraseDups
    let cls := keys.map fun k => els.foldl (fun m x => if x.1 * sew / 32 = k then min m x.2 else m) 2
    (cls.count 0, cls.count 1, cls.count 2)

/-- Clocks and slot classes of the next piece of a pass, which ends at pair `last`: a clock for each block of pairs that holds one below
VL, and one that counts as stalled for an entry without any. -/
def PassCtx.classes (x : PassCtx) (g last : Nat) (h : Hart) : Nat × Nat × Nat × Nat :=
  let w := h.vec.bfstart
  let per := 512 * g / (x.e.sew * x.width)
  if x.e.vl = 0 then (0, 0, 0, 0)
  else if bfActive w = false then
    let n := cdiv x.e.vl per
    let (a, b, c) := slotSums x.e.sew ((upTo 0 (n * per)).map fun i => (i, if x.e.vl ≤ i then 2 else if h.vguard x.p.g i then 0 else 1))
    (n, x.width * a, x.width * b, x.width * c)
  else
    let s := seqStage x.q (bfEntry w)
    if 12 ≤ s ∨ seqEnd x.q ≤ bfEntry w then (0, 0, 0, 0)
    else
      let blk := passBlock g x.e x.p.sw
      let blocks := (((stagePairs x.e.vl s (bfPair w)).filter (· < last)).map (· / blk)).eraseDups
      let els := blocks.flatMap fun b => (upTo (max (bfPair w) (b * blk)) (min last ((b + 1) * blk))).flatMap fun p =>
        let i := pairLow p s
        let k := i + 2 ^ s
        let c := if x.e.vl ≤ k then 2 else if h.vguard x.p.g i ∧ h.vguard x.p.g k then 0 else 1
        [(i, c), (k, c)]
      let (a, b, c) := slotSums x.e.sew els
      (max 1 blocks.length, x.width * a, x.width * b, x.width * c)

/-- Pieces until the pass is done or faults. -/
def PassCtx.run (x : PassCtx) : Nat → Hart → Hart × PassEnd
  | 0, h => (h, .more)
  | fuel + 1, h =>
    match x.step 2048 h with
    | (h, .more) => PassCtx.run x fuel h
    | r => r

/-- The pass of an entry on a hart. -/
def passCtx (h : Hart) (e : QEntry) (p : Pass) : PassCtx := ⟨e, p, operOf (h.rdO p.o), h.rdQ p.q⟩

/-- The remaining count of a pass (R221). -/
def passRemaining (h : Hart) (e : QEntry) (p : Pass) : Nat :=
  let q := h.rdQ p.q
  let w := h.vec.bfstart
  let j := if bfActive w then bfEntry w else 0
  let s := seqStage q j
  2 * (if seqEnd q ≤ j then 0 else (stagePairs e.vl s (if bfActive w then bfPair w else 0)).length) + e.vl * (seqEnd q - (j + 1))

/-- TINDEX and TELEM of a stop inside a convoy: slot 1 at the first element not committed (log 25). -/
def stopIndex (h : Hart) : Nat × Nat :=
  match h.stopConv with
  | some e =>
    if e.isPass then
      let w := h.vec.bfstart
      (1, if bfActive w then (match passIn e with | some p => pairLow (bfPair w) (seqStage (h.rdQ p.q) (bfEntry w)) | none => 0) else 0)
    else (1, h.vec.vstart)
  | none => (0, 0)

/-- A whole pass by itself. -/
def passOp (s : State) (i : Instr) (p : Pass) : Out :=
  let n := s.cur
  let h := s.hart n
  let (e, k) := h.entryFor i
  if h.q.status ≠ .running then .next s
  else if h.q.run.isNone ∧ (vtLegal e.vtype = false ∨ slotLegal h e i [] [] = false) then
    s.stopAt n e 1 h.vec.vstart (illegalSlot (wordOf i))
  else match passCheck h e (wordOf i) p with
    | some a => s.stopAt n e k h.vec.vstart a
    | none =>
      match (passCtx h e p).run 18 h with
      | (h, .fault a) => (s.setHart n h).stopAt n e k 0 a
      | (h, _) => .next (s.setHart n h)

def execBfpass (g : VG) (vd vs : VReg) (o : OReg) (q : QReg) (vc : VReg) (sw : BitVec 2) (s : State) : Out :=
  passOp s (.bfpass g vd vs o q vc sw) ⟨g, vd, vs, o, q, vc, sw, false⟩
def execBfpassKp (g : VG) (vd vs : VReg) (o : OReg) (q : QReg) (vc : VReg) (sw : BitVec 2) (s : State) : Out :=
  passOp s (.bfpassKp g vd vs o q vc sw) ⟨g, vd, vs, o, q, vc, sw, true⟩

end Sys2Proof.Machine
end

