-- ==== Sys2Proof/Machine/Formats.lean ====
section
/-!
DEFINITION. Stored formats (R59, R60, R71, R72), the conversions of loads and stores (R178, R179), and the code of ZC
streams (R73 to R75).
-/
namespace Sys2Proof.Machine

/-- How a format code lays out its elements (R59). -/
inductive Stored where
  | plain (bytes : Nat)
  | packed (bits : Nat)
  | bpn (mid : Bool)
  | reserved
  deriving DecidableEq, Repr

/-- R59 for an element width and a code. -/
def storedOf (sew code : Nat) : Stored :=
  if code = 0 then .plain (sew / 8)
  else if code ≤ 2 then .plain 1
  else if code ≤ 4 then .plain 2
  else if code ≤ 6 then .plain 4
  else if code ≤ 8 then .plain 8
  else if code ≤ 10 then .plain 2
  else if code = 11 then .plain 4
  else if code = 12 then .plain 8
  else if code ≤ 16 then .plain 1
  else if code ≤ 18 then .packed 6
  else if code = 19 then .packed 4
  else if code = 20 then .plain 1
  else if code ≤ 22 then .bpn (code = 22)
  else .reserved

/-- Codes that R59 marks ZC. -/
def zcCode (code : Nat) : Bool := [1, 2, 13, 14, 15, 16, 19, 20].contains code

/-- MX codes (R59). -/
def mxCode (code : Nat) : Bool := decide (15 ≤ code ∧ code ≤ 20)

/-- The float format of codes 9 to 19 (R59). -/
def codeFmt (code : Nat) : Fmt :=
  match code with
  | 9 => fmtF16 | 10 => fmtBF16 | 11 => fmtF32 | 12 => fmtF64 | 13 => fmtE4M3 | 14 => fmtE5M2
  | 15 => fmtE4M3 | 16 => fmtE5M2 | 17 => fmtE3M2 | 18 => fmtE2M3 | _ => fmtE2M1

/-- The width and signedness of integer codes 1 to 8 (R59): odd codes are signed. -/
def codeInt (code : Nat) : Nat × Bool := (8 * 2 ^ ((code - 1) / 2), code % 2 = 0)

/-- A stored value as an element (R178). -/
def loadConv (sew : Nat) (f : Fmt) (code raw : Nat) : FR :=
  if code = 0 then (raw, 0)
  else if code ≤ 8 then
    let (w, uns) := codeInt code
    (if uns then raw % 2 ^ sew else pat sew (sgn w raw), 0)
  else if code ≤ 19 then (codeFmt code).convert f Rnd.rne false raw
  else f.round Rnd.rne false (fvOfInt (sgn 8 raw) (-6) false)

/-- The value of BPN planes read as a p-bit integer `q` (R72). -/
def bpnLoad (sew p q : Nat) (mid : Bool) : Nat :=
  let x : Int := sgn p q * ((2 ^ (8 - p) : Nat) : Int)
  pat sew (if mid ∧ p < 8 then x + ((2 ^ (7 - p) : Nat) : Int) else x)

/-- A scale for a store: none, or an entry's exponent, or a NaN scale (R65). -/
inductive Scale where
  | one
  | by (k : Option Int)
  deriving DecidableEq, Repr

/-- x / value(scale) (R65). A signalling NaN stays one, for its flag (R62). -/
def FV.unscale (v : FV) : Scale → FV
  | .one => v
  | .by (some k) => v.scale (-k)
  | .by none => .nan v.isSNaN

/-- An element as a stored value, BPN apart (R179). The rows of R179 for code 0, an integer code and BPN name no scale: a VSTK
under one of them stores its elements unscaled, whatever the entry holds (DESIGN CHOICE, log 57). -/
def storeConv (sew : Nat) (f : Fmt) (code x : Nat) (md : Rnd) (sat : Bool) (sc : Scale) : FR :=
  if code = 0 then (x, 0)
  else if code ≤ 8 then
    let (w, uns) := codeInt code
    let v : Int := if uns then ((x % 2 ^ sew : Nat) : Int) else sgn sew x
    if sew ≤ w then (pat w v, 0) else narrowInt w uns sat v
  else if code ≤ 19 then (codeFmt code).round md sat ((f.decode x).unscale sc)
  else toInteger md 8 false (((f.decode x).unscale sc).scale 6)

/-- Codes whose stores round (R179). -/
def roundsCode (code : Nat) : Bool := decide (9 ≤ code ∧ code ≤ 20)

/-- A rounding mode from its code (R67). -/
def rmodeOf (n : Nat) : Option RMode :=
  match n with
  | 0 => some .rne | 1 => some .rtz | 2 => some .rdn | 3 => some .rup | 4 => some .rmm | 5 => some .sr | _ => none

/-! ### ZC (R73 to R75) -/

/-- Code lengths of the 256 byte symbols (R74). -/
def zcLens (table : List Byte) : List Nat := table.flatMap fun b => [b.toNat % 16, b.toNat / 16]

/-- A length table that is no format fault (R74). -/
def zcLegal (lens : List Nat) : Bool :=
  let kraft := lens.foldl (fun s l => if l = 0 then s else s + 2 ^ (15 - l)) 0
  decide (kraft ≤ 2 ^ 15 ∧ kraft ≠ 0 ∧ (lens[0]?).getD 0 ≤ 11)

/-- How many symbols have a code of `l` bits. -/
def zcCount (lens : List Nat) (l : Nat) : Nat := lens.count l

/-- The first code of `l` bits (R74). -/
def zcFirst (lens : List Nat) : Nat → Nat
  | 0 => 0
  | l + 1 => (zcFirst lens l + (if l = 0 then 0 else zcCount lens l)) * 2

/-- The symbol of an `l`-bit code, if it is one (R74): symbols of one length take rising codes. -/
def zcSymbol (lens : List Nat) (l code : Nat) : Option Nat :=
  let k := code - zcFirst lens l
  if code < zcFirst lens l ∨ zcCount lens l ≤ k then none
  else (((List.range 256).filter fun b => (lens[b]?).getD 0 = l)[k]?)

/-- Whether some code word of more than `l` bits begins with `code`. -/
def zcBegins (lens : List Nat) (l code : Nat) : Bool :=
  (upTo (l + 1) 16).any fun m => decide (zcCount lens m ≠ 0 ∧ zcFirst lens m < (code + 1) * 2 ^ (m - l) ∧
    code * 2 ^ (m - l) < zcFirst lens m + zcCount lens m)

/-- What the bits at a position are: a word (its symbol, its run, its length), no word, or a word that the bits at hand do not
end. -/
inductive ZcWord where
  | word (sym run len : Nat)
  | bad
  | short
  deriving DecidableEq, Repr

/-- The number of bytes a word yields (R75). -/
def zcOut (sym run : Nat) : Nat := if sym = 0 then run + 1 else 1

/-- The state of a decode in a word: bits read, the code so far, and, after the code of 0x00, the run bits read. -/
structure ZcBits where
  len : Nat
  code : Nat
  run : Option (Nat × Nat)
  deriving DecidableEq, Repr

/-- One more bit: a finished word, a pattern that begins no word, or a longer prefix. -/
def zcBit (lens : List Nat) (z : ZcBits) (b : Bool) : ZcBits ⊕ ZcWord :=
  match z.run with
  | some (k, r) =>
    let r := 2 * r + b.toNat
    if k = 3 then .inr (.word 0 r (z.len + 1)) else .inl ⟨z.len + 1, z.code, some (k + 1, r)⟩
  | none =>
    let code := 2 * z.code + b.toNat
    let len := z.len + 1
    match zcSymbol lens len code with
    | some 0 => .inl ⟨len, code, some (0, 0)⟩
    | some sym => .inr (.word sym 0 len)
    | none => if zcBegins lens len code then .inl ⟨len, code, none⟩ else .inr .bad

end Sys2Proof.Machine
end

