-- ==== Sys2Proof/Machine/Matrix.lean ====
section
/-!
DEFINITION. The matrix engine (R80 to R82, R210, R224 to R239, R340, R362): shape, posting and its checks, the queue, the
work of each command, asynchronous faults, and the tile moves of vector slots. The scoreboard is kept at the grain of whole
commands and whole convoys (log 17).
-/
namespace Sys2Proof.Machine

/-! ### MSH and formats (R226, R227) -/

def mshSmode (m : Word) : Nat := fld m 63 62
def mshOvw (m : Word) : Bool := m.getLsbD 61
def mshAfmt (m : Word) : Nat := fld m 60 57
def mshBfmt (m : Word) : Nat := fld m 56 53
def mshAlmul (m : Word) : Nat := 2 ^ fld m 52 51
def mshKp (m : Word) : Nat := fld m 47 32
def mshK (m : Word) : Nat := fld m 31 16
def mshRows (m : Word) : Nat := fld m 4 0 + 1
def mshReserved (m : Word) : Nat := fld m 50 48 + fld m 15 5
def mshScalesA (m : Word) : Bool := decide (mshSmode m = 1 ∨ mshSmode m = 3)
def mshScalesB (m : Word) : Bool := decide (mshSmode m = 2 ∨ mshSmode m = 3)

/-- Width of a matrix element format (R227). -/
def mWidth (code : Nat) : Nat := if code = 2 then 4 else if code = 5 ∨ code = 6 then 16 else if code = 7 then 64 else 8

/-- The value of a float-class element (R227). -/
def mValue (code x : Nat) : FV :=
  if code = 0 then fmtE4M3.decode x
  else if code = 1 then fmtE5M2.decode x
  else if code = 2 then fmtE2M1.decode x
  else if code = 4 then fvOfInt (sgn 8 x) (-6) false
  else if code = 5 then fmtBF16.decode x
  else fmtF16.decode x

/-- A and B of one class: INT8 with INT8, or neither (R227). -/
def oneClass (a b : Nat) : Bool := decide (a ≤ 6 ∧ b ≤ 6 ∧ (a = 3 ↔ b = 3))

/-! ### B-store (R224, R225) -/

def HShape.bRows (h : HShape) : Nat := 1024 * h.bst.length
def HShape.dataRows (h : HShape) : Nat := 15 * h.bRows / 16
def HShape.scaleRows (h : HShape) : Nat := h.bRows - h.dataRows

/-- A byte row of the window. -/
def bRowKey (bst : List Nat) (row : Nat) : Nat := (bst[row / 1024]?).getD 32 * 1024 + row % 1024
def Core.bRow (c : Core) (h : HShape) (row : Nat) : Nat := Table.get 0 c.bstore (bRowKey h.bst row)
def Core.setBRow (c : Core) (h : HShape) (row x : Nat) : Core := { c with bstore := Table.set 0 c.bstore (bRowKey h.bst row) x }
def Core.bByte (c : Core) (h : HShape) (row col : Nat) : Nat := imgGet (c.bRow h row) (8 * col) 8
def Core.scaleByte (c : Core) (h : HShape) (b col : Nat) : Nat := c.bByte h (h.dataRows + b) col

/-- Element (k, column) of B (R225). -/
def Core.bElem (c : Core) (h : HShape) (w k col : Nat) : Nat :=
  if w = 4 then imgGet (c.bByte h (k / 2) col) (4 * (k % 2)) 4
  else if w = 16 then c.bByte h (2 * k) col + 256 * c.bByte h (2 * k + 1) col
  else c.bByte h k col

/-- The last data row plus 1 that `k` positions from 0 take (R225). -/
def rowsOf (w slc k : Nat) : Nat := if w = 4 then (k + 1) / 2 else if w = 16 then 2 * k else if w = 64 then slc * k else k

/-! ### Tiles (R47) -/

def Core.tileRow (c : Core) (t row : Nat) : Nat := Table.get 0 c.tile (32 * t + row)
def Core.setTileRow (c : Core) (t row x : Nat) : Core := { c with tile := Table.set 0 c.tile (32 * t + row) x }
def Core.tileElem (c : Core) (t row col : Nat) : Nat := imgGet (c.tileRow t row) (32 * col) 32
def Core.setTileElem (c : Core) (t row col x : Nat) : Core := c.setTileRow t row (imgSet (c.tileRow t row) (32 * col) 32 x)

/-- Element (i, c) of an FP64 pair (R232). -/
def Core.pairElem (c : Core) (t row col : Nat) : Nat := imgGet (c.tileRow (t + col / 128) row) (64 * (col % 128)) 64

/-! ### Posting (R228, R229, R234) -/

def execMshape (g : SG) (sd sa : SReg) (r : Bool) (s : State) : Out :=
  s.regOp g [sd, sa] fun h =>
    let new := if r then h.sc.msh else h.rdS sa
    { (h.wrS sd h.sc.msh) with sc := { (h.wrS sd h.sc.msh).sc with msh := new } }

/-- A breach of R234: an illegal instruction, a format fault, or a misaligned address. -/
inductive PostErr where
  | illegal | format
  | align (va : Word)
  deriving DecidableEq, Repr

/-- Breaches of MMA and MMAS. -/
def mmaErr (h : Hart) (split : Bool) (t : TReg) (v : VReg) (kb : Word) : Option PostErr :=
  let m := h.sc.msh
  let a := mshAfmt m
  let b := mshBfmt m
  let k := mshK m
  let kp := mshKp m
  let al := mshAlmul m
  let span := (mshRows m - 1) * kp + k
  let slc := vtSlc h.vec.vtype
  let w := if split then 64 else mWidth b
  let tiles := if split then decide (t.toNat % 2 = 0) && h.shape.talloc.getLsbD t.toNat && h.shape.talloc.getLsbD (t.toNat + 1)
    else h.shape.talloc.getLsbD t.toNat
  let bad := !tiles || k == 0 || decide (kp < k) || mshReserved m != 0 ||
    (if split then !(a == 7 && b == 7) || mshSmode m != 0 || decide (slc < 3)
      else !(oneClass a b) || (mshSmode m != 0 && a == 3)) ||
    !(groupLegal (h.nregs) v.toNat al) || decide (al * h.vlen < span * mWidth a) ||
    (mshScalesA m && decide (4096 < span)) ||
    decide (kb.toNat % 32 ≠ 0) || decide (h.shape.dataRows < rowsOf w slc (kb.toNat + k)) ||
    (mshScalesB m && decide (h.shape.scaleRows ≤ (kb.toNat + k - 1) / 32)) ||
    (split && decide (h.shape.scaleRows ≤ 2 * (kb.toNat / 32) + 1))
  if bad then some .illegal
  else if mshSmode m ≠ 0 ∧ 2 ≤ fld h.vec.mfc 19 18 then some .format
  else none

/-- Breaches of MBLD. -/
def mbldErr (h : Hart) (base stride kb n : Word) (scaled : Bool) : Option PostErr :=
  let b := mshBfmt h.sc.msh
  let split := decide (b = 7)
  let slc := vtSlc h.vec.vtype
  let last := if split then kb.toNat + n.toNat else kb.toNat + cdiv n.toNat 32 * 32
  let bad := decide (8 ≤ b) || (split && (decide (slc < 3) || scaled)) || decide (kb.toNat % 32 ≠ 0) ||
    (decide (n ≠ 0) && (decide (h.shape.dataRows < rowsOf (mWidth b) slc last) ||
      (scaled && decide (h.shape.scaleRows < kb.toNat / 32 + cdiv n.toNat 32)) ||
      (split && decide (h.shape.scaleRows ≤ 2 * (kb.toNat / 32) + 1))))
  if bad then some .illegal
  else if n ≠ 0 ∧ base.toNat % 128 ≠ 0 then some (.align base)
  else if 1 < n.toNat ∧ stride.toNat % 128 ≠ 0 then some (.align (base + stride))
  else none

/-- Breaches of MZERO, MACCLD and MACCST. -/
def tileErr (h : Hart) (t : TReg) (base : Option Word) : Option PostErr :=
  if h.shape.talloc.getLsbD t.toNat = false then some .illegal
  else match base with
    | some va => if va.toNat % 128 ≠ 0 then some (.align va) else none
    | none => none

/-- Commands that access memory: their accesses come after the earlier ones of the scalar agent (R110). -/
def MKind.inMemory (k : MKind) : Bool := k == .mbld || k == .maccld || k == .maccst

/-- A matrix command at its commit: a fault of an earlier one (R235), then its checks (R234), then its place in the queue, which
holds 64 with the one in progress (R228). -/
def postOp (s : State) (i : Instr) (g : SG) (rs : List SReg) (kind : MKind) (check : Hart → Option PostErr) (t : TReg) (v : VReg)
    (sa sb sk sn sc : SReg) (a : Acc) : Out :=
  s.scalar g rs fun n h =>
    match h.q.mfault with
    | some m => s.takeMFault n m
    | none =>
      match check h with
      | some .illegal => s.illegal n i
      | some .format => s.scalarTrap n (trap0 0x04#8 0)
      | some (.align va) => s.accessTrap n (AErr.plain 0x06#8 va a)
      | none =>
        let c := s.core (coreOf n)
        let s := if kind.inMemory then s.performAll n .scalar else s
        if 64 ≤ c.mq.length + (if c.mrun.isSome then 1 else 0) then .next s
        else
          let cmd : MCmd := ⟨n, h.sc.pc, wordOf i, kind, t, v, h.sc.msh, h.rdS sa, h.rdS sb, h.rdS sk, h.rdS sn, h.rdS sc,
            BitVec.ofNat 2 (fld h.vec.mfc 19 18), vtSlc h.vec.vtype, h.q.ticket, none, none⟩
          .next (((s.updCore (coreOf n) fun c => { c with mq := c.mq ++ [cmd] }).updHart n fun h =>
            { h with q := { h.q with ticket := h.q.ticket + 1 } }).updHart n Hart.nextPc)

def execMbld (g : SG) (sa sb sk sn sc : SReg) (s : State) : Out :=
  postOp s (.mbld g sa sb sk sn sc) g [sa, sb, sk, sn, sc] .mbld
    (fun h => mbldErr h (h.rdS sa) (h.rdS sb) (h.rdS sk) (h.rdS sn) (sc != 0#5)) 0 0 sa sb sk sn sc .read

/-- An operand vM outside the limits of R37 is an illegal encoding, whatever the guard (R136). -/
def vmChecked (s : State) (i : Instr) (v : VReg) (k : Out) : Out :=
  let h := s.hart s.cur
  if h.atCommit ∧ !groupLegal (h.nregs) v.toNat (mshAlmul h.sc.msh) then s.illegal s.cur i else k

def execMma (g : SG) (t : TReg) (v : VReg) (sa : SReg) (s : State) : Out :=
  vmChecked s (.mma g t v sa) v <| postOp s (.mma g t v sa) g [sa] .mma (fun h => mmaErr h false t v (h.rdS sa)) t v sa 0 0 0 0 .read

def execMmas (g : SG) (t : TReg) (v : VReg) (sa : SReg) (s : State) : Out :=
  vmChecked s (.mmas g t v sa) v <| postOp s (.mmas g t v sa) g [sa] .mmas (fun h => mmaErr h true t v (h.rdS sa)) t v sa 0 0 0 0 .read

def execMzero (g : SG) (t : TReg) (s : State) : Out :=
  postOp s (.mzero g t) g [] .mzero (fun h => tileErr h t none) t 0 0 0 0 0 0 .read

def execMaccld (g : SG) (t : TReg) (sa : SReg) (s : State) : Out :=
  postOp s (.maccld g t sa) g [sa] .maccld (fun h => tileErr h t (some (h.rdS sa))) t 0 sa 0 0 0 0 .read

def execMaccst (g : SG) (t : TReg) (sa : SReg) (s : State) : Out :=
  postOp s (.maccst g t sa) g [sa] .maccst (fun h => tileErr h t (some (h.rdS sa))) t 0 sa 0 0 0 0 .write

def execMwait (g : SG) (s : State) : Out :=
  s.scalar g [] fun n h =>
    if s.matrixBusy n then .next s
    else match h.q.mfault with
      | some m => s.takeMFault n m
      | none => .next ((s.performAll n .matrix).updHart n Hart.nextPc)

/-! ### The scoreboard (R30, R210, R221, R238) -/

/-- Tiles that a command names. -/
def MCmd.tiles (k : MCmd) : List Nat :=
  match k.kind with
  | .mbld => []
  | .mmas => [k.tile.toNat, k.tile.toNat + 1]
  | _ => [k.tile.toNat]

def MCmd.isMma (k : MCmd) : Bool := k.kind == .mma || k.kind == .mmas

/-- The row and the chunk at which a queued command starts or resumes (R239). -/
def MCmd.startRow (k : MCmd) : Nat := match k.at_ with | some x => x.1 | none => 0
def MCmd.startChunk (k : MCmd) : Nat := match k.at_ with | some x => x.2.2.1 | none => 0

/-- Runs of registers that a pass reads beside its state: its source run, and its vc group where its operator reads it (R221). -/
def passReads (h : Hart) (e : QEntry) : List (Nat × Nat) :=
  match passIn e with
  | none => []
  | some p =>
    let o := operOf (h.rdO p.o)
    (p.vs.toNat, o.sources * e.lmul) :: (if o.csrc = 2 then [(p.vc.toNat, e.lmul)] else [])

/-- What a command has still to do, from a step on: elements of A, and rows of its tiles (R231, R239). -/
structure Todo where
  a : Nat × Nat
  rows : Nat × Nat
  deriving DecidableEq, Repr

/-- What one step of a command does: a chunk of a row of an MMA, a row of an MMAS, all of another command. -/
def MCmd.stepTodo (k : MCmd) (row chunk : Nat) : Todo :=
  let x := row * mshKp k.msh
  let n := mshK k.msh
  match k.kind with
  | .mma => ⟨(x + 256 * chunk, x + min n (256 * chunk + 256)), (row, row + 1)⟩
  | .mmas => ⟨(x, x + n), (row, row + 1)⟩
  | _ => ⟨(0, 0), (0, 32)⟩

/-- What a command has still to do from a step on. -/
def MCmd.restTodo (k : MCmd) (row chunk : Nat) : Todo :=
  let t := k.stepTodo row chunk
  if k.isMma then ⟨(t.a.1, (mshRows k.msh - 1) * mshKp k.msh + mshK k.msh), (row, mshRows k.msh)⟩ else t

def spansMeet (a b : Nat × Nat) : Bool := decide (max a.1 b.1 < min a.2 b.2)

/-- The binding through which a command reads A: the one that its stale test found, and before that test the register's own (R210). -/
def MCmd.boundTo (k : MCmd) (h : Hart) : Binding := k.bind.getD (h.binding k.vreg.toNat)

/-- Whether a command has its stale test still to make (R44, R210). -/
def MCmd.untested (k : MCmd) : Bool := mshScalesA k.msh && k.bind.isNone

/-- Rows of a tile that the elements `lo` to `hi` − 1 of a tile move touch (R236). -/
def mdRows (e : QEntry) (lo hi : Nat) : Instr → Nat × Nat
  | .mdrn _ _ _ r | .mput _ _ _ r => (e.raw r + lo / 256, e.raw r + (hi - 1) / 256 + 1)
  | _ => if lo / 32 = (hi - 1) / 32 then (lo % 32, (hi - 1) % 32 + 1) else (0, 32)

/-- Whether the elements `lo` to `hi` − 1 of a convoy meet what a command does: they write what it reads, or move rows of its tiles
(R30, R210, R238). The last elements bring the tail with them. A pass and a command meet in every register that both use (R221). A
scaled command that has its stale test still to make reads the record of its first register too, which any write there clears (R44,
R210). Where the convoy is the `younger` of the two, a drain of a tile does not wait for a command that only reads it (R238). -/
def convoyMeets (younger : Bool) (h : Hart) (e : QEntry) (lo hi : Nat) (k : MCmd) (t : Todo) : Bool :=
  let vl := h.vlen
  let span (r n : Nat) : Nat × Nat :=
    (r * vl + lo * e.sew * n, if e.vl ≤ hi ∧ e.tp then (r + n * e.lmul) * vl else r * vl + hi * e.sew * n)
  let w := mWidth (mshAfmt k.msh)
  let a := (k.vreg.toNat * vl + t.a.1 * w, k.vreg.toNat * vl + t.a.2 * w)
  let views := e.instrs.filterMap vview
  let writes := (views.flatMap fun v => v.writes ++ v.names).map fun r => span r.1 r.2
  let pass := (e.instrs.filterMap (passState e) ++ passReads h e).map fun r => (r.1 * vl, (r.1 + r.2) * vl)
  let streams := (h.consumed e).map fun m => span (h.stream m).vreg.toNat 1
  let used := writes ++ pass ++ streams
  let record := (k.vreg.toNat * vl, (k.vreg.toNat + 1) * vl)
  let regs := k.isMma && used.any fun x => spansMeet a x || (k.untested && spansMeet record x)
  let b := k.boundTo h
  let entries := (t.a.1 / 2 ^ (b.blk.toNat + 3), (t.a.2 - 1) / 2 ^ (b.blk.toNat + 3) + 1)
  let given := if lo = 0 ∧ k.untested then (0, 512) else (lo / 2 ^ e.shift, (hi - 1) / 2 ^ e.shift + 1)
  let scales := k.isMma && mshScalesA k.msh && spansMeet entries given &&
    ((views.any fun v => v.kwrite == some b.kreg) || (h.consumed e).any fun m => (h.stream m).scaled && (h.stream m).kd == b.kreg)
  let reads (i : Instr) : Bool := younger && k.kind == .maccst && match i with | .mdrn .. | .mdrnt .. => true | _ => false
  let tiles := decide (lo < hi) && e.instrs.any fun i =>
    match tileOf i with | some x => !reads i && k.tiles.contains x.toNat && spansMeet t.rows (mdRows e lo hi i) | none => false
  regs || scales || tiles

/-- Whether a convoy comes before a command in the hart's program order: the command was posted after the convoy's hand-off, and
not while the convoy was stopped, by a handler (R30, R238, R319). -/
def QEntry.precedes (e : QEntry) (k : MCmd) : Bool :=
  decide (e.seq ≤ k.seq) && e.away.all fun w => decide (k.seq < w.1 ∨ (w.2 ≠ 0 ∧ w.2 ≤ k.seq))

/-- The elements `lo` to `hi` − 1 of a convoy wait for the earlier commands of its hart that they meet (R30, R238). -/
def State.convoyHeld (s : State) (n : Nat) (e : QEntry) (lo hi : Nat) : Bool :=
  let c := s.core (coreOf n)
  let h := s.hart n
  let meets (k : MCmd) (row chunk : Nat) : Bool := k.hart == n && !e.precedes k && convoyMeets true h e lo hi k (k.restTodo row chunk)
  (c.mq.any fun k => meets k k.startRow k.startChunk) || (match c.mrun with | some r => meets r.cmd r.row r.chunk | none => false)

/-- A step of a command waits for the earlier convoys of its hart that it meets in elements that have not committed or in the tail: the
started one, those in the queue, and those that stopped inside (R30, R159, R221, R238). -/
def State.stepHeld (s : State) (k : MCmd) (row chunk : Nat) : Bool :=
  let h := s.hart k.hart
  let meets (e : QEntry) (lo : Nat) : Bool := e.precedes k && convoyMeets false h e (min lo e.vl) e.vl k (k.stepTodo row chunk)
  (match h.q.run with | some r => meets r.e h.vec.vstart | none => false) ||
    (h.q.queue.any fun e => meets e (if e.resumed then h.vec.vstart else 0)) ||
    h.q.stopped.any fun x => match x with | some x => meets x.1 x.2 | none => false

/-- A command waits to start for what its first step waits for. -/
def State.commandHeld (s : State) (k : MCmd) : Bool := s.stepHeld k k.startRow k.startChunk

/-! ### Multiplication (R80, R231) -/

/-- The exact sum of a list of values, in the order of their positions, with flags. Where a block has a NaN term and infinities of
both signs, NV for ∞ − ∞ is set only when both infinities come before the NaN: the spec leaves open whether they still meet
(DESIGN CHOICE, log 56). -/
def sumFV : List (FV × BitVec 6) → FV × BitVec 6
  | [] => (.fin false 0 0 false, 0)
  | x :: r => r.foldl (fun a t => let q := a.1.add Rnd.rne t.1; (q.1, a.2 ||| t.2 ||| q.2)) x

/-- A element (i, k) of a command as a value with its scale (R231). -/
def MCmd.aValue (k : MCmd) (h : Hart) (idx : Nat) : FV :=
  let f := mshAfmt k.msh
  let v := mValue f (h.rdE k.vreg.toNat idx (mWidth f))
  if mshScalesA k.msh then
    let b := k.boundTo h
    v.scaled (scaleExp (decide (k.scfmt = 1#2)) (h.kEnt b.kreg (idx / 2 ^ (b.blk.toNat + 3))))
  else v

/-- B element (position, column) as a value with its scale. -/
def MCmd.bValue (k : MCmd) (h : HShape) (c : Core) (pos col : Nat) : FV :=
  let f := mshBfmt k.msh
  let v := mValue f (c.bElem h (mWidth f) pos col)
  if mshScalesB k.msh then v.scaled (scaleExp (decide (k.scfmt = 1#2)) (c.scaleByte h (pos / 32) col)) else v

/-- One 32-element block added to an FP32 accumulator (R80). -/
def MCmd.floatBlock (k : MCmd) (a : List FV) (h : HShape) (c : Core) (pos col acc : Nat) : FR :=
  let terms := (a.zip (List.range a.length)).map fun x => x.1.mul (k.bValue h c (pos + x.2) col)
  let t := sumFV terms
  let r := fmtF32.op Rnd.rne ((fmtF32.decode acc).add Rnd.rne t.1)
  (r.1, r.2 ||| t.2)

/-- One block added to a saturating INT32 accumulator. -/
def MCmd.intBlock (_k : MCmd) (a : List Int) (h : HShape) (c : Core) (pos col acc : Nat) : FR :=
  let t := (a.zip (List.range a.length)).foldl (fun (x : Int) y => x + y.1 * sgn 8 (c.bElem h 8 (pos + y.2) col)) 0
  narrowInt 32 false true (sgn 32 acc + t)

/-- Blocks of a chunk: first position and length. -/
def chunkBlocks (k chunk : Nat) : List (Nat × Nat) :=
  (upTo (8 * chunk) (min (8 * chunk + 8) (cdiv k 32))).map fun b => (32 * b, min 32 (k - 32 * b))

/-- One row-chunk of an MMA: the new tile row and the flags. -/
def MCmd.mmaChunk (k : MCmd) (h : Hart) (c : Core) (row chunk : Nat) : FR :=
  let kp := mshKp k.msh
  let int := decide (mshAfmt k.msh = 3)
  let blocks := (chunkBlocks (mshK k.msh) chunk).map fun b =>
    (b.1, (List.range b.2).map (fun j => if int then FV.nan false else k.aValue h (row * kp + b.1 + j)),
      (List.range b.2).map fun j => sgn 8 (h.rdE k.vreg.toNat (row * kp + b.1 + j) 8))
  let col (x : Nat) : FR :=
    let acc0 := if mshOvw k.msh ∧ chunk = 0 then 0 else c.tileElem k.tile.toNat row x
    blocks.foldl (fun a b =>
      let pos := k.sa.toNat + b.1
      let r := if int then k.intBlock b.2.2 h.shape c pos x a.1 else k.floatBlock b.2.1 h.shape c pos x a.1
      (r.1, a.2 ||| r.2)) (acc0, 0)
  let cols := (List.range 256).map col
  (pack 32 (cols.map (·.1)), cols.foldl (fun f x => f ||| x.2) 0)

/-! ### Split multiplication (R81, R82, R232) -/

/-- The magnitude exponent of a row or column: none when it has no finite nonzero element. -/
def splitExp (l : List FV) : Option Int :=
  l.foldl (fun m v => match v with
    | .fin _ x _ _ => if x = 0 then m else (match m with | some y => some (max y v.ilog) | none => some v.ilog)
    | _ => m) none

def FV.special : FV → Bool
  | .fin _ _ _ _ => false
  | _ => true

/-- trunc(x × 2^(W − 1 − Ex)). -/
def splitInt (v : FV) (w ex : Int) : Int :=
  match v with
  | .fin n m e _ =>
    let k := e + w - 1 - ex
    let x : Nat := if 0 ≤ k then m * 2 ^ k.toNat else m / 2 ^ (-k).toNat
    if n then -(x : Int) else x
  | _ => 0

/-- The signed 8-bit slices of an integer, slice 0 first. -/
def slicesOf : Nat → Int → List Int
  | 0, _ => []
  | k + 1, n => let lo := sgn 8 (pat 8 n); slicesOf k ((n - lo) / 256) ++ [lo]

/-- A row or column of binary64 elements cut into slices: the slices of each element, the exponent, and whether a special
value was among them. -/
def splitCut (slc : Nat) (l : List Nat) : List (List Int) × Int × Bool :=
  let vs := l.map fmtF64.decode
  let ex := (splitExp vs).getD 0
  (vs.map fun v => slicesOf slc (splitInt v (8 * slc - 2) ex), ex, vs.any FV.special)

/-- The elements of A row i of a split command. -/
def MCmd.aRow (k : MCmd) (h : Hart) (row : Nat) : List Nat :=
  (List.range (mshK k.msh)).map fun j => h.rdE k.vreg.toNat (row * mshKp k.msh + j) 64

/-- Slice pairs in the order of R82. -/
def slicePairs (slc : Nat) : List (Nat × Nat) := (List.range slc).flatMap fun d => (List.range (d + 1)).map fun i => (i, d - i)

/-- One chunk of one slice pair, added to the accumulators P(d) (key 256·d + column). -/
def MCmd.pairChunk (k : MCmd) (h : Hart) (c : Core) (row pair chunk : Nat) (acc : Table Int) : Table Int :=
  let (i, j) := ((slicePairs k.slc)[pair]?).getD (0, 0)
  let a := (splitCut k.slc (k.aRow h row)).1
  let ks := upTo (256 * chunk) (min (256 * chunk + 256) (mshK k.msh))
  let as := ks.map fun p => (p, (((a[p]?).getD [])[i]?).getD 0)
  (List.range 256).foldl (fun acc col =>
    let t := as.foldl (fun (x : Int) y => x + y.2 * sgn 8 (c.bByte h.shape (k.slc * (k.sa.toNat + y.1) + j) col)) 0
    let key := 256 * (i + j) + col
    Table.set 0 acc key (Table.get 0 acc key + t)) acc

/-- Eb of a column (R225, R230). -/
def MCmd.eb (k : MCmd) (h : HShape) (c : Core) (col : Nat) : Int :=
  let b := 2 * (k.sa.toNat / 32)
  sgn 16 (c.scaleByte h b col + 256 * c.scaleByte h (b + 1) col)

/-- Row i of C from its accumulators (R82): the new rows of the two tiles, and flags. -/
def MCmd.splitRow (k : MCmd) (h : Hart) (c : Core) (row : Nat) (acc : Table Int) : Nat × Nat × BitVec 6 :=
  let cut := splitCut k.slc (k.aRow h row)
  let w : Int := 8 * k.slc - 2
  let col (x : Nat) : FR :=
    let eb := k.eb h.shape c x
    if cut.2.2 ∨ eb = -32768 then (fmtF64.nan, fNV)
    else
      let t := (List.range k.slc).foldl (fun (t : Int) d => t + Table.get 0 acc (256 * d + x) * ((2 ^ (8 * (2 * k.slc - 2 - d)) : Nat) : Int)) 0
      let v := fvOfInt t (cut.2.1 + eb + 2 - 2 * w) false
      if mshOvw k.msh then fmtF64.round Rnd.rne false v
      else fmtF64.op Rnd.rne ((fmtF64.decode (c.pairElem k.tile.toNat row x)).add Rnd.rne v)
  let cols := (List.range 256).map col
  (pack 64 ((cols.take 128).map (·.1)), pack 64 ((cols.drop 128).map (·.1)), cols.foldl (fun f x => f ||| x.2) 0)

/-! ### Memory commands (R230, R233) -/

/-- A span of bytes read line by line by a matrix command; the error of its first failing line. -/
def State.readSpan (s : State) (n : Nat) (va : Word) : Nat → Nat → Except AErr (State × List Byte)
  | 0, _ => .ok (s, [])
  | fuel + 1, len =>
    if len = 0 then .ok (s, [])
    else
      let k := min len (128 - va.toNat % 128)
      match s.load n .matrix va k .read with
      | .error e => .error e
      | .ok (s, bs) =>
        match State.readSpan s n (va + w64 k) fuel (len - k) with
        | .error e => .error e
        | .ok (s, more) => .ok (s, bs ++ more)

/-- How a command's work ended: done, or the address of the access that failed and its error. -/
inductive MEnd where
  | done
  | fault (va : Word) (e : AErr)
  deriving DecidableEq, Repr

/-- Pieces of `size` bytes from an address, each handed to `f` in turn; stops at the first failure. -/
def State.readPieces (s : State) (n size : Nat) : List (Word × (List Byte → State → State)) → State × MEnd
  | [] => (s, .done)
  | (va, f) :: r =>
    match s.readSpan n va 4 size with
    | .error e => (s, .fault va e)
    | .ok (s, bs) => State.readPieces (f bs s) n size r

/-- A stored B row in the data rows of its K position (R225, R230); `half` counts 128-byte pieces of the row. -/
def Core.loadBPiece (c : Core) (h : HShape) (w pos half : Nat) (bs : List Byte) : Core :=
  let x := ofBytes bs
  if w = 4 then
    let row := pos / 2
    (List.range 256).foldl (fun c col =>
      let old := c.bRow h row
      c.setBRow h row (imgSet old (8 * col + 4 * (pos % 2)) 4 (imgGet x (4 * col) 4))) c
  else if w = 8 then c.setBRow h pos (imgSet (c.bRow h pos) (1024 * half) 1024 x)
  else
    let put (c : Core) (row sel : Nat) : Core :=
      c.setBRow h row (imgSet (c.bRow h row) (512 * half) 512 (pack 8 ((List.range 64).map fun j => imgGet x (16 * j + 8 * sel) 8)))
    put (put c (2 * pos) 0) (2 * pos + 1) 1

/-- Zero codes in the data rows of a K position. -/
def Core.zeroB (c : Core) (h : HShape) (w pos : Nat) : Core :=
  if w = 4 then
    (List.range 256).foldl (fun c col => c.setBRow h (pos / 2) (imgSet (c.bRow h (pos / 2)) (8 * col + 4 * (pos % 2)) 4 0)) c
  else if w = 8 then c.setBRow h pos 0
  else (c.setBRow h (2 * pos) 0).setBRow h (2 * pos + 1) 0

/-- The address of row r of an MBLD. -/
def MCmd.rowAt (k : MCmd) (r : Nat) : Word := k.sa + w64 r * k.sb

/-- MBLD of a float or integer format. -/
def State.mbldPlain (s : State) (k : MCmd) : State × MEnd :=
  let core := coreOf k.hart
  let sh := (s.hart k.hart).shape
  let w := mWidth (mshBfmt k.msh)
  let n := k.sn.toNat
  let kb := k.sk.toNat
  let data := (List.range n).flatMap fun r => (List.range (max 1 (w / 4))).map fun half =>
    (k.rowAt r + w64 (128 * half), fun (bs : List Byte) (s : State) => s.updCore core fun c => c.loadBPiece sh w (kb + r) half bs)
  let scaled := fld k.word 8 4 ≠ 0
  let scales := if scaled then
      (List.range (cdiv n 32)).flatMap fun j => (List.range 2).map fun half =>
        (k.sc + w64 (256 * j + 128 * half), fun (bs : List Byte) (s : State) => s.updCore core fun c =>
          c.setBRow sh (sh.dataRows + kb / 32 + j) (imgSet (c.bRow sh (sh.dataRows + kb / 32 + j)) (1024 * half) 1024 (ofBytes bs)))
    else []
  match s.readPieces k.hart 128 (data ++ scales) with
  | (s, .fault va e) => (s, .fault va e)
  | (s, .done) => (s.updCore core fun c => (upTo (kb + n) (kb + cdiv n 32 * 32)).foldl (fun c p => c.zeroB sh w p) c, .done)

/-- The rows of a split MBLD, read whole before they are cut. -/
def State.splitRows (s : State) (k : MCmd) : List Nat → Except (State × Word × AErr) (State × List (List Nat))
  | [] => .ok (s, [])
  | r :: rest =>
    let rec pieces (s : State) : List Nat → Except (State × Word × AErr) (State × List Byte)
      | [] => .ok (s, [])
      | half :: more =>
        let va := k.rowAt r + w64 (128 * half)
        match s.readSpan k.hart va 2 128 with
        | .error e => .error (s, va, e)
        | .ok (s, bs) =>
          match pieces s more with
          | .error e => .error e
          | .ok (s, bs') => .ok (s, bs ++ bs')
    match pieces s (List.range 16) with
    | .error e => .error e
    | .ok (s, bs) =>
      let x := ofBytes bs
      match State.splitRows s k rest with
      | .error e => .error e
      | .ok (s, l) => .ok (s, (List.range 256).map (fun c => imgGet x (64 * c) 64) :: l)

/-- MBLD under BFMT 7: each column is cut into slices (R81, R230). -/
def State.mbldSplit (s : State) (k : MCmd) : State × MEnd :=
  let core := coreOf k.hart
  let sh := (s.hart k.hart).shape
  let n := k.sn.toNat
  let kb := k.sk.toNat
  match s.splitRows k (List.range n) with
  | .error (s, va, e) => (s, .fault va e)
  | .ok (s, rows) =>
    let cuts := (List.range 256).map fun c =>
      let cut := splitCut k.slc (rows.map fun r => at0' r c)
      if cut.2.2 then (cut.1.map fun _ => List.replicate k.slc (0 : Int), (-32768 : Int)) else (cut.1, cut.2.1)
    let slice (r j : Nat) : Nat := pack 8 (cuts.map fun cut => pat 8 ((((cut.1[r]?).getD [])[j]?).getD 0))
    let ebs (hi : Nat) : Nat := pack 8 (cuts.map fun cut => imgGet (pat 16 cut.2) (8 * hi) 8)
    (s.updCore core fun c =>
      let c := (List.range n).foldl (fun c r => (List.range k.slc).foldl (fun c j => c.setBRow sh (k.slc * (kb + r) + j) (slice r j)) c) c
      if n = 0 then c
      else (c.setBRow sh (sh.dataRows + 2 * (kb / 32)) (ebs 0)).setBRow sh (sh.dataRows + 2 * (kb / 32) + 1) (ebs 1), .done)
where
  at0' (l : List Nat) (k : Nat) : Nat := (l[k]?).getD 0

/-- MACCLD: 64-byte chunks in ascending order (R233, R362). -/
def State.maccld (s : State) (k : MCmd) : State × MEnd :=
  let core := coreOf k.hart
  s.readPieces k.hart 64 ((List.range 512).map fun j =>
    (k.sa + w64 (64 * j), fun (bs : List Byte) (s : State) => s.updCore core fun c =>
      c.setTileRow k.tile.toNat (j / 16) (imgSet (c.tileRow k.tile.toNat (j / 16)) (512 * (j % 16)) 512 (ofBytes bs))))

/-- MACCST: 64-byte chunks in ascending order. -/
def State.maccst (s : State) (k : MCmd) : List Nat → State × MEnd
  | [] => (s, .done)
  | j :: r =>
    let va := k.sa + w64 (64 * j)
    let x := imgGet ((s.core (coreOf k.hart)).tileRow k.tile.toNat (j / 16)) (512 * (j % 16)) 512
    match s.store k.hart .matrix va (toBytes 64 x) with
    | .error e => (s, .fault va e)
    | .ok s => State.maccst s k r

/-! ### Commands at work (R231 to R235, R238, R239) -/

/-- TVAL of a stale binding (R339). -/
def staleTval (h : Hart) (b : Binding) : Word :=
  w64 (b.stale.toNat * 2 ^ 24 + (h.kgen b.kreg).toNat * 2 ^ 16 + b.gen.toNat * 256 + b.kreg.toNat)

/-- A scaled read of a register that is stale (R44). -/
def Hart.staleAt (h : Hart) (v : VReg) : Bool :=
  let b := h.binding v.toNat
  !b.valid || b.stale || b.gen != h.kgen b.kreg

/-- The command in progress ends: MPROG reads 0, and the latch is set when it was the hart's last (R55, R256), also where it ends by a
fault (DESIGN CHOICE, log 74). -/
def State.mFinish (s : State) (core : Nat) (n : Nat) : State :=
  let s := s.updCore core fun c => { c with mrun := none }
  s.updHart n fun h =>
    let h := { h with vec := { h.vec with mprog := 0 } }
    if s.matrixBusy n then h else h.setLatch

/-- The fault of a command (R235, R340, R362): later commands of the hart are discarded, and the fault waits for the hart. The
latch is set as at a completion (DESIGN CHOICE, log 74). -/
def State.mFault (s : State) (core : Nat) (k : MCmd) (tval : Word) (e : AErr) : State :=
  let later := (s.core core).mq.filter fun x => x.hart == k.hart
  let tdet := w64 (2 ^ 63 + fld k.word 61 54 * 2 ^ 40 + later.length * 2 ^ 32) ||| e.tdet
  let m : MFault := ⟨⟨0x80#8 ||| e.cause, tval, 0, 0, tdet, k.pc⟩⟩
  let s := s.updCore core fun c => { c with mq := c.mq.filter fun x => x.hart != k.hart }
  ((s.mFinish core k.hart).updHart k.hart fun h => if h.q.status = .free then h else { h with q := { h.q with mfault := some m } }).applyFound e

/-- One step of the command in progress, once no earlier convoy holds it: one row-chunk of an MMA or MMAS (R239), the whole of
another command. A scaled MMA makes its stale test at its first step, and keeps the binding that it finds (R44, R210, R231). The flag
says that it faulted. -/
def State.mStep (s : State) (core : Nat) : State × Bool :=
  match (s.core core).mrun with
  | none => (s, false)
  | some r =>
    if s.stepHeld r.cmd r.row r.chunk then (s, false)
    else
    let h := s.hart r.cmd.hart
    let test := r.row = 0 ∧ r.chunk = 0 ∧ r.cmd.untested
    let k := if test then { r.cmd with bind := some (h.binding r.cmd.vreg.toNat) } else r.cmd
    let r := { r with cmd := k }
    let c := s.core core
    let fin (x : State × MEnd) : State × Bool :=
      match x with
      | (s, .done) => (s.mFinish core k.hart, false)
      | (s, .fault va e) => (s.mFault core k va e, true)
    let chunks := cdiv (mshK k.msh) 256
    match k.kind with
    | .mbld => fin (if mshBfmt k.msh = 7 then s.mbldSplit k else s.mbldPlain k)
    | .mzero =>
      ((s.updCore core fun c => (List.range 32).foldl (fun c i => c.setTileRow k.tile.toNat i 0) c).mFinish core k.hart, false)
    | .maccld => fin (s.maccld k)
    | .maccst => fin (s.maccst k (List.range 512))
    | .mma =>
      if test ∧ h.staleAt k.vreg then
        (s.mFault core k (staleTval h (h.binding k.vreg.toNat)) ⟨0x0A#8, 0, 0, []⟩, true)
      else
        let x := k.mmaChunk h c r.row r.chunk
        let s := (s.updCore core fun c => c.setTileRow k.tile.toNat r.row x.1).updHart k.hart fun h => h.flags x.2
        if r.chunk + 1 < chunks then (s.updCore core fun c => { c with mrun := some { r with chunk := r.chunk + 1 } }, false)
        else if r.row + 1 < mshRows k.msh then (s.updCore core fun c => { c with mrun := some { r with row := r.row + 1, chunk := 0 } }, false)
        else (s.mFinish core k.hart, false)
    | .mmas =>
      let acc := k.pairChunk h c r.row r.pair r.chunk r.acc
      if r.chunk + 1 < chunks then (s.updCore core fun c => { c with mrun := some { r with chunk := r.chunk + 1, acc := acc } }, false)
      else if r.pair + 1 < (slicePairs k.slc).length then
        (s.updCore core fun c => { c with mrun := some { r with pair := r.pair + 1, chunk := 0, acc := acc } }, false)
      else
        let (lo, hi, fl) := k.splitRow h c r.row acc
        let s := (s.updCore core fun c => (c.setTileRow k.tile.toNat r.row lo).setTileRow (k.tile.toNat + 1) r.row hi).updHart k.hart fun h => h.flags fl
        if r.row + 1 < mshRows k.msh then
          (s.updCore core fun c => { c with mrun := some { r with row := r.row + 1, pair := 0, chunk := 0, acc := [] } }, false)
        else (s.mFinish core k.hart, false)

/-- Steps until the command in progress ends; the flag says that it faulted. -/
def State.mRunAll (s : State) (core : Nat) : Nat → State × Bool
  | 0 => (s, false)
  | fuel + 1 =>
    match (s.core core).mrun with
    | none => (s, false)
    | some _ =>
      match s.mStep core with
      | (s, true) => (s, true)
      | (s, false) => State.mRunAll s core fuel

/-- Steps that a command can need. -/
def MCmd.steps (k : MCmd) : Nat := mshRows k.msh * cdiv (mshK k.msh) 256 * (slicePairs k.slc).length + mshRows k.msh * cdiv (mshK k.msh) 256 + 1

/-- The first command of the queue starts, in queue order (R238). A core has one command in progress: the spec allows that an MBLD,
MZERO, MACCLD or MACCST overlaps an MMA or MMAS, and the model never overlaps them (DESIGN CHOICE, log 17). -/
def State.mStart (s : State) (core : Nat) : Option State :=
  let c := s.core core
  match c.mrun, c.mq with
  | none, k :: rest => if s.commandHeld k ∨ s.arrayHolds k.hart then none
    else some ((s.setCore core { c with
        mq := rest, mrun := some (match k.at_ with | some (r, p, c, a) => ⟨k, r, p, c, a⟩ | none => ⟨k, 0, 0, 0, []⟩) }).updHart k.hart fun h =>
      { h with q := { h.q with mline := none } })
  | _, _ => none

/-- The command in progress, unless its partition's matrix array holds (R281). -/
def State.mActive (s : State) (core : Nat) : Option MRun :=
  match (s.core core).mrun with
  | some r => if s.arrayHolds r.cmd.hart then none else some r
  | none => none

/-- The matrix engine of a core acts: a start, or one step. -/
def State.matrixTurn (s : State) (core : Nat) : State :=
  match s.mActive core with
  | some _ => (s.mStep core).1
  | none => (s.mStart core).getD s

def execMatrixCommandStart (core : Nat) (s : State) : Out :=
  match s.mStart core with
  | some s => .next s
  | none => .next s

def execMatrixCommandComplete (core : Nat) (s : State) : Out :=
  match s.mActive core with
  | some r => .next (s.mRunAll core r.cmd.steps).1
  | none => .next s

def execMatrixAsyncFault (core : Nat) (s : State) : Out :=
  match s.mActive core with
  | some r => .next (match s.mRunAll core r.cmd.steps with | (t, true) => t | (_, false) => s)
  | none => .next s

/-! ### Tile moves (R236) -/

/-- An element whose row or column does not exist. -/
def tileRange (row col : Nat) (word : Word) : Option AErr := if 31 < row ∨ 255 < col then some (illegalSlot word) else none

/-- Row and column of element e under MDRN and MPUT, or under MDRNT. -/
def mdAt (turned : Bool) (r e : Nat) : Nat × Nat := if turned then (e % 32, r + e / 32) else (r + e / 256, e % 256)

def drainSlot (i : Instr) (turned : Bool) (g : VG) (vd : VReg) (t : TReg) (r : Sel3) : Slot :=
  ⟨noStart,
    fun c lo hi s => eachElem (upTo lo hi) (fun e s =>
      let (row, col) := mdAt turned (c.e.raw r) e
      let h := s.hart c.n
      if h.vguard g e then
        match tileRange row col (wordOf i) with
        | some a => .error (.fault a)
        | none => .ok (s.setHart c.n (h.wrElem vd.toNat e c.e.sew ((s.core (coreOf c.n)).tileElem t.toNat row col)))
      else .ok (if c.e.mp then s.setHart c.n (h.wrElem vd.toNat e c.e.sew (ones c.e.sew)) else s)) s,
    fun c s => s.updHart c.n fun h => h.vtail c.e vd.toNat c.e.sew⟩

def slotMdrn (g : VG) (vd : VReg) (t : TReg) (r : Sel3) : Slot := drainSlot (.mdrn g vd t r) false g vd t r
def slotMdrnt (g : VG) (vd : VReg) (t : TReg) (r : Sel3) : Slot := drainSlot (.mdrnt g vd t r) true g vd t r

def slotMput (g : VG) (vd : VReg) (t : TReg) (r : Sel3) : Slot :=
  ⟨noStart,
    fun c lo hi s => eachElem (upTo lo hi) (fun e s =>
      let (row, col) := mdAt false (c.e.raw r) e
      let h := s.hart c.n
      if h.vguard g e then
        match tileRange row col (wordOf (.mput g vd t r)) with
        | some a => .error (.fault a)
        | none => .ok (s.updCore (coreOf c.n) fun k => k.setTileElem t.toNat row col (h.rdE vd.toNat e c.e.sew))
      else .ok s) s,
    noRetire⟩

def execMdrn (g : VG) (vd : VReg) (t : TReg) (r : Sel3) (s : State) : Out := vectorOp s (.mdrn g vd t r) (slotMdrn g vd t r)
def execMdrnt (g : VG) (vd : VReg) (t : TReg) (r : Sel3) (s : State) : Out := vectorOp s (.mdrnt g vd t r) (slotMdrnt g vd t r)
def execMput (g : VG) (vd : VReg) (t : TReg) (r : Sel3) (s : State) : Out := vectorOp s (.mput g vd t r) (slotMput g vd t r)

end Sys2Proof.Machine
end

