-- ==== Sys2Proof/Machine/VectorMem.lean ====
section
/-!
DEFINITION. Vector memory instructions (R71 to R77, R96, R102, R176 to R190).
-/
namespace Sys2Proof.Machine

/-! ### Addresses (R176) -/

/-- How the elements of an access lie (R176). -/
inductive AddrForm where
  | unit
  | strided
  | indexed (r : VReg)
  deriving DecidableEq, Repr

def Ctx.base (c : Ctx) (m : MemForm) : Word :=
  (if m.base then c.e.xb else c.e.xa) + (if m.off then c.e.imm.signExtend 64 else 0)

def Ctx.stride (c : Ctx) (m : MemForm) : Word := if m.base then c.e.xa else c.e.xb

/-- The address of element `i` of stored size `sz`. -/
def Ctx.addr (c : Ctx) (m : MemForm) (f : AddrForm) (h : Hart) (i sz : Nat) : Word :=
  match f with
  | .unit => c.base m + w64 (i * sz)
  | .strided => c.base m + w64 i * c.stride m
  | .indexed r => c.base m + w64 (h.rdE r.toNat i c.e.sew)

/-- The byte that holds plane `j` of BPN element `i` (R71). -/
def bpnAddr (base : Word) (i j : Nat) : Word := base + w64 (256 * (i / 256) + 32 * j + i % 256 / 8)

def QEntry.ldfmt (e : QEntry) : Nat := fld e.mfc 9 5
def QEntry.stfmt (e : QEntry) : Nat := fld e.mfc 14 10
def QEntry.sat (e : QEntry) : Bool := e.mfc.getLsbD 20
/-- Planes that a BPN access moves (R72). -/
def QEntry.planes (e : QEntry) : Nat := fld e.mfc 17 15 + 1

/-- Priority of the causes that an element can find (R339, R341). -/
def AErr.prio (e : AErr) : Nat :=
  if e.cause = 0x01#8 then 1 else if e.cause = 0x03#8 then 3 else if e.cause = 0x04#8 then 4 else if e.cause = 0x0B#8 then 5
  else if e.cause = 0x0A#8 then 6 else if e.cause = 0x05#8 then 7 else if e.cause = 0x06#8 then 8 else if e.cause = 0x08#8 then 9 else if e.cause = 0x07#8 then 10 else if e.cause = 0x09#8 then 12 else 11

/-- The fault of least priority number, the first among equals (R341). -/
def worst : List AErr → Option AErr
  | [] => none
  | x :: r =>
    match worst r with
    | none => some x
    | some y => if y.prio < x.prio then some y else some x

def failOf {α : Type} : Except AErr α → Option AErr
  | .error e => some e
  | .ok _ => none

/-! ### Sequence tags (R96) -/

/-- The scratchpad tile of an address, for a hart (R96). -/
def Hart.tile (h : Hart) (n : Nat) (va : Word) : Option Nat :=
  if localBase ≤ va.toNat then
    match h.localLoc n va.toNat with
    | some loc => if placeOf loc = .spad then some ((loc - 2 ^ 61) / 4096) else none
    | none => none
  else none

/-- What the run of a convoy remembers of a slot's block or tile. -/
def markKey (slot k : Nat) : Nat := 64 + slot * 2 ^ 20 + k

def Hart.marked (h : Hart) (slot k : Nat) : Bool :=
  match h.q.run with
  | some r => decide (Table.get 0 r.sw (markKey slot k) = 1)
  | none => false

def Hart.setMark (h : Hart) (key : Nat) : Hart :=
  { h with q := { h.q with run := h.q.run.map fun r => { r with sw := Table.set 0 r.sw key 1 } } }

/-- Compares the expected tag at the first element that the instruction reads from a tile. -/
def State.tagCheck (s : State) (c : Ctx) (va : Word) : Except AErr State :=
  let h := s.hart c.n
  match h.tile c.n va with
  | none => .ok s
  | some t =>
    if h.marked c.slot (2 ^ 19 + t) then .ok s
    else
      let tag : BitVec 16 := Table.get 0#16 s.sto.tags t
      if tag = c.e.imm then .ok (s.setHart c.n (h.setMark (markKey c.slot (2 ^ 19 + t))))
      else .error ⟨0x09#8, tag.setWidth 64, 0, []⟩

/-! ### One element -/

/-- One read of the vector agent. -/
def State.fetch (s : State) (n sz : Nat) (va : Word) : Except AErr (State × List Byte) :=
  match alignErr va sz .read with
  | some e => .error e
  | none => s.load n .vector va sz .read

/-- Reads of several places in order, one access each, all of them checked before (R341). -/
def State.readAll (rd : State → Word → Except AErr (State × List Byte)) (s : State) : List Word → Except AErr (State × List Byte)
  | [] => .ok (s, [])
  | va :: r =>
    match rd s va with
    | .error e => .error e
    | .ok (s, bs) =>
      match State.readAll rd s r with
      | .error e => .error e
      | .ok (s, more) => .ok (s, bs ++ more)

/-- The parts of one element: the fault of the highest priority when several fail (R341). -/
def State.readParts (s : State) (rd : State → Word → Except AErr (State × List Byte)) : List Word → Except AErr (State × List Byte)
  | [va] => rd s va
  | l =>
    match worst (l.filterMap fun va => failOf (rd s va)) with
    | some e => .error e
    | none => s.readAll rd l

def State.fetchAll (s : State) (n sz : Nat) (l : List Word) : Except AErr (State × List Byte) := s.readParts (fun s => s.fetch n sz) l

/-! ### Words of packed formats (R102, R177) -/

/-- A word that a slot has read is kept for the elements that share it: no element group meets more than 32 of a slot. -/
def Hart.keepWord (h : Hart) (x : PackedWord) : Hart :=
  { h with q := { h.q with run := h.q.run.map fun r =>
    { r with words := x :: r.words.filter fun y => y.slot != x.slot || y.word % 32 != x.word % 32 } } }

/-- The word that the elements of a slot share, once it has been read. -/
def Hart.wordRead (h : Hart) (slot w : Nat) : Option Nat :=
  (h.q.run.bind fun r => r.words.find? fun x => x.slot == slot && x.word == w).map (·.val)

/-- One byte of a packed access: the aligned 8-byte word that holds it is read once for the elements that share it. -/
def State.fetchPacked (s : State) (c : Ctx) (va : Word) : Except AErr (State × List Byte) :=
  let w := va.toNat / 8
  let pick (v : Nat) : List Byte := [BitVec.ofNat 8 (imgGet v (8 * (va.toNat % 8)) 8)]
  match (s.hart c.n).wordRead c.slot w with
  | some v => .ok (s, pick v)
  | none =>
    match s.loadAt c.n .vector (w64 (8 * w)) 8 .read with
    | .error e => .error { e with tval := va }
    | .ok (s, loc, bs) => .ok (s.updHart c.n fun h => h.keepWord ⟨c.slot, w, loc, ofBytes bs⟩, pick (ofBytes bs))

/-- The tags of the tiles that an element lies in, when the form carries one (R96). -/
def State.tagged (c : Ctx) (tag : Bool) (l : List Word) (r : Except AErr (State × List Byte)) : Except AErr (State × List Byte) :=
  match r with
  | .error e => .error e
  | .ok (s, bs) =>
    if tag then
      match l.foldlM (fun s va => s.tagCheck c va) s with
      | .error e => .error e
      | .ok s => .ok (s, bs)
    else .ok (s, bs)

/-! ### Gathered lines (R94); what a line holds of a run that is not complete is log 68 -/

/-- The gathered line that holds an element, if one does. -/
def Core.gatherHit (c : Core) (loc sz : Nat) : Option Gathered := c.gathered.find? fun g => g.size == sz && g.elems.contains loc

/-- A gathered line is used: the last one used comes first. -/
def Core.gatherUse (c : Core) (g : Gathered) : Core := { c with gathered := g :: c.gathered.filter (· != g) }

/-- Whether an element belongs to the run of 16 that a gathered line began. -/
def Gathered.covers (g : Gathered) (va stride : Word) (sz : Nat) : Bool :=
  g.stride == stride && g.size == sz && (upTo 1 16).any fun k => va == g.base + w64 k * stride

/-- An element that missed joins the gathered line of its run, or begins one; the least recently used of 64 gives way. -/
def Core.gather (c : Core) (va stride : Word) (sz loc : Nat) : Core :=
  match c.gathered.find? fun g => g.covers va stride sz with
  | some g => { c with gathered := { g with elems := loc :: g.elems, lines := loc / 128 :: g.lines } :: c.gathered.filter (· != g) }
  | none => { c with gathered := (⟨va, stride, sz, [loc], [loc / 128]⟩ :: c.gathered).take 64 }

/-- One element of a strided load: from a gathered line that holds it, else from memory, which gathers it where the stride is 128 bytes
or more and its line is in the shared SRAM (R94). Only a cached access is gathered, or served so (R86); a line of a window is none
(DESIGN CHOICE, log 59). -/
def State.fetchStrided (s : State) (n sz : Nat) (stride va : Word) : Except AErr (State × List Byte) :=
  match alignErr va sz .read, s.locate (s.whoOf n .vector) va .read with
  | none, .ok (t, x) =>
    let own : Bool := (t.hart n).q.vheld.any fun w => w.over x.loc sz
    match (if t.caches x then (t.core (coreOf n)).gatherHit x.loc sz else none) with
    | some g =>
      if own ∨ t.poisoned x.loc ∨ t.isRetired x.loc then s.load n .vector va sz .read
      else .ok ((t.setAD x false).updCore (coreOf n) fun c => c.gatherUse g, Memory.readBytes t.sto.mem x.loc sz)
    | none =>
      match s.load n .vector va sz .read with
      | .error e => .error e
      | .ok (s, bs) =>
        if 128 ≤ stride.toInt.natAbs ∧ sz ≤ 8 ∧ t.caches x ∧ s.cachedHere (x.loc / 128) then
          .ok ((s.present (x.loc / 128) (coreOf n)).updCore (coreOf n) fun c => c.gather va stride sz x.loc, bs)
        else .ok (s, bs)
  | _, _ => s.fetch n sz va

/-- The bytes over which a packed element of `w` bits at index `i` lies, and its offset in the first (R60). -/
def packedAt (base : Word) (w i : Nat) : List Word × Nat :=
  ((upTo (w * i / 8) ((w * i + w - 1) / 8 + 1)).map fun k => base + w64 k, w * i % 8)

/-- BPN address checks: the bytes of the element, then the base (R71). -/
def bpnErr (base : Word) (i p : Nat) (a : Acc) : Option AErr :=
  match ((upTo 0 p).find? fun j => fld (bpnAddr base i j) 63 55 ≠ 0) with
  | some j => some (AErr.plain 0x05#8 (bpnAddr base i j) a)
  | none => if base.toNat % 256 ≠ 0 then some (AErr.plain 0x06#8 base a) else none

/-- Loads and converts element `i` (R177, R178). -/
def State.loadElem (s : State) (c : Ctx) (m : MemForm) (f : AddrForm) (i : Nat) : Except AErr (State × FR) :=
  let code := c.e.ldfmt
  let h := s.hart c.n
  let base := c.base m
  let conv (raw : Nat) : FR := loadConv c.e.sew c.e.fmt code raw
  match storedOf c.e.sew code with
  | .reserved => .error (formatErr (c.addr m f h i (Config.reservedBytes code)))
  | .plain sz =>
    let va := c.addr m f h i sz
    match State.tagged c m.tag [va] (if f = .strided then s.fetchStrided c.n sz (c.stride m) va else s.fetch c.n sz va) with
    | .error e => .error e
    | .ok (s, bs) => .ok (s, conv (ofBytes bs))
  | .packed w =>
    if f ≠ .unit then .error (formatErr (c.addr m f h i 0))
    else
      let (at_, off) := packedAt base w i
      match State.tagged c m.tag at_ (s.readParts (fun s => s.fetchPacked c) at_) with
      | .error e => .error e
      | .ok (s, bs) => .ok (s, conv (imgGet (ofBytes bs) off w))
  | .bpn mid =>
    if f ≠ .unit then .error (formatErr (c.addr m f h i 0))
    else
      let p := c.e.planes
      match bpnErr base i p .read with
      | some e => .error e
      | none =>
        let at_ := (upTo 0 p).map fun j => bpnAddr base i j
        match State.tagged c m.tag at_ (s.readParts (fun s => s.fetchPacked c) at_) with
        | .error e => .error e
        | .ok (s, bs) =>
          let q := bs.foldl (fun q b => 2 * q + (b.getLsbD (i % 8)).toNat) 0
          .ok (s, (bpnLoad c.e.sew p q mid, 0))

/-- Bits of several bytes, each its address, mask and value, are written for one element (R102, R177). The word of an earlier
element that this one does not share is complete. -/
def State.mergeAll (s : State) (c : Ctx) (l : List (Word × Nat × Nat)) : Except AErr State :=
  let one (s : State) (x : Word × Nat × Nat) : Except AErr (State × Nat) :=
    let sh := 8 * (x.1.toNat % 8)
    s.mergeWord c.n c.slot x.1 (x.2.1 <<< sh) (x.2.2 <<< sh)
  match worst (l.filterMap fun x => failOf (one s x)) with
  | some e => .error e
  | none =>
    match l.foldlM (fun (a : State × List Nat) x => (one a.1 x).map fun r => (r.1, r.2 :: a.2)) (s, []) with
    | .error e => .error e
    | .ok (s, locs) => .ok (s.closeHeld c.n fun w => w.slot == c.slot && !locs.contains w.loc)

/-- The last packed word of a slot is complete. -/
def closeSlot (c : Ctx) (s : State) : State := s.closeHeld c.n fun w => w.slot == c.slot

/-- The store rounding that SRND selects, none for a format fault (R179). -/
def Hart.srnd (h : Hart) (e : QEntry) (i : Nat) : Option Rnd :=
  let k := fld e.mfc 23 21
  (if k = 6 then rmodeOf h.sc.frm.toNat else rmodeOf k).map fun m => h.vrnd e m i

/-- Converts and stores element `i` of the group at `vd` (R177, R179); `ks` is the scale register of VSTK. -/
def State.storeElem (s : State) (c : Ctx) (m : MemForm) (f : AddrForm) (vd : VReg) (ks : Option KReg) (i : Nat) :
    Except AErr State :=
  let code := c.e.stfmt
  let h := s.hart c.n
  let base := c.base m
  let x := h.rdE vd.toNat i c.e.sew
  let size := match storedOf c.e.sew code with | .plain sz => sz | _ => 0
  let va := c.addr m f h i (match storedOf c.e.sew code with | .reserved => Config.reservedBytes code | .plain sz => sz | _ => 0)
  let place := match storedOf c.e.sew code, f with
    | .packed w, .unit => base + w64 (w * i / 8)
    | .bpn _, .unit => bpnAddr base i 0
    | _, _ => va
  let round := h.srnd c.e i
  let scale : Scale := match ks with
    | some k => .by (scaleExp (decide (c.e.scfmt = 1)) (h.kEnt k (i / 2 ^ c.e.shift)))
    | none => .one
  let bad := (storedOf c.e.sew code = .reserved) || code == 22 || (size == 0 && f != .unit) ||
    (roundsCode code && (round.isNone || (ks.isSome && decide (2 ≤ c.e.scfmt))))
  if bad then .error (formatErr place)
  else
    let r := storeConv c.e.sew c.e.fmt code x (round.getD Rnd.rne) c.e.sat scale
    let done (s : State) (fl : BitVec 6) : State := s.updHart c.n fun h => h.flags fl
    match storedOf c.e.sew code with
    | .plain sz =>
      match alignErr va sz .write with
      | some e => .error e
      | none =>
        match s.store c.n .vector va (toBytes sz r.1) with
        | .error e => .error e
        | .ok s => .ok (done s r.2)
    | .packed w =>
      let (at_, off) := packedAt base w i
      let parts := (at_.zip (List.range at_.length)).map fun p =>
        (p.1, imgGet (ones w <<< off) (8 * p.2) 8, imgGet (r.1 <<< off) (8 * p.2) 8)
      match s.mergeAll c parts with
      | .error e => .error e
      | .ok s => .ok (done s r.2)
    | .bpn _ =>
      let p := c.e.planes
      let v := narrowInt 8 false c.e.sat (sgn c.e.sew x)
      match bpnErr base i p .write with
      | some e => .error e
      | none =>
        match s.mergeAll c ((upTo 0 p).map fun j =>
            (bpnAddr base i j, 2 ^ (i % 8), if v.1.testBit (7 - j) then 2 ^ (i % 8) else 0)) with
        | .error e => .error e
        | .ok s => .ok (done s v.2)
    | .reserved => .error (formatErr place)

/-! ### Loads (R181, R182, R184) -/

/-- An element of a destination whose operand may fail (R158, R177). -/
def State.destElem (s : State) (c : Ctx) (g : VG) (vd : VReg) (i : Nat) (op : State → Except AErr (State × FR)) :
    Except Halt State :=
  if (s.hart c.n).vguard g i then
    match op s with
    | .error e => .error (.fault e)
    | .ok (s, r) => .ok (s.updHart c.n fun h => (h.wrElem vd.toNat i c.e.sew r.1).flags r.2)
  else .ok (if c.e.mp then s.updHart c.n fun h => h.wrElem vd.toNat i c.e.sew (ones c.e.sew) else s)

/-- Causes that a VLDFF turns into a trim (R182). -/
def AErr.trims (e : AErr) : Bool := e.cause == 0x05#8 || e.cause == 0x06#8 || e.cause == 0x07#8 || e.cause == 0x08#8

def loadSlot (g : VG) (vd : VReg) (m : MemForm) (f : AddrForm) (ff : Bool) : Slot :=
  ⟨noStart,
    fun c lo hi s => (eachElem (upTo lo hi) fun i s =>
      match s.destElem c g vd i fun s => s.loadElem c m f i with
      | .error (.fault e) => .error (if ff ∧ i ≠ 0 ∧ e.trims then .trim e.found else .fault e)
      | r => r) s,
    fun c s => s.updHart c.n fun h => h.vtail c.e vd.toNat c.e.sew⟩

def slotVld (g : VG) (vd : VReg) (m : MemForm) : Slot := loadSlot g vd m .unit false
def slotVlds (g : VG) (vd : VReg) (m : MemForm) : Slot := loadSlot g vd m .strided false
def slotVldx (g : VG) (vd vs2 : VReg) (m : MemForm) : Slot := loadSlot g vd m (.indexed vs2) false
def slotVldff (g : VG) (vd : VReg) (m : MemForm) : Slot := loadSlot g vd m .unit true

/-- One byte at an address by the vector agent. -/
def State.loadByte (s : State) (n : Nat) (va : Word) : Except AErr (State × Byte) :=
  match s.fetchAll n 1 [va] with
  | .error e => .error e
  | .ok (s, bs) => .ok (s, (bs[0]?).getD 0)

/-- Two parts of one element: the fault of the higher priority when both fail (R341). -/
def State.bothParts (s : State) (a b : State → Except AErr State) : Except AErr State :=
  match a s, b s with
  | .error x, .error y => .error (if y.prio < x.prio then y else x)
  | .error x, .ok _ => .error x
  | .ok s, _ => b s

/-- The scale entry of an element's block, moved once for each block that a run meets (R184, R185). -/
def State.blockOnce (s : State) (c : Ctx) (i : Nat) (f : Nat → State → Except AErr State) : Except AErr State :=
  let j := i / 2 ^ c.e.shift
  if (s.hart c.n).marked c.slot j then .ok s
  else match f j s with
    | .error e => .error e
    | .ok s => .ok (s.updHart c.n fun h => h.setMark (markKey c.slot j))

/-- The group that begins at `lo` is the convoy's first, or the instruction stands outside a convoy. The first group of a convoy that was
resumed past an element is none: what its slots did once stands (R209, R338). -/
def Hart.firstGroup (h : Hart) (lo : Nat) : Bool :=
  match h.q.run with
  | none => true
  | some r => r.start == lo && !(r.e.resumed && lo != 0)

/-- VLDK makes its record with the first group of its convoy that commits, and its later groups leave the records alone: the
record that a later slot makes from it stands (R44, R209, log 9). -/
def slotVldk (g : VG) (vd : VReg) (kd : KReg) (m : MemForm) : Slot :=
  ⟨noStart,
    fun c lo hi s =>
      let kept := (s.hart c.n).vec.vbr
      let s := if lo = 0 then s.updHart c.n fun h => h.advance kd else s
      match (eachElem (upTo lo hi) fun i s =>
          if (s.hart c.n).vguard g i then
            let data (s : State) : Except AErr State :=
              match s.loadElem c m .unit i with
              | .error e => .error e
              | .ok (s, r) => .ok (s.updHart c.n fun h => (h.wrElem vd.toNat i c.e.sew r.1).flags r.2)
            let entry (s : State) : Except AErr State := s.blockOnce c i fun j s =>
              match s.loadByte c.n (c.e.xb + w64 j) with
              | .error e => .error e
              | .ok (s, b) => .ok (s.updHart c.n fun h => h.setKEnt kd j b.toNat)
            match s.bothParts data entry with
            | .error e => .error (.fault e)
            | .ok s => .ok s
          else s.destElem c g vd i fun s => .ok (s, (0, 0))) s with
      | .error x => .error x
      | .ok s => .ok (s.updHart c.n fun h =>
          if h.firstGroup lo then h.bindTo vd.toNat c.e.lmul kd (vtBlk c.e.vtype) else { h with vec := { h.vec with vbr := kept } }),
    fun c s => s.updHart c.n fun h => h.vtailOwn c.e vd.toNat c.e.sew⟩

/-! ### VLDZ (R183) -/

/-- The decoder's view of memory: the state, and the byte it last read. -/
structure ZcCur where
  s : State
  byte : Option (Nat × Byte)

/-- How an agent reads one byte. -/
abbrev ByteReader := State → Word → Except AErr (State × Byte)

/-- The bit at position `pos` of the coded stream at `base`. -/
def ZcCur.bit (z : ZcCur) (rd : ByteReader) (base : Word) (pos : Nat) : Except AErr (ZcCur × Bool) :=
  let read : Except AErr (ZcCur × Bool) :=
    match rd z.s (base + w64 (pos / 8)) with
    | .error e => .error e
    | .ok (s, b) => .ok (⟨s, some (pos / 8, b)⟩, b.getLsbD (pos % 8))
  match z.byte with
  | some (k, b) => if k = pos / 8 then .ok (z, b.getLsbD (pos % 8)) else read
  | none => read

/-- The word that starts at `pos`, all of its bits below `bound`. A word is at most 15 bits long (R75). -/
def ZcCur.word (rd : ByteReader) (base : Word) (lens : List Nat) (bound : Nat) :
    Nat → ZcBits → Nat → ZcCur → Except AErr (ZcCur × ZcWord)
  | 0, _, _, z => .ok (z, .bad)
  | fuel + 1, w, pos, z =>
    if bound ≤ pos then .ok (z, .short)
    else match z.bit rd base pos with
      | .error e => .error e
      | .ok (z, b) =>
        match zcBit lens w b with
        | .inl w => ZcCur.word rd base lens bound fuel w (pos + 1) z
        | .inr r => .ok (z, r)

/-- Stored elements of one decoded byte (R73, R183). -/
def zcElems (code : Nat) (b : Nat) : List Nat := if code = 19 then [b % 16, b / 16] else [b]

/-- How a decode ended. -/
inductive ZcEnd where
  /-- elements below `upto` are decoded -/
  | reached
  /-- no further word is taken -/
  | stop
  | fail (e : AErr)
  deriving DecidableEq, Repr

/-- A decode: the reader, the elements (latest first) and their count, and the count and the position after each word taken (latest
first). -/
structure ZcDec where
  z : ZcCur
  n : Nat
  elems : List Nat
  cuts : List (Nat × Nat)

/-- The position after the last word taken. -/
def ZcDec.pos (d : ZcDec) : Nat := (d.cuts.head?.getD (0, 0)).2

/-- Words are taken until `upto` elements are there or the decode stops (R183). -/
def ZcDec.go (rd : ByteReader) (base : Word) (lens : List Nat) (bound code v upto : Nat) : Nat → ZcDec → ZcDec × ZcEnd
  | 0, d => (d, .reached)
  | fuel + 1, d =>
    if upto ≤ d.n then (d, .reached)
    else if v ≤ d.n then (d, .stop)
    else match ZcCur.word rd base lens bound 16 ⟨0, 0, none⟩ d.pos d.z with
      | .error e => (d, .fail e)
      | .ok (z, .bad) => ({ d with z := z }, .fail (formatErr (base + w64 (d.pos / 8))))
      | .ok (z, .short) => ({ d with z := z }, .stop)
      | .ok (z, .word sym run len) =>
        let els := if sym = 0 then (List.replicate (run + 1) (zcElems code 0)).flatten else zcElems code sym
        if v < d.n + els.length then
          ({ d with z := z }, if d.n = 0 then .fail (formatErr (base + w64 (d.pos / 8))) else .stop)
        else ZcDec.go rd base lens bound code v upto fuel
            ⟨z, d.n + els.length, els.reverse ++ d.elems, (d.n + els.length, d.pos + len) :: d.cuts⟩

/-- The 128 table bytes at an address by the vector agent. -/
def State.zcLensAt (s : State) (n : Nat) (va : Word) : Except AErr (State × List Nat) :=
  match s.fetchAll n 1 ((upTo 0 128).map fun i => va + w64 i) with
  | .error e => .error e
  | .ok (s, bs) => .ok (s, zcLens bs)

/-- What a slot's VLDZ has decoded in the run of its convoy. -/
def Hart.zcSaved (h : Hart) (slot : Nat) : Option ZcSave :=
  match h.q.run with
  | some r => Table.get none r.zc slot
  | none => none

/-- A decode is kept: its bytes are not read again in the run (R86). -/
def State.zcKeep (c : Ctx) (lens : List Nat) (d : ZcDec) : State :=
  d.z.s.updHart c.n fun h => { h with q := { h.q with run := h.q.run.map fun r =>
    { r with zc := Table.set none r.zc c.slot (some ⟨lens, d.cuts, d.z.byte, d.elems⟩) } } }

/-- The decode of a VLDZ up to `upto` elements: on from what the run has decoded, or from its start, with its length table. -/
def Ctx.zcDecode (c : Ctx) (upto : Nat) (s : State) : Except AErr (List Nat × ZcDec × ZcEnd) :=
  let go (lens : List Nat) (d : ZcDec) : ZcDec × ZcEnd :=
    ZcDec.go (fun s va => s.loadByte c.n va) (c.e.xa + 128) lens (c.e.xb.toNat + 8 * c.e.imm.toNat) c.e.ldfmt c.e.vl upto (c.e.vl + 1) d
  if zcCode c.e.ldfmt = false then .error (formatErr c.e.xa)
  else match (s.hart c.n).zcSaved c.slot with
  | some z => .ok (z.lens, go z.lens ⟨⟨s, z.byte⟩, z.elems.length, z.elems, z.cuts⟩)
  | none =>
    match s.zcLensAt c.n c.e.xa with
    | .error e => .error e
    | .ok (s, lens) =>
      if zcLegal lens = false then .error (formatErr c.e.xa)
      else .ok (lens, go lens ⟨⟨s, none⟩, 0, [], [(0, c.e.xb.toNat)]⟩)

/-- Writes the decoded elements of a run. -/
def State.zcWrite (s : State) (c : Ctx) (vd : VReg) (lo hi : Nat) (elems : List Nat) : State :=
  s.updHart c.n fun h => h.each lo (min hi elems.length) fun i h =>
    let r := loadConv c.e.sew c.e.fmt c.e.ldfmt ((elems[i]?).getD 0)
    (h.wrElem vd.toNat i c.e.sew r.1).flags r.2

def zcGroup (vd : VReg) (c : Ctx) (lo hi : Nat) (s : State) : GRes :=
  match c.zcDecode hi s with
  | .error e => .error (lo, .fault e)
  | .ok (lens, d, fin) =>
    match fin with
    | .reached => .ok ((State.zcKeep c lens d).zcWrite c vd lo hi d.elems.reverse)
    | .stop => .error (d.n, .trim [])
    | .fail e => .error (max lo d.n, .fault e)

/-- The position at which a VLDZ of final length `vl` has ended: after its last word, or xb when it has decoded nothing. One that
trimmed at or below its first element is decoded again (R183). -/
def Ctx.zcEndPos (c : Ctx) (s : State) : Nat :=
  let after (l : List (Nat × Nat)) : Nat := ((l.find? fun k => decide (k.1 ≤ c.e.vl)).getD (0, c.e.xb.toNat)).2
  let trimmed : Bool := match (s.hart c.n).q.run with | some r => decide (Table.get 0 r.sw 40 = 1) | none => false
  match (s.hart c.n).zcSaved c.slot with
  | some z => after z.cuts
  | none =>
    if trimmed ∧ c.e.vl ≠ 0 then (match c.zcDecode c.e.vl s with | .ok (_, d, _) => after d.cuts | .error _ => c.e.xb.toNat)
    else c.e.xb.toNat

def zcRetire (vd : VReg) (sd : SReg) (c : Ctx) (s : State) : State :=
  s.updHart c.n fun h => (h.slotWrite c.slot sd (w64 (c.zcEndPos s))).vtail c.e vd.toNat c.e.sew

def slotVldz (vd : VReg) (sd : SReg) : Slot := ⟨noStart, fun c lo hi s => zcGroup vd c lo hi s, zcRetire vd sd⟩

/-! ### Stores (R185) -/

def storeSlot (g : VG) (vd : VReg) (m : MemForm) (f : AddrForm) : Slot :=
  ⟨noStart,
    fun c lo hi s => (eachElem (upTo lo hi) fun i s =>
      if (s.hart c.n).vguard g i then
        match s.storeElem c m f vd none i with
        | .error e => .error (.fault e)
        | .ok s => .ok s
      else .ok s) s,
    closeSlot⟩

def slotVst (g : VG) (vd : VReg) (m : MemForm) : Slot := storeSlot g vd m .unit
def slotVsts (g : VG) (vd : VReg) (m : MemForm) : Slot := storeSlot g vd m .strided
def slotVstx (g : VG) (vd vs2 : VReg) (m : MemForm) : Slot := storeSlot g vd m (.indexed vs2)

def slotVstk (g : VG) (vd : VReg) (ks : KReg) (m : MemForm) : Slot :=
  ⟨noStart,
    fun c lo hi s => (eachElem (upTo lo hi) fun i s =>
      if (s.hart c.n).vguard g i then
        let data (s : State) : Except AErr State := s.storeElem c m .unit vd (some ks) i
        let entry (s : State) : Except AErr State := s.blockOnce c i fun j s =>
          let va := c.e.xb + w64 j
          match alignErr va 1 .write with
          | some e => .error e
          | none => s.store c.n .vector va [BitVec.ofNat 8 ((s.hart c.n).kEnt ks j)]
        match s.bothParts data entry with
        | .error e => .error (.fault e)
        | .ok s => .ok s
      else .ok s) s,
    closeSlot⟩

/-! ### Atomics (R186, R242) -/

/-- The new memory value and flags of an atomic on `w` bits: old value `m`, operand `x` (R186). -/
def amoResult (op : AmoOp) (w m x : Nat) : FR :=
  match op with
  | .swap => (x, 0)
  | .add => ((m + x) % 2 ^ w, 0)
  | .and => (m &&& x, 0)
  | .or => (m ||| x, 0)
  | .xor => (m ^^^ x, 0)
  | .min => (if sgn w x < sgn w m then x else m, 0)
  | .max => (if sgn w m < sgn w x then x else m, 0)
  | .minu => (min m x, 0)
  | .maxu => (max m x, 0)
  | .fadd => (if w = 64 then fmtF64 else fmtF32).fadd Rnd.rne m x

def slotVamo (g : VG) (vd vs2 : VReg) (op : AmoOp) (m : MemForm) : Slot :=
  ⟨noStart,
    fun c lo hi s => (eachElem (upTo lo hi) fun i s =>
      s.destElem c g vd i fun s =>
        let h := s.hart c.n
        let va := c.addr m (.indexed vs2) h i 0
        let x := h.rdE vd.toNat i c.e.sew
        let sz := c.e.sew / 8
        match alignErr va sz .atomic with
        | some e => .error e
        | none =>
          match s.rmw c.n .vector va sz fun old => some (toBytes sz (amoResult op c.e.sew (ofBytes old) x).1) with
          | .error e => .error e
          | .ok (s, old) => .ok (s, (ofBytes old, (amoResult op c.e.sew (ofBytes old) x).2))) s,
    fun c s => s.updHart c.n fun h => h.vtail c.e vd.toNat c.e.sew⟩

/-! ### Predicates and scales (R187, R188) -/

def slotPld (g : VG) (pd : PReg) (m : MemForm) : Slot :=
  ⟨noStart,
    fun c lo hi s => (eachElem (upTo lo hi) fun i s =>
      if (s.hart c.n).vguard g i then
        match s.fetchPacked c (c.base m + w64 (i / 8)) with
        | .error e => .error (.fault e)
        | .ok (s, b) => .ok (s.updHart c.n fun h => h.wrP pd.toNat i ((ofBytes b).testBit (i % 8)))
      else .ok (if c.e.mp then s.updHart c.n fun h => h.wrP pd.toNat i true else s)) (s.updHart c.n fun h => h.mark pd.toNat),
    fun c s => s.updHart c.n fun h => h.ptail c.e pd.toNat⟩

def slotPst (g : VG) (pd : PReg) (m : MemForm) : Slot :=
  ⟨noStart,
    fun c lo hi s => (eachElem (upTo lo hi) fun i s =>
      let h := s.hart c.n
      if h.vguard g i then
        match s.mergeAll c [(c.base m + w64 (i / 8), 2 ^ (i % 8), if h.pBit pd.toNat i then 2 ^ (i % 8) else 0)] with
        | .error e => .error (.fault e)
        | .ok s => .ok s
      else .ok s) s,
    closeSlot⟩

/-- The entries whose block starts lie in a run of elements and are enabled (R188). -/
def entrySlot (g : VG) (f : Ctx → Nat → State → Except AErr State) (c : Ctx) (lo hi : Nat) (s : State) : GRes :=
  (eachElem ((upTo lo hi).filter fun i => i % 2 ^ c.e.shift = 0) fun i s =>
    if (s.hart c.n).vguard g i then
      match f c (i / 2 ^ c.e.shift) s with
      | .error e => .error (.fault e)
      | .ok s => .ok s
    else .ok s) s

def slotKld (g : VG) (k : KReg) (m : MemForm) : Slot :=
  ⟨noStart,
    fun c lo hi s => entrySlot g (fun c j s =>
      match s.loadByte c.n (c.base m + w64 j * c.stride m) with
      | .error e => .error e
      | .ok (s, b) => .ok (s.updHart c.n fun h => h.setKEnt k j b.toNat)) c lo hi
        (if lo = 0 then s.updHart c.n fun h => h.advance k else s),
    noRetire⟩

def slotKst (g : VG) (k : KReg) (m : MemForm) : Slot :=
  ⟨noStart,
    entrySlot g fun c j s =>
      let va := c.base m + w64 j * c.stride m
      match alignErr va 1 .write with
      | some e => .error e
      | none => s.store c.n .vector va [BitVec.ofNat 8 ((s.hart c.n).kEnt k j)],
    noRetire⟩

/-! ### Pass registers, streams and prefetch (R189, R190, R193) -/

/-- An instruction that acts once, when its convoy starts with VSTART = 0 and its guard holds at element 0 (R189). -/
def startSlot (g : VG) (f : Ctx → State → Except AErr State) : Slot :=
  ⟨fun c s => if (s.hart c.n).vec.vstart = 0 ∧ (s.hart c.n).vguard g 0 then f c s else .ok s, noGroup, noRetire⟩

def slotBfseq (g : VG) (q : QReg) (m : MemForm) : Slot :=
  startSlot g fun c s =>
    match s.fetchAll c.n 8 [c.base m, c.base m + 8] with
    | .error e => .error e
    | .ok (s, bs) => .ok (s.updHart c.n fun h => h.wrQ q (BitVec.ofNat 128 (ofBytes bs)))

def slotBftab (g : VG) (o : OReg) (m : MemForm) : Slot :=
  startSlot g fun c s =>
    match s.fetchAll c.n 4 [c.base m] with
    | .error e => .error e
    | .ok (s, bs) => .ok (s.updHart c.n fun h => h.wrO o (BitVec.ofNat 32 (ofBytes bs)))

/-- STRMUNBIND of a slot (R193). -/
def Hart.strmUnbind (h : Hart) (m : Nat) : Hart :=
  let x := h.stream m
  if x.state = 2 then h.setStream m { x with state := 1, bound := false } else h

/-- The binding that a slot holds ends, whatever its state (R193). -/
def Hart.dropBinding (h : Hart) (m : Nat) : Hart :=
  let x := h.stream m
  if x.bound then h.setStream m { x with state := (if x.state = 2 then 1 else x.state), bound := false } else h

/-- STRMBIND of a slot (R193, R350). -/
def Hart.strmBind (h : Hart) (m : Nat) (vd : VReg) (kd : KReg) : Except AErr Hart :=
  let x := h.stream m
  if x.state = 0 ∨ x.state = 4 then .error ⟨0x0B#8, w64 x.err, 0, []⟩
  else
    let h := match h.boundSlot vd.toNat with
      | some k => if k = m then h else h.dropBinding k
      | none => h
    .ok (h.setStream m { x with state := (if x.state = 3 then 3 else 2), bound := true, vreg := vd, kd := kd })

def slotStrmbind (g : VG) (vd : VReg) (m : MSlot) (kd : KReg) : Slot :=
  startSlot g fun c s =>
    match (s.hart c.n).strmBind m.toNat vd kd with
    | .error e => .error e
    | .ok h => .ok (s.setHart c.n h)

def slotStrmunbind (g : VG) (m : MSlot) : Slot := startSlot g fun c s => .ok (s.updHart c.n fun h => h.strmUnbind m.toNat)

/-- The line of an address comes toward the shared SRAM, if it can; its walk and its fill find errors as any read does (R190, R354). -/
def State.prefetch (s : State) (n : Nat) (va : Word) (sz : Nat) : State :=
  match alignErr va sz .read with
  | some _ => s
  | none =>
    match s.locate (s.whoOf n .vector) va .read with
    | .error e => s.applyFound e
    | .ok (s, t) => if s.caches t ∧ s.isRetired t.loc = false then s.fill (t.loc / 128) 0 else s

def slotVpref (g : VG) (strided : Bool) (m : MemForm) : Slot :=
  let f : AddrForm := if strided then .strided else .unit
  ⟨noStart,
    fun c lo hi s => .ok ((upTo lo hi).foldl (fun s i =>
      let h := s.hart c.n
      if h.vguard g i = false then s
      else match storedOf c.e.sew c.e.ldfmt with
        | .plain sz => s.prefetch c.n (c.addr m f h i sz) sz
        | .packed w => if strided then s else (packedAt (c.base m) w i).1.foldl (fun s va => s.prefetch c.n va 1) s
        | .bpn _ =>
          if strided ∨ (c.base m).toNat % 256 ≠ 0 then s
          else (upTo 0 c.e.planes).foldl (fun s j => s.prefetch c.n (bpnAddr (c.base m) i j) 1) s
        | .reserved => s) s),
    noRetire⟩

/-- A memory word that stands alone: its element group's line requests are its own (R100), and its packed words are complete when
it ends (R102). -/
def memOp (s : State) (i : Instr) (sl : Slot) : Out :=
  match vectorOp (s.clearAsked s.cur) i sl with
  | .next t => .next (t.closeHeld s.cur fun _ => true)
  | o => o

def execVld (g : VG) (vd : VReg) (m : MemForm) (s : State) : Out := memOp s (.vld g vd m) (slotVld g vd m)
def execVlds (g : VG) (vd : VReg) (m : MemForm) (s : State) : Out := memOp s (.vlds g vd m) (slotVlds g vd m)
def execVldx (g : VG) (vd vs2 : VReg) (m : MemForm) (s : State) : Out := memOp s (.vldx g vd vs2 m) (slotVldx g vd vs2 m)
def execVldff (g : VG) (vd : VReg) (m : MemForm) (s : State) : Out := memOp s (.vldff g vd m) (slotVldff g vd m)
def execVldz (vd : VReg) (sd : SReg) (s : State) : Out := runOp s (.vldz vd sd) (slotVldz vd sd)
def execVldk (g : VG) (vd : VReg) (kd : KReg) (m : MemForm) (s : State) : Out := memOp s (.vldk g vd kd m) (slotVldk g vd kd m)
def execVst (g : VG) (vd : VReg) (m : MemForm) (s : State) : Out := memOp s (.vst g vd m) (slotVst g vd m)
def execVsts (g : VG) (vd : VReg) (m : MemForm) (s : State) : Out := memOp s (.vsts g vd m) (slotVsts g vd m)
def execVstx (g : VG) (vd vs2 : VReg) (m : MemForm) (s : State) : Out := memOp s (.vstx g vd vs2 m) (slotVstx g vd vs2 m)
def execVstk (g : VG) (vd : VReg) (ks : KReg) (m : MemForm) (s : State) : Out := memOp s (.vstk g vd ks m) (slotVstk g vd ks m)
def execVamo (g : VG) (vd vs2 : VReg) (op : AmoOp) (m : MemForm) (s : State) : Out := memOp s (.vamo g vd vs2 op m) (slotVamo g vd vs2 op m)
def execPld (g : VG) (pd : PReg) (m : MemForm) (s : State) : Out := memOp s (.pld g pd m) (slotPld g pd m)
def execPst (g : VG) (pd : PReg) (m : MemForm) (s : State) : Out := memOp s (.pst g pd m) (slotPst g pd m)
def execKld (g : VG) (k : KReg) (m : MemForm) (s : State) : Out := memOp s (.kld g k m) (slotKld g k m)
def execKst (g : VG) (k : KReg) (m : MemForm) (s : State) : Out := memOp s (.kst g k m) (slotKst g k m)
def execStrmbind (g : VG) (vd : VReg) (m : MSlot) (kd : KReg) (s : State) : Out := vectorOp s (.strmbind g vd m kd) (slotStrmbind g vd m kd)
def execStrmunbind (g : VG) (m : MSlot) (s : State) : Out := vectorOp s (.strmunbind g m) (slotStrmunbind g m)
def execBfseq (g : VG) (q : QReg) (m : MemForm) (s : State) : Out := vectorOp s (.bfseq g q m) (slotBfseq g q m)
def execBftab (g : VG) (o : OReg) (m : MemForm) (s : State) : Out := vectorOp s (.bftab g o m) (slotBftab g o m)
def execVpref (g : VG) (strided : Bool) (m : MemForm) (s : State) : Out := memOp s (.vpref g strided m) (slotVpref g strided m)

end Sys2Proof.Machine
end

