-- ==== Sys2Proof/Machine/Streams.lean ====
section
/-!
DEFINITION. Streams: configuration, fetches, delivery and consumption (R48, R76, R77, R97, R111, R191 to R196, R351, R365).
-/
namespace Sys2Proof.Machine

/-! ### Captured configuration (R191, R337) -/

def Stream.code (x : Stream) : Nat := fld x.conf 9 5
def Stream.scfmt (x : Stream) : Nat := fld x.conf 19 18
def Stream.planes (x : Stream) : Nat := fld x.conf 17 15 + 1
def Stream.sew (x : Stream) : Nat := vtSew x.conf
def Stream.fmt (x : Stream) : Fmt := kindFmt x.sew ((x.conf.getLsbD 4).toNat)
def Stream.shift (x : Stream) : Nat := fld x.conf 12 10 + 3
def Stream.zc (x : Stream) : Bool := x.conf.getLsbD 63
/-- Room of a slot (R192). -/
def Stream.room (x : Stream) : Nat := 65536 / x.sew
def Stream.avail (x : Stream) : Nat := x.buf.length
/-- The application count: what is consumed and what is not. -/
def Stream.total (x : Stream) : Nat := x.consumed + x.savl

/-- MFC's LDFMT, PLANES and SCFMT with VTYPE's SEW, FK and BLK, and ZC. -/
def confOf (mfc vtype : Word) (zc : Bool) : Word :=
  (mfc &&& 0xF83E0#64) ||| (vtype &&& 0x1C13#64) ||| (if zc then 0x8000000000000000#64 else 0)

/-- A combination that STRMCFG refuses (R191). -/
def confRefused (sew code scfmt : Nat) (zc strided scaled : Bool) : Bool :=
  let st := storedOf sew code
  let dense := match st with | .packed _ => true | .bpn _ => true | _ => false
  st == .reserved || decide (2 ≤ scfmt) || (strided && (zc || dense)) || (scaled && !mxCode code) || (zc && !zcCode code)

/-- SSTRIDE (R48). -/
def strideOf (sew code : Nat) (zc : Bool) (stride : Option Word) : Word :=
  match stride with
  | some v => v
  | none => if zc then 0 else match storedOf sew code with | .plain sz => w64 sz | _ => 0

def Hart.strmCfg (h : Hart) (m : Nat) (count base kbase : Word) (gap : Option Word) (scaled zc : Bool) (stride : Option Word) : Hart :=
  let conf := confOf h.vec.mfc h.vec.vtype zc
  let sew := vtSew conf
  let code := fld conf 9 5
  let bad := confRefused sew code (fld conf 19 18) zc stride.isSome scaled
  h.setStream m
    { state := if bad then 4 else if count = 0 then 0 else 1
      err := if bad then 4 else 0
      bound := false, vreg := 0, scaled := scaled, kd := 0
      sbase := base, sstride := strideOf sew code zc stride, savl := count.toNat
      buf := [], sbuf := [], conf := conf, base := base, kbase := kbase, gap := gap
      fetched := 0, consumed := 0, bit := 0, out := 0, segs := 0, asked := [], words := [], lens := none, byte := none, word := none }

def execStrmcfg (g : SG) (m : MSlot) (sa sb kbase stride : SReg) (zc : Bool) (gap : SReg) (s : State) : Out :=
  s.scalar g [sa, sb, kbase, stride, gap] fun n h =>
    if vtLegal h.vec.vtype = false then s.illegal n (.strmcfg g m sa sb kbase stride zc gap)
    else s.drained h
      (.next ((s.performBoth n).updHart n fun h =>
        let h' := h.strmCfg m.toNat (h.rdS sa) (h.rdS sb) (h.rdS kbase) (if gap = 0#5 then none else some (h.rdS gap)) (kbase != 0#5) zc
          (if stride = 0#5 then none else some (h.rdS stride))
        (if (h'.stream m.toNat).state = 1 then h' else h'.setLatch).nextPc))

/-- Elements of a slot that the started convoy has still to take (R194). -/
def Hart.stripLeft (h : Hart) (m : Nat) : Nat :=
  match h.q.run with
  | some r => if Table.get 0 r.sw (56 + m) = 0 then 0 else r.e.vl - h.vec.vstart
  | none => 0

/-- STRMEND of a slot (R193). A slot in error drops the elements that it holds, but for those that the started convoy has still
to take: of them the table gives only the new state (DESIGN CHOICE, log 64). -/
def Hart.strmEnd (h : Hart) (m : Nat) : Hart :=
  let x := h.stream m
  if x.state = 1 ∨ x.state = 2 then
    if x.buf = [] then (h.setStream m { x with state := 0, bound := false, savl := 0 }).setLatch
    else h.setStream m { x with state := 3, savl := x.avail }
  else if x.state = 4 then (h.setStream m { x with state := 0, err := 0, bound := false, buf := x.buf.take (h.stripLeft m), sbuf := if h.stripLeft m = 0 then [] else x.sbuf }).setLatch
  else h

def execStrmend (g : SG) (m : MSlot) (s : State) : Out := s.regOp g [] fun h => h.strmEnd m.toNat

def execStrmwait (g : SG) (m : MSlot) (sa : SReg) (s : State) : Out :=
  s.scalar g [sa] fun n h =>
    let x := h.stream m.toNat
    if x.state = 0 ∨ x.state = 4 ∨ min (h.rdS sa).toNat (min x.savl x.room) ≤ x.avail then .next (s.setHart n h.nextPc)
    else .next s

def execStrmavail (g : SG) (sd : SReg) (m : MSlot) (s : State) : Out :=
  s.scalar g [sd] fun n h => s.drained h
    (let x := h.stream m.toNat
     .next (s.setHart n ((h.wrS sd (if x.state = 4 then w64 (2 ^ 64 - 1) else w64 x.avail)).nextPc)))

/-! ### Fetching (R97, R111, R192, R365) -/

/-- A read of the stream: no held write of the hart is seen (R111). -/
def State.streamRead (s : State) (n sz : Nat) (va : Word) : Except AErr (State × List Byte) :=
  match alignErr va sz .read with
  | some e => .error e
  | none =>
    match s.locate (s.who n) va .read with
    | .error e => .error e
    | .ok (s, t) =>
      match s.readErr va t sz .read with
      | some e => .error e
      | none =>
        let (s, bs) := s.readOk t sz none
        .ok (s.request n .vector t.loc, bs)

def State.streamByte (n : Nat) (s : State) (va : Word) : Except AErr (State × Byte) :=
  match s.streamRead n 1 va with
  | .error e => .error e
  | .ok (s, bs) => .ok (s, (bs[0]?).getD 0)

def State.streamBytes (s : State) (n : Nat) : List Word → Except AErr (State × List Byte)
  | [] => .ok (s, [])
  | va :: r =>
    match State.streamByte n s va with
    | .error e => .error e
    | .ok (s, b) =>
      match State.streamBytes s n r with
      | .error e => .error e
      | .ok (s, bs) => .ok (s, b :: bs)

/-- The bytes of one packed element: each aligned 8-byte word that holds one of them is read once for the elements that share it
(R102). The words of the last element are kept. -/
def State.streamPacked (s : State) (n : Nat) (old : List (Nat × Nat)) : List Word → Except AErr (State × List (Nat × Nat) × List Byte)
  | [] => .ok (s, [], [])
  | va :: r =>
    let w := va.toNat / 8
    let next (s : State) (v : Nat) : Except AErr (State × List (Nat × Nat) × List Byte) :=
      match State.streamPacked s n ((w, v) :: old) r with
      | .error e => .error e
      | .ok (s, ws, bs) => .ok (s, (w, v) :: ws.filter (·.1 != w), BitVec.ofNat 8 (imgGet v (8 * (va.toNat % 8)) 8) :: bs)
    match old.find? (·.1 == w) with
    | some x => next s x.2
    | none =>
      match s.streamRead n 8 (w64 (8 * w)) with
      | .error e => .error e
      | .ok (s, bs) => next s (ofBytes bs)

/-- A failed fetch: ERR, SBASE, and what the access detected (R365). -/
structure StreamErr where
  err : Nat
  sbase : Word
  a : Option AErr

def streamErrOf (sbase : Word) (e : AErr) : StreamErr :=
  ⟨if e.cause = 0x20#8 ∨ e.cause = 0x21#8 then 2 else 1, sbase, some e⟩

/-- Where element `a` of a stream lies (R192). -/
def Stream.addr (x : Stream) (a : Nat) : Word :=
  match storedOf x.sew x.code with
  | .packed w => x.base + w64 (w * a / 8)
  | .bpn _ => bpnAddr x.base a 0
  | _ => x.base + w64 a * x.sstride

/-- The start of the segment that holds the next bit (R73). -/
def Stream.segStart (x : Stream) : Word := x.base + 128 + w64 (512 * (x.bit / 4096))

/-- The gap-table entry is met at the first word of each segment (R76, R77). -/
def Stream.gapCheck (x : Stream) (n : Nat) (s : State) : Except StreamErr (State × Stream) :=
  match x.gap with
  | none => .ok (s, x)
  | some gap =>
    let j := x.bit / 4096
    if j < x.segs then .ok (s, x)
    else
      match s.streamBytes n ((upTo 0 4).map fun i => gap + w64 (4 * j + i)) with
      | .error e => .error (streamErrOf x.segStart e)
      | .ok (s, bs) =>
        let v := ofBytes bs
        if v % 16 = x.bit % 4096 ∧ v / 16 = x.out then .ok (s, { x with segs := j + 1 })
        else .error ⟨3, x.segStart, none⟩

/-- The length table of a ZC stream: it is read with the first element (R97, log 37). -/
def Stream.zcTable (x : Stream) (n : Nat) (s : State) : Except StreamErr (State × List Nat) :=
  match x.lens with
  | some l => .ok (s, l)
  | none =>
    match s.streamBytes n ((upTo 0 128).map fun i => x.base + w64 i) with
    | .error e => .error (streamErrOf (x.base + 128 + w64 (x.bit / 8)) e)
    | .ok (s, bs) => .ok (s, zcLens bs)

/-- The word that a ZC stream is in: its elements and its length. It is read and decoded once (R97, log 37). -/
def Stream.zcWord (x : Stream) (n : Nat) (s : State) : Except StreamErr (State × Stream × List Nat × Nat) :=
  match x.zcTable n s with
  | .error e => .error e
  | .ok (s, lens) =>
    if zcLegal lens = false then .error ⟨4, x.base + 128, none⟩
    else match x.word with
    | some w => .ok (s, x, w)
    | none =>
      match x.gapCheck n s with
      | .error e => .error e
      | .ok (s, x) =>
        match ZcCur.word (State.streamByte n) (x.base + 128) lens (x.bit + 16) 16 ⟨0, 0, none⟩ x.bit ⟨s, x.byte⟩ with
        | .error e => .error (streamErrOf (x.base + 128 + w64 (x.bit / 8)) e)
        | .ok (z, .word sym run len) =>
          .ok (z.s, { x with lens := some lens, byte := z.byte },
            if sym = 0 then (List.replicate (run + 1) (zcElems x.code 0)).flatten else zcElems x.code sym, len)
        | .ok _ => .error ⟨4, x.segStart, none⟩

/-- The next element of a ZC stream: the word that holds it is left once its last element is out. -/
def Stream.zcNext (x : Stream) (n : Nat) (s : State) : Except StreamErr (State × Stream × Nat) :=
  match x.zcWord n s with
  | .error e => .error e
  | .ok (s, x, els, len) =>
    let per := if x.code = 19 then 2 else 1
    let k := x.fetched - x.out * per
    let x := if k + 1 < els.length then { x with word := some (els, len) }
      else { x with word := none, bit := x.bit + len, out := x.out + els.length / per }
    .ok (s, x, (els[k]?).getD 0)

/-- The stored value of the next element of a plain stream. -/
def Stream.rawNext (x : Stream) (n : Nat) (s : State) : Except StreamErr (State × Stream × Nat) :=
  let a := x.fetched
  match storedOf x.sew x.code with
  | .plain sz =>
    match s.streamRead n sz (x.addr a) with
    | .error e => .error (streamErrOf (x.addr a) e)
    | .ok (s, bs) => .ok (s, x, ofBytes bs)
  | .packed w =>
    let (at_, off) := packedAt x.base w a
    match s.streamPacked n x.words at_ with
    | .error e => .error (streamErrOf (x.addr a) e)
    | .ok (s, ws, bs) => .ok (s, { x with words := ws }, imgGet (ofBytes bs) off w)
  | .bpn _ =>
    match bpnErr x.base a x.planes .read with
    | some e => .error (streamErrOf (if e.cause = 0x06#8 then x.base else x.addr a) e)
    | none =>
      match s.streamPacked n x.words ((upTo 0 x.planes).map fun j => bpnAddr x.base a j) with
      | .error e => .error (streamErrOf (x.addr a) e)
      | .ok (s, ws, bs) => .ok (s, { x with words := ws }, bs.foldl (fun q b => 2 * q + (b.getLsbD (a % 8)).toNat) 0)
  | .reserved => .error ⟨4, x.base, none⟩

/-- A stored value as a buffered one: the element in [63:0], its flags above (R83, R178). -/
def Stream.conv (x : Stream) (raw : Nat) : Nat :=
  match storedOf x.sew x.code with
  | .bpn mid => bpnLoad x.sew x.planes raw mid
  | _ => let r := loadConv x.sew x.fmt x.code raw; r.1 + 2 ^ 64 * r.2.toNat

/-- The scale entry of the block that the next element begins. -/
def Stream.scaleNext (x : Stream) (n : Nat) (s : State) : Except StreamErr (State × List Nat) :=
  if x.scaled = false ∨ x.fetched % 2 ^ x.shift ≠ 0 then .ok (s, x.sbuf)
  else match State.streamByte n s (x.kbase + w64 (x.fetched / 2 ^ x.shift)) with
    | .error e => .error (streamErrOf (if x.zc then x.base + 128 + w64 (x.bit / 8) else x.addr x.fetched) e)
    | .ok (s, b) => .ok (s, x.sbuf ++ [b.toNat])

/-- One element is fetched and decoded. -/
def Stream.fetch (x : Stream) (n : Nat) (s : State) : Except StreamErr (State × Stream) :=
  match x.scaleNext n s with
  | .error e => .error e
  | .ok (s, sb) =>
    match (if x.zc then x.zcNext n s else x.rawNext n s) with
    | .error e => .error e
    | .ok (s, x, raw) =>
      let x := { x with buf := x.buf ++ [x.conv raw], sbuf := sb, fetched := x.fetched + 1 }
      .ok (s, { x with sbase := if x.zc then x.base + 128 + w64 (x.bit / 8) else x.addr x.fetched })

/-- Whether a slot fetches (R192). -/
def Stream.fetches (x : Stream) : Bool :=
  decide ((x.state = 1 ∨ x.state = 2) ∧ x.fetched < x.total ∧ x.avail < x.room)

/-- Line requests of the hart are counted apart (R100): elements of a stream that fall in one of the last 16 lines that it asked for
make no request of their own (DESIGN CHOICE, log 37). -/
def State.setAsked (s : State) (n : Nat) (l : List Nat) : State := s.updHart n fun h => { h with q := { h.q with asked := l } }

/-- A stream fetch of slot `m` of hart `n`. -/
def State.streamStep (s : State) (n m : Nat) : State :=
  let x := (s.hart n).stream m
  let own := (s.hart n).q.asked
  if x.fetches = false then s
  else match x.fetch n (s.setAsked n x.asked) with
    | .ok (s, x) =>
      s.updHart n fun h => { (h.setStream m { x with asked := h.q.asked.take 16 }).setLatch with q := { h.q with asked := own } }
    | .error e =>
      let s := match e.a with | some a => s.applyFound a | none => s
      s.updHart n fun h => (h.setStream m { x with state := 4, err := e.err, sbase := e.sbase }).setLatch

def execStreamFetch (hart : Nat) (m : MSlot) (s : State) : Out :=
  .next (if s.paused hart then s else s.streamStep hart m.toNat)

/-! ### Consumption (R194, R195) -/

/-- A length that a slot allows as it stands: under scales, whole blocks, or up to the stream's last element (R194). -/
def Stream.blocks (x : Stream) (vstart n : Nat) : Nat :=
  if x.scaled = false ∨ n - vstart = x.savl then n else n / 2 ^ x.shift * 2 ^ x.shift

/-- A length cut until every slot allows it. -/
def cutBlocks (l : List Stream) (vstart : Nat) : Nat → Nat → Nat
  | 0, n => n
  | fuel + 1, n =>
    let n' := l.foldl (fun n x => x.blocks vstart n) n
    if n' = n then n else cutBlocks l vstart fuel n'

/-- Whether more elements may still come to a slot for this strip. -/
def Stream.grows (x : Stream) (vl vstart : Nat) : Bool := decide ((x.state = 1 ∨ x.state = 2) ∧ vstart + x.avail < vl)

/-- The length that the streams of a convoy allow together, none while it waits for one of them (R25, R194). Where no whole block
is there and none can come, as in a slot in error, the length is cut all the same (DESIGN CHOICE, log 62). -/
def streamsAllow (h : Hart) (vl vstart : Nat) (used : List Nat) : Option Nat :=
  let l := used.map h.stream
  if l.any fun x => decide (x.avail = 0) then none
  else
    let n := cutBlocks l vstart 16 (l.foldl (fun n x => min n (vstart + x.avail)) vl)
    if vstart < vl ∧ n ≤ vstart ∧ l.any fun x => x.grows vl vstart then none else some n

/-- The stream fault of a consuming convoy: the lowest slot that reads a register bound to a failed empty slot (R195). -/
def streamFault (h : Hart) (e : QEntry) : Option (Nat × AErr) :=
  let bad := (h.consumed e).filter fun m => decide ((h.stream m).state = 4 ∧ (h.stream m).avail = 0)
  if bad.isEmpty then none
  else (upTo 0 e.instrs.length).findSome? fun k =>
    match e.instrs[k]? with
    | some i =>
      (bad.find? fun m => (readRegs e i).contains (h.stream m).vreg.toNat).map fun m =>
        (k + 1, ⟨0x0B#8, w64 (h.stream m).err, 0, []⟩)
    | none => none

/-- The scale entry of a stream position. -/
def Stream.scaleAt (x : Stream) (pos : Nat) : Nat := (x.sbuf[pos / 2 ^ x.shift - x.consumed / 2 ^ x.shift]?).getD 0

/-- Elements of a strip are delivered into the register that was bound when the convoy started, with the strip's scale entries
(R189, R194). The first delivery clears the register's record, and a record that a VBIND of the convoy makes after it stands. The flags
of the conversion accrue here, for every position, whatever the guards of the slots that read it (DESIGN CHOICE, log 37). -/
def Hart.deliver (h : Hart) (m : Nat) (vreg : VReg) (kd : KReg) (lo hi : Nat) : Hart :=
  let x := h.stream m
  let again := !h.firstGroup lo
  let own := h.binding vreg.toNat
  let h := if x.scaled ∧ lo = 0 then h.advance kd else h
  let h := h.each lo hi fun i h =>
    let v := (x.buf[i - lo]?).getD 0
    let h := (h.wrElem vreg.toNat i x.sew (v % 2 ^ 64)).flags (BitVec.ofNat 6 (v / 2 ^ 64))
    if x.scaled ∧ (i = lo ∨ i % 2 ^ x.shift = 0) then h.setKEnt kd (i / 2 ^ x.shift) (x.scaleAt (x.consumed + (i - lo))) else h
  if again then h.setBinding vreg.toNat own else h

/-- A slot gives up `k` elements (R194). -/
def Hart.consume (h : Hart) (m k : Nat) : Hart :=
  let x := h.stream m
  let c := x.consumed + k
  let x' := { x with
    buf := x.buf.drop k, consumed := c, savl := x.savl - k,
    sbuf := x.sbuf.drop (c / 2 ^ x.shift - x.consumed / 2 ^ x.shift) }
  if x.savl ≤ k ∧ (x.state = 2 ∨ x.state = 3) then (h.setStream m { x' with state := 0, bound := false }).setLatch
  else h.setStream m x'

/-- What a run keeps of a stream that its convoy consumes. -/
def Stream.strip (x : Stream) : Nat := 1 + x.vreg.toNat + 64 * x.kd.toNat

/-- Delivery as the work of a slot before slot 1. -/
def deliverSlot (m : Nat) (vreg : VReg) (kd : KReg) : Slot :=
  ⟨noStart,
    fun c lo hi s => .ok (s.updHart c.n fun h => (h.deliver m vreg kd lo hi).consume m (hi - lo)),
    fun c s => s.updHart c.n fun h =>
      if c.e.tp then (h.wrTail (h.committed c.e) vreg.toNat c.e.lmul (c.e.vl * (h.stream m).sew)).setBinding vreg.toNat (h.binding vreg.toNat)
      else h⟩

end Sys2Proof.Machine
end

