-- ==== Sys2Proof/Machine/VectorFp.lean ====
section
/-!
DEFINITION. Vector floating point, conversions, compares, moves and single elements (R164 to R175).
-/
namespace Sys2Proof.Machine

/-! ### Arithmetic (R164 to R167) -/

/-- A two-operand form in the float kind of VTYPE. -/
def fpSlot2 (g : VG) (vd vs1 : VReg) (o : Op2) (rm : RMode) (f : Fmt → Rnd → Nat → Nat → FR) : Slot :=
  vecSlot g vd 1 fun c i h =>
    f c.e.fmt (h.vrnd c.e rm i) (h.rdE vs1.toNat i c.e.sew) (h.op2 c.e .bf16 o i)

def slotVfadd (g : VG) (vd vs1 : VReg) (o : Op2) (rm : RMode) : Slot := fpSlot2 g vd vs1 o rm Fmt.fadd
def slotVfsub (g : VG) (vd vs1 : VReg) (o : Op2) (rm : RMode) : Slot := fpSlot2 g vd vs1 o rm Fmt.fsub
def slotVfmul (g : VG) (vd vs1 : VReg) (o : Op2) (rm : RMode) : Slot := fpSlot2 g vd vs1 o rm Fmt.fmul
def slotVfdiv (g : VG) (vd vs1 : VReg) (o : Op2) (rm : RMode) : Slot := fpSlot2 g vd vs1 o rm Fmt.fdiv

/-- A one-operand form. -/
def fpSlot1 (g : VG) (vd vs1 : VReg) (rm : RMode) (f : Fmt → Rnd → Nat → FR) : Slot :=
  vecSlot g vd 1 fun c i h => f c.e.fmt (h.vrnd c.e rm i) (h.rdE vs1.toNat i c.e.sew)

def slotVfsqrt (g : VG) (vd vs1 : VReg) (rm : RMode) : Slot := fpSlot1 g vd vs1 rm Fmt.fsqrt
def slotVfmin (g : VG) (vd vs1 : VReg) (o : Op2) : Slot := fpSlot2 g vd vs1 o .rne fun f _ a b => f.minMax false a b
def slotVfmax (g : VG) (vd vs1 : VReg) (o : Op2) : Slot := fpSlot2 g vd vs1 o .rne fun f _ a b => f.minMax true a b

/-- The fused forms: the old vd is the addend (R165). -/
def fusedSlot (g : VG) (vd vs1 : VReg) (o : Op2) (rm : RMode) (np na : Bool) : Slot :=
  vecSlot g vd 1 fun c i h =>
    c.e.fmt.fused (h.vrnd c.e rm i) np na (h.rdE vs1.toNat i c.e.sew) (h.op2 c.e .bf16 o i) (h.rdE vd.toNat i c.e.sew)

def slotVfma (g : VG) (vd vs1 : VReg) (o : Op2) (rm : RMode) : Slot := fusedSlot g vd vs1 o rm false false
def slotVfms (g : VG) (vd vs1 : VReg) (o : Op2) (rm : RMode) : Slot := fusedSlot g vd vs1 o rm false true
def slotVfnma (g : VG) (vd vs1 : VReg) (o : Op2) (rm : RMode) : Slot := fusedSlot g vd vs1 o rm true true
def slotVfnms (g : VG) (vd vs1 : VReg) (o : Op2) (rm : RMode) : Slot := fusedSlot g vd vs1 o rm true false

/-- VFCLAMP on encodings (R166). -/
def Fmt.clamp (f : Fmt) (a b : Nat) : FR :=
  let x := f.decode a
  let m := b % f.signBit
  let y := f.decode m
  let fl := snan2 x (f.decode b)
  if x.isNaN ∨ y.isNaN then (f.nan, fl)
  else if x.cmp y = some .gt then (m, fl)
  else if x.cmp y.neg = some .lt then (f.pack true m, fl)
  else (a, fl)

def slotVfclamp (g : VG) (vd vs1 : VReg) (o : Op2) : Slot := fpSlot2 g vd vs1 o .rne fun f _ a b => f.clamp a b
def slotVfabs (g : VG) (vd vs1 : VReg) : Slot := fpSlot1 g vd vs1 .rne fun f _ a => (a % f.signBit, 0)
def slotVfneg (g : VG) (vd vs1 : VReg) : Slot := fpSlot1 g vd vs1 .rne fun f _ a => (a ^^^ f.signBit, 0)
def slotVfsgnj (g : VG) (vd vs1 : VReg) (o : Op2) : Slot :=
  fpSlot2 g vd vs1 o .rne fun f _ a b => (b / f.signBit * f.signBit + a % f.signBit, 0)

/-- The second operand of a widening form as a value (R167): wide(b), or the wide vs2 as stored. -/
def Hart.wideOp2 (h : Hart) (e : QEntry) (o : Op2) (i : Nat) : FV :=
  match o with
  | .wide _ => e.wideFmt.decode (h.op2 e .bf16 o i)
  | _ => e.fmt.decode (h.op2 e .bf16 o i)

/-- A widening form in the wide format (R167). -/
def wideFpSlot (g : VG) (vd vs1 : VReg) (o : Op2) (rm : RMode) (f : Rnd → FV → FV → FV → FV × BitVec 6) : Slot :=
  vecSlot g vd 2 fun c i h =>
    let md := h.vrnd c.e rm i
    let w := c.e.wideFmt
    w.op md (f md (c.e.fmt.decode (h.rdE vs1.toNat i c.e.sew)) (h.wideOp2 c.e o i) (w.decode (h.rdE vd.toNat i (2 * c.e.sew))))

def slotVfwadd (g : VG) (vd vs1 : VReg) (o : Op2) (rm : RMode) : Slot := wideFpSlot g vd vs1 o rm fun md a b _ => a.add md b
def slotVfwmul (g : VG) (vd vs1 : VReg) (o : Op2) (rm : RMode) : Slot := wideFpSlot g vd vs1 o rm fun _ a b _ => a.mul b
def slotVfwma (g : VG) (vd vs1 : VReg) (o : Op2) (rm : RMode) : Slot := wideFpSlot g vd vs1 o rm fun md a b y => FV.fma md a b y

/-! ### Conversions (R168) -/

/-- The other float kind at 8 or 16 bits. -/
def QEntry.otherFmt (e : QEntry) : Fmt := kindFmt e.sew (1 - e.fk)

def slotVfcvt (g : VG) (vd vs1 : VReg) (rm : RMode) : Slot :=
  vecSlot g vd 1 fun c i h => c.e.otherFmt.convert c.e.fmt (h.vrnd c.e rm i) false (h.rdE vs1.toNat i c.e.sew)

def slotVfcvti (g : VG) (vd vs1 : VReg) (u : Bool) (rm : RMode) : Slot :=
  vecSlot g vd 1 fun c i h => toInteger (h.vrnd c.e rm i) c.e.sew u (c.e.fmt.decode (h.rdE vs1.toNat i c.e.sew))

def slotVicvtf (g : VG) (vd vs1 : VReg) (u : Bool) (rm : RMode) : Slot :=
  vecSlot g vd 1 fun c i h =>
    let x := h.rdE vs1.toNat i c.e.sew
    fromInteger c.e.fmt (h.vrnd c.e rm i) (if u then (x : Int) else sgn c.e.sew x)

def slotVfncvt (g : VG) (vd vs1 : VReg) (rm : RMode) (sat : Bool) : Slot :=
  vecSlot g vd 1 fun c i h => c.e.wideFmt.convert c.e.fmt (h.vrnd c.e rm i) sat (h.rdE vs1.toNat i (2 * c.e.sew))

def slotVfwcvt (g : VG) (vd vs1 : VReg) : Slot :=
  vecSlot g vd 2 fun c i h => c.e.fmt.convert c.e.wideFmt Rnd.rne false (h.rdE vs1.toNat i c.e.sew)

/-! ### Compares (R169) -/

/-- The pair of predicates at one element: false in both where the guard is false. -/
def Hart.cmpElem (h : Hart) (g : VG) (pd i : Nat) (op : Hart → Bool × BitVec 6) : Hart :=
  let en := h.vguard g i
  let r := op h
  let h := (h.wrP pd i (en && r.1)).wrP (pd + 1) i (en && !r.1)
  if en then h.flags r.2 else h

def cmpSlot (g : VG) (pair : BitVec 6) (op : Ctx → Nat → Hart → Bool × BitVec 6) : Slot :=
  let pd := 2 * pair.toNat
  ⟨noStart,
    fun c lo hi s => .ok (s.updHart c.n fun h => ((h.mark pd).mark (pd + 1)).each lo hi fun i h => h.cmpElem g pd i (op c i)),
    fun c s => s.updHart c.n fun h => (h.ptail c.e pd).ptail c.e (pd + 1)⟩

def slotVcmp (g : VG) (pair : BitVec 6) (vs1 : VReg) (o : Op2) (cc : Cond) : Slot :=
  cmpSlot g pair fun c i h => (intCond c.e.sew cc (h.rdE vs1.toNat i c.e.sew) (h.op2 c.e .int o i), 0)

def slotVfcmp (g : VG) (pair : BitVec 6) (vs1 : VReg) (o : Op2) (cc : Cond) : Slot :=
  cmpSlot g pair fun c i h => fpCond cc (c.e.fmt.decode (h.rdE vs1.toNat i c.e.sew)) (c.e.fmt.decode (h.op2 c.e .bf16 o i))

/-! ### Moves and single elements (R170 to R175) -/

def slotVmv (g : VG) (vd : VReg) (o : Op2) : Slot :=
  let base := vecSlot g vd 1 fun c i h => (h.op2 c.e .bf16 o i, 0)
  match o with
  | .vs2 r =>
    { base with
      group := fun c lo hi s =>
        let b := (s.hart c.n).binding r.toNat
        match base.group c lo hi s with
        | .ok s => .ok (s.updHart c.n fun h => (h.unbind vd.toNat c.e.lmul).setBinding vd.toNat b)
        | .error x => .error x
      retire := fun c s => s.updHart c.n fun h => h.vtailOwn c.e vd.toNat c.e.sew }
  | _ => base

def slotVmerge (g : VG) (vd vs1 : VReg) (o : Op2) : Slot :=
  elemSlot
    (fun c i h => h.wrElem vd.toNat i c.e.sew (if h.vguard g i then h.rdE vs1.toNat i c.e.sew else h.op2 c.e .bf16 o i))
    (fun c h => h.vtail c.e vd.toNat c.e.sew)

def slotVext (g : VG) (sd : SReg) (vs1 : VReg) (i : Sel3) : Slot :=
  ⟨noStart,
    fun c lo hi s =>
      let x := c.e.raw i
      .ok (s.updHart c.n fun h =>
        if lo ≤ x ∧ x < hi ∧ h.vguard g x then h.slotWrite c.slot sd (sext64 c.e.sew (h.rdE vs1.toNat x c.e.sew)) else h),
    fun c s => if c.e.vl ≤ c.e.raw i then s.updHart c.n fun h => h.slotWrite c.slot sd 0 else s⟩

/-- The index of VINS: the captured scalar that does not give the value (R174). -/
def vinsIndex (e : QEntry) : Sel3 → Nat
  | .xa => e.xb.toNat
  | _ => e.xa.toNat

def slotVins (g : VG) (vd : VReg) (v : Sel3) : Slot :=
  ⟨noStart,
    fun c lo hi s =>
      let x := vinsIndex c.e v
      let y := match v with | .ximm => c.e.immAs .bf16 | _ => c.e.raw v % 2 ^ c.e.sew
      .ok (s.updHart c.n fun h => if lo ≤ x ∧ x < hi then h.elem c.e g vd.toNat c.e.sew x (fun _ => (y, 0)) else h),
    fun c s => s.updHart c.n fun h => h.vtail c.e vd.toNat c.e.sew⟩

def slotVid (g : VG) (vd : VReg) : Slot := vecSlot g vd 1 fun c i _ => (i % 2 ^ c.e.sew, 0)

def execVfadd (g : VG) (vd vs1 : VReg) (o : Op2) (rm : RMode) (s : State) : Out := vectorOp s (.vfadd g vd vs1 o rm) (slotVfadd g vd vs1 o rm)
def execVfsub (g : VG) (vd vs1 : VReg) (o : Op2) (rm : RMode) (s : State) : Out := vectorOp s (.vfsub g vd vs1 o rm) (slotVfsub g vd vs1 o rm)
def execVfmul (g : VG) (vd vs1 : VReg) (o : Op2) (rm : RMode) (s : State) : Out := vectorOp s (.vfmul g vd vs1 o rm) (slotVfmul g vd vs1 o rm)
def execVfdiv (g : VG) (vd vs1 : VReg) (o : Op2) (rm : RMode) (s : State) : Out := vectorOp s (.vfdiv g vd vs1 o rm) (slotVfdiv g vd vs1 o rm)
def execVfsqrt (g : VG) (vd vs1 : VReg) (rm : RMode) (s : State) : Out := vectorOp s (.vfsqrt g vd vs1 rm) (slotVfsqrt g vd vs1 rm)
def execVfmin (g : VG) (vd vs1 : VReg) (o : Op2) (s : State) : Out := vectorOp s (.vfmin g vd vs1 o) (slotVfmin g vd vs1 o)
def execVfmax (g : VG) (vd vs1 : VReg) (o : Op2) (s : State) : Out := vectorOp s (.vfmax g vd vs1 o) (slotVfmax g vd vs1 o)
def execVfma (g : VG) (vd vs1 : VReg) (o : Op2) (rm : RMode) (s : State) : Out := vectorOp s (.vfma g vd vs1 o rm) (slotVfma g vd vs1 o rm)
def execVfms (g : VG) (vd vs1 : VReg) (o : Op2) (rm : RMode) (s : State) : Out := vectorOp s (.vfms g vd vs1 o rm) (slotVfms g vd vs1 o rm)
def execVfnma (g : VG) (vd vs1 : VReg) (o : Op2) (rm : RMode) (s : State) : Out := vectorOp s (.vfnma g vd vs1 o rm) (slotVfnma g vd vs1 o rm)
def execVfnms (g : VG) (vd vs1 : VReg) (o : Op2) (rm : RMode) (s : State) : Out := vectorOp s (.vfnms g vd vs1 o rm) (slotVfnms g vd vs1 o rm)
def execVfclamp (g : VG) (vd vs1 : VReg) (o : Op2) (s : State) : Out := vectorOp s (.vfclamp g vd vs1 o) (slotVfclamp g vd vs1 o)
def execVfabs (g : VG) (vd vs1 : VReg) (s : State) : Out := vectorOp s (.vfabs g vd vs1) (slotVfabs g vd vs1)
def execVfneg (g : VG) (vd vs1 : VReg) (s : State) : Out := vectorOp s (.vfneg g vd vs1) (slotVfneg g vd vs1)
def execVfsgnj (g : VG) (vd vs1 : VReg) (o : Op2) (s : State) : Out := vectorOp s (.vfsgnj g vd vs1 o) (slotVfsgnj g vd vs1 o)
def execVfwadd (g : VG) (vd vs1 : VReg) (o : Op2) (rm : RMode) (s : State) : Out := vectorOp s (.vfwadd g vd vs1 o rm) (slotVfwadd g vd vs1 o rm)
def execVfwmul (g : VG) (vd vs1 : VReg) (o : Op2) (rm : RMode) (s : State) : Out := vectorOp s (.vfwmul g vd vs1 o rm) (slotVfwmul g vd vs1 o rm)
def execVfwma (g : VG) (vd vs1 : VReg) (o : Op2) (rm : RMode) (s : State) : Out := vectorOp s (.vfwma g vd vs1 o rm) (slotVfwma g vd vs1 o rm)
def execVfcvt (g : VG) (vd vs1 : VReg) (rm : RMode) (s : State) : Out := vectorOp s (.vfcvt g vd vs1 rm) (slotVfcvt g vd vs1 rm)
def execVfcvti (g : VG) (vd vs1 : VReg) (u : Bool) (rm : RMode) (sat : Bool) (s : State) : Out := vectorOp s (.vfcvti g vd vs1 u rm sat) (slotVfcvti g vd vs1 u rm)
def execVicvtf (g : VG) (vd vs1 : VReg) (u : Bool) (rm : RMode) (s : State) : Out := vectorOp s (.vicvtf g vd vs1 u rm) (slotVicvtf g vd vs1 u rm)
def execVfncvt (g : VG) (vd vs1 : VReg) (rm : RMode) (sat : Bool) (s : State) : Out := vectorOp s (.vfncvt g vd vs1 rm sat) (slotVfncvt g vd vs1 rm sat)
def execVfwcvt (g : VG) (vd vs1 : VReg) (s : State) : Out := vectorOp s (.vfwcvt g vd vs1) (slotVfwcvt g vd vs1)
def execVcmp (g : VG) (pair : BitVec 6) (vs1 : VReg) (o : Op2) (cc : Cond) (s : State) : Out := vectorOp s (.vcmp g pair vs1 o cc) (slotVcmp g pair vs1 o cc)
def execVfcmp (g : VG) (pair : BitVec 6) (vs1 : VReg) (o : Op2) (cc : Cond) (s : State) : Out := vectorOp s (.vfcmp g pair vs1 o cc) (slotVfcmp g pair vs1 o cc)
def execVmv (g : VG) (vd : VReg) (o : Op2) (s : State) : Out := vectorOp s (.vmv g vd o) (slotVmv g vd o)
def execVmerge (g : VG) (vd vs1 : VReg) (o : Op2) (s : State) : Out := vectorOp s (.vmerge g vd vs1 o) (slotVmerge g vd vs1 o)
def execVext (g : VG) (sd : SReg) (vs1 : VReg) (i : Sel3) (s : State) : Out := vectorOp s (.vext g sd vs1 i) (slotVext g sd vs1 i)
def execVins (g : VG) (vd : VReg) (v : Sel3) (s : State) : Out := vectorOp s (.vins g vd v) (slotVins g vd v)
def execVid (g : VG) (vd : VReg) (s : State) : Out := vectorOp s (.vid g vd) (slotVid g vd)

end Sys2Proof.Machine
end

