-- ==== Sys2Proof/Machine/VectorInt.lean ====
section
/-!
DEFINITION. Vector integer instructions (R162, R163). `a` is vs1[e], `b` is op2[e], both at SEW.
-/
namespace Sys2Proof.Machine

/-- A pattern of `w` bits as an integer, signed or unsigned. -/
def rdInt (uns : Bool) (w x : Nat) : Int := if uns then ((x % 2 ^ w : Nat) : Int) else sgn w x

/-- log2 of an element width. -/
def lg (w : Nat) : Nat := log2 w

/-- An integer form at SEW: the exact result is brought to SEW (R163). -/
def intSlot (g : VG) (vd vs1 : VReg) (o : Op2) (sat u : Bool) (f : Int → Int → Int) : Slot :=
  vecSlot g vd 1 fun c i h =>
    let w := c.e.sew
    narrowInt w u sat (f (rdInt u w (h.rdE vs1.toNat i w)) (rdInt u w (h.op2 c.e .int o i)))

/-- A form on patterns at SEW. -/
def patSlot (g : VG) (vd vs1 : VReg) (o : Op2) (f : Nat → Nat → Nat → Nat) : Slot :=
  vecSlot g vd 1 fun c i h => (f c.e.sew (h.rdE vs1.toNat i c.e.sew) (h.op2 c.e .int o i) % 2 ^ c.e.sew, 0)

def slotVadd (g : VG) (vd vs1 : VReg) (o : Op2) (sat u : Bool) : Slot := intSlot g vd vs1 o sat u (· + ·)
def slotVsub (g : VG) (vd vs1 : VReg) (o : Op2) (sat u : Bool) : Slot := intSlot g vd vs1 o sat u (· - ·)
def slotVrsub (g : VG) (vd vs1 : VReg) (o : Op2) (sat u : Bool) : Slot := intSlot g vd vs1 o sat u fun a b => b - a
def slotVmul (g : VG) (vd vs1 : VReg) (o : Op2) (sat u : Bool) : Slot := intSlot g vd vs1 o sat u (· * ·)

def slotVmulh (g : VG) (vd vs1 : VReg) (o : Op2) (u : Bool) : Slot :=
  patSlot g vd vs1 o fun w a b => pat (2 * w) (rdInt u w a * rdInt u w b) / 2 ^ w

def slotVdiv (g : VG) (vd vs1 : VReg) (o : Op2) (u : Bool) : Slot :=
  patSlot g vd vs1 o fun w a b => if u then (divU w a b).1 else pat w (divS w (sgn w a) (sgn w b)).1

def slotVrem (g : VG) (vd vs1 : VReg) (o : Op2) (u : Bool) : Slot :=
  patSlot g vd vs1 o fun w a b => if u then (divU w a b).2 else pat w (divS w (sgn w a) (sgn w b)).2

def slotVmin (g : VG) (vd vs1 : VReg) (o : Op2) (u : Bool) : Slot := intSlot g vd vs1 o false u fun a b => if a < b then a else b
def slotVmax (g : VG) (vd vs1 : VReg) (o : Op2) (u : Bool) : Slot := intSlot g vd vs1 o false u fun a b => if a < b then b else a
def slotVand (g : VG) (vd vs1 : VReg) (o : Op2) : Slot := patSlot g vd vs1 o fun _ a b => a &&& b
def slotVor (g : VG) (vd vs1 : VReg) (o : Op2) : Slot := patSlot g vd vs1 o fun _ a b => a ||| b
def slotVxor (g : VG) (vd vs1 : VReg) (o : Op2) : Slot := patSlot g vd vs1 o fun _ a b => a ^^^ b
def slotVsll (g : VG) (vd vs1 : VReg) (o : Op2) : Slot := patSlot g vd vs1 o fun w a b => a <<< (b % 2 ^ lg w)
def slotVsrl (g : VG) (vd vs1 : VReg) (o : Op2) : Slot := patSlot g vd vs1 o fun w a b => a >>> (b % 2 ^ lg w)
def slotVsra (g : VG) (vd vs1 : VReg) (o : Op2) : Slot :=
  patSlot g vd vs1 o fun w a b => pat w (sgn w a / ((2 ^ (b % 2 ^ lg w) : Nat) : Int))

/-- A widening integer form: ext(a) with B at 2·SEW (R162). -/
def wideIntSlot (g : VG) (vd vs1 : VReg) (o : Op2) (sat u : Bool) (f : Int → Int → Int) : Slot :=
  vecSlot g vd 2 fun c i h =>
    let w := c.e.sew
    let b := h.op2 c.e .int o i
    narrowInt (2 * w) u sat (f (rdInt u w (h.rdE vs1.toNat i w)) (rdInt u (match o with | .wide _ => 2 * w | _ => w) b))

def slotVaddw (g : VG) (vd vs1 : VReg) (o : Op2) (sat u : Bool) : Slot := wideIntSlot g vd vs1 o sat u (· + ·)
def slotVsubw (g : VG) (vd vs1 : VReg) (o : Op2) (sat u : Bool) : Slot := wideIntSlot g vd vs1 o sat u (· - ·)
def slotVmulw (g : VG) (vd vs1 : VReg) (o : Op2) (u : Bool) : Slot := wideIntSlot g vd vs1 o false u (· * ·)

def slotVmacc (g : VG) (vd vs1 : VReg) (o : Op2) (sat u : Bool) : Slot :=
  vecSlot g vd 1 fun c i h =>
    let w := c.e.sew
    narrowInt w u sat (rdInt u w (h.rdE vd.toNat i w) + rdInt u w (h.rdE vs1.toNat i w) * rdInt u w (h.op2 c.e .int o i))

def slotVnsrl (g : VG) (vd vs1 : VReg) (o : Op2) : Slot :=
  vecSlot g vd 1 fun c i h =>
    let w := c.e.sew
    ((h.rdE vs1.toNat i (2 * w) >>> (h.op2 c.e .int o i % 2 ^ lg (2 * w))) % 2 ^ w, 0)

def slotVnclip (g : VG) (vd vs1 : VReg) (o : Op2) (u : Bool) : Slot :=
  vecSlot g vd 1 fun c i h =>
    let w := c.e.sew
    let sh := h.op2 c.e .int o i % 2 ^ lg (2 * w)
    let a := rdInt u (2 * w) (h.rdE vs1.toNat i (2 * w))
    let r := (a + (if sh = 0 then 0 else ((2 ^ (sh - 1) : Nat) : Int))) / ((2 ^ sh : Nat) : Int)
    narrowInt w u true r

def slotVabs (g : VG) (vd vs1 : VReg) (sat : Bool) : Slot :=
  vecSlot g vd 1 fun c i h =>
    let w := c.e.sew
    let a := sgn w (h.rdE vs1.toNat i w)
    narrowInt w false sat (if a < 0 then -a else a)

def slotVavg (g : VG) (vd vs1 : VReg) (o : Op2) (u : Bool) : Slot := intSlot g vd vs1 o false u fun a b => (a + b + 1) / 2

def execVadd (g : VG) (vd vs1 : VReg) (o : Op2) (sat u : Bool) (s : State) : Out := vectorOp s (.vadd g vd vs1 o sat u) (slotVadd g vd vs1 o sat u)
def execVsub (g : VG) (vd vs1 : VReg) (o : Op2) (sat u : Bool) (s : State) : Out := vectorOp s (.vsub g vd vs1 o sat u) (slotVsub g vd vs1 o sat u)
def execVrsub (g : VG) (vd vs1 : VReg) (o : Op2) (sat u : Bool) (s : State) : Out := vectorOp s (.vrsub g vd vs1 o sat u) (slotVrsub g vd vs1 o sat u)
def execVmul (g : VG) (vd vs1 : VReg) (o : Op2) (sat u : Bool) (s : State) : Out := vectorOp s (.vmul g vd vs1 o sat u) (slotVmul g vd vs1 o sat u)
def execVmulh (g : VG) (vd vs1 : VReg) (o : Op2) (sat u : Bool) (s : State) : Out := vectorOp s (.vmulh g vd vs1 o sat u) (slotVmulh g vd vs1 o u)
def execVdiv (g : VG) (vd vs1 : VReg) (o : Op2) (sat u : Bool) (s : State) : Out := vectorOp s (.vdiv g vd vs1 o sat u) (slotVdiv g vd vs1 o u)
def execVrem (g : VG) (vd vs1 : VReg) (o : Op2) (sat u : Bool) (s : State) : Out := vectorOp s (.vrem g vd vs1 o sat u) (slotVrem g vd vs1 o u)
def execVmin (g : VG) (vd vs1 : VReg) (o : Op2) (sat u : Bool) (s : State) : Out := vectorOp s (.vmin g vd vs1 o sat u) (slotVmin g vd vs1 o u)
def execVmax (g : VG) (vd vs1 : VReg) (o : Op2) (sat u : Bool) (s : State) : Out := vectorOp s (.vmax g vd vs1 o sat u) (slotVmax g vd vs1 o u)
def execVand (g : VG) (vd vs1 : VReg) (o : Op2) (sat u : Bool) (s : State) : Out := vectorOp s (.vand g vd vs1 o sat u) (slotVand g vd vs1 o)
def execVor (g : VG) (vd vs1 : VReg) (o : Op2) (sat u : Bool) (s : State) : Out := vectorOp s (.vor g vd vs1 o sat u) (slotVor g vd vs1 o)
def execVxor (g : VG) (vd vs1 : VReg) (o : Op2) (sat u : Bool) (s : State) : Out := vectorOp s (.vxor g vd vs1 o sat u) (slotVxor g vd vs1 o)
def execVsll (g : VG) (vd vs1 : VReg) (o : Op2) (sat u : Bool) (s : State) : Out := vectorOp s (.vsll g vd vs1 o sat u) (slotVsll g vd vs1 o)
def execVsrl (g : VG) (vd vs1 : VReg) (o : Op2) (sat u : Bool) (s : State) : Out := vectorOp s (.vsrl g vd vs1 o sat u) (slotVsrl g vd vs1 o)
def execVsra (g : VG) (vd vs1 : VReg) (o : Op2) (sat u : Bool) (s : State) : Out := vectorOp s (.vsra g vd vs1 o sat u) (slotVsra g vd vs1 o)
def execVaddw (g : VG) (vd vs1 : VReg) (o : Op2) (sat u : Bool) (s : State) : Out := vectorOp s (.vaddw g vd vs1 o sat u) (slotVaddw g vd vs1 o sat u)
def execVsubw (g : VG) (vd vs1 : VReg) (o : Op2) (sat u : Bool) (s : State) : Out := vectorOp s (.vsubw g vd vs1 o sat u) (slotVsubw g vd vs1 o sat u)
def execVmulw (g : VG) (vd vs1 : VReg) (o : Op2) (sat u : Bool) (s : State) : Out := vectorOp s (.vmulw g vd vs1 o sat u) (slotVmulw g vd vs1 o u)
def execVmacc (g : VG) (vd vs1 : VReg) (o : Op2) (sat u : Bool) (s : State) : Out := vectorOp s (.vmacc g vd vs1 o sat u) (slotVmacc g vd vs1 o sat u)
def execVnsrl (g : VG) (vd vs1 : VReg) (o : Op2) (sat u : Bool) (s : State) : Out := vectorOp s (.vnsrl g vd vs1 o sat u) (slotVnsrl g vd vs1 o)
def execVnclip (g : VG) (vd vs1 : VReg) (o : Op2) (sat u : Bool) (s : State) : Out := vectorOp s (.vnclip g vd vs1 o sat u) (slotVnclip g vd vs1 o u)
def execVabs (g : VG) (vd vs1 : VReg) (sat : Bool) (s : State) : Out := vectorOp s (.vabs g vd vs1 sat) (slotVabs g vd vs1 sat)
def execVavg (g : VG) (vd vs1 : VReg) (o : Op2) (sat u : Bool) (s : State) : Out := vectorOp s (.vavg g vd vs1 o sat u) (slotVavg g vd vs1 o u)

end Sys2Proof.Machine
end

