-- ==== Sys2Proof/Machine/Slots.lean ====
section
/-!
DEFINITION. The slot that each vector word is (R22): its work at the convoy's start, on a run of elements, and at retirement.
Passes have no slot: a pass works on the whole vector (R216).
-/
namespace Sys2Proof.Machine

/-- The slot of an instruction, none for those that have no element work of their own. -/
def slotOf : Instr → Option Slot
  | .vadd g vd vs1 o sat u => some (slotVadd g vd vs1 o sat u)
  | .vsub g vd vs1 o sat u => some (slotVsub g vd vs1 o sat u)
  | .vrsub g vd vs1 o sat u => some (slotVrsub g vd vs1 o sat u)
  | .vmul g vd vs1 o sat u => some (slotVmul g vd vs1 o sat u)
  | .vmulh g vd vs1 o sat u => some (slotVmulh g vd vs1 o u)
  | .vdiv g vd vs1 o sat u => some (slotVdiv g vd vs1 o u)
  | .vrem g vd vs1 o sat u => some (slotVrem g vd vs1 o u)
  | .vmin g vd vs1 o sat u => some (slotVmin g vd vs1 o u)
  | .vmax g vd vs1 o sat u => some (slotVmax g vd vs1 o u)
  | .vand g vd vs1 o sat u => some (slotVand g vd vs1 o)
  | .vor g vd vs1 o sat u => some (slotVor g vd vs1 o)
  | .vxor g vd vs1 o sat u => some (slotVxor g vd vs1 o)
  | .vsll g vd vs1 o sat u => some (slotVsll g vd vs1 o)
  | .vsrl g vd vs1 o sat u => some (slotVsrl g vd vs1 o)
  | .vsra g vd vs1 o sat u => some (slotVsra g vd vs1 o)
  | .vaddw g vd vs1 o sat u => some (slotVaddw g vd vs1 o sat u)
  | .vsubw g vd vs1 o sat u => some (slotVsubw g vd vs1 o sat u)
  | .vmulw g vd vs1 o sat u => some (slotVmulw g vd vs1 o u)
  | .vmacc g vd vs1 o sat u => some (slotVmacc g vd vs1 o sat u)
  | .vnsrl g vd vs1 o sat u => some (slotVnsrl g vd vs1 o)
  | .vnclip g vd vs1 o sat u => some (slotVnclip g vd vs1 o u)
  | .vabs g vd vs1 sat => some (slotVabs g vd vs1 sat)
  | .vavg g vd vs1 o sat u => some (slotVavg g vd vs1 o u)
  | .vfadd g vd vs1 o rm => some (slotVfadd g vd vs1 o rm)
  | .vfsub g vd vs1 o rm => some (slotVfsub g vd vs1 o rm)
  | .vfmul g vd vs1 o rm => some (slotVfmul g vd vs1 o rm)
  | .vfdiv g vd vs1 o rm => some (slotVfdiv g vd vs1 o rm)
  | .vfsqrt g vd vs1 rm => some (slotVfsqrt g vd vs1 rm)
  | .vfmin g vd vs1 o => some (slotVfmin g vd vs1 o)
  | .vfmax g vd vs1 o => some (slotVfmax g vd vs1 o)
  | .vfma g vd vs1 o rm => some (slotVfma g vd vs1 o rm)
  | .vfms g vd vs1 o rm => some (slotVfms g vd vs1 o rm)
  | .vfnma g vd vs1 o rm => some (slotVfnma g vd vs1 o rm)
  | .vfnms g vd vs1 o rm => some (slotVfnms g vd vs1 o rm)
  | .vfclamp g vd vs1 o => some (slotVfclamp g vd vs1 o)
  | .vfabs g vd vs1 => some (slotVfabs g vd vs1)
  | .vfneg g vd vs1 => some (slotVfneg g vd vs1)
  | .vfsgnj g vd vs1 o => some (slotVfsgnj g vd vs1 o)
  | .vfwadd g vd vs1 o rm => some (slotVfwadd g vd vs1 o rm)
  | .vfwmul g vd vs1 o rm => some (slotVfwmul g vd vs1 o rm)
  | .vfwma g vd vs1 o rm => some (slotVfwma g vd vs1 o rm)
  | .vfcvt g vd vs1 rm => some (slotVfcvt g vd vs1 rm)
  | .vfcvti g vd vs1 u rm sat => some (slotVfcvti g vd vs1 u rm)
  | .vicvtf g vd vs1 u rm => some (slotVicvtf g vd vs1 u rm)
  | .vfncvt g vd vs1 rm sat => some (slotVfncvt g vd vs1 rm sat)
  | .vfwcvt g vd vs1 => some (slotVfwcvt g vd vs1)
  | .vcmp g pair vs1 o cc => some (slotVcmp g pair vs1 o cc)
  | .vfcmp g pair vs1 o cc => some (slotVfcmp g pair vs1 o cc)
  | .vmv g vd o => some (slotVmv g vd o)
  | .vmerge g vd vs1 o => some (slotVmerge g vd vs1 o)
  | .vext g sd vs1 i => some (slotVext g sd vs1 i)
  | .vins g vd v => some (slotVins g vd v)
  | .vid g vd => some (slotVid g vd)
  | .plogic g pd => some (slotPlogic g pd)
  | .pset g pd => some (slotPset g pd)
  | .psets g pd useB => some (slotPsets g pd useB)
  | .pclr g pd => some (slotPclr g pd)
  | .psbf g pd ps => some (slotPsbf g pd ps)
  | .psif g pd ps => some (slotPsif g pd ps)
  | .psof g pd ps => some (slotPsof g pd ps)
  | .pcount g sd ps => some (slotPcount g sd ps)
  | .pffs g sd ps => some (slotPffs g sd ps)
  | .pkill pd plast => some (slotPkill pd plast)
  | .pfromv g pd vs => some (slotPfromv g pd vs)
  | .ptov g vd ps => some (slotPtov g vd ps)
  | .vskip g ps n => some (slotVskip g ps n)
  | .kadd g kd ks1 o => some (slotKadd g kd ks1 o)
  | .ksub g kd ks1 o => some (slotKsub g kd ks1 o)
  | .kmax g kd ks1 o => some (slotKmax g kd ks1 o)
  | .kmin g kd ks1 o => some (slotKmin g kd ks1 o)
  | .kmov g kd ks => some (slotKmov g kd ks)
  | .kset g kd v => some (slotKset g kd v)
  | .kfromv g kd vs v => some (slotKfromv g kd vs v)
  | .vbind g vd kd => some (slotVbind g vd kd)
  | .vunbind g vd => some (slotVunbind g vd)
  | .bfop g od v => some (slotBfop g od v)
  | .vld g vd m => some (slotVld g vd m)
  | .vlds g vd m => some (slotVlds g vd m)
  | .vldx g vd vs2 m => some (slotVldx g vd vs2 m)
  | .vldff g vd m => some (slotVldff g vd m)
  | .vldz vd sd => some (slotVldz vd sd)
  | .vldk g vd kd m => some (slotVldk g vd kd m)
  | .vst g vd m => some (slotVst g vd m)
  | .vsts g vd m => some (slotVsts g vd m)
  | .vstx g vd vs2 m => some (slotVstx g vd vs2 m)
  | .vstk g vd ks m => some (slotVstk g vd ks m)
  | .vamo g vd vs2 op m => some (slotVamo g vd vs2 op m)
  | .pld g pd m => some (slotPld g pd m)
  | .pst g pd m => some (slotPst g pd m)
  | .kld g k m => some (slotKld g k m)
  | .kst g k m => some (slotKst g k m)
  | .strmbind g vd m kd => some (slotStrmbind g vd m kd)
  | .strmunbind g m => some (slotStrmunbind g m)
  | .bfseq g q m => some (slotBfseq g q m)
  | .bftab g o m => some (slotBftab g o m)
  | .vpref g strided m => some (slotVpref g strided m)
  | .mdrn g vd t r => some (slotMdrn g vd t r)
  | .mdrnt g vd t r => some (slotMdrnt g vd t r)
  | .mput g vd t r => some (slotMput g vd t r)
  | _ => none

/-- The slots of a convoy, numbered from 1. -/
def slotsOf (e : QEntry) : List SlotOf :=
  (e.instrs.zip (List.range e.instrs.length)).filterMap fun x => (slotOf x.1).map fun sl => ⟨x.2 + 1, x.1, sl⟩

end Sys2Proof.Machine
end

