-- ==== Sys2Proof/Machine/Convoy.lean ====
section
/-!
DEFINITION. Convoys: fetching an issue unit (R18, R347), hand-off (R20, R31, R136, R345), the start (R24, R25, R194, R219,
R299), element groups and retirement (R21 to R25, R31), the sequencer (R29), and the return from an exception (R324).
-/
namespace Sys2Proof.Machine

/-- A step, and then another on the state that it leaves. -/
def Out.andThen (o : Out) (f : State → Out) : Out :=
  match o with
  | .next s => f s
  | o => o

/-! ### Fetching (R18, R85, R254, R347) -/

/-- The word at `va` as the L1 instruction cache of a core serves it: a line that the core still holds may serve its old
bytes until it is invalidated (R254). It holds 512 lines (R12), of every memory type: R86 names the shared SRAM and the L1D only
(DESIGN CHOICE, log 59). -/
def State.viaICache (s : State) (core loc fresh : Nat) : State × Nat :=
  let line := loc / 128
  let held := ((s.core core).icache.find? fun e => e.1 == line).map fun e => imgGet e.2 (8 * (loc % 128)) 64
  let refill (s : State) : State :=
    let l := (s.core core).icache.filter fun e => e.1 != line
    let (k, t) := s.draw
    (if l.length < l1Lines then s else t).updCore core fun c =>
      { c with icache := insertCap l1Lines (Config.victim k) (line, Memory.read s.sto.mem (line * 128) 128) l }
  match held with
  | none => (refill s, fresh)
  | some w =>
    if w = fresh then (s, fresh)
    else
      let (k, s) := s.draw
      if Config.useHeldLine k then (s, w) else (refill s, fresh)

/-- An instruction word of a hart (R18): its checks are those of a fetch, bits [63:55] before alignment (R339, R347). An address that
is not a multiple of 8 cannot hold one (log 21). -/
def State.fetchWord (s : State) (n : Nat) (va : Word) : Except AErr (State × Word) :=
  if fld va 63 55 = 0 ∧ fld va 2 0 ≠ 0 then .error (AErr.plain 0x06#8 va .fetch)
  else match s.locate (s.who n) va .fetch with
    | .error e => .error e
    | .ok (s, t) =>
      match s.readErr va t 8 .fetch with
      | some e => .error e
      | none =>
        let (s, bs) := s.readOk t 8 none
        let (s, w) := s.viaICache (coreOf n) t.loc (ofBytes bs)
        .ok (s, w64 w)

/-- The class of a word at an issue-unit address is that of a convoy header (R18). -/
def isHeader (w : Word) : Bool := decide (fld w 63 62 = 1)

/-- The vector words of a convoy, and the fetch fault of the first that fails with its slot number (R347). What the failing fetch
detects is detected with it (R355, R357). -/
def State.fetchWords (s : State) (n : Nat) (va : Word) : List Nat → State × List Word × Option (Nat × AErr)
  | [] => (s, [], none)
  | k :: r =>
    match s.fetchWord n (va + w64 (8 * k)) with
    | .error e => (s.applyFound e, [], some (k, e))
    | .ok (s, w) =>
      let (s, ws, f) := State.fetchWords s n va r
      (s, w :: ws, f)

/-! ### Hand-off (R20, R136, R345) -/

/-- The words of a convoy as instructions of their units. -/
def decodeSlots (us : List WUnit) (ws : List Word) : List (Option Instr) := (us.zip ws).map fun x => (decodeIn x.1 x.2).toOption

/-- The checks of hand-off on an entry whose words are fetched: its instructions and the fault that it holds (R136, R345). -/
def checkEntry (h : Hart) (head : Word) (e : QEntry) : QEntry :=
  let bad (k : Nat) (w : Word) : Option Trap := some { (trap0 0x01#8 w) with tindex := k }
  match decodeHeader head with
  | .error _ => { e with instrs := [], fault := bad 1 head }
  | .ok hd =>
    let slots := decodeSlots hd.units e.words
    let e := { e with instrs := slots.filterMap id }
    let word (k : Nat) : Word := (e.words[k - 1]?).getD 0
    if vtLegal e.vtype = false then { e with fault := bad 1 (word 1) }
    else match firstIllegal h e slots with
      | some k => { e with fault := bad k (word k) }
      | none => e

/-- The words of the convoy at `addr` and its checks, under the captured values that `e` holds. A convoy has at most five vector words, so
of a header with N 6 or 7 no sixth is fetched: TINDEX 6 and 7 are never written (R57). -/
def State.loadEntry (s : State) (n : Nat) (head : Word) (e : QEntry) : State × QEntry :=
  let (s, ws, f) := s.fetchWords n e.addr (upTo 1 (min 5 (headerCount head) + 1))
  let e := { e with words := ws, count := headerCount head }
  match f with
  | some (k, a) => (s, { e with fault := some (a.trap k 0) })
  | none => (s, checkEntry (s.hart n) head e)

/-- Scalar registers that a started or queued convoy still has to write (R32). -/
def Hart.owed (h : Hart) : List SReg :=
  (match h.q.run with | some r => scalarDests r.e.instrs | none => []) ++ h.q.queue.flatMap fun e => scalarDests e.instrs

/-- The hand-off of the convoy whose header is `head` at the PC (R20, R31). It waits for room in the queue, at whose head a
started convoy stays (R29, R30), and for the captured registers that a convoy in the queue still has to write. -/
def State.handOff (s : State) (n : Nat) (head : Word) : State :=
  let h := s.hart n
  let next := h.sc.pc + w64 (8 * (headerCount head + 1))
  let sa : SReg := head.extractLsb' 27 5
  let sb : SReg := head.extractLsb' 22 5
  if h.vec.vskipc ≠ 0 then
    s.setHart n ({ h with vec := { h.vec with vskipc := h.vec.vskipc - 1 } }.setPc next)
  else if 32 ≤ h.q.queue.length + h.q.run.isSome.toNat ∨ ([sa, sb].any fun r => decide (r ≠ 0#5) && h.owed.contains r) then s
  else
    let e : QEntry := ⟨h.sc.pc, [], [], 0, h.vec.vl, h.vec.vtype, h.vec.mfc, h.rdS sa, h.rdS sb, head.extractLsb' 0 16, h.vec.stripno,
      none, false, h.q.ticket, [], []⟩
    let (s, e) := s.loadEntry n head e
    s.updHart n fun h =>
      { h with sc := { h.sc with pc := next }, q := { h.q with queue := h.q.queue ++ [e], ticket := h.q.ticket + 1 } }

/-! ### Breakpoints (R299) -/

/-- Breakpoint `b` of a hart names an issue unit at `addr`: `slots` is 0 for a scalar instruction, else the convoy's count. -/
def Hart.bpNames (h : Hart) (b : Nat) (addr : Word) (slots : Nat) : Bool :=
  let c := Table.get 0 h.q.bkpc b
  let idx := fld c 18 16
  c.getLsbD 63 && decide (fld (Table.get 0 h.q.bkpa b) 54 3 = fld addr 54 3) &&
    (if slots = 0 then idx == 0 else (idx == 7 || (decide (1 ≤ idx ∧ idx ≤ 5 ∧ idx ≤ slots))))

/-- The breakpoint that fires before a scalar instruction, or, with EMATCH 0, before a convoy starts. -/
def Hart.bpBefore (h : Hart) (addr : Word) (slots : Nat) : Option Nat :=
  if h.q.skipBp = some (addr, none) then none
  else (upTo 0 4).find? fun b => h.bpNames b addr slots && (slots == 0 || !(Table.get 0 h.q.bkpc b).getLsbD 15)

/-- The breakpoints with EMATCH 1 at elements of the started convoy from `lo` on: element and number. -/
def Hart.bpElems (h : Hart) (e : QEntry) (lo : Nat) : List (Nat × Nat) :=
  (upTo 0 4).filterMap fun b =>
    let c := Table.get 0 h.q.bkpc b
    let x := fld c 11 0
    if h.bpNames b e.addr (max 1 e.count) ∧ c.getLsbD 15 ∧ lo ≤ x ∧ x < e.vl ∧ h.q.skipBp ≠ some (e.addr, some x) then some (x, b) else none

/-! ### The start of a convoy (R24, R219, R341) -/

/-- What a convoy meets when it starts: checks of passes and of instructions that act once, in slot order. -/
def startErrs (n : Nat) (e : QEntry) (s : State) : List (Nat × AErr) :=
  (match passIn e with
    | some p => (match passCheck (s.hart n) e ((e.words[0]?).getD 0) p with | some a => [(1, a)] | none => [])
    | none => []) ++
  (slotsOf e).filterMap fun j => match j.sl.start ⟨n, j.k, e⟩ s with | .error a => some (j.k, a) | .ok _ => none

/-- The check taken: the least priority number, and the lowest slot among equals (R339, R341). -/
def firstErr : List (Nat × AErr) → Option (Nat × AErr)
  | [] => none
  | x :: r =>
    match firstErr r with
    | none => some x
    | some y => if y.2.prio < x.2.prio then some y else some x

/-- The stop of a convoy that finds a failed empty slot, at its first element `lo` (R195): no element of any slot runs before it, and
only a format fault of the same slot, whose check comes first within one element, takes its place (R341; log 37). -/
def streamStop (n : Nat) (e : QEntry) (lo : Nat) (f : Nat × AErr) (s : State) : Nat × AErr :=
  match (slotsOf e).find? fun j => j.k == f.1 with
  | none => f
  | some j =>
    match j.sl.group ⟨n, j.k, e⟩ lo (lo + 1) s with
    | .error (_, .fault a) => if a.cause = 0x04#8 then (j.k, a) else f
    | _ => f

/-- The start's own work, once no check fails. -/
def startAll (n : Nat) (e : QEntry) (s : State) : State :=
  (slotsOf e).foldl (fun s j => match j.sl.start ⟨n, j.k, e⟩ s with | .ok t => t | .error _ => s) s

/-- The breakpoint before a convoy starts: with EMATCH 0, unless it was started before; with EMATCH 1, at the element that it would
run first (R299), which in a pass that goes on is one of its next pair and is met there. With it comes what RESUME passes. -/
def Hart.bpStart (h : Hart) (e : QEntry) : Option (Nat × Option Nat) :=
  match (if e.resumed then none else h.bpBefore e.addr (max 1 e.count)) with
  | some b => some (b, none)
  | none =>
    if e.isPass && bfActive h.vec.bfstart then none
    else ((h.bpElems e h.vec.vstart).find? fun b => b.1 == h.vec.vstart).map fun b => (b.2, some b.1)

/-- The run of a convoy that starts at VSTART with length `vl` and consumes the streams `used`. -/
def Hart.newRun (h : Hart) (e : QEntry) (vl : Nat) (used : List Nat) : Run :=
  ⟨{ e with vl := vl }, h.vec.vstart, used.foldl (fun t m => Table.set 0 t (56 + m) (h.stream m).strip) e.wrote, false, [], []⟩

/-- FENCE.VV at the start of a convoy that comes after it in program order: the accesses of the convoys before it are performed.
It stands while one of those has stopped and is still to run on (R106). -/
def State.passFence (s : State) (n : Nat) (e : QEntry) : State :=
  match (s.hart n).q.vvFence with
  | none => s
  | some t =>
    if e.seq < t then s
    else (s.performAll n .vector).updHart n fun h =>
      { h with q := { h.q with vvFence := if h.q.stopped.any fun x => match x with | some x => decide (x.1.seq < t) | none => false then some t else none } }

/-- The slots of a started convoy: deliveries of the streams it consumes, and then its own (R194). -/
def Run.slots (r : Run) : List SlotOf :=
  ((upTo 0 8).filterMap fun m =>
    match Table.get (0 : Nat) r.sw (56 + m) with
    | 0 => none
    | k + 1 => some ⟨0, .strmunbind noGuard (BitVec.ofNat 3 m), deliverSlot m (BitVec.ofNat 6 k) (BitVec.ofNat 5 (k / 64))⟩) ++ slotsOf r.e

/-- The convoy at the head of a hart's queue is started (R24): breakpoints, a fault held since hand-off, for a pass the earlier matrix
commands that it meets (R221), streams, and the checks of point 3 of R341. It waits in the queue where one of these makes it wait. A
slot that trims at VSTART does so before a failed stream's fault there, which is then never raised (R342). With
VL = 0 or VSTART ≥ VL it consumes no stream: it waits for no element, and a bound register's tail is not written (DESIGN CHOICE, log 63).
TELEM of a fault of the start is VSTART, also for reasons 1 to 4 of cause 0x03 in a pass that goes on (DESIGN CHOICE, log 44). The
start-up clocks of R302 run from here. -/
def State.startHead (s : State) (n : Nat) : Out :=
  let h := s.hart n
  match h.q.run, h.q.queue with
  | none, e :: rest =>
    let popped (q : HQueue) : HQueue := { q with queue := rest }
    match h.bpStart e with
    | some (b, none) => .next (s.debugStop n 1 b 0 (some (e.addr, none)))
    | some (b, some x) =>
      .next ((s.updHart n fun h => { h with q := { h.q with queue := { e with resumed := true } :: rest } }).debugStop n 1 b x
        (some (e.addr, some x)))
    | none =>
      match e.fault with
      | some t =>
        (s.updHart n fun h => { h with q := popped h.q }).takeTrap n { t with telem := h.vec.vstart } e.addr
          (some (e, e.vl)) (Hart.resumePoint { h with q := popped h.q }) e.isPass
      | none =>
        let s := s.passFence n e
        let lo := h.vec.vstart
        let used := if lo < e.vl then h.consumed e else []
        let sf := if lo < e.vl then streamFault h e else none
        match sf, streamsAllow h e.vl lo used with
        | none, none => .next s
        | sf, vl =>
          if e.isPass && s.convoyHeld n e 0 e.vl then .next s
          else
          let stop (k : Nat) (a : AErr) : Out := (s.updHart n fun h => { h with q := popped h.q }).stopAt n e k lo a
          let with_ (r : Run) : State := s.updHart n fun h =>
            { h with q := { (popped h.q) with
              run := some r
              skipBp := if h.q.skipBp = some (e.addr, none) then none else h.q.skipBp } }
          let begins (e : QEntry) (s : State) : Out := .next ((startAll n e (s.clearAsked n)).countGroup n 0 true (0, 0, 0))
          match firstErr (startErrs n e s), sf with
          | some (k, a), _ => stop k a
          | none, some f =>
            let r := h.newRun e e.vl (used.filter fun m => decide (0 < (h.stream m).avail))
            match trimsAt n e lo r.slots (with_ r) with
            | some l => let r := h.newRun e lo []; begins r.e (((with_ r).seen l).trimTo n r.e lo)
            | none => let f := streamStop n e lo f s; stop f.1 f.2
          | none, none =>
            let r := h.newRun e (vl.getD e.vl) used
            begins r.e (if used.isEmpty then with_ r else (with_ r).trimVl n r.e r.e.vl)
  | _, _ => .next s

/-- Nothing of a hart starts or runs once its gang is to end or to leave: its stop point has come (R319, R326, R360). What a committed
EXIT leaves runs on (R252, R321). -/
def State.goesOn (s : State) (n : Nat) : Bool :=
  !s.paused n && (decide ((s.hart n).q.status = .exiting) || (s.gang (s.hart n).shape.launch).stopReq.isNone)

/-- The start of the oldest queued convoy of a hart. -/
def execConvoyStart (hart : Nat) (s : State) : Out :=
  if ((s.hart hart).q.status = .running ∨ (s.hart hart).q.status = .exiting) ∧ s.goesOn hart then s.startHead hart else .next s

/-! ### Element groups (R21 to R25) -/

/-- The end of a convoy (R23): its slots' retirement, VSTART := 0, and the end of a debugger's step. -/
def State.retire_ (s : State) (n : Nat) (r : Run) : State :=
  let s := retireSlots n r.e r.slots s
  let s := s.updHart n fun h => { h with vec := { h.vec with vstart := 0 }, q := { h.q with run := none } }
  if (s.hart n).q.step.isSome then s.debugStop n 2 0 0 none else s

/-- A group has committed and the convoy goes on, or a debugger's step ends with it: at a breakpoint that comes next (R300). -/
def State.groupDone (s : State) (n : Nat) (e : QEntry) (bp : Option (Nat × Nat)) : State :=
  if (s.hart n).q.step = some .group then
    match bp with
    | some (x, b) => s.debugStop n 1 b x (some (e.addr, some x))
    | none => s.debugStop n 2 0 (stopIndex (s.hart n)).2 none
  else s

/-- The breakpoint with EMATCH 1 that a pass meets before its next pair: the first that names one of its two elements. A pass
stops only between pairs (R220), and an element's first pair is where it is reached (DEDUCED, log 66). RESUME passes the pair that the
hart stopped at, whatever names it. -/
def Hart.bpPair (h : Hart) (e : QEntry) (p : Pass) : Option (Nat × Nat) :=
  let w := h.vec.bfstart
  let s := seqStage (h.rdQ p.q) (bfEntry w)
  let i := pairLow (bfPair w) s
  let here (x : Nat) : Bool := x == i || x == i + 2 ^ s
  let passed : Bool := match h.q.skipBp with | some (a, some y) => a == e.addr && here y | _ => false
  if bfActive w = false ∨ 12 ≤ s ∨ passed then none else (h.bpElems e 1).find? fun b => here b.1

/-- Where the piece of a pass ends that ends at pair `last` at the latest: before the next pair at which a breakpoint stops it. -/
def Hart.pairsToBp (h : Hart) (e : QEntry) (p : Pass) (last : Nat) : Nat :=
  let l := h.bpElems e 1
  let s := seqStage (h.rdQ p.q) (bfEntry h.vec.bfstart)
  if l.isEmpty then last
  else ((upTo (bfPair h.vec.bfstart + 1) last).find? fun k =>
    l.any fun b => b.1 == pairLow k s || b.1 == pairLow k s + 2 ^ s).getD last

/-- A breakpoint that RESUME has passed counts again once its convoy has gone on. -/
def Hart.passedBp (h : Hart) (e : QEntry) : Hart :=
  match h.q.skipBp with
  | some (a, some _) => if a = e.addr then { h with q := { h.q with skipBp := none } } else h
  | _ => h

/-- One clock of a started pass: its copy step, or the pairs of a clock (R216, R220, R222). Under a debugger's step, the rest of its
entry. -/
def State.runPass (s : State) (n : Nat) (r : Run) (p : Pass) : Out :=
  let h := s.hart n
  let x := passCtx h r.e p
  let piece (s : State) (block : Nat) : State × PassEnd :=
    let h := s.hart n
    let last := h.pairsToBp r.e p (pairBlock block (bfPair h.vec.bfstart))
    let (h', end_) := x.step last h
    let c := x.classes h.shape.g last h
    ((s.setHart n (h'.passedBp r.e)).countGroup n c.1 false c.2, end_)
  match h.bpPair r.e p with
  | some b => .next (s.debugStop n 1 b.2 b.1 (some (r.e.addr, some b.1)))
  | none =>
    let (s, end1) := piece s (if h.q.step.isSome then 2048 else passBlock h.shape.g r.e p.sw)
    let again := !bfActive h.vec.bfstart && decide (h.q.step = some .group ∧ end1 = .more) && ((s.hart n).bpPair r.e p).isNone
    let (s, end2) := if again then piece s 2048 else (s, end1)
    match end2 with
    | .fault a => s.stopAt n r.e 1 0 a
    | .done => .next (s.retire_ n r)
    | .more => .next ((s.updHart n fun h => { h with q := { h.q with run := some { r with moved := true } } }).groupDone n r.e
        ((s.hart n).bpPair r.e p))

/-- Where the next element group of a started convoy ends: at the group's last element below VL, or before a breakpoint. -/
def Hart.groupStop (h : Hart) (e : QEntry) (lo : Nat) : Nat := (h.bpElems e lo).foldl (fun m b => min m b.1) (groupEnd h.shape.g e lo)

/-- What the tile scoreboard holds of a started convoy that would run now (R30, R159): its next element group, its tail where no element
is left, or the tail that a trim in that group brings with it. A pass waits before its start (R221). -/
def State.tileHeld (s : State) (n : Nat) (r : Run) : Bool :=
  let h := s.hart n
  let lo := h.vec.vstart
  let tail (x : Nat) : Bool := s.convoyHeld n { r.e with vl := x } x x
  if s.matrixBusy n = false ∨ r.e.isPass then false
  else if r.e.vl ≤ lo then tail r.e.vl
  else
    let hi := h.groupStop r.e lo
    decide (lo < hi) && (s.convoyHeld n r.e lo hi ||
      match runWhole n r.e r.slots lo hi (s.clearAsked n) with | (_, .trim x _) => tail x | _ => false)

/-- One element group of a started convoy that the tile scoreboard does not hold (R22, R23). -/
def State.runGroupOf (s : State) (n : Nat) (r : Run) : Out :=
  let h := s.hart n
  let lo := h.vec.vstart
  if r.e.vl ≤ lo then .next (s.retire_ n r)
  else
    let bps := h.bpElems r.e lo
    match bps.find? fun b => b.1 == lo with
    | some b => .next (s.debugStop n 1 b.2 lo (some (r.e.addr, some lo)))
    | none =>
      let hi := h.groupStop r.e lo
      let s := s.clearAsked n
      let en := if h.trc.dlyEn then enabledIn n r.e r.slots lo hi s else []
      let size := groupSize h.shape.g r.e
      let w := 512 * h.shape.g / size
      let commit (s : State) (x : Nat) (e : QEntry) : State :=
        if x ≤ lo then s.countGroup n 0 false (0, 0, 0)
        else
          (s.updHart n fun h =>
            let h := h.passedBp r.e
            { h with
              vec := { h.vec with vstart := x }
              q := { h.q with run := h.q.run.map fun r => { r with moved := true } } }).countGroup
            n 1 false (slotClasses e w (lo / size * size) size lo x (en.filter fun y => decide (y < x)))
      match runWhole n r.e r.slots lo hi s with
      | (s, .all) =>
        let s := commit s hi r.e
        let r := ((s.hart n).q.run).getD r
        if r.e.vl ≤ hi then .next (s.retire_ n r)
        else .next (s.groupDone n r.e (bps.find? fun b => b.1 == hi))
      | (s, .fault k x a) => (commit s x r.e).stopAt n r.e k x a
      | (s, .trim x l) =>
        let s := ((commit s x { r.e with vl := x }).seen l).trimTo n r.e x
        let r := ((s.hart n).q.run).getD r
        .next (s.retire_ n { r with e := { r.e with vl := x } })

/-- The started convoy of a hart runs for one decision of the sequencer. -/
def State.runOne (s : State) (n : Nat) : Out :=
  match (s.hart n).q.run with
  | none => .next s
  | some r =>
    match passIn r.e with
    | some p => s.runPass n r p
    | none => s.runGroupOf n r

/-! ### The sequencer (R29, R222) -/

/-- Elements that a started convoy still has to run. -/
def Hart.remaining (h : Hart) : Nat :=
  match h.q.run with
  | none => 0
  | some r =>
    match passIn r.e with
    | some p => passRemaining h r.e p
    | none => r.e.vl - h.vec.vstart

/-- Whether hart `a` is considered before hart `b`: harts passed over 16 times come first, and of those with equal counts the lowest
hart number (R29, R267). -/
def State.before (s : State) (a b : Nat) : Bool :=
  let x := s.hart a
  let y := s.hart b
  let late (h : Hart) : Nat := if 16 ≤ h.q.passed then h.q.passed else 0
  if late x ≠ late y then decide (late y < late x)
  else if 16 ≤ late x then decide (a < b)
  else if x.remaining ≠ y.remaining then decide (x.remaining < y.remaining)
  else decide (a < b)

/-- The harts in the order of R29. -/
def State.insertHart (s : State) (a : Nat) : List Nat → List Nat
  | [] => [a]
  | b :: r => if s.before a b then a :: b :: r else b :: State.insertHart s a r

/-- Ready harts of a core, in order: those whose started convoy can proceed. One that the tile scoreboard holds is not ready, and its
count stays as it is (R29, R267). -/
def State.readyHarts (s : State) (core : Nat) : List Nat :=
  ((upTo (4 * core) (4 * core + 4)).filter fun n =>
    let q := (s.hart n).q
    (match q.run with | some r => !s.tileHeld n r | none => false) && s.goesOn n &&
      decide (q.status = .running ∨ q.status = .exiting)).foldl (fun l n => s.insertHart n l) []

/-- The harts granted: in order, those whose lane groups are disjoint from the ones already granted. -/
def State.grantLanes (s : State) : List Nat → BitVec 4 → List Nat
  | [], _ => []
  | n :: r, used =>
    let l := (s.hart n).shape.lanes
    if l &&& used = 0#4 then n :: State.grantLanes s r (used ||| l) else State.grantLanes s r used

/-- One decision of a core's sequencer. -/
def State.sequence (s : State) (core : Nat) : Out :=
  let ready := s.readyHarts core
  let go := s.grantLanes ready 0#4
  let s := ready.foldl (fun s n =>
    s.updHart n fun h => { h with q := { h.q with passed := if go.contains n then 0 else h.q.passed + 1 } }) s
  go.foldl (fun o n => o.andThen fun s => s.runOne n) (Host.Outcome.next s)

def execSequencerDecision (core : Nat) (s : State) : Out := s.sequence core

/-! ### ERET (R324) -/

/-- A convoy that stopped, as it is handed off again: its words are fetched anew and the checks of hand-off are made under
the values that `e` holds (R324). -/
def State.rebuild (s : State) (n : Nat) (e : QEntry) : State × QEntry :=
  match s.fetchWord n e.addr with
  | .error a => (s.applyFound a, { e with fault := some (a.trap 0 0) })
  | .ok (s, head) => if isHeader head then s.loadEntry n head e else (s, { e with fault := some (trap0 0x01#8 head) })

/-- The queue entry that TQ[0] to TQ[5] hold for the convoy at `addr` (R322). -/
def entryOfTq (addr : Word) (tq : Table Word) : QEntry :=
  let q (k : Nat) : Word := Table.get 0 tq k
  ⟨addr, [], [], 0, fld (q 0) 12 0, q 1, q 2, q 3, q 4, (q 5).extractLsb' 0 16, (q 5).extractLsb' 32 32, none, true, 0, [], []⟩

/-- A convoy that stopped and is handed off again keeps its place in program order and what it had done (R30, R346, log 67). The
convoys that stopped after it are given up. -/
def Hart.reenter (h : Hart) (e : QEntry) : Hart × QEntry :=
  let rest := h.q.stopped.dropWhile fun x => match x with | some x => !(x.1.addr == e.addr && x.1.strip == e.strip) | none => true
  match rest with
  | some x :: l =>
    let away := x.1.away.map fun w => if w.2 = 0 then (w.1, h.q.ticket) else w
    ({ h with q := { h.q with stopped := l } }, { e with seq := x.1.seq, away := away, wrote := x.1.wrote })
  | _ => ({ h with q := { h.q with ticket := h.q.ticket + 1, stopped := h.q.stopped.tail } }, { e with seq := h.q.ticket })

/-- A return without a convoy gives up the one in which the last trap fell; to user mode, every convoy that had stopped (log 67). -/
def Hart.giveUp (h : Hart) : Hart := { h with q := { h.q with stopped := if h.sc.mode = .user then [] else h.q.stopped.tail } }

/-- TSTAT after ERET: IE takes PIE (R324). -/
def eretStat (t : Word) : Word := (t &&& ~~~1#64) ||| (if tstatPIE t then 1#64 else 0#64)

/-- The return from an exception. It waits for a convoy that the handler started (log 22). -/
def execEret (g : SG) (s : State) : Out :=
  s.scalar g [] fun n h =>
    if h.sc.mode = .user ∨ (h.sc.mode = .sup ∧ h.trap.tstat.getLsbD 3) then s.privilege n (.eret g)
    else if h.q.run.isSome then .next s
    else
      let t := h.trap
      let h' := { h with sc := { h.sc with mode := modeOf (tstatPMode t.tstat) }, trap := { t with tstat := eretStat t.tstat } }
      if tstatINCV t.tstat then
        let (h', e) := (h'.setPc t.tnpc).reenter (entryOfTq t.tpc t.tq)
        let (s, e) := (s.setHart n h').rebuild n e
        .next (s.updHart n fun h => { h with q := { h.q with queue := [e] } })
      else .next (s.setHart n (h'.setPc t.tpc).giveUp)

end Sys2Proof.Machine
end

