-- ==== Sys2Proof/Machine/Slate.lean ====
section
/-!
DEFINITION. Slates: their fields and what makes one malformed (R259, R274), and the queues of a partition (R251, R262).
-/
namespace Sys2Proof.Machine

/-- CTRL and RES fields (R259). -/
def slateKeep (w : List Word) : Bool := (slateWord w 1).getLsbD 42
def slateCond (w : List Word) : Bool := (slateWord w 1).getLsbD 41
def slateLendep (w : List Word) : Bool := (slateWord w 1).getLsbD 40
def slateShrink (w : List Word) : Bool := (slateWord w 1).getLsbD 39
def slateTiles (w : List Word) : Nat := fld (slateWord w 1) 35 32
def slateHpcCode (w : List Word) : Nat := fld (slateWord w 1) 31 30
def slateHpc (w : List Word) : Nat := 2 ^ slateHpcCode w
def slateGwCode (w : List Word) : Nat := fld (slateWord w 1) 29 28
def slateGw (w : List Word) : Nat := 2 ^ slateGwCode w
def slateNreg (w : List Word) : BitVec 2 := (slateWord w 1).extractLsb' 26 2
def slateGang (w : List Word) : Nat := fld (slateWord w 1) 5 0
def slateSpad (w : List Word) : Nat := fld (slateWord w 2) 40 32
def slateTcm (w : List Word) : Nat := fld (slateWord w 2) 28 24
def slateBrows (w : List Word) : Nat := fld (slateWord w 2) 21 16
/-- Cores of the gang (R264). -/
def slateCores (w : List Word) : Nat := cdiv (slateGang w) (slateHpc w)

/-- An address of a slate that is not a multiple of 8 or breaks R84. -/
def slateAddrBad (a : Word) : Bool := decide (fld a 2 0 ≠ 0 ∨ fld a 63 55 ≠ 0)

/-- R259: malformed by its own words. -/
def slateShapeBad (w : List Word) : Bool :=
  let c := slateWord w 1
  let r := slateWord w 2
  decide (fld c 47 45 ≠ 0 ∨ fld c 38 36 ≠ 0 ∨ fld c 25 6 ≠ 0 ∨ fld r 63 41 ≠ 0 ∨ fld r 31 29 ≠ 0 ∨ fld r 23 22 ≠ 0 ∨ fld r 15 0 ≠ 0) ||
  decide (2 ≤ slateMode w ∨ 9 ≤ slateTiles w ∨ slateHpcCode w = 3 ∨ slateGwCode w = 3 ∨ slateGang w = 0 ∨ 33 ≤ slateGang w) ||
  decide (256 < slateSpad w ∨ 28 < slateTcm w ∨ 32 < slateBrows w) ||
  ([0, 3, 4, 5, 6].any fun i => slateAddrBad (slateWord w i)) ||
  (slateCond w && decide (slateWord w 6 = 0)) || (slateShrink w && slateLendep w) ||
  decide (8 < slateTiles w * slateHpc w ∨ 8 < slateCores w)

/-- Malformed, an ASID that PART does not own included (R274). -/
def State.slateBad (s : State) (w : List Word) : Bool :=
  let p := s.part (slatePart w)
  slateShapeBad w || !p.exists_ || !p.asids.contains (slateAsid w)

/-- The words of a slate from its bytes. -/
def slateOf (bs : List Byte) : List Word := (List.range 8).map fun i => w64 (ofBytes ((bs.drop (8 * i)).take 8))

/-- A queued slate changes. -/
def State.updQueued (s : State) (p launch : Nat) (f : QSlate → QSlate) : State :=
  s.updPart p fun x => { x with queue := x.queue.map fun q => if q.launch = launch then f q else q }

/-- Features accepted for a partition (R311). -/
def State.accepts (s : State) (p bit : Nat) : Bool := (s.part p).accepted.getLsbD bit

/-- Slates of a level of a partition's queues. -/
def Partition.level (p : Partition) (k : Nat) : List QSlate := p.queue.filter fun q => slatePrio q.words == k

/-- A slate is queued and takes a launch number (R251). One without dependences is ready; DEPs are read later, and count as unmet until
then (R262). -/
def State.queueSlate (s : State) (addr : Word) (w : List Word) : State × Nat :=
  let l := s.nextLaunch
  let ready := slateWord w 4 == 0 && slateWord w 5 == 0
  let s := s.updPart (slatePart w) fun p => { p with queue := p.queue ++ [⟨l, addr, w, slatePrio w, 0, false, ready, !ready, s.order, none, none⟩] }
  ({ s with nextLaunch := if l = 2 ^ 32 - 1 then 1 else l + 1, order := s.order + 1 }, l)

/-- Whether the queue of a slate's level is full (R262). -/
def State.queueFull (s : State) (w : List Word) : Bool := decide (128 ≤ ((s.part (slatePart w)).level (slatePrio w)).length)

/-- Whether a hart may launch a slate (R251). -/
def State.mayLaunch (s : State) (n : Nat) (w : List Word) : Bool :=
  let h := s.hart n
  if h.sc.mode = .user then
    decide (slateAsid w = h.shape.asid.toNat ∧ slatePart w = h.shape.part ∧ slateMode w = 0 ∧
      slatePrio w ≤ slatePrio (s.gang h.shape.launch).slate.words)
  else decide (slatePart w = h.shape.part)

/-- LAUNCH's status and launch number (R251). -/
def State.launchSlate (s : State) (n : Nat) (addr : Word) (w : List Word) : State × Word :=
  if s.slateBad w then (s, 2)
  else if s.mayLaunch n w = false then (s, 3)
  else if s.queueFull w then (s, 1)
  else
    let (s, l) := s.queueSlate addr w
    (s, w64 (l * 2 ^ 32))

end Sys2Proof.Machine
end

