-- ==== Sys2Proof/Machine/Sync.lean ====
section
/-!
DEFINITION. Synchronisation and system instructions: atomics, fences, the gang barrier, engine queues, tile stamps, launch and
exit, cache and translation maintenance, service calls, breakpoints and WFE (R241 to R256). BCALL is in Burxus.lean.
-/
namespace Sys2Proof.Machine

/-! ### Atomics (R241 to R243) -/

/-- A scalar atomic: `f` gives the new value, or none to write nothing, from the old one, and the flags. Under `rel` every earlier
write of the scalar agent becomes visible first (R108); later accesses are made after it in any case, as .acq asks. -/
def atomicOp (s : State) (g : SG) (sd sa sb : SReg) (rel dbl : Bool) (f : Hart → Nat → Option Nat × BitVec 6) : Out :=
  let sz := if dbl then 8 else 4
  s.scalar g [sd, sa, sb] fun n h =>
    let va := h.rdS sa
    match alignErr va sz .atomic with
    | some e => s.accessTrap n e
    | none =>
      match (if rel then s.performAll n .scalar else s).rmw n .scalar va sz fun old => (f h (ofBytes old)).1.map (toBytes sz) with
      | .error e => s.accessTrap n e
      | .ok (s, old) =>
        .next (s.updHart n fun x => ((x.wrS sd (sext64 (8 * sz) (ofBytes old))).flags (f h (ofBytes old)).2).nextPc)

def execAmo (g : SG) (sd sa sb : SReg) (_sc : Scope) (_acq rel dbl : Bool) (op : AmoOp) (s : State) : Out :=
  atomicOp s g sd sa sb rel dbl fun h m =>
    let w := if dbl then 64 else 32
    let r := amoResult op w m ((h.rdS sb).toNat % 2 ^ w)
    (some r.1, r.2)

def execCas (g : SG) (sd sa sb : SReg) (_sc : Scope) (_acq rel dbl : Bool) (s : State) : Out :=
  atomicOp s g sd sa sb rel dbl fun h m =>
    let w := if dbl then 64 else 32
    (if m = (h.rdS sd).toNat % 2 ^ w then some ((h.rdS sb).toNat % 2 ^ w) else none, 0)

/-! ### Fences (R106, R244) -/

/-- A wait for the vector queue and the writes of both agents: the effect of FENCE.ALL. -/
def State.fenceAll (s : State) (n : Nat) (k : State → Out) : Out :=
  if (s.hart n).q.run.isSome then .next s else k ((s.performAll n .scalar).performAll n .vector)

def execFence (g : SG) (kind : FenceKind) (sc : Scope) (s : State) : Out :=
  s.scalar g [] fun n h =>
    match kind, sc with
    | .sv, _ => .next ((s.performAll n .scalar).updHart n Hart.nextPc)
    | .vs, _ => if h.q.run.isSome then .next s else .next ((s.performAll n .vector).updHart n Hart.nextPc)
    | .vv, _ => .next (s.updHart n fun h => { h with q := { h.q with vvFence := some h.q.ticket } }.nextPc)
    | .all, _ => s.fenceAll n fun s => .next (s.updHart n Hart.nextPc)

/-! ### The gang barrier (R245, R246) -/

def execBararv (g : SG) (sd : SReg) (s : State) : Out :=
  s.scalar g [sd] fun n _ => s.fenceAll n fun s =>
    let h := s.hart n
    let l := h.shape.launch
    let m := h.shape.hartid
    let b := (s.gang l).bar
    let done (h : Hart) : Hart := (h.wrS sd (b.gen.setWidth 64)).nextPc
    if b.part.getLsbD m = false then .next (s.updHart n done)
    else if h.q.barPend = some b.gen then .next s
    else
      let s := s.updHart n fun h => done { h with q := { h.q with barPend := some b.gen } }
      .next ((s.updGang l fun x => { x with bar := { b with arrived := b.arrived ||| (1#32 <<< m) } }).barrierCheck l)

def execBarwait (g : SG) (sd : SReg) (s : State) : Out :=
  s.scalar g [sd] fun n h =>
    match h.q.barPend with
    | none => .next (s.setHart n ((h.wrS sd 0).nextPc))
    | some x =>
      if x = (s.gang h.shape.launch).bar.gen then .next s
      else .next (s.setHart n (({ h with q := { h.q with barPend := none } }.wrS sd (h.q.barMask.setWidth 64)).nextPc))

/-- The members that are live for the barrier: those that have not committed an EXIT (R252). One whose EXIT an older convoy or command
undoes by its fault is live again for BARSET, and its PART and NPART bits stay clear (DESIGN CHOICE, log 50). -/
def State.barLive (s : State) (x : Gang) : BitVec 32 :=
  x.liveMembers.foldl (fun v m => if (s.hart (x.memberHart m)).q.status = .exiting then v else v ||| (1#32 <<< m)) 0#32

def execBarset (g : SG) (sd sa : SReg) (s : State) : Out :=
  s.scalar g [sd, sa] fun n h =>
    let x := s.gang h.shape.launch
    let want := (h.rdS sa).setWidth 32 &&& s.barLive x
    let s := s.updGang h.shape.launch fun x =>
      { x with bar := { x.bar with npart := want, part := if x.bar.arrived = 0#32 then want else x.bar.part } }
    .next (s.setHart n ((h.wrS sd (x.bar.npart.setWidth 64)).nextPc))

/-! ### Engine queues (R98, R247) -/

def execEpush (g : SG) (eng : BitVec 2) (sa : SReg) (s : State) : Out :=
  s.scalar g [sa] fun n _ => s.fenceAll n fun s =>
    let h := s.hart n
    let e := h.engine eng.toNat
    if 16 ≤ e.cmd.length then .next s
    else .next (s.setHart n ((h.setEngine eng.toNat { e with cmd := e.cmd ++ [h.rdS sa] }).nextPc))

/-- A finished command posts its result when the result queue has room (R248), and sets the latch (R256). -/
def Hart.postResults (h : Hart) (eng : Nat) : Hart :=
  let e := h.engine eng
  match e.fin with
  | r :: rest =>
    if e.res.length + r.length ≤ 16 then (h.setEngine eng { e with res := e.res ++ r, fin := rest }).setLatch else h
  | [] => h

def execEpop (g : SG) (sd : SReg) (eng : BitVec 2) (s : State) : Out :=
  s.scalar g [sd] fun n h =>
    let e := h.engine eng.toNat
    match e.res with
    | [] => .next s
    | r :: rest => .next (s.setHart n ((((h.setEngine eng.toNat { e with res := rest }).wrS sd r).postResults eng.toNat).nextPc))

/-! ### Tile stamps (R112, R250) -/

/-- Every hart of a cluster that runs a slate sets its latch (R256). -/
def State.latchCluster (s : State) (cl : Nat) : State :=
  (s.harts.filter fun e => clusterOf (coreOf e.1) == cl && decide (e.2.q.status ≠ .free)).foldl
    (fun s e => s.updHart e.1 Hart.setLatch) s

def execTstamp (g : SG) (sa sb : SReg) (s : State) : Out :=
  s.scalar g [sa, sb] fun n h =>
    match h.tile n (h.rdS sa) with
    | none => s.accessTrap n (AErr.plain 0x07#8 (h.rdS sa) .write)
    | some t => s.fenceAll n fun s =>
      let s := { s with sto := { s.sto with tags := Table.set 0 s.sto.tags t ((h.rdS sb).setWidth 16) } }
      .next ((s.latchCluster (clusterOf (coreOf n))).updHart n Hart.nextPc)

/-! ### Launch and exit (R251, R252) -/

def execLaunch (g : SG) (sd sa : SReg) (s : State) : Out :=
  s.scalar g [sd, sa] fun n h =>
    let va := h.rdS sa
    match alignErr va 64 .read with
    | some e => s.accessTrap n e
    | none => s.fenceAll n fun s =>
      match s.load n .scalar va 64 .read with
      | .error e => s.accessTrap n e
      | .ok (s, bs) =>
        let (s, v) := s.launchSlate n va (slateOf bs)
        .next (s.updHart n fun h => (h.wrS sd v).nextPc)

/-- EXIT commits: the hart issues nothing more and leaves the barrier (R245, R252). A fault that a matrix command left is taken
first (R235). -/
def execExit (g : SG) (sa : SReg) (s : State) : Out :=
  s.scalar g [sa] fun n h =>
    match h.q.mfault with
    | some m => s.takeMFault n m
    | none =>
      let off : BitVec 32 := ~~~(1#32 <<< h.shape.hartid)
      let s := s.updHart n fun h => { h with q := { h.q with status := .exiting, exitCode := (h.rdS sa).setWidth 32 } }
      .next ((s.updGang h.shape.launch fun x =>
        { x with bar := { x.bar with part := x.bar.part &&& off, npart := x.bar.npart &&& off } }).barrierCheck h.shape.launch)

/-- An exiting hart whose convoys have drained and whose matrix commands have completed ends (R252): the entry of the trace
(R304), the histogram (R306), and the gang (R261). -/
def State.finishExit (s : State) (n : Nat) : Out :=
  let h := s.hart n
  if h.q.status ≠ .exiting ∨ h.q.run.isSome ∨ h.q.queue ≠ [] ∨ s.matrixBusy n then .next s
  else match h.q.mfault with
    | some m => s.takeMFault n m
    | none =>
      let s := s.performBoth n
      let s := s.emitIf 3 n 4 0 h.sc.pc 0
        (w64 (h.shape.asid.toNat * 2 ^ 56 + h.shape.part * 2 ^ 51 + 2 ^ 32 + h.shape.launch % 65536)) (h.q.exitCode.setWidth 64)
      let s := s.histExit n
      let s := s.leaveGang n (some h.q.exitCode) 0
      let s := if h.q.step.isSome then { s with mgmt := { s.mgmt with answer := (0, 0) } } else s
      .next (s.updHart n Hart.vacate)

def execExitComplete (hart : Nat) (s : State) : Out := s.finishExit hart

/-! ### Cache and translation maintenance (R253, R254) -/

/-- An address form: translated as a load, and then `f` on the location (R253). -/
def cacheOp (s : State) (g : SG) (sa : SReg) (f : Nat → Nat → State → State) : Out :=
  s.scalar g [sa] fun n h =>
    match s.locate (s.who n) (h.rdS sa) .read with
    | .error e => s.accessTrap n e
    | .ok (s, t) => .next ((f n t.loc (s.setAD t false)).updHart n Hart.nextPc)

def execCacheIinv (g : SG) (sa : SReg) (s : State) : Out :=
  cacheOp s g sa fun n loc s => s.updCore (coreOf n) fun c => { c with icache := c.icache.filter fun e => e.1 != loc / 128 }

def execCacheIall (g : SG) (sa : SReg) (s : State) : Out :=
  cacheOp s g sa fun n _ s => s.updCore (coreOf n) fun c => { c with icache := [] }

def execCacheDinv (g : SG) (sa : SReg) (s : State) : Out :=
  cacheOp s g sa fun n loc s =>
    match placeOf loc, s.line? (loc / 128) with
    | .window, _ => s
    | _, _ => s.updCore (coreOf n) fun c => { c with l1d := c.l1d.filter (· != loc / 128) }

/-- A dirty line is written back and stays valid; the write-back counts what it corrects (R353). An uncorrectable error in the line is found all the same: in a dirty line or a
window line as R357 says, in a clean one, which is fetched again and stays valid, as R352 does (R369). -/
def State.cleanLine (s : State) (loc : Nat) : State :=
  let line := loc / 128
  let held := s.cachedHere line || decide (placeOf loc = .window)
  let s := if held ∧ (s.errOf line).unc ≠ 0 then s.detect line 0xFFFF none else s
  match placeOf loc, s.line? line with
  | .window, _ => s
  | _, some l =>
    if l.dirty then
      let s := s.correct line 0xFFFF
      let x := (s.latent line).copy
      (s.setLatent line ⟨x, ⟨0, 0, x.car⟩⟩).setLine line { l with dirty := false, behind := [] }
    else s
  | _, none => s

def execCacheClean (g : SG) (sa : SReg) (s : State) : Out := cacheOp s g sa fun _ loc s => s.cleanLine loc

def execCacheFlush (g : SG) (sa : SReg) (s : State) : Out :=
  cacheOp s g sa fun _ loc s =>
    let s := s.cleanLine loc
    if s.cachedHere (loc / 128) then s.evict (loc / 128) else s

/-- Cores within a scope of a core (R107). -/
def inScope (sc : Scope) (core k : Nat) : Bool :=
  match sc with
  | .core => core == k
  | .cl => clusterOf core == clusterOf k
  | .die => dieOf core == dieOf k
  | .mod | .sys => true

/-- A core drops TLB and micro-TLB entries. -/
def Core.dropTlb (c : Core) (p : TlbEntry → Bool) : Core :=
  let keep (l : List TlbEntry) : List TlbEntry := l.filter fun x => !p x
  { c with tlb := keep c.tlb, utlb := (upTo 0 4).foldl (fun t g => Table.set [] t g (keep (Table.get [] t g))) c.utlb }

/-- Entries are dropped on every core within the scope, once the writes that its harts made through them are visible (R253). -/
def State.dropTlb (s : State) (sc : Scope) (core : Nat) (p : TlbEntry → Bool) : State :=
  let s := (s.harts.filter fun e => inScope sc core (coreOf e.1)).foldl (fun s e => s.performBoth e.1) s
  (s.cores.filter fun e => inScope sc core e.1).foldl (fun s e => s.updCore e.1 fun c => c.dropTlb p) s

/-- A TLB form: supervisor and firmware only, and first a FENCE.ALL (R253). -/
def tlbOp (s : State) (i : Instr) (g : SG) (sa sb : SReg) (sc : Scope) (p : Word → Nat → TlbEntry → Bool) : Out :=
  s.scalar g [sa, sb] fun n h =>
    if h.sc.mode = .user then s.privilege n i
    else s.fenceAll n fun s => .next ((s.dropTlb sc (coreOf n) (p (h.rdS sa) (fld (h.rdS sb) 7 0))).updHart n Hart.nextPc)

def execCacheTlbiva (g : SG) (sa sb : SReg) (sc : Scope) (s : State) : Out :=
  tlbOp s (.cacheTlbiva g sa sb sc) g sa sb sc fun va a e =>
    decide (va.toNat / 2 ^ e.bits = e.base / 2 ^ e.bits) && (e.glob || decide (e.asid.toNat = a))

def execCacheTlbiasid (g : SG) (sa sb : SReg) (sc : Scope) (s : State) : Out :=
  tlbOp s (.cacheTlbiasid g sa sb sc) g sa sb sc fun _ a e => !e.glob && decide (e.asid.toNat = a)

def execCacheTlbiall (g : SG) (sa sb : SReg) (sc : Scope) (s : State) : Out :=
  tlbOp s (.cacheTlbiall g sa sb sc) g sa sb sc fun _ _ _ => true

/-! ### Traps asked for, and WFE (R255, R256) -/

/-- SVC: the trap falls after the instruction, once the started convoy has drained (R318). -/
def execSvc (g : SG) (x : BitVec 16) (s : State) : Out :=
  s.scalar g [] fun n h => s.drained h (s.takeTrap n (trap0 0x18#8 (x.setWidth 64)) (h.sc.pc + 8) none (h.sc.pc + 8) false)

/-- BRK: the breakpoint trap, or a debug stop while a debugger is attached (R299). -/
def execBrk (g : SG) (x : BitVec 16) (s : State) : Out :=
  s.scalar g [] fun n h => s.drained h
    (if s.mgmt.attached then .next ((s.setHart n h.nextPc).debugStop n 3 x.toNat 0 none)
     else s.takeTrap n (trap0 0x19#8 (x.setWidth 64)) (h.sc.pc + 8) none (h.sc.pc + 8) false)

def execWfe (g : SG) (s : State) : Out :=
  s.scalar g [] fun n h =>
    if h.sc.latch then .next (s.setHart n ({ h with sc := { h.sc with latch := false } }.nextPc)) else .next s

/-- The instruction at a hart's commit point, if it is a scalar one that can be fetched. -/
def State.peek (s : State) (n : Nat) : Option Instr :=
  match s.fetchWord n (s.hart n).sc.pc with
  | .ok (_, w) => (decodeIn .sc w).toOption
  | .error _ => none

/-- 65,536 control clocks have passed in a WFE: it completes (R256). -/
def execWfeTimeout (hart : Nat) (s : State) : Out :=
  let h := s.hart hart
  match s.peek hart with
  | some (.wfe g) => if h.atCommit ∧ h.guard g ∧ h.sc.latch = false then .next (s.setHart hart h.nextPc) else .next s
  | _ => .next s

end Sys2Proof.Machine
end

