-- ==== Sys2Proof/Machine/Engine.lean ====
section
/-!
DEFINITION. Engines 0 and 3, and what the engines share: commands and results (R98, R248, R292), copies and fills (R249), the
trace drain (R304), and engine errors (R364).
-/
namespace Sys2Proof.Machine

/-! ### Commands and results -/

/-- OP, TAG and operand field of a command's first entry (R248). -/
def cmdOp (e : Word) : Nat := fld e 63 56
def cmdTag (e : Word) : Nat := fld e 55 48
def cmdLow (e : Word) : Nat := fld e 47 0

/-- Entries that a command holds; 1 for a reserved OP (R248, R291). -/
def cmdEntries (eng op : Nat) : Nat :=
  if eng = 0 then (if op = 1 ∨ op = 2 then 3 else 1)
  else if eng = 1 then (if op = 0x20 ∨ op = 0x21 then 4 else 1)
  else if eng = 2 then (if op = 0x33 ∨ op = 0x34 then 3 else 1)
  else (if op = 0x10 then 2 else 1)

/-- Whether an engine has a command of this OP (R248, R291). -/
def cmdKnown (eng op : Nat) : Bool :=
  if eng = 0 then decide (1 ≤ op ∧ op ≤ 3)
  else if eng = 1 then decide (op = 0x20 ∨ op = 0x21)
  else if eng = 2 then decide (0x30 ≤ op ∧ op ≤ 0x34)
  else decide (op = 0x10)

/-- The command at the head of a queue, if all its entries are present. -/
def Hart.headCmd (h : Hart) (eng : Nat) : Option (List Word) :=
  match (h.engine eng).cmd with
  | [] => none
  | e :: r => if cmdEntries eng (cmdOp e) ≤ (e :: r).length then some ((e :: r).take (cmdEntries eng (cmdOp e))) else none

/-- The head command leaves its queue. -/
def Hart.popCmd (h : Hart) (eng : Nat) : Hart :=
  let x := h.engine eng
  match x.cmd with
  | [] => h
  | e :: _ => h.setEngine eng { x with cmd := x.cmd.drop (cmdEntries eng (cmdOp e)) }

/-- Entry 0 of a result (R248). -/
def resultWord (status tag done : Nat) : Word := w64 (status * 2 ^ 56 + tag % 256 * 2 ^ 48 + done % 2 ^ 48)

/-- A command finishes: its result enters the queue when there is room. The results of a hart that has ended are dropped
(R326). -/
def Hart.finish (h : Hart) (eng : Nat) (r : List Word) : Hart :=
  if h.q.status = .free then h
  else
    let x := h.engine eng
    (h.setEngine eng { x with fin := x.fin ++ [r] }).postResults eng

/-- The head command ends with one result entry. -/
def Hart.endCmd (h : Hart) (eng status tag done : Nat) : Hart := (h.popCmd eng).finish eng [resultWord status tag done]

/-- A finishing command holds its engine until its result has room (R248). -/
def Hart.engineFree (h : Hart) (eng : Nat) : Bool := (h.engine eng).fin.isEmpty

/-- The STATUS of a failed access (R364). -/
def engineStatus (e : AErr) : Nat :=
  if e.cause = 0x08#8 ∨ e.cause = 0x05#8 then 1 else if e.cause = 0x20#8 ∨ e.cause = 0x21#8 then 3 else 2

/-! ### Accesses (R249) -/

/-- The aligned unit of up to 8 bytes that an engine accesses at an address with `n` bytes left, ascending (R102). The division
into units is the model's (DESIGN CHOICE, log 70). -/
def unitUp (a n : Nat) : Nat :=
  if a % 8 = 0 ∧ 8 ≤ n then 8 else if a % 4 = 0 ∧ 4 ≤ n then 4 else if a % 2 = 0 ∧ 2 ≤ n then 2 else 1

/-- One aligned unit read under a context. -/
def State.readUnit (s : State) (w : Who) (va : Word) (n : Nat) : Except AErr (State × List Byte) :=
  match s.locate w va .read with
  | .error e => .error e
  | .ok (s, t) =>
    match s.readErr va t n .read with
    | some e => .error e
    | none => .ok (s.readOk t n none)

/-- One aligned unit written under a context. -/
def State.writeUnit (s : State) (w : Who) (va : Word) (bs : List Byte) : Except AErr State :=
  match s.locate w va .write with
  | .error e => .error e
  | .ok (s, t) =>
    if s.isRetired t.loc then .error ((AErr.plain 0x22#8 va .write).after t)
    else .ok ((s.setAD t true).put t.loc bs w.tag (s.caches t) none)

/-- Bytes written in ascending order: the count done, and the error that stopped them. -/
def State.putUp (w : Who) : Nat → State → Word → List Byte → Nat → State × Nat × Option AErr
  | 0, s, _, _, k => (s, k, none)
  | fuel + 1, s, va, bs, k =>
    let u := unitUp va.toNat bs.length
    if bs.isEmpty then (s, k, none)
    else match s.writeUnit w va (bs.take u) with
      | .error e => (s.applyFound e, k, some e)
      | .ok s => State.putUp w fuel s (va + w64 u) (bs.drop u) (k + u)

/-- The same in descending order: the bytes that end before `va`. -/
def State.putDown (w : Who) : Nat → State → Word → List Byte → Nat → State × Nat × Option AErr
  | 0, s, _, _, k => (s, k, none)
  | fuel + 1, s, va, bs, k =>
    let u := unitUp va.toNat bs.length
    if bs.isEmpty then (s, k, none)
    else match s.writeUnit w (va - w64 u) (bs.drop (bs.length - u)) with
      | .error e => (s.applyFound e, k, some e)
      | .ok s => State.putDown w fuel s (va - w64 u) (bs.take (bs.length - u)) (k + u)

/-- Bytes read in ascending order, up to the first that fails. -/
def State.getUp (w : Who) : Nat → State → Word → Nat → State × List Byte × Option AErr
  | 0, s, _, _ => (s, [], none)
  | fuel + 1, s, va, n =>
    let u := unitUp va.toNat n
    if n = 0 then (s, [], none)
    else match s.readUnit w va u with
      | .error e => (s.applyFound e, [], some e)
      | .ok (s, bs) =>
        let (s, more, e) := State.getUp w fuel s (va + w64 u) (n - u)
        (s, bs ++ more, e)

/-- The same in descending order: the bytes that end before `va`, down to the first that fails. -/
def State.getDown (w : Who) : Nat → State → Word → Nat → State × List Byte × Option AErr
  | 0, s, _, _ => (s, [], none)
  | fuel + 1, s, va, n =>
    let u := unitUp va.toNat n
    if n = 0 then (s, [], none)
    else match s.readUnit w (va - w64 u) u with
      | .error e => (s.applyFound e, [], some e)
      | .ok (s, bs) =>
        let (s, more, e) := State.getDown w fuel s (va - w64 u) (n - u)
        (s, more ++ bs, e)

/-- Bytes written in ascending order from `va`: the count done, and the error that stopped them. -/
def State.putBytes (s : State) (w : Who) (va : Word) (bs : List Byte) : State × Nat × Option AErr := State.putUp w bs.length s va bs 0

/-- Bytes read in ascending order. -/
def State.getBytes (s : State) (w : Who) (va : Word) (n : Nat) : Except (State × AErr) (State × List Byte) :=
  match State.getUp w n s va n with
  | (s, bs, none) => .ok (s, bs)
  | (s, _, some e) => .error (s, e)

/-- COPY: the bytes as they were before it, up to the first that fails in copy order, are written in copy order, up to the first that
fails there: the result of a copy through a temporary buffer, also where the two ranges overlap through different mappings. Descending
when the destination overlaps the source from above (R249). -/
def copyBytes (w : Who) (src dst : Word) (len : Nat) (down : Bool) (s : State) : State × Nat × Option AErr :=
  let (s, bs, e) := if down then State.getDown w len s (src + w64 len) len else State.getUp w len s src len
  match (if down then State.putDown w bs.length s (dst + w64 len) bs 0 else State.putUp w bs.length s dst bs 0) with
  | (s, k, some x) => (s, k, some x)
  | (s, k, none) => (s, k, e)

/-- The pattern byte of an address (R248). -/
def patByte (pattern a : Word) : Byte := pattern.extractLsb' (8 * (a.toNat % 8)) 8

/-- FILL: `k` bytes are done, and `left` are to come. -/
def fillBytes (w : Who) (pattern dst : Word) : Nat → State → Nat → Nat → State × Nat × Option AErr
  | 0, s, _, k => (s, k, none)
  | fuel + 1, s, left, k =>
    let a := dst + w64 k
    let u := unitUp a.toNat left
    if left = 0 then (s, k, none)
    else match s.writeUnit w a ((List.range u).map fun i => patByte pattern (a + w64 i)) with
      | .error e => (s.applyFound e, k, some e)
      | .ok s => fillBytes w pattern dst fuel s (left - u) (k + u)

/-- The end of a copy or fill: its result (R248, R364). -/
def endMove (n eng : Nat) (tag : Nat) (r : State × Nat × Option AErr) : State :=
  r.1.updHart n fun h => h.endCmd eng (match r.2.2 with | some e => engineStatus e | none => 0) tag r.2.1

/-! ### The commands of engines 0 and 3 -/

/-- A command of engine `eng` with OP `op` at the head of a hart's queue acts; otherwise nothing happens. -/
def withCmd (s : State) (n eng : Nat) (op : Nat) (f : List Word → State) : Out :=
  match (s.hart n).headCmd eng with
  | some (e :: r) => if cmdOp e = op ∧ (s.hart n).engineFree eng ∧ s.paused n = false then .next (f (e :: r)) else .next s
  | _ => .next s

def wordAt (l : List Word) (i : Nat) : Word := (l[i]?).getD 0

/-- COPY (R248, R249). The permissions of its accesses, as of every command, are those of the mode that its hart is in when it runs (DESIGN
CHOICE, log 77). -/
def execCopy (hart : Nat) (s : State) : Out :=
  withCmd s hart 0 1 fun c =>
    let len := cmdLow (wordAt c 0)
    let src := wordAt c 1
    let dst := wordAt c 2
    let down := decide (src.toNat < dst.toNat ∧ dst.toNat < src.toNat + len)
    endMove hart 0 (cmdTag (wordAt c 0)) (copyBytes (s.who hart) src dst len down s)

def execFill (hart : Nat) (s : State) : Out :=
  withCmd s hart 0 2 fun c =>
    endMove hart 0 (cmdTag (wordAt c 0)) (fillBytes (s.who hart) (wordAt c 1) (wordAt c 2) (cmdLow (wordAt c 0)) s (cmdLow (wordAt c 0)) 0)

def execNote (hart : Nat) (s : State) : Out :=
  withCmd s hart 0 3 fun c => s.updHart hart fun h => h.endCmd 0 0 (cmdTag (wordAt c 0)) 0

/-! ### DRAIN (R304) -/

def TraceRec.bytes (r : TraceRec) : List Byte :=
  toBytes 8 r.w0.toNat ++ toBytes 8 r.w1.toNat ++ toBytes 8 r.w2.toNat ++ toBytes 8 r.w3.toNat

/-- The LOST record of a hart. -/
def State.lostRec (s : State) (n : Nat) : TraceRec :=
  let h := s.hart n
  ⟨w64 (6 * 2 ^ 56 + coreOf n * 2 ^ 48 + n % 4 * 2 ^ 46 + s.clock % 2 ^ 43), w64 (fld h.sc.pc 54 3 * 4096), w64 h.trc.lost, 0⟩

/-- The drain command at the head ends; records that no DRAIN takes are dropped and counted. -/
def Hart.endDrain (h : Hart) (status : Nat) (tag done : Nat) : Hart :=
  let h := { (h.endCmd 3 status tag done) with trc := { h.trc with drained := 0 } }
  if h.draining then h else { h with trc := { h.trc with lost := h.trc.lost + h.trc.recs.length, recs := [] } }

/-- One record is written, or the command ends because it does not fit. Engine 3 does not reach a TCM (R89). -/
def State.drainOne (s : State) (n : Nat) (c : List Word) : State :=
  let h := s.hart n
  let size := cmdLow (wordAt c 0)
  let tag := cmdTag (wordAt c 0)
  let lost := decide (h.trc.lost ≠ 0 ∧ h.trc.drained = 0)
  match (if lost then some (s.lostRec n) else h.trc.recs.head?) with
  | none => s
  | some r =>
    if size < h.trc.drained + 32 then s.updHart n fun h => h.endDrain 0 tag h.trc.drained
    else
      match s.putBytes { (s.who n) with tcm := false } (wordAt c 1 + w64 h.trc.drained) r.bytes with
      | (s, k, some e) => s.updHart n fun h => h.endDrain (engineStatus e) tag (h.trc.drained + k)
      | (s, _, none) =>
        s.updHart n fun h =>
          { h with trc := { h.trc with
              drained := h.trc.drained + 32
              lost := if lost then 0 else h.trc.lost
              recs := if lost then h.trc.recs else h.trc.recs.tail } }

/-- Records that a DRAIN could write now. -/
def Hart.drainWork (h : Hart) : Nat := h.trc.recs.length + (if h.trc.lost ≠ 0 ∧ h.trc.drained = 0 then 1 else 0)

def State.drainAll (n : Nat) : Nat → State → State
  | 0, s => s
  | fuel + 1, s =>
    match (s.hart n).headCmd 3 with
    | some c => if (s.hart n).draining ∧ (s.hart n).engineFree 3 ∧ (s.hart n).drainWork ≠ 0 then State.drainAll n fuel (s.drainOne n c) else s
    | none => s

def execDrain (hart : Nat) (s : State) : Out :=
  .next (if s.paused hart then s else State.drainAll hart (2 * (s.hart hart).drainWork + 16) s)

/-! ### Reserved commands and results -/

/-- A reserved OP: one entry of the queue, and a result with status 4 (R248). Engines 1 and 2 add outcome 5 (R292, R344). -/
def execEngineReservedOp (hart : Nat) (eng : BitVec 2) (s : State) : Out :=
  let e := eng.toNat
  match (s.hart hart).headCmd e with
  | some (c :: _) =>
    if cmdKnown e (cmdOp c) ∨ (s.hart hart).engineFree e = false ∨ s.paused hart then .next s
    else .next (s.updHart hart fun h =>
      (h.popCmd e).finish e (resultWord 4 (cmdTag c) 0 :: (if e = 1 ∨ e = 2 then [0x0500000000000000#64] else [])))
  | _ => .next s

def execEngineResultPost (hart : Nat) (eng : BitVec 2) (s : State) : Out := .next (s.updHart hart fun h => h.postResults eng.toNat)

end Sys2Proof.Machine
end

