-- ==== Sys2Proof/Machine/Crypto.lean ====
section
/-!
DEFINITION. The algorithms that R286 and R287 take from named standards (log 14): SHAKE256 (FIPS 202), AES-256-GCM (NIST SP
800-38D with FIPS 197), X448 (RFC 7748) and Ed448 (RFC 8032). The names of variables are those of the standards.
-/
namespace Sys2Proof.Machine

def xorBytes (a b : List Byte) : List Byte := a.zipWith (· ^^^ ·) b

/-- Blocks of `n` bytes, the last perhaps shorter. -/
def byteBlocks (n : Nat) : Nat → List Byte → List (List Byte)
  | 0, _ => []
  | fuel + 1, l => if l.isEmpty then [] else l.take n :: byteBlocks n fuel (l.drop n)

/-- Big-endian bytes. -/
def beNat (l : List Byte) : Nat := l.foldl (fun v b => v * 256 + b.toNat) 0
def beBytes (n v : Nat) : List Byte := (toBytes n v).reverse

/-! ### SHAKE256 -/

/-- Lane (x, y) of a Keccak state is entry x + 5 y. -/
def lane (a : List Word) (x y : Nat) : Word := (a[x % 5 + 5 * (y % 5)]?).getD 0

def keccakRho : List Nat :=
  [0, 1, 62, 28, 27, 36, 44, 6, 55, 20, 3, 10, 43, 25, 39, 41, 45, 15, 21, 8, 18, 2, 61, 56, 14]

def keccakRc : List Word :=
  [0x0000000000000001#64, 0x0000000000008082#64, 0x800000000000808A#64, 0x8000000080008000#64, 0x000000000000808B#64,
   0x0000000080000001#64, 0x8000000080008081#64, 0x8000000000008009#64] ++
  [0x000000000000008A#64, 0x0000000000000088#64, 0x0000000080008009#64, 0x000000008000000A#64, 0x000000008000808B#64,
   0x800000000000008B#64, 0x8000000000008089#64, 0x8000000000008003#64] ++
  [0x8000000000008002#64, 0x8000000000000080#64, 0x000000000000800A#64, 0x800000008000000A#64, 0x8000000080008081#64,
   0x8000000000008080#64, 0x0000000080000001#64, 0x8000000080008008#64]

/-- One round of Keccak-f[1600]. -/
def keccakRound (a : List Word) (rc : Word) : List Word :=
  let col : List Word := (List.range 5).map fun x => lane a x 0 ^^^ lane a x 1 ^^^ lane a x 2 ^^^ lane a x 3 ^^^ lane a x 4
  let d (x : Nat) : Word := (col[(x + 4) % 5]?).getD 0 ^^^ ((col[(x + 1) % 5]?).getD 0).rotateLeft 1
  let t : List Word := (List.range 25).map fun i => lane a i (i / 5) ^^^ d (i % 5)
  let b : List Word := (List.range 25).map fun i =>
    let x := (i % 5 + 3 * (i / 5)) % 5
    let y := i % 5
    (lane t x y).rotateLeft ((keccakRho[x + 5 * y]?).getD 0)
  (List.range 25).map fun i =>
    let v := lane b i (i / 5) ^^^ (~~~(lane b (i + 1) (i / 5)) &&& lane b (i + 2) (i / 5))
    if i = 0 then v ^^^ rc else v

def keccakF (a : List Word) : List Word := keccakRc.foldl keccakRound a

/-- The lanes of a block of bytes, zeros beyond it. -/
def lanesOf (b : List Byte) : List Word := (List.range 25).map fun i => w64 (ofBytes ((b.drop (8 * i)).take 8))

/-- Absorb one block of the rate, 136 bytes. -/
def absorb (a : List Word) (b : List Byte) : List Word := keccakF (a.zipWith (· ^^^ ·) (lanesOf b))

/-- The message with the suffix 1111 and the padding 10*1. -/
def shakePad (m : List Byte) : List Byte :=
  let k := 136 - m.length % 136
  m ++ (if k = 1 then [0x9F#8] else 0x1F#8 :: List.replicate (k - 2) 0#8 ++ [0x80#8])

def squeeze : Nat → List Word → List Byte
  | 0, _ => []
  | k + 1, a => (a.flatMap fun l => toBytes 8 l.toNat).take 136 ++ squeeze k (keccakF a)

/-- SHAKE256 with an output of `n` bytes. -/
def shake256 (n : Nat) (m : List Byte) : List Byte :=
  let p := shakePad m
  (squeeze (n / 136 + 1) ((byteBlocks 136 p.length p).foldl absorb (List.replicate 25 0))).take n

/-! ### AES-256 and GCM -/

/-- Multiplication by x in the field of FIPS 197. -/
def aesX (b : Byte) : Byte := if b.getLsbD 7 then b <<< 1 ^^^ 0x1B#8 else b <<< 1

def aesMulF : Nat → Byte → Byte → Byte
  | 0, _, _ => 0
  | k + 1, a, b => (if b.getLsbD 0 then a else 0) ^^^ aesMulF k (aesX a) (b >>> 1)

def aesMul (a b : Byte) : Byte := aesMulF 8 a b

/-- The inverse of an element, and 0 of 0: its power 254. -/
def aesInv (a : Byte) : Byte :=
  let b := (List.range 6).foldl (fun p _ => aesMul (aesMul p p) a) a
  aesMul b b

def aesSub (a : Byte) : Byte :=
  let b := aesInv a
  b ^^^ b.rotateLeft 1 ^^^ b.rotateLeft 2 ^^^ b.rotateLeft 3 ^^^ b.rotateLeft 4 ^^^ 0x63#8

/-- Round-key words beyond the key, the newest first; `i` is the next word's number. -/
def aesExpand : Nat → Nat → List (List Byte) → List (List Byte)
  | 0, _, w => w
  | k + 1, i, w =>
    let t := w.headD []
    let t := if i % 8 = 0 then xorBytes ((t.drop 1 ++ t.take 1).map aesSub) [(List.range (i / 8 - 1)).foldl (fun b _ => aesX b) 1#8, 0, 0, 0]
      else if i % 8 = 4 then t.map aesSub else t
    aesExpand k (i + 1) (xorBytes t ((w[7]?).getD []) :: w)

/-- The fifteen round keys. -/
def aesKeys (key : List Byte) : List (List Byte) :=
  byteBlocks 16 16 ((aesExpand 52 8 (byteBlocks 4 8 key).reverse).reverse.flatten)

/-- Byte (row, column) of a state is entry row + 4 column. -/
def aesAt (s : List Byte) (r c : Nat) : Byte := (s[r % 4 + 4 * (c % 4)]?).getD 0

def aesShift (s : List Byte) : List Byte := (List.range 16).map fun i => aesAt s i (i / 4 + i % 4)

def aesMix (s : List Byte) : List Byte :=
  (List.range 16).map fun i =>
    let c := i / 4
    aesX (aesAt s i c) ^^^ aesX (aesAt s (i + 1) c) ^^^ aesAt s (i + 1) c ^^^ aesAt s (i + 2) c ^^^ aesAt s (i + 3) c

/-- The rounds after the first key: the last has no MixColumns. -/
def aesRounds : List Byte → List (List Byte) → List Byte
  | s, [] => s
  | s, [k] => xorBytes (aesShift (s.map aesSub)) k
  | s, k :: ks => aesRounds (xorBytes (aesMix (aesShift (s.map aesSub))) k) ks

/-- One block under a 32-byte key. -/
def aes256 (key block : List Byte) : List Byte :=
  match aesKeys key with
  | k :: ks => aesRounds (xorBytes block k) ks
  | [] => block

/-- Multiplication in the field of GCM: bit 127 of a block's big-endian value is its first bit. -/
def ghashMulF : Nat → Nat → Nat → Nat → Nat
  | 0, _, _, z => z
  | k + 1, x, v, z =>
    ghashMulF k x (if v.testBit 0 then v / 2 ^^^ 0xE1 * 2 ^ 120 else v / 2) (if x.testBit k then z ^^^ v else z)

def ghashMul (x y : Nat) : Nat := ghashMulF 128 x y 0

/-- A byte string as blocks, its last padded with zeros. -/
def ghashBlocks (l : List Byte) : List Nat := (byteBlocks 16 l.length l).map fun b => beNat (b ++ List.replicate (16 - b.length) 0#8)

def ghash (h : Nat) (bs : List Nat) : Nat := bs.foldl (fun y b => ghashMul (y ^^^ b) h) 0

/-- The keystream from counter `c`. -/
def gcmStream (key nonce : List Byte) : Nat → Nat → List Byte
  | 0, _ => []
  | k + 1, c => aes256 key (nonce ++ beBytes 4 c) ++ gcmStream key nonce k (c + 1)

/-- The counter mode of GCM, from counter 2. -/
def gcmCrypt (key nonce p : List Byte) : List Byte := xorBytes p (gcmStream key nonce (p.length / 16 + 1) 2)

/-- The 128-bit tag. -/
def gcmTag (key nonce aad c : List Byte) : List Byte :=
  let h := beNat (aes256 key (List.replicate 16 0#8))
  xorBytes (aes256 key (nonce ++ beBytes 4 1))
    (beBytes 16 (ghash h (ghashBlocks aad ++ ghashBlocks c ++ [8 * aad.length * 2 ^ 64 + 8 * c.length])))

def gcmSeal (key nonce aad p : List Byte) : List Byte × List Byte :=
  let c := gcmCrypt key nonce p
  (c, gcmTag key nonce aad c)

/-- The plaintext if the tag holds. -/
def gcmOpen (key nonce aad c tag : List Byte) : Option (List Byte) :=
  if gcmTag key nonce aad c = tag then some (gcmCrypt key nonce c) else none

/-! ### Arithmetic modulo the prime of curve448 -/

def p448 : Nat := 2 ^ 448 - 2 ^ 224 - 1

def powMod (n : Nat) : Nat → Nat → Nat → Nat
  | 0, _, _ => 1 % n
  | k + 1, b, e => (if e % 2 = 1 then b else 1) * powMod n k (b * b % n) (e / 2) % n

def fAdd (a b : Nat) : Nat := (a + b) % p448
def fSub (a b : Nat) : Nat := (a + p448 - b % p448) % p448
def fMul (a b : Nat) : Nat := a * b % p448
def fInv (a : Nat) : Nat := powMod p448 448 a (p448 - 2)

/-! ### X448 -/

/-- The ladder's five variables: (x2, z2), (x3, z3) and whether they are swapped. -/
structure Ladder where
  x2 : Nat
  z2 : Nat
  x3 : Nat
  z3 : Nat
  deriving DecidableEq, Repr

def Ladder.swap (l : Ladder) : Ladder := ⟨l.x3, l.z3, l.x2, l.z2⟩

def Ladder.step (u : Nat) (l : Ladder) : Ladder :=
  let a := fAdd l.x2 l.z2
  let aa := fMul a a
  let b := fSub l.x2 l.z2
  let bb := fMul b b
  let e := fSub aa bb
  let da := fMul (fSub l.x3 l.z3) a
  let cb := fMul (fAdd l.x3 l.z3) b
  ⟨fMul aa bb, fMul e (fAdd aa (39081 * e)), fMul (fAdd da cb) (fAdd da cb), fMul u (fMul (fSub da cb) (fSub da cb))⟩

/-- Bits 447 to 0 of the scalar. -/
def ladder (k u : Nat) : Nat → Ladder → Ladder
  | 0, l => l
  | t + 1, l =>
    let l := if k.testBit t then (l.swap.step u).swap else l.step u
    ladder k u t l

def x448 (priv pub : List Byte) : List Byte :=
  let k := ofBytes (priv.take 56)
  let k := k % 2 ^ 447 / 4 * 4 + 2 ^ 447
  let u := ofBytes (pub.take 56) % p448
  let l := ladder k u 448 ⟨1, 0, u, 1⟩
  toBytes 56 (fMul l.x2 (fInv l.z2))

/-- The public key of a private key. -/
def x448Public (priv : List Byte) : List Byte := x448 priv (toBytes 56 5)

/-! ### Ed448 -/

/-- A point in projective coordinates. -/
structure EdPoint where
  x : Nat
  y : Nat
  z : Nat
  deriving DecidableEq, Repr

def edD : Nat := p448 - 39081

def edOrder : Nat := 2 ^ 446 - 13818066809895115352007386748515426880336692474882178609894547503885

def edBase : EdPoint :=
  ⟨224580040295924300187604334099896036246789641632564134246125461686950415467406032909029192869357953282578032075146446173674602635247710,
    298819210078481492676017930443930673437544040154080242095928241372331506189835876003536878655418784733982303233503462500531545062832660, 1⟩

def EdPoint.add (p q : EdPoint) : EdPoint :=
  let a := fMul p.z q.z
  let b := fMul a a
  let c := fMul p.x q.x
  let d := fMul p.y q.y
  let e := fMul edD (fMul c d)
  let f := fSub b e
  let g := fAdd b e
  let h := fMul (fAdd p.x p.y) (fAdd q.x q.y)
  ⟨fMul (fMul a f) (fSub (fSub h c) d), fMul (fMul a g) (fSub d c), fMul f g⟩

/-- A multiple of a point: the low `n` bits of the scalar. -/
def EdPoint.mul (p : EdPoint) : Nat → Nat → EdPoint
  | 0, _ => ⟨0, 1, 1⟩
  | n + 1, k =>
    let r := EdPoint.mul (p.add p) n (k / 2)
    if k % 2 = 1 then r.add p else r

def EdPoint.same (p q : EdPoint) : Bool :=
  decide (fMul p.x q.z = fMul q.x p.z ∧ fMul p.y q.z = fMul q.y p.z)

/-- The 57 bytes of a point. -/
def EdPoint.bytes (p : EdPoint) : List Byte :=
  let i := fInv p.z
  toBytes 57 (fMul p.y i + fMul p.x i % 2 * 2 ^ 455)

/-- The point of 57 bytes, if they encode one. -/
def edPoint (b : List Byte) : Option EdPoint :=
  let v := ofBytes (b.take 57)
  let y := v % 2 ^ 455
  let sign := v / 2 ^ 455
  let u := fSub (fMul y y) 1
  let w := fSub (fMul edD (fMul y y)) 1
  let u3w := fMul (fMul u (fMul u u)) w
  let x := fMul u3w (powMod p448 448 (fMul (fMul u3w (fMul u u)) (fMul w w)) ((p448 - 3) / 4))
  if b.length ≠ 57 ∨ p448 ≤ y ∨ fMul w (fMul x x) ≠ u ∨ (x = 0 ∧ sign = 1) then none
  else some ⟨if x % 2 = sign then x else p448 - x, y, 1⟩

/-- The hash of Ed448 with an empty context. -/
def edHash (m : List Byte) : List Byte :=
  shake256 114 ([0x53#8, 0x69#8, 0x67#8, 0x45#8, 0x64#8, 0x34#8, 0x34#8, 0x38#8, 0#8, 0#8] ++ m)

/-- The secret scalar and the prefix of a private key. -/
def edSecret (priv : List Byte) : Nat × List Byte :=
  let h := shake256 114 priv
  (ofBytes (h.take 56) % 2 ^ 447 / 4 * 4 + 2 ^ 447, h.drop 57)

def ed448Public (priv : List Byte) : List Byte := (edBase.mul 448 (edSecret priv).1).bytes

def ed448Sign (priv m : List Byte) : List Byte :=
  let (s, pre) := edSecret priv
  let a := ed448Public priv
  let r := ofBytes (edHash (pre ++ m)) % edOrder
  let rb := (edBase.mul 448 r).bytes
  let k := ofBytes (edHash (rb ++ a ++ m)) % edOrder
  rb ++ toBytes 57 ((r + k * s) % edOrder)

def ed448Verify (pub m sig : List Byte) : Bool :=
  match edPoint pub, edPoint (sig.take 57) with
  | some a, some r =>
    let s := ofBytes (sig.drop 57)
    let k := ofBytes (edHash (sig.take 57 ++ pub ++ m)) % edOrder
    decide (sig.length = 114 ∧ s < edOrder) &&
      ((edBase.mul 448 s).mul 3 4).same ((r.add (a.mul 448 k)).mul 3 4)
  | _, _ => false

end Sys2Proof.Machine
end

