-- ==== Sys2Proof/Machine/Wire.lean ====
section
/-!
DEFINITION. What travels on a link: frame headers (R285), their protection (R287), gradient encodings (R289), ZC coding of
frames (R73 to R75, R290), and messages within data frames (log 13).
-/
namespace Sys2Proof.Machine

/-! ### Frames (R285) -/

/-- Fields of a header. -/
structure FrameHdr where
  sid : Nat
  kind : Nat
  tg : Nat
  seq : Nat
  len : Nat
  deriving DecidableEq, Repr

/-- The 16-byte header. -/
def FrameHdr.bytes (x : FrameHdr) : List Byte :=
  toBytes 16 (x.sid % 65536 + x.kind % 256 * 2 ^ 16 + x.tg % 256 * 2 ^ 24 + x.seq % 2 ^ 48 * 2 ^ 32 + x.len % 65536 * 2 ^ 80)

/-- KIND 0, 1 and 3 carry a tag. -/
def FrameHdr.tagBytes (x : FrameHdr) : Nat := if x.kind = 2 then 0 else 16

/-- The header of a frame; none where the frame is dropped: reserved bits or KIND, or a length that does not fit (R283, R285). -/
def frameHdr (f : List Byte) : Option FrameHdr :=
  let v := ofBytes (f.take 16)
  let x : FrameHdr := ⟨imgGet v 0 16, imgGet v 16 8, imgGet v 24 8, imgGet v 32 48, imgGet v 80 16⟩
  if f.length < 16 ∨ 9000 < f.length ∨ imgGet v 96 32 ≠ 0 ∨ 4 ≤ x.kind ∨ f.length ≠ 16 + x.len + x.tagBytes then none else some x

/-- The payload of a frame as it stands on the wire. -/
def framePayload (f : List Byte) : List Byte := (f.drop 16).take (ofBytes ((f.drop 10).take 2))

/-- The largest payload of a protected frame (R283). -/
def maxPayload : Nat := 9000 - 32

/-! ### Keys and protection (R286, R287) -/

/-- The 88 bytes of key material. -/
def keyMaterial (priv pub msg1 msg2 : List Byte) : List Byte := shake256 88 (x448 priv pub ++ msg1 ++ msg2)

/-- Key and salt of a direction: `fromInitiator` names it. -/
def dirKey (keys : List Byte) (fromInitiator : Bool) : List Byte := if fromInitiator then keys.take 32 else (keys.drop 32).take 32
def dirSalt (keys : List Byte) (fromInitiator : Bool) : List Byte := if fromInitiator then (keys.drop 64).take 12 else (keys.drop 76).take 12

/-- The salt XOR SEQ, as a little-endian 96-bit value. -/
def nonceOf (salt : List Byte) (seq : Nat) : List Byte := salt.zipWith (· ^^^ ·) (toBytes 12 seq)

/-- A protected frame. -/
def sealFrame (keys : List Byte) (fromInitiator : Bool) (x : FrameHdr) (payload : List Byte) : List Byte :=
  let h := { x with len := payload.length }.bytes
  let (c, t) := gcmSeal (dirKey keys fromInitiator) (nonceOf (dirSalt keys fromInitiator) x.seq) h payload
  h ++ c ++ t

/-- The payload of a protected frame whose tag holds. -/
def openFrame (keys : List Byte) (fromInitiator : Bool) (x : FrameHdr) (f : List Byte) : Option (List Byte) :=
  gcmOpen (dirKey keys fromInitiator) (nonceOf (dirSalt keys fromInitiator) x.seq) (f.take 16) (framePayload f) (f.drop (16 + x.len))

/-! ### Gradient encodings (R289) -/

/-- Wire formats that a SEND or a collective may name (R291). -/
def wireFormat (code : Nat) : Bool := [10, 11, 15, 16, 19, 20].contains code

/-- Fields of a WIRE word (R291). -/
def wireEpoch (w : Word) : Nat := fld w 63 48
def wireDeadline (w : Word) : Nat := fld w 47 32
def wireQuorum (w : Word) : Nat := fld w 31 24
def wireFmt (w : Word) : Nat := fld w 23 19
def wireZc (w : Word) : Bool := w.getLsbD 18
def wireRnd (w : Word) : Nat := fld w 17 15

/-- Largest exponents of the MX element formats (R289). -/
def emaxOf (code : Nat) : Int := if code = 15 then 8 else if code = 16 then 15 else if code = 19 then 2 else 0

/-- The E8M0 scale of a block of binary32 elements (R289); an exponent below the format's range takes its least one. -/
def blockScale (code : Nat) (xs : List (BitVec 32)) : Nat :=
  let vs := xs.map fun x => fmtF32.decode x.toNat
  if vs.any fun v => (match v with | .fin .. => false | _ => true) then 255
  else
    let tops : List Int := vs.filterMap fun v => match v with | .fin _ m _ _ => if m = 0 then none else some v.ilog | _ => none
    match tops with
    | [] => 0
    | t :: r =>
      let n := r.foldl max t - emaxOf code
      ((if n < -127 then (-127 : Int) else if 127 < n then 127 else n) + 127).toNat

/-- Blocks of 32. -/
def blocks {α : Type} : Nat → List α → List (List α)
  | 0, _ => []
  | fuel + 1, l => if l.isEmpty then [] else l.take 32 :: blocks fuel (l.drop 32)

/-- How a sender rounds: RNE, or SR over the epoch, the element's index and the sender's number (R289). -/
structure WireRnd where
  sr : Bool
  epoch : Nat
  strip : BitVec 32
  deriving DecidableEq, Repr

def WireRnd.at (r : WireRnd) (e : Nat) : Rnd :=
  if r.sr then ⟨.sr, srRandom (BitVec.ofNat 32 r.epoch) e r.strip⟩ else Rnd.rne

/-- Elements of a run under one scale as stored values, the first of index `e`, under SAT = 1 (R68). -/
def encodeRun (code : Nat) (r : WireRnd) (sc : Scale) : Nat → List (BitVec 32) → List Nat
  | _, [] => []
  | e, x :: xs => (storeConv 32 fmtF32 code x.toNat (r.at e) true sc).1 :: encodeRun code r sc (e + 1) xs

/-- A stored value as a binary32 element: one rounding under RNE (R289). -/
def decodeElem (code raw : Nat) (sc : Option Int) : BitVec 32 :=
  let v := if code = 20 then fvOfInt (sgn 8 raw) (-6) false else (codeFmt code).decode raw
  BitVec.ofNat 32 (fmtF32.round Rnd.rne false (v.scaled sc)).1

/-- Encoded elements: the scale of each block, none without scales, and the stored values. -/
def encodeElems (code : Nat) (r : WireRnd) (xs : List (BitVec 32)) : List (Option Nat × List Nat) :=
  let bs := blocks xs.length xs
  (List.range bs.length).map fun i =>
    let b := (bs[i]?).getD []
    if mxCode code then
      let k := blockScale code b
      (some k, encodeRun code r (.by (scaleExp false k)) (32 * i) b)
    else (none, encodeRun code r .one (32 * i) b)

def decodeElems (code : Nat) (l : List (Option Nat × List Nat)) : List (BitVec 32) :=
  l.flatMap fun b => b.2.map fun x => decodeElem code x (match b.1 with | some k => scaleExp false k | none => some 0)

/-- What a receiver gets of elements that were encoded. -/
def throughWire (code : Nat) (r : WireRnd) (xs : List (BitVec 32)) : List (BitVec 32) := decodeElems code (encodeElems code r xs)

/-- Bits of a stored element. -/
def storedBits (code : Nat) : Nat := if code = 19 then 4 else if code = 10 then 16 else if code = 11 then 32 else 8

/-- Blocks as bytes: a scale byte if there is one, and then the block's elements (log 13). -/
def blockBytes (code : Nat) (l : List (Option Nat × List Nat)) : List Byte :=
  l.flatMap fun b =>
    (match b.1 with | some k => [BitVec.ofNat 8 k] | none => []) ++
      toBytes (cdiv (b.2.length * storedBits code) 8) (pack (storedBits code) b.2)

/-- The values that bytes of one block hold. -/
def unpack (w : Nat) : Nat → Nat → List Nat
  | 0, _ => []
  | n + 1, v => v % 2 ^ w :: unpack w n (v / 2 ^ w)

/-- Blocks from bytes, for `n` elements. -/
def parseBlocks (code : Nat) : Nat → Nat → List Byte → List (Option Nat × List Nat)
  | 0, _, _ => []
  | fuel + 1, n, bs =>
    if n = 0 then []
    else
      let k := min 32 n
      let (sc, rest) := if mxCode code then (bs.head?.map fun b => b.toNat, bs.drop 1) else (none, bs)
      let m := cdiv (k * storedBits code) 8
      (sc, unpack (storedBits code) k (ofBytes (rest.take m))) :: parseBlocks code fuel (n - k) (rest.drop m)

/-- Elements of bytes. -/
def elemsOf : List Byte → List (BitVec 32)
  | a :: b :: c :: d :: r => BitVec.ofNat 32 (ofBytes [a, b, c, d]) :: elemsOf r
  | _ => []

def bytesOfElems (xs : List (BitVec 32)) : List Byte := xs.flatMap fun x => toBytes 4 x.toNat

/-! ### Messages (log 13) -/

/-- Bytes that the content of a message takes, from its length at the sender. -/
def contentBytes (code len : Nat) : Nat :=
  if code = 0 then len
  else
    let n := len / 4
    if mxCode code then n / 32 * (1 + 4 * storedBits code) + (if n % 32 = 0 then 0 else 1 + cdiv (n % 32 * storedBits code) 8)
    else n * storedBits code / 8

/-- The head of a message: its kind (0 a SEND, 1 a contribution, 2 a result), the length of its content at the sender and the
content's format; then, for a collective, what names it. -/
def messageHead (kind code len : Nat) (names : List Byte) : List Byte := toBytes 8 (len + code * 2 ^ 32 + kind * 2 ^ 37) ++ names

/-- The message of a SEND. -/
def messageBytes (code : Nat) (r : WireRnd) (bs : List Byte) : List Byte :=
  messageHead 0 code bs.length [] ++ (if code = 0 then bs else blockBytes code (encodeElems code r (elemsOf bs)))

/-- The message of a contribution whose elements are encoded. -/
def contributionMessage (c : Contribution) (n : Nat) (enc : List (Option Nat × List Nat)) : List Byte :=
  messageHead 1 (wireFmt c.wire) (4 * n)
    (toBytes 19 (c.group % 2 ^ 16 + c.epoch % 2 ^ 16 * 2 ^ 16 + c.member % 256 * 2 ^ 32 + c.members.toNat * 2 ^ 40 + c.wire.toNat * 2 ^ 88)) ++
    blockBytes (wireFmt c.wire) enc

/-- The message of a result whose elements are encoded. -/
def answerMessage (a : CollectiveAnswer) (code n : Nat) (enc : List (Option Nat × List Nat)) : List Byte :=
  messageHead 2 code (4 * n) (toBytes 11 (a.group % 2 ^ 16 + a.epoch % 2 ^ 16 * 2 ^ 16 + a.outcome.toNat * 2 ^ 32 + a.mask.toNat * 2 ^ 40)) ++
    blockBytes code enc

/-- The first whole message of a run of bytes, decoded as its receiver takes it, and what follows it. -/
def takeMessage (sid : Nat) (bs : List Byte) : Option (LinkMsg × List Byte) :=
  let v := ofBytes (bs.take 8)
  let len := v % 2 ^ 32
  let code := v / 2 ^ 32 % 32
  let kind := v / 2 ^ 37 % 4
  let k := if kind = 1 then 19 else if kind = 2 then 11 else 0
  let n := contentBytes code len
  if bs.length < 8 + k + n then none
  else
    let h := ofBytes ((bs.drop 8).take k)
    let c := (bs.drop (8 + k)).take n
    let xs := decodeElems code (parseBlocks code (len / 4 + 1) (len / 4) c)
    let m : LinkMsg :=
      if kind = 1 then
        .contribution ⟨sid, imgGet h 0 16, imgGet h 16 16, imgGet h 32 8, BitVec.ofNat 48 (imgGet h 40 48), w64 (imgGet h 88 64), xs⟩
      else if kind = 2 then .answer ⟨imgGet h 0 16, imgGet h 16 16, BitVec.ofNat 8 (imgGet h 32 8), BitVec.ofNat 48 (imgGet h 40 48), xs⟩
      else .bytes (if code = 0 then c else bytesOfElems xs)
    some (m, bs.drop (8 + k + n))

/-- Runs of at most `n` bytes. -/
def runsOf (n : Nat) : Nat → List Byte → List (List Byte)
  | 0, _ => []
  | fuel + 1, l => if l.isEmpty then [] else l.take n :: runsOf n fuel (l.drop n)

/-! ### ZC on the wire (R73 to R75, R290) -/

/-- The code of a symbol: its length and its value (R74). -/
def zcCode? (lens : List Nat) (b : Nat) : Nat × Nat :=
  let l := (lens[b]?).getD 0
  (l, zcFirst lens l + ((List.range b).filter fun c => (lens[c]?).getD 0 == l).length)

/-- The low `n` bits of a value, most significant first. -/
def msbBits : Nat → Nat → List Bool
  | 0, _ => []
  | n + 1, v => v.testBit n :: msbBits n v

/-- Zeros at the head of a list, at most 16. -/
def zeroRun : Nat → List Byte → Nat
  | 0, _ => 0
  | n + 1, b :: r => if b = 0#8 then 1 + zeroRun n r else 0
  | _, [] => 0

/-- The code words of bytes (R75). -/
def zcWords (lens : List Nat) : Nat → List Byte → List Bool
  | 0, _ => []
  | _, [] => []
  | fuel + 1, b :: r =>
    let c := zcCode? lens b.toNat
    if b = 0#8 then
      let n := zeroRun 16 (b :: r)
      msbBits c.1 c.2 ++ msbBits 4 (n - 1) ++ zcWords lens fuel ((b :: r).drop n)
    else msbBits c.1 c.2 ++ zcWords lens fuel r

/-- Bits as bytes, the first bit lowest. -/
def bitBytes (l : List Bool) : List Byte := toBytes (cdiv l.length 8) (l.foldr (fun b v => b.toNat + 2 * v) 0)

/-- The first `n` bytes of a coded stream; a pattern that begins no word ends it. -/
def zcStream (lens : List Nat) (v : Nat) : Nat → Nat → ZcBits → Nat → List Byte
  | 0, _, _, _ => []
  | fuel + 1, at_, z, n =>
    if n = 0 then []
    else match zcBit lens z (v.testBit at_) with
      | .inl z => zcStream lens v fuel (at_ + 1) z n
      | .inr (.word sym run _) =>
        let k := min n (zcOut sym run)
        List.replicate k (BitVec.ofNat 8 sym) ++ zcStream lens v fuel (at_ + 1) ⟨0, 0, none⟩ (n - k)
      | .inr _ => []

/-- The table of a new generation: one that the sender forms from its counts, or, where that has no code for some symbol, the
table of equal lengths (R290). -/
def newTable (counts : Table Nat) : List Byte :=
  let t := Config.zcTable ((List.range 256).flatMap fun b => toBytes 8 (Table.get 0 counts b))
  if t.length = 128 ∧ zcLegal (zcLens t) ∧ (zcLens t).all (· != 0) then t else List.replicate 128 0x88#8

/-- The payload of a compressed frame: the table if it is the generation's first, the count, and the stream. -/
def zcPayload (table : List Byte) (first : Bool) (bs : List Byte) : List Byte :=
  (if first then table else []) ++ toBytes 2 bs.length ++ bitBytes (zcWords (zcLens table) bs.length bs)

/-- The bytes of a compressed payload without its table. -/
def zcBytes (table : List Byte) (p : List Byte) : List Byte :=
  let n := ofBytes (p.take 2)
  zcStream (zcLens table) (ofBytes (p.drop 2)) (8 * p.length) 0 ⟨0, 0, none⟩ n

/-- The generation after `g`: 0 marks frames that are not compressed. -/
def nextTg (g : Nat) : Nat := if g = 255 then 1 else g + 1

/-- Bytes of a message per frame: what fits plain, and what fits under the longest code words. -/
def chunkSize (zc : Bool) : Nat := if zc then 4000 else maxPayload

end Sys2Proof.Machine
end

