-- ==== Sys2Proof/Machine/Links.lean ====
section
/-!
DEFINITION. Ports and sessions: commands of engine 2 and results (R291, R292), handshakes (R286, R287), frames and
acknowledgements (R283 to R288, R290), failures (R374), lanes and ports (R284, R373).
-/
namespace Sys2Proof.Machine

/-! ### Results of commands that wait (R248, R292) -/

/-- The two result entries of a command. -/
def pairResult (p : Pending) (status outcome mask done : Nat) : List Word :=
  [resultWord status (cmdTag (wordAt p.entries 0)) done, w64 (outcome * 2 ^ 56 + mask % 2 ^ 48)]

/-- The hart that runs a member of a gang. -/
def State.memberAt (s : State) (launch member : Nat) : Option Nat :=
  let x := s.gang launch
  if x.cores.isEmpty ∨ x.live.getLsbD member = false then none else some (x.memberHart member)

/-- A saved member takes a result. -/
def Image.post (i : Image) (p : Pending) (r : List Word) : Image :=
  { i with harts := (List.range i.harts.length).map fun m =>
      match i.harts[m]? with
      | some (some h) => some (if m = p.member then h.finish p.eng r else h)
      | _ => none }

/-- A command ends: its result goes to the member that pushed it, placed or saved (R248); that of a slate that has ended goes
nowhere. -/
def State.post (s : State) (p : Pending) (r : List Word) : State :=
  match s.memberAt p.launch p.member with
  | some n => s.updHart n fun h => h.finish p.eng r
  | none => s.updQueued p.part p.launch fun q => { q with image := q.image.map fun i => i.post p r }

def State.endPending (s : State) (p : Pending) (status outcome mask done : Nat) : State := s.post p (pairResult p status outcome mask done)

/-- The OUTCOME of a command whose access failed after `done` bytes were written (R364): a free value, but none that leaves the
buffer unchanged once bytes are in it (R292, log 13). -/
def accessOutcome (k done : Nat) : Nat :=
  let o := (Config.accessOutcome k).toNat
  if done = 0 ∨ o < 2 then o else 8

/-- The command ends on a failed access; `mask` names the members included. -/
def State.failPending (s : State) (p : Pending) (e : AErr) (mask done : Nat) : State :=
  let (k, s) := s.draw
  s.endPending p (engineStatus e) (accessOutcome k done) mask done

/-- Scratchpad units of a saved gang's window, which stay its own while a command needs them (R295, log 13). -/
def State.savedUnits (s : State) (part launch : Nat) : List Nat :=
  match (s.part part).queue.find? fun q => q.launch == launch with
  | none => []
  | some q =>
    match q.image with
    | none => []
    | some i =>
      match i.harts.findSome? id with
      | none => []
      | some h => h.shape.spad.map fun u => spadLoc i.cluster (u * 65536)

/-- The context of a command's accesses (R249): the local region of its member where that runs, or the scratchpad window that it
had; engines 1 and 2 reach no TCM (R89). -/
def State.pendWho (s : State) (p : Pending) : Who :=
  { hart := (s.memberAt p.launch p.member).getD 640, asid := p.asid, user := p.user, tag := BitVec.ofNat 9 p.asid, part := some p.part,
    tcm := false, lanes := 0, saved := if (s.memberAt p.launch p.member).isSome then [] else s.savedUnits p.part p.launch }

/-- A command of engine 1 or 2 leaves its queue and starts. -/
def withPending (s : State) (n eng op : Nat) (f : Pending → State → State) : Out :=
  withCmd s n eng op fun c =>
    let h := s.hart n
    f ⟨h.shape.launch, h.shape.hartid, h.shape.asid.toNat, decide (h.sc.mode = .user), h.shape.part, eng, c⟩ (s.updHart n fun h => h.popCmd eng)

/-! ### Sessions -/

def Session.none_ : Session :=
  ⟨16, 0, 0, false, false, none, [], 0, 0, 0, 0, [], [], [], [], [], [], 0, [], false, 0, [], [], none, [], []⟩

def State.session (s : State) (sid : Nat) : Session := Table.get Session.none_ s.links.sessions sid

/-- Whether a session number is held. -/
def State.hasSession (s : State) (sid : Nat) : Bool := s.links.sessions.any fun e => e.1 == sid

def State.setSession (s : State) (sid : Nat) (x : Session) : State :=
  { s with links := { s.links with sessions := Table.set Session.none_ s.links.sessions sid x } }

def State.updSession (s : State) (sid : Nat) (f : Session → Session) : State := s.setSession sid (f (s.session sid))
def State.dropSession (s : State) (sid : Nat) : State := s.setSession sid Session.none_

def Port.none_ : Port := ⟨false, false, false⟩
def State.port (s : State) (p : Nat) : Port := Table.get Port.none_ s.links.ports p
def State.setPort (s : State) (p : Nat) (x : Port) : State :=
  { s with links := { s.links with ports := Table.set Port.none_ s.links.ports p x } }

/-- The partition that a port works for: its owner, or network management on the protected port (R283, R284). -/
def State.portPart (s : State) (p : Nat) : Option Nat :=
  if s.links.protectedPort = some p then some 32 else s.partsList.find? fun q => (s.part q).ports.contains p

/-- How the frames of a session travel (R283). -/
def State.carriage (s : State) (x : Session) : Carriage :=
  if Config.remoteSite x.part x.peer then .udp s.links.udpPort else .ethernet s.links.etherType

/-- A frame of a session leaves its port, if that is up and works for the session's partition (R283, R284). -/
def State.sendFrame (s : State) (x : Session) (f : List Byte) : State :=
  if (s.port x.port).up ∧ s.portPart x.port = some x.part then
    { s with links := { s.links with sent := s.links.sent ++ [⟨x.port, s.carriage x, f⟩] } }
  else s

/-- A fresh session number (R374). -/
def State.freshSid (s : State) : Nat × State :=
  let k := s.links.nextSid
  let n := ((upTo 0 1025).find? fun i => !s.hasSession ((k + i - 1) % 65535 + 1)).getD 0
  let sid := (k + n - 1) % 65535 + 1
  (sid, { s with links := { s.links with nextSid := sid % 65535 + 1 } })

/-- A protected frame of a session, with the next SEQ of its direction (R285, R287). -/
def State.protect (s : State) (sid kind tg : Nat) (payload : List Byte) : State × List Byte × Nat :=
  let x := s.session sid
  let f := sealFrame x.keys x.initiator ⟨x.remote, kind, tg, x.txSeq, payload.length⟩ payload
  ((s.setSession sid { x with txSeq := x.txSeq + 1 }).sendFrame x f, f, x.txSeq)

/-- The lowest SEQ of a data frame without acknowledgement, or the next SEQ: what its receiver misses below it is no data frame
(log 13). -/
def Session.floor (x : Session) : Nat := (x.unacked.head?.map (·.seq)).getD x.txSeq

/-- An acknowledgement (R288): the highest SEQ below which every frame is held, and the sender's own floor. -/
def State.sendAck (s : State) (sid : Nat) : State :=
  let x := s.session sid
  (s.protect sid 1 0 (toBytes 6 (x.rxNext - 1) ++ toBytes 6 x.floor)).1

/-! ### Failure (R374, R375) -/

/-- Members of collectives that wait for a coordinator behind this session end at once with outcome 3 (R375). -/
def State.loseCoordinator (s : State) (sid : Nat) : State :=
  let behind (c : Collective) : Bool :=
    let g := Table.get ⟨[], 0⟩ s.links.groups c.group
    let k := ((upTo 0 48).find? fun i => c.members.getLsbD i).getD 0
    k != g.self && decide ((g.sids[k]?).getD 65536 = sid)
  let s' := { s with links := { s.links with colls := s.links.colls.filter fun c => !behind c } }
  (s.links.colls.filter behind).foldl (fun s c => s.endPending c.cmd 0 3 0 0) s'

/-- Commands that wait on a session. -/
def Session.commands (x : Session) : List Pending :=
  x.opener.toList ++ (match x.hs with | some h => h.cmd.toList | none => []) ++ x.sends.filterMap (·.cmd) ++ x.recvs

/-- A session is over: its commands end with an outcome, its number is free (R374), and contributions that came over it and are
not included never are (R375). -/
def State.endSession (s : State) (sid outcome : Nat) : State :=
  let cmds := (s.session sid).commands
  let s := s.dropSession sid
  let s := { s with links := { s.links with held := s.links.held.filter fun c => c.sid != sid } }
  (cmds.foldl (fun s p => s.endPending p 0 outcome 0 0) s).loseCoordinator sid

/-- A session fails, and the reason is recorded (R371, R372, R374). -/
def State.failSession (s : State) (sid reason : Nat) : State :=
  if s.hasSession sid then
    let p := (s.session sid).part
    let s := s.endSession sid 4
    if p < 32 then s.addEvt p 3 (reason * 2 ^ 32 + sid) else s
  else s

/-! ### Sending (R288, R290) -/

/-- Bytes of unacknowledged frames. -/
def Session.stored (x : Session) : Nat := x.unacked.foldl (fun n u => n + u.bytes.length) 0

/-- The generation for the next compressed frame (R290): the first one, or a new one that the sender chooses. -/
def State.generation (s : State) (sid : Nat) : State :=
  let x := s.session sid
  let prev := if x.tg = 1 then 255 else x.tg - 1
  if x.tg = 0 then s.setSession sid { x with tg := 1, table := newTable [], fresh := true }
  else if 64 ≤ x.acked ∧ !x.unacked.any (fun u => u.tg == prev) then
    let (k, s) := s.draw
    if Config.zcMove k then
      s.setSession sid { x with tg := nextTg x.tg, table := newTable x.counts, fresh := true, acked := 0, counts := [] }
    else s
  else s

/-- The payload of a data frame that holds a run of bytes. -/
def Session.payload (x : Session) (zc : Bool) (c : List Byte) : List Byte := if zc then zcPayload x.table x.fresh c else c

/-- One data frame is formed and kept (R288). -/
def State.sendChunk (s : State) (sid : Nat) (zc : Bool) (c : List Byte) : State :=
  let x := s.session sid
  let tg := if zc then x.tg else 0
  let (s, f, seq) := s.protect sid 0 tg (x.payload zc c)
  s.updSession sid fun x =>
    { x with unacked := x.unacked ++ [⟨seq, f, 0, tg, if zc then c else []⟩], fresh := if zc then false else x.fresh }

/-- Frames are formed while 4 MiB hold them (R288); a SEND ends once all its bytes are in frames. No frame is formed while keys
change. -/
def State.pump (sid : Nat) : Nat → State → State
  | 0, s => s
  | fuel + 1, s =>
    let x := s.session sid
    if x.opened = false ∨ x.hs.isSome then s
    else match x.sends with
      | [] => s
      | q :: rest =>
        match q.chunks with
        | [] =>
          let s := s.setSession sid { x with sends := rest }
          State.pump sid fuel (match q.cmd with | some p => s.endPending p 0 0 0 0 | none => s)
        | c :: more =>
          let t := if q.zc then s.generation sid else s
          let y := t.session sid
          if 4194304 < x.stored + 32 + (y.payload q.zc c).length then s
          else State.pump sid fuel ((t.setSession sid { y with sends := { q with chunks := more } :: rest }).sendChunk sid q.zc c)

/-- Fuel that lets every chunk go. -/
def Session.work (x : Session) : Nat := x.sends.foldl (fun n q => n + q.chunks.length + 1) 1

def State.pumpAll (s : State) (sid : Nat) : State := State.pump sid (s.session sid).work s

/-- A message goes out over a session. -/
def State.sendMessage (s : State) (sid : Nat) (cmd : Option Pending) (zc : Bool) (m : List Byte) : State :=
  (s.updSession sid fun x => { x with sends := x.sends ++ [⟨cmd, runsOf (chunkSize zc) m.length m, zc⟩] }).pumpAll sid

/-! ### Receiving (R287, R288) -/

/-- A RECV takes the next message (R292). -/
def State.deliver (sid : Nat) : Nat → State → State
  | 0, s => s
  | fuel + 1, s =>
    let x := s.session sid
    match x.recvs, x.inbox with
    | p :: ps, m :: ms =>
      let top := cmdLow (wordAt p.entries 0) % 2 ^ 32
      let s := s.setSession sid { x with recvs := ps, inbox := ms }
      let s := match s.putBytes (s.pendWho p) (wordAt p.entries 1) (m.take top) with
        | (s, k, some e) => s.failPending p e 0 k
        | (s, k, none) => s.endPending p 0 (if top < m.length then 8 else 0) 0 k
      State.deliver sid fuel s
    | _, _ => s

/-- Messages that the bytes in order complete. -/
def Session.messages (sid : Nat) : Nat → Session → Session
  | 0, x => x
  | fuel + 1, x =>
    if x.asm.length < 8 then x
    else match takeMessage sid x.asm with
      | none => x
      | some (.bytes m, rest) => Session.messages sid fuel { x with asm := rest, inbox := x.inbox ++ [m] }
      | some (m, rest) => Session.messages sid fuel { x with asm := rest, came := x.came ++ [m] }

/-- The bytes of a data frame, once its turn in order has come; a frame of a new generation brings its table, and the one before
the last is forgotten (R290). -/
def Session.consume (x : Session) (e : Early) : Session :=
  if e.tg = 0 then { x with asm := x.asm ++ e.payload }
  else
    let known := x.rxTables.any fun t => t.1 == e.tg
    let table := if known then Table.get [] x.rxTables e.tg else e.payload.take 128
    let body := if known then e.payload else e.payload.drop 128
    let prev := if e.tg = 1 then 255 else e.tg - 1
    let tabs := (Table.set [] x.rxTables e.tg table).filter fun t => t.1 == e.tg || t.1 == prev
    { x with rxTables := if known then x.rxTables else tabs, asm := x.asm ++ zcBytes table body }

/-- Frames that stand next in order. -/
def Session.advance : Nat → Session → Session
  | 0, x => x
  | fuel + 1, x =>
    match x.early.find? fun e => e.seq == x.rxNext with
    | none => x
    | some e =>
      Session.advance fuel ({ x with rxNext := x.rxNext + 1, early := x.early.filter fun y => y.seq != e.seq }.consume e)

/-- A frame's checks (R283, R287): the session that it names at its port, which works for the session's partition, and the tag.
It is new where its SEQ is within the window and was not accepted before. -/
def State.accept (s : State) (port kind : Nat) (f : List Byte) : Option (Nat × FrameHdr × Bool × List Byte) :=
  match frameHdr f with
  | none => none
  | some x =>
    let y := s.session x.sid
    if s.hasSession x.sid = false ∨ y.port ≠ port ∨ s.portPart port ≠ some y.part ∨ x.kind ≠ kind ∨ y.opened = false ∨ (s.port port).up = false ∨ x.seq = 0 then none
    else (openFrame y.keys (!y.initiator) x f).map fun p => (x.sid, x, !(y.rxSeen.contains x.seq || decide (x.seq + 4096 ≤ y.rxHigh)), p)

/-- Frames below a floor that were not received are no data frames (log 13). -/
def Session.skipTo (x : Session) (n : Nat) : Session :=
  { x with rxNext := max x.rxNext n, early := x.early.filter fun e => decide (n ≤ e.seq) }

/-- An accepted frame is marked and taken in order, above the floor `fl`; frames that carry no message count for the order
alone. -/
def Session.mark (x : Session) (sid fl : Nat) (e : Early) : Session :=
  let high := max x.rxHigh e.seq
  let x := { x with rxHigh := high, rxSeen := (e.seq :: x.rxSeen).filter fun q => decide (high < q + 4096), early := e :: x.early }.skipTo fl
  let x := x.advance x.early.length
  x.messages sid (x.asm.length / 8 + 1)

/-- A data frame is accepted and acknowledged (R288), and its messages are delivered to RECVs. One that was accepted before is
dropped and acknowledged again. -/
def State.takeData (s : State) (sid : Nat) (x : FrameHdr) (fresh : Bool) (p : List Byte) : State :=
  if fresh then
    let s := (s.updSession sid fun y => y.mark sid y.rxNext ⟨x.seq, x.tg, p⟩).sendAck sid
    State.deliver sid ((s.session sid).inbox.length + 1) s
  else s.sendAck sid

/-! ### Handshakes (R286, R287) -/

/-- Public key, identity key and nonce of this module. -/
def ownItems (priv nonce : List Byte) : List Byte := x448Public priv ++ ed448Public Config.identitySeed ++ nonce

def itemPub (m : List Byte) : List Byte := m.take 56
def itemKey (m : List Byte) : List Byte := (m.drop 56).take 57

/-- A partition's peer table (R286). -/
def State.peerKey (s : State) (part i : Nat) : List Byte := Table.get [] s.links.peers (1024 * part + i)

/-- The entry of a partition's peer table that holds an identity key. -/
def State.peerOf (s : State) (part : Nat) (key : List Byte) : Option Nat :=
  (List.range 1024).find? fun i => s.peerKey part i == key && !key.isEmpty

/-- A handshake frame. One under current keys takes its direction's next SEQ (R285); before a session has keys, SEQ holds the
sender's number for the session (log 13). -/
def State.sendHandshake (s : State) (sid : Nat) (m : List Byte) : State :=
  let x := s.session sid
  let f := FrameHdr.bytes ⟨x.remote, 2, 0, if x.opened then x.txSeq else sid, m.length⟩ ++ m
  (if x.opened then s.setSession sid { x with txSeq := x.txSeq + 1 } else s).sendFrame x f

/-- Private key and message 1 of an initiator. -/
def State.newHandshake (s : State) (cmd : Option Pending) : Handshake × State :=
  let (k, s) := s.draw
  let priv := Config.randomBytes 56 k
  (⟨true, true, priv, ownItems priv (Config.randomBytes 32 (k + 1)), [], cmd⟩, { s with free := s.free + 1 })

/-- A responder sends message 2, once none of its frames is unacknowledged. -/
def State.answerHandshake (s : State) (sid : Nat) : State :=
  let x := s.session sid
  match x.hs with
  | some h =>
    if h.initiator ∨ h.answered ∨ x.unacked ≠ [] then s
    else
      let (k, s) := s.draw
      let priv := Config.randomBytes 56 k
      let items := ownItems priv (Config.randomBytes 32 (k + 1))
      let msg2 := items ++ ed448Sign Config.identitySeed (h.msg1 ++ items)
      let s := { s with free := s.free + 1 }
      (s.setSession sid { x with hs := some { h with answered := true, priv := priv, msg2 := msg2 } }).sendHandshake sid msg2
  | none => s

/-- New keys: SEQ restarts at 1 in both directions. -/
def Session.install (x : Session) (h : Handshake) (pub : List Byte) (msg2 : List Byte) : Session :=
  { x with
    opened := true, hs := none, initiator := h.initiator, keys := keyMaterial h.priv pub h.msg1 msg2
    txSeq := 1, rxNext := 1, rxHigh := 0, rxSeen := [], early := [] }

/-- A handshake that a signature or a key ends: the OPEN or REKEY ends with outcome 6 (R286). A rekeyed session fails, and its SEND
and RECV commands end with outcome 4 (R374). -/
def State.failHandshake (s : State) (sid : Nat) : State :=
  let x := s.session sid
  if x.opened then
    (match x.hs.bind (·.cmd) with
      | some p => (s.setSession sid { x with hs := none }).endPending p 0 6 0 0
      | none => s).failSession sid 4
  else s.endSession sid 6

def handshakeFrame (f : List Byte) (len : Nat) : Option FrameHdr :=
  match frameHdr f with
  | some x => if x.kind = 2 ∧ x.len = len then some x else none
  | none => none

def execHandshakeMessage1 (port : Nat) (f : List Byte) (s : State) : Out :=
  match handshakeFrame f 145, s.portPart port, (s.portPart port).bind fun p => s.peerOf p (itemKey (framePayload f)) with
  | some x, some p, some peer =>
    let h : Handshake := ⟨false, false, [], framePayload f, [], none⟩
    if (s.port port).up = false then .next s
    else if x.sid = 0 then
      if 1024 ≤ s.links.sessions.length then .next s
      else
        let (sid, s) := s.freshSid
        .next ((s.setSession sid { Session.none_ with port := port, peer := peer, part := p, remote := x.seq, hs := some h }).answerHandshake sid)
    else
      let y := s.session x.sid
      if s.hasSession x.sid = false ∨ y.port ≠ port ∨ y.part ≠ p ∨ y.opened = false ∨ y.hs.isSome ∨ y.peer ≠ peer then .next s
      else .next ((s.setSession x.sid { y with hs := some h }).answerHandshake x.sid)
  | _, _, _ => .next s

def execHandshakeMessage2 (port : Nat) (f : List Byte) (s : State) : Out :=
  match handshakeFrame f 259 with
  | none => .next s
  | some x =>
    let y := s.session x.sid
    match y.hs with
    | none => .next s
    | some h =>
      let m := framePayload f
      if s.hasSession x.sid = false ∨ y.port ≠ port ∨ s.portPart port ≠ some y.part ∨ h.initiator = false ∨ (s.port port).up = false then .next s
      else if itemKey m ≠ s.peerKey y.part y.peer ∨ ed448Verify (itemKey m) (h.msg1 ++ m.take 145) (m.drop 145) = false then
        .next (s.failHandshake x.sid)
      else
        let s := s.setSession x.sid { y with remote := if y.opened then y.remote else x.seq }
        let s := s.sendHandshake x.sid (ed448Sign Config.identitySeed (h.msg1 ++ m))
        let s := s.updSession x.sid fun y => { (y.install h (itemPub m) m) with opener := none }
        let s := match y.opener with | some p => s.endPending p 0 0 x.sid 0 | none => s
        let s := match h.cmd with | some p => s.endPending p 0 0 0 0 | none => s
        .next (s.pumpAll x.sid)

def execHandshakeMessage3 (port : Nat) (f : List Byte) (s : State) : Out :=
  match handshakeFrame f 114 with
  | none => .next s
  | some x =>
    let y := s.session x.sid
    match y.hs with
    | none => .next s
    | some h =>
      if s.hasSession x.sid = false ∨ y.port ≠ port ∨ s.portPart port ≠ some y.part ∨ h.initiator ∨ h.answered = false ∨ (s.port port).up = false then .next s
      else if ed448Verify (itemKey h.msg1) (h.msg1 ++ h.msg2) (framePayload f) = false then .next (s.failHandshake x.sid)
      else .next ((s.setSession x.sid (y.install h (itemPub h.msg1) h.msg2)).pumpAll x.sid)

/-! ### Acknowledgements, closing, dropped frames (R285, R288, R374) -/

/-- Symbols of acknowledged compressed frames are counted (R290). -/
def Session.countAcked (x : Session) (l : List Unacked) : Session :=
  l.foldl (fun x u =>
    if u.tg = 0 then x
    else { x with
      acked := x.acked + 1
      counts := u.plain.foldl (fun t b => Table.set 0 t b.toNat (Table.get 0 t b.toNat + 1)) x.counts }) x

def execAcknowledgement (port : Nat) (f : List Byte) (s : State) : Out :=
  match s.accept port 1 f with
  | none => .next s
  | some (_, _, false, _) => .next s
  | some (sid, x, true, p) =>
    let n := ofBytes (p.take 6)
    let s := s.updSession sid fun y =>
      let y := y.mark sid (ofBytes ((p.drop 6).take 6)) ⟨x.seq, 0, []⟩
      { (y.countAcked (y.unacked.filter fun u => decide (u.seq ≤ n))) with unacked := y.unacked.filter fun u => decide (n < u.seq) }
    .next ((s.pumpAll sid).answerHandshake sid)

/-- A close frame ends the session: a failure with reason 5 with commands pending (R374). -/
def execCloseFrame (port : Nat) (f : List Byte) (s : State) : Out :=
  match s.accept port 3 f with
  | none => .next s
  | some (_, _, false, _) => .next s
  | some (sid, _, true, _) => .next (if (s.session sid).commands.isEmpty then s.endSession sid 4 else s.failSession sid 5)

/-- A frame of a reserved KIND, or with nonzero reserved bits, is dropped (R285). -/
def execReservedKindFrame (_port : Nat) (_f : List Byte) (s : State) : Out := .next s

/-! ### Timers (R287, R288, R292, R374) -/

/-- An unacknowledged frame, named by its SEQ, goes again unchanged, and the floor with it (log 13); after 16 times the session
fails. -/
def execResendTimer (sid seq : Nat) (s : State) : Out :=
  let x := s.session sid
  match x.unacked.find? fun u => u.seq == seq with
  | none => .next s
  | some u =>
    if 16 ≤ u.resends then .next (s.failSession sid 1)
    else
      let l := x.unacked.map fun v => if v.seq = seq then { v with resends := v.resends + 1 } else v
      .next (((s.setSession sid { x with unacked := l }).sendFrame x u.bytes).sendAck sid)

def execNoFrameTimeout (sid : Nat) (s : State) : Out := .next (if (s.session sid).unacked.isEmpty then s else s.failSession sid 2)

/-- A rekey handshake that has not ended after 10 s. -/
def execRekeyTimeout (sid : Nat) (s : State) : Out :=
  let x := s.session sid
  .next (if x.opened ∧ x.hs.isSome then s.failSession sid 4 else s)

/-- An OPEN that has not ended after 10 s (R292). -/
def execOpenTimeout (sid : Nat) (s : State) : Out :=
  let x := s.session sid
  .next (if x.opened = false ∧ s.hasSession sid then s.endSession sid 7 else s)

/-- An open session begins a new handshake under its number, once none of its frames is unacknowledged. -/
def State.startRekey (s : State) (sid : Nat) (cmd : Option Pending) : State :=
  let (h, s) := s.newHandshake cmd
  (s.updSession sid fun x => { x with hs := some h }).sendHandshake sid h.msg1

/-- A session can begin a new handshake. -/
def Session.mayRekey (x : Session) : Bool := x.opened && x.hs.isNone && x.unacked.isEmpty

/-- 2^32 frames have gone in one direction (R287). -/
def execFrameCountRekey (sid : Nat) (s : State) : Out :=
  let x := s.session sid
  .next (if x.mayRekey ∧ (2 ^ 32 < x.txSeq ∨ 2 ^ 32 ≤ x.rxHigh) then s.startRekey sid none else s)

/-! ### The commands of engine 2 (R291, R292) -/

/-- The session that a command names, if the hart's partition holds it. -/
def State.ownSession (s : State) (p : Pending) (sid : Nat) : Bool := s.hasSession sid && decide ((s.session sid).part = p.part)

/-- OPEN. -/
def execLinkOpen (hart : Nat) (s : State) : Out :=
  withPending s hart 2 0x30 fun p s =>
    let e := cmdLow (wordAt p.entries 0)
    let port := e / 2 ^ 44
    if e % 2 ^ 32 ≠ 0 ∨ e / 2 ^ 42 % 4 ≠ 0 ∨ s.portPart port ≠ some p.part ∨ 1024 ≤ s.links.sessions.length then s.endPending p 0 5 0 0
    else
      let (sid, s) := s.freshSid
      let (h, s) := s.newHandshake none
      (s.setSession sid { Session.none_ with
        port := port, peer := e / 2 ^ 32 % 1024, part := p.part, initiator := true, hs := some h, opener := some p }).sendHandshake sid h.msg1

/-- CLOSE: a KIND 3 frame, and the session is over; commands that wait on it end with outcome 4. -/
def execLinkClose (hart : Nat) (s : State) : Out :=
  withPending s hart 2 0x31 fun p s =>
    let e := cmdLow (wordAt p.entries 0)
    let sid := e % 65536
    if 65536 ≤ e then s.endPending p 0 5 0 0
    else if s.ownSession p sid = false then s.endPending p 0 4 0 0
    else
      let s := if (s.session sid).opened then (s.protect sid 3 0 []).1 else s
      (s.endSession sid 4).endPending p 0 0 0 0

/-- REKEY: it waits while the session's frames are unacknowledged or another handshake runs. -/
def execRekey (hart : Nat) (s : State) : Out :=
  let sid := match (s.hart hart).headCmd 2 with | some c => cmdLow (wordAt c 0) % 65536 | none => 0
  let x := s.session sid
  if x.opened ∧ x.part = (s.hart hart).shape.part ∧ x.mayRekey = false then .next s
  else withPending s hart 2 0x32 fun p s =>
    let e := cmdLow (wordAt p.entries 0)
    if 65536 ≤ e then s.endPending p 0 5 0 0
    else if s.ownSession p sid = false ∨ x.opened = false then s.endPending p 0 4 0 0
    else s.startRekey sid (some p)

/-- The WIRE of a SEND that is malformed (R291) or that names a feature the partition lacks (R311). -/
def State.sendBad (s : State) (p : Nat) (w : Word) (len : Nat) : Bool :=
  let f := wireFmt w
  decide (w &&& 0xFFFFFFFFFF007FFF#64 ≠ 0) || !(f == 0 || wireFormat f) || decide (wireRnd w ≠ 0 ∧ wireRnd w ≠ 5) ||
    (wireZc w && !(zcCode f && s.accepts p 1)) || (wireRnd w == 5 && !s.accepts p 5) || decide (f ≠ 0 ∧ len % 4 ≠ 0)

/-- SEND: the source is read once, and its frames leave as room allows (R288). -/
def execSend (hart : Nat) (s : State) : Out :=
  withPending s hart 2 0x33 fun p s =>
    let e := cmdLow (wordAt p.entries 0)
    let sid := e / 2 ^ 32
    let len := e % 2 ^ 32
    let w := wordAt p.entries 2
    if s.sendBad p.part w len then s.endPending p 0 5 0 0
    else if s.ownSession p sid = false then s.endPending p 0 4 0 0
    else match s.getBytes (s.pendWho p) (wordAt p.entries 1) len with
      | .error (s, e) => s.failPending p e 0 0
      | .ok (s, bs) =>
        s.sendMessage sid (some p) (wireZc w) (messageBytes (wireFmt w) ⟨wireRnd w == 5, 0, 0⟩ bs)

/-- RECV: it takes the session's next message, now or when it comes. -/
def execRecv (hart : Nat) (s : State) : Out :=
  withPending s hart 2 0x34 fun p s =>
    let sid := cmdLow (wordAt p.entries 0) / 2 ^ 32
    if wordAt p.entries 2 ≠ 0 then s.endPending p 0 5 0 0
    else if s.ownSession p sid = false then s.endPending p 0 4 0 0
    else
      let s := s.updSession sid fun x => { x with recvs := x.recvs ++ [p] }
      State.deliver sid (s.session sid).recvs.length s

/-! ### Lanes and ports (R284, R373) -/

/-- A record about a port: to its partition, or to every partition for the protected port (R284, R371). -/
def State.portEvent (s : State) (port kind data : Nat) : State :=
  match s.portPart port with
  | some 32 => s.addEvtAll kind data
  | some p => s.addEvt p kind data
  | none => s

/-- A port goes down: its sessions fail, and the protected role moves to the lowest port that is up and free (R284, R373). -/
def State.portDown (s : State) (port : Nat) : State :=
  let s := (s.portEvent port 2 (port * 256)).setPort port ⟨false, true, false⟩
  let s := ((s.links.sessions.filter fun e => e.2.port == port).map (·.1)).foldl (fun s sid => s.failSession sid 3) s
  if s.links.protectedPort = some port then
    { s with links := { s.links with
      protectedPort := (upTo 0 16).find? fun q => (s.port q).up && !s.partsList.any fun p => (s.part p).ports.contains q } }
  else s

/-- A lane is lost: the spare takes over and the port retrains, or the port goes down (R373). -/
def State.loseLane (s : State) (port lane : Nat) : State :=
  let x := s.port port
  if x.up = false then s
  else if x.spareUsed then s.portDown port
  else (s.portEvent port 1 (port * 256 + lane % 8)).setPort port { x with spareUsed := true, retraining := true }

def execLaneFailure (port lane : Nat) (s : State) : Out := .next (s.loseLane port lane)

/-- A lane's corrected-error rate over 1 s passed the threshold, or it did not. -/
def execLaneErrorRateWindow (port lane : Nat) (high : Bool) (s : State) : Out := .next (if high then s.loseLane port lane else s)

def execPortRetrainComplete (port : Nat) (s : State) : Out :=
  let x := s.port port
  .next (if x.retraining then s.setPort port { x with retraining := false } else s)

end Sys2Proof.Machine
end

