-- ==== Sys2Proof/Machine/Collect.lean ====
section
/-!
DEFINITION. Delay-tolerant collectives (R291, R293 to R296, R375).
-/
namespace Sys2Proof.Machine

/-! ### Members -/

def Group.none_ : Group := ⟨[], 0⟩
def State.group (s : State) (g : Nat) : Group := Table.get Group.none_ s.links.groups g

/-- The coordinator: the lowest index in MEMBERS. -/
def coordinatorOf (m : BitVec 48) : Nat := ((upTo 0 48).find? fun i => m.getLsbD i).getD 0

/-- The indices in MEMBERS. -/
def memberList (m : BitVec 48) : List Nat := (upTo 0 48).filter fun i => m.getLsbD i

def Collective.epoch (c : Collective) : Nat := wireEpoch c.wire

/-- The collective of a group and an epoch that is in flight on this module. -/
def State.collective (s : State) (group epoch : Nat) : Option Collective :=
  s.links.colls.find? fun c => c.group == group && c.epoch == epoch

/-- Whether this module coordinates a collective. -/
def State.coordinates (s : State) (c : Collective) : Bool := coordinatorOf c.members == (s.group c.group).self

def State.dropCollective (s : State) (c : Collective) : State :=
  { s with links := { s.links with colls := s.links.colls.filter fun x => !(x.group == c.group && x.epoch == c.epoch) } }

def State.setCollective (s : State) (c : Collective) : State :=
  { s with links := { s.links with colls := s.links.colls.map fun x => if x.group = c.group ∧ x.epoch = c.epoch then c else x } }

/-- The session to a member that a partition's collective uses, while it is open (R375): one of the partition, as for any command
of a session. The protected port's belong to none (R284). -/
def State.reach (s : State) (part group i : Nat) : Option Nat :=
  match (s.group group).sids[i]? with
  | some sid => if (s.session sid).opened ∧ (s.session sid).part = part ∧ part < 32 then some sid else none
  | none => none

/-! ### Results (R292, R294) -/

/-- A member writes the result into its buffer and posts its entries; under outcome 2 or 3 the buffer stays (R292). -/
def State.writeResult (s : State) (c : Collective) (a : CollectiveAnswer) : State :=
  if 2 ≤ a.outcome.toNat then s.endPending c.cmd 0 a.outcome.toNat a.mask.toNat 0
  else match s.putBytes (s.pendWho c.cmd) (wordAt c.cmd.entries 1) (bytesOfElems a.elems) with
    | (s, k, some e) => s.failPending c.cmd e a.mask.toNat k
    | (s, k, none) => s.endPending c.cmd 0 a.outcome.toNat a.mask.toNat k

/-- Element `k` of a contribution; past its end the sum takes a value that the manual does not give (log 13). -/
def elemAt (l : List (BitVec 32)) (k : Nat) : BitVec 32 :=
  match l[k]? with
  | some x => x
  | none => Config.missingElement k

/-- The sum in ascending member index: each addition rounds under RNE (R294). -/
def sumElems (count : Nat) : List (List (BitVec 32)) → List (BitVec 32)
  | [] => []
  | x :: r =>
    (List.range count).map fun k =>
      r.foldl (fun (v : BitVec 32) y => BitVec.ofNat 32 (fmtF32.fadd Rnd.rne v.toNat (elemAt y k).toNat).1) (elemAt x k)

/-- How this sender rounds for the wire (R289). -/
def wireRounding (w : Word) (strip : BitVec 32) : WireRnd := ⟨wireRnd w == 5, wireEpoch w, strip⟩

/-- Members included. -/
def Collective.included (c : Collective) : List Nat := (memberList c.members).filter fun i => c.parts.any fun p => p.1 == i

/-- Fewer than QUORUM included, or ROOT not (R293). -/
def Collective.short (c : Collective) : Bool :=
  decide (c.included.length < wireQuorum c.wire) || (match c.root with | some r => !c.included.contains r | none => false)

/-- The encoded result: ROOT's buffer, or the sum (R289, R293, R294). -/
def Collective.encoded (c : Collective) : List (Option Nat × List Nat) :=
  let vals (i : Nat) : List (BitVec 32) := ((c.parts.find? fun p => p.1 == i).map (·.2)).getD []
  let sum := match c.root with
    | some r => (List.range c.count).map fun k => elemAt (vals r) k
    | none => sumElems c.count (c.included.map vals)
  if c.short then [] else encodeElems (wireFmt c.wire) (wireRounding c.wire 0xFFFFFFFF#32) sum

/-- The result that a coordinator forms (R293, R294). -/
def Collective.answer (c : Collective) : CollectiveAnswer :=
  let mask : BitVec 48 := BitVec.ofNat 48 (c.included.foldl (fun m i => m + 2 ^ i) 0)
  ⟨c.group, c.epoch, if c.short then 2 else if mask = c.members then 0 else 1, mask, decodeElems (wireFmt c.wire) c.encoded⟩

/-- The coordinator sends the result over live sessions, and writes its own (R294, R375). -/
def State.formResult (s : State) (c : Collective) : State :=
  let a := c.answer
  let m := answerMessage a (wireFmt c.wire) a.elems.length c.encoded
  let s := s.dropCollective c
  let self := (s.group c.group).self
  let s := ((memberList c.members).filter (· != self)).foldl (fun s i =>
    match s.reach c.cmd.part c.group i with | some sid => s.sendMessage sid none (wireZc c.wire) m | none => s) s
  s.writeResult c a

/-- The result forms once every member is included. -/
def State.tryResult (s : State) (c : Collective) : State :=
  if (memberList c.members).all fun i => c.parts.any fun p => p.1 == i then s.formResult c else s

/-! ### Contributions (R293) -/

/-- A contribution that matches is included once. -/
def Collective.includes (c : Collective) (x : Contribution) : Bool :=
  x.group == c.group && x.epoch == c.epoch && decide (x.members = c.members) && decide (x.wire = c.wire) &&
    decide (x.member < 48) && c.members.getLsbD x.member && !c.parts.any fun p => p.1 == x.member

/-- Whether a contribution came over a session that still lives, its member's own (R375). -/
def State.live (s : State) (part : Nat) (x : Contribution) : Bool := s.reach part x.group x.member == some x.sid

/-- The coordinator's clock starts: its own contribution, and those that were held. -/
def State.startClock (s : State) (c : Collective) : State :=
  let held := s.links.held.filter fun x => x.group == c.group && x.epoch == c.epoch
  let s := { s with links := { s.links with held := s.links.held.filter fun x => !(x.group == c.group && x.epoch == c.epoch) } }
  let c := held.foldl (fun (c : Collective) x => if c.includes x && s.live c.cmd.part x then { c with parts := c.parts ++ [(x.member, x.elems)] } else c) c
  ({ s with links := { s.links with colls := s.links.colls ++ [c] } }).tryResult c

/-- A command that is malformed, or that needs a feature which the partition lacks (R291, R293, R311). -/
def State.collBad (s : State) (p : Pending) (bcast : Bool) : Bool :=
  let e := cmdLow (wordAt p.entries 0)
  let m := wordAt p.entries 2
  let w := wordAt p.entries 3
  let g := s.group (e / 2 ^ 32)
  let count := e % 2 ^ 32
  decide (count = 0 ∨ 2 ^ 28 < count ∨ fld (wordAt p.entries 1) 1 0 ≠ 0) ||
  decide (if bcast then fld m 63 54 ≠ 0 else fld m 63 48 ≠ 0) ||
  !m.getLsbD g.self || decide (g.sids.length ≤ g.self) || ((upTo g.sids.length 48).any fun i => m.getLsbD i) ||
  decide (wireDeadline w = 0 ∨ 60000 < wireDeadline w ∨ wireQuorum w = 0 ∨ 48 < wireQuorum w ∨ fld w 14 0 ≠ 0) ||
  !wireFormat (wireFmt w) || decide (wireRnd w ≠ 0 ∧ wireRnd w ≠ 5) || (wireZc w && !(zcCode (wireFmt w) && s.accepts p.part 1)) ||
  (wireRnd w == 5 && !s.accepts p.part 5) || !s.accepts p.part 2 || (s.collective (e / 2 ^ 32) (wireEpoch w)).isSome

/-- A collective starts: the buffer is read once, and the contribution goes to the coordinator (R293 to R295). Members of a
BCAST but its ROOT contribute only their joining. -/
def State.startCollective (s : State) (p : Pending) (bcast : Bool) : State :=
  if s.collBad p bcast then s.endPending p 0 5 0 0
  else
    let e := cmdLow (wordAt p.entries 0)
    let m : BitVec 48 := (wordAt p.entries 2).setWidth 48
    let w := wordAt p.entries 3
    let group := e / 2 ^ 32
    let self := (s.group group).self
    let root := if bcast then some (fld (wordAt p.entries 2) 53 48) else none
    let gives := match root with | some r => r == self | none => true
    match (if gives then s.getBytes (s.pendWho p) (wordAt p.entries 1) (4 * (e % 2 ^ 32)) else .ok (s, [])) with
    | .error (s, e) => s.failPending p e 0 0
    | .ok (s, bs) =>
      let enc := encodeElems (wireFmt w) (wireRounding w (BitVec.ofNat 32 self)) (elemsOf bs)
      let own := decodeElems (wireFmt w) enc
      let c : Collective := ⟨p, group, m, w, e % 2 ^ 32, root, own, []⟩
      if coordinatorOf m = self then s.startClock { c with parts := [(self, own)] }
      else match s.reach p.part group (coordinatorOf m) with
        | none => s.endPending p 0 3 0 0
        | some sid =>
          ({ s with links := { s.links with colls := s.links.colls ++ [c] } }).sendMessage sid none (wireZc w)
            (contributionMessage ⟨sid, group, wireEpoch w, self, m, w, own⟩ own.length enc)

def execAllreduce (hart : Nat) (s : State) : Out := withPending s hart 1 0x20 fun p s => s.startCollective p false
def execBcast (hart : Nat) (s : State) : Out := withPending s hart 1 0x21 fun p s => s.startCollective p true

/-! ### Events (R293, R294, R375) -/

/-- A contribution arrives: included, held for a coordinator that has not started, or left out. -/
def State.contribute (s : State) (c : Contribution) : State :=
  let part := (s.session c.sid).part
  if s.live part c = false then s
  else match s.collective c.group c.epoch with
    | some x =>
      if s.coordinates x ∧ x.cmd.part = part ∧ x.includes c then
        let x := { x with parts := x.parts ++ [(c.member, c.elems)] }
        (s.setCollective x).tryResult x
      else s
    | none =>
      { s with links := { s.links with
        held := (s.links.held.filter fun y => !(y.group == c.group && y.epoch == c.epoch && y.member == c.member)) ++ [c] } }

def execCollectiveContribution (c : Contribution) (s : State) : Out := .next (s.contribute c)

/-- DEADLINE on the coordinator's clock. -/
def execCollectiveDeadline (group epoch : Nat) (s : State) : Out :=
  match s.collective group epoch with
  | some x => .next (if s.coordinates x then s.formResult x else s)
  | none => .next s

/-- The result reaches a member. -/
def State.takeAnswer (s : State) (r : CollectiveAnswer) : State :=
  match s.collective r.group r.epoch with
  | some x => if s.coordinates x then s else (s.dropCollective x).writeResult x r
  | none => s

def execCollectiveResult (r : CollectiveAnswer) (s : State) : Out := .next (s.takeAnswer r)

/-- The result that a frame of a session brings reaches a member whose coordinator stands behind that session. -/
def State.frameAnswer (s : State) (sid : Nat) (r : CollectiveAnswer) : State :=
  match s.collective r.group r.epoch with
  | some x => if s.reach x.cmd.part x.group (coordinatorOf x.members) = some sid then s.takeAnswer r else s
  | none => s

/-- A data frame is taken (R288), and what it brings for collectives reaches them. -/
def execDataFrame (port : Nat) (f : List Byte) (s : State) : Out :=
  match s.accept port 0 f with
  | none => .next s
  | some (sid, x, fresh, p) =>
    let s := s.takeData sid x fresh p
    let l := (s.session sid).came
    .next (l.foldl (fun s m => match m with
      | .bytes _ => s
      | .contribution c => s.contribute c
      | .answer a => s.frameAnswer sid a) (if l.isEmpty then s else s.updSession sid fun y => { y with came := [] }))

/-- A member that has no result after 2 × DEADLINE + 10 s. -/
def execCoordinatorLostTimeout (group epoch : Nat) (s : State) : Out :=
  match s.collective group epoch with
  | some x => .next (if s.coordinates x then s else (s.dropCollective x).endPending x.cmd 0 3 0 0)
  | none => .next s

/-- A contribution has been held for 60 s. -/
def execContributionHoldExpiry (group epoch member : Nat) (s : State) : Out :=
  .next { s with links := { s.links with
    held := s.links.held.filter fun y => !(y.group == group && y.epoch == epoch && y.member == member) } }

end Sys2Proof.Machine
end

