-- ==== Sys2Proof/Machine/Place.lean ====
section
/-!
DEFINITION. Placement: what is free in a cluster, which cluster takes a gang (R263, R264), the state of a hart at a slate's
entry (R58, R260, R266), and posted grants (R265).
-/
namespace Sys2Proof.Machine

/-! ### What is free -/

/-- Gangs with a member or a core in mind: those that hold core `c`. -/
def State.gangsOn (s : State) (c : Nat) : List Gang := (s.gangs.map (·.2)).filter fun x => x.cores.contains c

/-- The position of a core in a gang. -/
def Gang.coreIx (x : Gang) (c : Nat) : Nat := x.cores.idxOf c

/-- Tiles of a core that a gang holds (R264). -/
def Gang.tilesOn (x : Gang) (c : Nat) : BitVec 8 :=
  ((upTo 0 x.members.length).filter fun m => coreOf (x.memberHart m) == c).foldl (fun v m => v ||| (x.tiles[m]?).getD 0#8) 0#8

def State.tilesUsed (s : State) (c : Nat) : BitVec 8 := (s.gangsOn c).foldl (fun v x => v ||| x.tilesOn c) 0#8

def unitsLeft (total : Nat) (used : List Nat) : List Nat := (upTo 0 total).filter fun u => !used.contains u

/-- Free 64 KiB units of a core's TCM, and free 1,024-row units of its B-store. -/
def State.tcmFree (s : State) (c : Nat) : List Nat :=
  unitsLeft 28 ((s.gangsOn c).flatMap fun x => (x.tcm[x.coreIx c]?).getD [])
def State.bstFree (s : State) (c : Nat) : List Nat :=
  unitsLeft 32 ((s.gangsOn c).flatMap fun x => (x.bst[x.coreIx c]?).getD [])

/-- Commands of engines 1 and 2 that have started and not ended (R292, R295). -/
def State.pendings (s : State) : List Pending := s.links.colls.map (·.cmd) ++ s.links.sessions.flatMap fun e => e.2.commands

/-- Scratchpad units of a cluster that saved gangs other than `launch` keep: a started command of theirs runs on (R248, R295, R327). -/
def State.spadKept (s : State) (launch cl : Nat) : List Nat :=
  s.parts.flatMap fun e => e.2.queue.flatMap fun q =>
    match q.image with
    | none => []
    | some i =>
      if q.launch ≠ launch ∧ i.cluster = cl ∧ s.pendings.any (fun p => p.launch == q.launch) then
        (match i.harts.findSome? id with | some h => h.shape.spad | none => [])
      else []

/-- Scratchpad units of a cluster that a gang of a partition may take: units of the partition that nobody holds (R264, R274). -/
def State.spadFree (s : State) (p launch cl : Nat) : List Nat :=
  (unitsLeft 256 (((s.gangs.filter fun e => e.2.cluster == cl).flatMap fun e => e.2.spad) ++ s.spadKept launch cl)).filter (s.ownsUnit p cl)

/-- A slot whose slate exits takes a member of the next slate of its ASID and partition behind the old one (R33, log 39). A saved
member needs a free slot. -/
def State.takesAhead (s : State) (q : QSlate) (n : Nat) : Bool :=
  let h := s.hart n
  decide (h.q.status = .exiting ∧ h.shape.asid = BitVec.ofNat 8 (slateAsid q.words) ∧ h.shape.part = slatePart q.words) && q.image.isNone &&
    Config.entersAhead h.shape.launch

/-- Harts of a core that can take a member: one that has no slate, or whose slate exits (R33), with no engine command of an old slate
still to run and no member that waits. -/
def State.hartsFree (s : State) (q : QSlate) (c : Nat) : List Nat :=
  (upTo (4 * c) (4 * c + 4)).filter fun n =>
    let h := s.hart n
    (decide (h.q.status = .free) || s.takesAhead q n) && (s.aheadOf n).isNone && ((upTo 0 4).all fun e => (h.headCmd e).isNone)

/-- A core on which a matrix command of an ended slate is still in progress (R319, R326). -/
def State.orphanRun (s : State) (c : Nat) : Bool :=
  match (s.core c).mrun with
  | some r => decide ((s.hart r.cmd.hart).q.status = .free)
  | none => false

/-- The enabled cores of a partition in a cluster (R11, R274). -/
def State.coresIn (s : State) (p cl : Nat) : List Nat :=
  (upTo (8 * cl) (8 * cl + 8)).filter fun c => (s.part p).cores.contains c && (s.core c).enabled

/-! ### The request (R259, R338) -/

/-- The figures that a head asks for: those of RES, or of the saved grant. -/
def QSlate.res (q : QSlate) : Word := match q.image with | some i => i.grant | none => slateWord q.words 2
def QSlate.spad (q : QSlate) : Nat := fld q.res 40 32
def QSlate.tcm (q : QSlate) : Nat := fld q.res 28 24
def QSlate.brows (q : QSlate) : Nat := fld q.res 21 16

/-- Members on the `k`-th core of the gang. -/
def membersOn (gang hpc k : Nat) : List Nat := upTo (k * hpc) (min gang ((k + 1) * hpc))

/-- The lowest `n` tiles that are not in `used`. -/
def lowTiles (used : BitVec 8) (n : Nat) : List Nat := ((upTo 0 8).filter fun t => !used.getLsbD t).take n

def tileMask (l : List Nat) : BitVec 8 := l.foldl (fun v t => v ||| (1#8 <<< t)) 0#8

/-- Tiles for the members of one core: the lowest free ones in member order, or the ones that a saved member held. -/
def QSlate.tilesFor (q : QSlate) : List Nat → BitVec 8 → Option (List (BitVec 8))
  | [], _ => some []
  | m :: r, used =>
    let want : Option (BitVec 8) :=
      match q.image with
      | some i => some (match i.harts[m]? with | some (some h) => h.shape.talloc | _ => 0#8)
      | none =>
        let l := lowTiles used (slateTiles q.words)
        if l.length = slateTiles q.words then some (tileMask l) else none
    match want with
    | none => none
    | some t => if t &&& used ≠ 0#8 then none else (QSlate.tilesFor q r (used ||| t)).map (t :: ·)

/-- Whether a core can take its share of the gang's members, windows apart. -/
def State.coreTakes (s : State) (q : QSlate) (k c : Nat) : Bool :=
  let ms := membersOn (slateGang q.words) (slateHpc q.words) k
  !s.orphanRun c && decide (ms.length ≤ (s.hartsFree q c).length) && (q.tilesFor ms (s.tilesUsed c)).isSome

/-- A core of `l` for each of `need` cores of a gang from its `k`-th on, none twice: the lowest for the first, and so on, where the rest
still find theirs (DESIGN CHOICE, log 76). -/
def pickCores (ok : Nat → Nat → Bool) (l : List Nat) : Nat → Nat → List Nat → Option (List Nat)
  | _, 0, _ => some []
  | k, need + 1, used => l.findSome? fun c =>
    if used.contains c || !ok k c then none else (pickCores ok l (k + 1) need (c :: used)).map (c :: ·)

/-- The cores of a cluster that would hold the gang at its full request, if it fits (R263). -/
def State.fitCores (s : State) (q : QSlate) (p cl : Nat) : Option (List Nat) :=
  if (s.spadFree p q.launch cl).length < q.spad then none
  else pickCores (fun k c => s.coreTakes q k c && decide (q.tcm ≤ (s.tcmFree c).length ∧ q.brows ≤ (s.bstFree c).length)) (s.coresIn p cl)
    0 (slateCores q.words) []

/-- The cores that a SHRINK gang would take, windows apart. -/
def State.shrinkCores (s : State) (q : QSlate) (p cl : Nat) : Option (List Nat) :=
  pickCores (fun k c => s.coreTakes q k c) (s.coresIn p cl) 0 (slateCores q.words) []

/-- The member numbers of a gang on its `k`-th core and the harts that take them. -/
def State.seats (s : State) (q : QSlate) (cores : List Nat) : List (Nat × Nat) :=
  (upTo 0 cores.length).flatMap fun k =>
    (membersOn (slateGang q.words) (slateHpc q.words) k).zip (s.hartsFree q ((cores[k]?).getD 0))

/-- Cores on which a slate with KEEP goes by run-ahead into slots of the gang `l`, whose EXITs have committed and which has not ended: a
gang of the same ASID and partition, with as many tiles in each slot and the same W. It takes over those tiles and that window, which
it need not find free (R33, R264). -/
def State.keepCores (s : State) (q : QSlate) (p cl l : Nat) : Option (List Nat) :=
  if slateKeep q.words = false ∨ q.image.isSome ∨ (s.gang l).cluster ≠ cl then none
  else
    match (s.updGang l fun x => { x with tiles := [], bst := [] }).fitCores q p cl with
    | none => none
    | some cores =>
      let fits := (s.seats q cores).all fun e =>
        let h := s.hart e.2
        h.shape.launch == l && h.shape.asid == BitVec.ofNat 8 (slateAsid q.words) && h.shape.part == p &&
          popcount 8 h.shape.talloc.toNat == slateTiles q.words && h.shape.bst.length == q.brows
      if fits then some cores else none

def least : List Nat → Nat
  | [] => 0
  | x :: r => r.foldl min x

/-- What a cluster can give of each figure, capped at the request: BROWS, SPAD, TCM. -/
def State.offer (s : State) (q : QSlate) (p cl : Nat) (cores : List Nat) : Nat × Nat × Nat :=
  (min q.brows (least (cores.map fun c => (s.bstFree c).length)), min q.spad (s.spadFree p q.launch cl).length,
    min q.tcm (least (cores.map fun c => (s.tcmFree c).length)))

/-- The ratios of an offer over the request, for figures requested nonzero, over one common denominator (R263). -/
def ratios (q : QSlate) (o : Nat × Nat × Nat) : List Nat :=
  let d := max 1 q.brows * max 1 q.spad * max 1 q.tcm
  ([(o.1, q.brows), (o.2.1, q.spad), (o.2.2, q.tcm)].filter fun x => x.2 != 0).map fun x => x.1 * d / x.2

/-- Whether offer `a` beats offer `b`: the larger least ratio, then the larger sum. -/
def offersMore (q : QSlate) (a b : Nat × Nat × Nat) : Bool :=
  let x := ratios q a
  let y := ratios q b
  decide (least y < least x) || (least x == least y && decide (y.foldl (· + ·) 0 < x.foldl (· + ·) 0))

/-- Where a gang goes: its cluster, its cores, its figures, and the gang whose tiles and window it keeps (R264). -/
structure Spot where
  cluster : Nat
  cores : List Nat
  brows : Nat
  spad : Nat
  tcm : Nat
  keep : Option Nat
  deriving DecidableEq, Repr

/-- The clusters in which a partition has cores. -/
def State.clustersOf (s : State) (p : Nat) : List Nat := (upTo 0 20).filter fun cl => !(s.coresIn p cl).isEmpty

/-- A place of a head in a cluster that fits it: by run-ahead with KEEP, or among what is free. -/
def State.fitSpot (s : State) (q : QSlate) (p cl : Nat) : Option Spot :=
  match (s.gangs.map (·.1)).findSome? fun l => (s.keepCores q p cl l).map fun cs => (cs, l) with
  | some (cs, l) => some ⟨cl, cs, q.brows, q.spad, q.tcm, some l⟩
  | none => (s.fitCores q p cl).map fun cs => ⟨cl, cs, q.brows, q.spad, q.tcm, none⟩

/-- The place of a head: the lowest cluster that fits it, or, with SHRINK, the one that offers the most (R263). -/
def State.findSpot (s : State) (q : QSlate) (p : Nat) : Option Spot :=
  match (s.clustersOf p).findSome? fun cl => s.fitSpot q p cl with
  | some spot => some spot
  | none =>
    if slateShrink q.words = false ∨ q.image.isSome then none
    else
      let l := (s.clustersOf p).filterMap fun cl => (s.shrinkCores q p cl).map fun cs => (cl, cs, s.offer q p cl cs)
      match l with
      | [] => none
      | x :: r =>
        let best := r.foldl (fun b y => if offersMore q y.2.2 b.2.2 then y else b) x
        some ⟨best.1, best.2.1, best.2.2.1, best.2.2.2.1, best.2.2.2.2, none⟩

/-- A head that no cluster of its partition could hold with that cluster empty (R263): too few enabled cores, or too few scratchpad units
that the partition owns there (R274). No slate asks a core for more tiles, rows or TCM than it has (R259). -/
def State.beyond (s : State) (q : QSlate) (p : Nat) : Bool :=
  !slateShrink q.words && (s.clustersOf p).all fun cl =>
    decide ((s.coresIn p cl).length < slateCores q.words ∨ ((upTo 0 256).filter (s.ownsUnit p cl)).length < q.spad)

/-! ### Lane groups (R264, R265) -/

/-- Lane groups of a core that harts of other gangs hold. -/
def State.lanesHeld (s : State) (c launch : Nat) : BitVec 4 :=
  (upTo (4 * c) (4 * c + 4)).foldl (fun v n =>
    let h := s.hart n
    let v := if h.q.status ≠ .free ∧ h.shape.launch ≠ launch then v ||| h.shape.lanes else v
    match s.aheadOf n with
    | some a => if a.shape.launch ≠ launch then v ||| a.shape.lanes else v
    | none => v) 0#4

/-- Whether every member's groups at a grant are free of other gangs. -/
def State.lanesOk (s : State) (launch : Nat) (harts : List Nat) (g : Nat) : Bool :=
  harts.all fun n => s.lanesHeld (coreOf n) launch &&& lanesFor (n % 4) g = 0#4

/-- The grant of a gang at its placement (R264). -/
def State.chooseG (s : State) (w : List Word) (launch : Nat) (harts : List Nat) : Nat :=
  if slateShrink w = false then slateGw w
  else (([4, 2, 1].filter fun g => decide (g ≤ slateGw w)).find? fun g => s.lanesOk launch harts g).getD 1

/-! ### Entry (R58, R260, R266) -/

/-- GRANT (R259, R260). -/
def grantWord (spad tcm brows : Nat) (shrunk : Bool) : Word := w64 (spad * 2 ^ 32 + tcm * 2 ^ 24 + brows * 2 ^ 16 + shrunk.toNat * 256)

/-- What the placement gives a member. -/
structure Berth where
  member : Nat
  gang : Nat
  launch : Nat
  lanes : BitVec 4
  g : Nat
  talloc : BitVec 8
  grant : Word
  tcm : List Nat
  spad : List Nat
  bst : List Nat
  virt : Bool
  deriving DecidableEq, Repr

/-- Breakpoints and the count of dropped records belong to the hart slot and outlive slates (log 23). -/
def Hart.slot (h old : Hart) : Hart :=
  { h with
    q := { h.q with bkpa := old.q.bkpa, bkpc := old.q.bkpc }
    trc := { h.trc with lost := old.trc.lost + old.trc.recs.length } }

/-- A hart at a slate's entry point. -/
def Hart.enter (old : Hart) (w : List Word) (vector : Word) (b : Berth) : Hart :=
  let h := Hart.idle
  Hart.slot
    { h with
      sc := { h.sc with pc := slateWord w 0, mode := modeOf (slateMode w) }
      shape :=
        { hartid := b.member, gangsize := b.gang, launch := b.launch, lanes := b.lanes, g := b.g, nreg := slateNreg w,
          nnext := slateNreg w, talloc := b.talloc, grant := b.grant, sarg := slateWord w 7, asid := BitVec.ofNat 8 (slateAsid w),
          part := slatePart w, setvlNs := 0, tcm := b.tcm, spad := b.spad, bst := b.bst, virt := b.virt }
      trap := { h.trap with tvec := vector, tstat := if slateMode w = 0 ∧ vector ≠ 0 then 1 else 0 }
      q := { h.q with status := .running }
      trc := { h.trc with trcCtl := old.trc.trcCtl } } old

/-- The pass that a stopped hart resumes. -/
def Hart.stoppedPass (h : Hart) : Option Pass := h.stopConv.bind passIn

/-- A saved member at its new berth (R333, R338): the registers that the image carries, under the new grant; the o and q registers,
the latch and what else it omits take their entry values. The operator and the sequence of a pass that it resumes stand all the same,
since the pass ends as an uninterrupted one (R220; DESIGN CHOICE, log 18). -/
def Hart.restore (old saved : Hart) (b : Berth) : Hart :=
  Hart.slot
    { saved with
      sc := { saved.sc with latch := false }
      vec := { saved.vec with
        o := (match saved.stoppedPass with | some p => Table.set 0 [] p.o.toNat (saved.rdO p.o) | none => [])
        q := (match saved.stoppedPass with | some p => Table.set qReset [] p.q.toNat (saved.rdQ p.q) | none => []) }
      shape := { saved.shape with lanes := b.lanes, g := b.g, grant := b.grant, tcm := b.tcm, spad := b.spad, bst := b.bst }
      trc := { (if b.g = saved.shape.g then saved.trc else saved.trc.clear) with lost := 0, recs := [], drained := 0 }
      q := { saved.q with status := .running } } old

/-- Counters and tags of a core's histogram clear when a slate of its ASID enters a core that runs no other (R306). -/
def State.histEnter (s : State) (c asid : Nat) : State :=
  let x := (s.core c).hist
  if fld x.ctl 15 8 = asid ∧ !s.asidOnCore c asid 640 then s.updCore c fun k => { k with hist := { x with rdh := [], noReuse := 0, count := 0, tags := [] } }
  else s

/-- Rows of a window or of tiles take values. -/
def putRows (t : Table Nat) (key : Nat → Nat) (rows : Table Nat) (n : Nat) : Table Nat :=
  (upTo 0 n).foldl (fun t i => Table.set 0 t (key i) (Table.get 0 rows i)) t

/-- Tiles of a member as a table of rows, tile by tile. -/
def tileRows (t : Table Nat) (mask : BitVec 8) (rows : Table Nat) : Table Nat :=
  (upTo 0 8).foldl (fun t k => if mask.getLsbD k then (upTo 0 32).foldl (fun t r => Table.set 0 t (32 * k + r) (Table.get 0 rows (32 * k + r))) t else t) t

/-- The rows of a window of B-store units, from its first. -/
def windowRows (u : Core) (b : List Nat) : Table Nat :=
  (upTo 0 (1024 * b.length)).foldl (fun t i => Table.set 0 t i (Table.get 0 u.bstore (bRowKey b i))) ([] : Table Nat)

/-- Whether an entry point lies in the code of an image that Burxus translated for an ASID (R316, log 12). -/
def State.translated (s : State) (asid : Nat) (entry : Word) : Bool :=
  s.mgmt.images.any fun x => x.1 == asid && decide (x.2.1 ≤ entry.toNat ∧ entry.toNat < x.2.1 + x.2.2)

/-- The commands of one core's queue in their order: the members as they stood there, each with its own commands in order. -/
def mergeCmds : List Nat → List (Nat × List MCmd) → List MCmd
  | [], l => l.flatMap (·.2)
  | m :: r, l =>
    match l.find? fun e => e.1 == m with
    | some (_, c :: t) => c :: mergeCmds r (l.map fun e => if e.1 = m then (m, t) else e)
    | _ => mergeCmds r l

/-- The saved matrix commands of a gang's `k`-th core are posted again, in the order in which they stood in its queue (R238, R239,
R338), whatever the queue holds, past its 64 entries too: R12 and R239 do not say (DESIGN CHOICE, log 72). -/
def State.repost (s : State) (i : Image) (seats : List (Nat × Nat)) (k c : Nat) : State :=
  let mine := (seats.filter fun e => coreOf e.2 == c).map fun e => (e.1, ((i.cmds[e.1]?).getD []).map fun (x : MCmd) => { x with hart := e.2 })
  s.updCore c fun u => { u with mq := u.mq ++ mergeCmds ((i.order[k]?).getD []) mine }

/-- A member enters a free slot (R58): the record of its entry (R304). -/
def State.enterSlot (s : State) (n : Nat) (h : Hart) : State :=
  (s.setHart n h).emitIf 3 n 4 0 h.sc.pc 0 (w64 (h.shape.asid.toNat * 2 ^ 56 + h.shape.part * 2 ^ 51 + h.shape.launch % 65536)) 0

/-- A gang is placed (R264): its record, and then each member at its entry or at its saved point. A member of a slot that is not free
yet waits behind the old slate (R33, R266). -/
def State.place (s : State) (q : QSlate) (spot : Spot) : State :=
  let w := q.words
  let seats := s.seats q spot.cores
  let harts := seats.map (·.2)
  let g := s.chooseG w q.launch harts
  let shrunk := decide (spot.brows < fld (slateWord w 2) 21 16 ∨ spot.spad < fld (slateWord w 2) 40 32 ∨ spot.tcm < fld (slateWord w 2) 28 24 ∨ g < slateGw w)
  let grant := grantWord spot.spad spot.tcm spot.brows shrunk
  let tiles := match spot.keep with
    | some _ => harts.map fun n => (s.hart n).shape.talloc
    | none => (upTo 0 spot.cores.length).flatMap fun k =>
      (q.tilesFor (membersOn (slateGang w) (slateHpc w) k) (s.tilesUsed ((spot.cores[k]?).getD 0))).getD []
  let tcm := spot.cores.map fun c => (s.tcmFree c).take spot.tcm
  let bst := spot.cores.map fun c =>
    match spot.keep with
    | some l => (((s.gang l).bst)[(s.gang l).coreIx c]?).getD []
    | none => (s.bstFree c).take spot.brows
  let spad := (s.spadFree (slatePart w) q.launch spot.cluster).take spot.spad
  let all : BitVec 32 := BitVec.ofNat 32 (2 ^ slateGang w - 1)
  let x : Gang :=
    { slate := { q with image := none }, cluster := spot.cluster, cores := spot.cores, members := harts, tiles := tiles, tcm := tcm,
      bst := bst, spad := spad, g := g, posts := [], grant := grant,
      bar := (match q.image with | some i => i.bar | none => ⟨0, all, 0, all⟩),
      live := (match q.image with | some i => i.live | none => all),
      exits := (match q.image with | some i => i.exits | none => []),
      term := q.image.bind (·.term), stopReq := none }
  let s := harts.foldl (fun s n => s.performBoth n) s
  let s := spot.cores.foldl (fun s c => s.histEnter c (slateAsid w)) s
  let s := { s with gangs := Table.set Gang.none_ s.gangs q.launch x }
  -- windows and tiles: zero at entry, as the image has them, or kept
  let keep := spot.keep.isSome
  let s := if keep then s else (upTo 0 spot.cores.length).foldl (fun s k =>
    let rows := match q.image with | some i => (i.windows[k]?).getD [] | none => []
    s.updCore ((spot.cores[k]?).getD 0) fun u =>
      { u with bstore := putRows u.bstore (bRowKey ((bst[k]?).getD [])) rows (1024 * spot.brows) }) s
  let s := match q.image with
    | some i => (upTo 0 spot.cores.length).foldl (fun s k => s.repost i seats k ((spot.cores[k]?).getD 0)) s
    | none => s
  seats.foldl (fun s (m, n) =>
    let k := x.coreIx (coreOf n)
    let b : Berth := ⟨m, slateGang w, q.launch, lanesFor (n % 4) g, g, (tiles[m]?).getD 0#8, grant, (tcm[k]?).getD [], spad, (bst[k]?).getD [],
      s.translated (slateAsid w) (slateWord w 0)⟩
    match q.image with
    | none =>
      let s := if keep then s else s.updCore (coreOf n) fun u => { u with tile := tileRows u.tile b.talloc [] }
      let h := (s.hart n).enter w (s.asid (slateAsid w)).vector b
      if (s.hart n).q.status = .free then s.enterSlot n h else s.setAhead n (some h)
    | some i =>
      match i.harts[m]? with
      | some (some saved) =>
        let s := s.updCore (coreOf n) fun u =>
          { u with tile := tileRows u.tile b.talloc ((i.tiles[m]?).getD []) }
        s.updHart n fun old => old.restore saved b
      | _ => s) s

/-- Why a saved gang is refused at a place (R338). -/
def State.refusal (s : State) (q : QSlate) (spot : Spot) : Option Nat :=
  match q.image with
  | none => none
  | some i =>
    let g := s.chooseG q.words q.launch ((s.seats q spot.cores).map (·.2))
    let bad := i.harts.any fun m => match m with
      | none => false
      | some h =>
        let vlen := if h.shape.virt then h.vlen else vlenOf g h.shape.nreg
        decide (vlen / 8 < h.vec.vhwb ∨ (vtLegal h.vec.vtype = true ∧ vlmaxOf vlen h.vec.vtype < h.vec.vl)) ||
          (match h.stopConv with | some e => decide (vtLegal e.vtype = true ∧ vlmaxOf vlen e.vtype < e.vl) | none => false)
    let nreg := match i.harts.findSome? id with | some h => h.shape.nreg | none => slateNreg q.words
    if bad then some 1 else if nreg ≠ slateNreg q.words then some 2 else none

/-- The oldest ready slate of a level of a partition (R262). -/
def State.headOf (s : State) (p k : Nat) : Option QSlate := (s.part p).queue.find? fun q => q.eff == k && q.ready

/-- A head waits for a place (R263): its conditional word is read, its partition could hold it, and no cluster takes it now. -/
def State.headWaits (s : State) (p : Nat) (q : QSlate) : Bool :=
  !(slateCond q.words && !q.condRead && q.image.isNone) && !(q.image.isNone && s.beyond q p) && (s.findSpot q p).isNone

/-- A head of a partition above an effective priority waits. -/
def State.waitsAbove (s : State) (p eff : Nat) : Bool :=
  (upTo (eff + 1) 8).any fun k => match s.headOf p k with | some q => s.headWaits p q | none => false

/-- The grant that stands for a gang, and the epoch of a new one: above every live member's count (R28). -/
def Gang.granted (x : Gang) : Nat := (x.posts.getLast?.map (·.2)).getD x.g
def State.nextEpoch (s : State) (x : Gang) : Nat := (x.liveMembers.map x.memberHart).foldl (fun m n => max m (s.hart n).shape.setvlNs) 0 + 1

/-- A grant is posted for a gang. -/
def State.postGrant (s : State) (l g : Nat) : State :=
  let k := s.nextEpoch (s.gang l)
  s.updGang l fun x => { x with posts := x.posts ++ [(k, g)] }

/-- A raised grant for a running gang (R265); not of one that would give way to a waiting head. -/
def State.raiseGrant (s : State) (l : Nat) : Option State :=
  let x := s.gang l
  if s.waitsAbove (slatePart x.slate.words) x.slate.eff then none
  else (([4, 2].filter fun g => decide (x.granted < g ∧ g ≤ slateGw x.slate.words)).find? fun g =>
    s.lanesOk l (x.liveMembers.map x.memberHart) g).map fun g => s.postGrant l g

/-- A lowered grant for a SHRINK gang, while a head of higher effective priority waits in its partition: the dispatcher may post half
of what stands (R265), by a free value. -/
def State.lowerGrant (s : State) (l : Nat) : State :=
  let x := s.gang l
  if slateShrink x.slate.words = false ∨ x.granted < 2 ∨ s.waitsAbove (slatePart x.slate.words) x.slate.eff = false then s
  else
    let (d, s) := s.draw
    if Config.lowerGrant d then s.postGrant l (x.granted / 2) else s

end Sys2Proof.Machine
end

