-- ==== Sys2Proof/Machine/Image.lean ====
section
/-!
DEFINITION. The continuity image as the dispatcher writes it (R329 to R337): little-endian words, a header and sections.
-/
namespace Sys2Proof.Machine

/-- A member as it is saved: its hart and the number of the slot that it leaves, its control registers, its tiles and its
matrix commands. -/
structure SavedMember where
  slot : Nat
  hart : Hart
  csrs : List (Nat × Word)
  tiles : Table Nat
  cmds : List MCmd
  deriving DecidableEq, Repr

/-- A value as `n` words, the lowest first. -/
def wordsN : Nat → Nat → List Word
  | 0, _ => []
  | n + 1, v => w64 v :: wordsN n (v / 2 ^ 64)

/-- Bytes, padded with zeros to whole words. -/
def paddedWords (n v : Nat) : List Word := wordsN (cdiv n 8) (v % 2 ^ (8 * n))

/-- A section: its header word and its body (R331). -/
def section_ (kind owner : Nat) (body : List Word) : List Word := w64 (kind * 2 ^ 56 + owner * 2 ^ 50 + 8 * body.length) :: body

/-- Control registers of a hart that its HART body lists (R332): all but LAT, KGEN, VBR, the stream registers and the
read-only identity registers, and those of its core and partition. -/
def savedCsrs : List Nat :=
  upTo 0 9 ++ upTo 0x10 0x13 ++ upTo 0x20 0x24 ++ upTo 0x34 0x36 ++ upTo 0xC0 0xC7 ++ upTo 0x100 0x111 ++ [0x112]

/-- The stopped convoy that a saved hart resumes. -/
def Hart.stoppedEntry (h : Hart) : Option QEntry := h.q.queue.head?

def bit01 (b : Bool) : Nat := b.toNat

/-- HART (R332). -/
def SavedMember.hartBody (m : SavedMember) : List Word :=
  let h := m.hart
  let conv := h.stoppedEntry
  let inmm := m.cmds.any fun c => c.at_.isSome
  let tq := match conv with | some e => tqOf e e.vl | none => []
  ((upTo 0 32).map fun i => h.rdS (BitVec.ofNat 5 i)) ++
  [h.sc.c.setWidth 64 ||| 1, h.resumePoint, (match conv with | some e => e.addr | none => 0),
    w64 (modeCode h.sc.mode * 256 + 8 * bit01 (!h.q.irq.isEmpty) + 4 * bit01 inmm +
      2 * bit01 (match conv with | some e => e.isPass | none => false) + bit01 conv.isSome)] ++
  ((upTo 0 6).map fun i => Table.get 0 tq i) ++
  [h.sc.msh,
    w64 ((match h.q.barPend with | some g => 2 ^ 63 + g.toNat * 2 ^ 32 | none => 0) + h.q.barMask.toNat),
    w64 h.vec.vhwb] ++
  m.csrs.flatMap fun x => [w64 x.1, x.2]

/-- PRED (R331). -/
def SavedMember.predBody (m : SavedMember) : List Word :=
  let v := m.hart.vec
  [v.plive.setWidth 64, (v.plive >>> 64).setWidth 64] ++
  ((upTo 1 128).filter fun i => v.plive.getLsbD i).flatMap fun i => wordsN 64 (Table.get 0 v.p i)

/-- Dirty registers, ascending. -/
def Hart.dirtyRegs (h : Hart) : List Nat := (upTo 0 64).filter fun i => h.vec.vdirty.getLsbD i

/-- Whether VREG carries the scale register of a dirty register beside it: the first one bound to it (R334). -/
def Hart.carries (h : Hart) (i : Nat) : Bool :=
  (h.binding i).valid && !(h.dirtyRegs.any fun j => decide (j < i) && (h.binding j).valid && (h.binding j).kreg == (h.binding i).kreg)

/-- VREG (R334). -/
def SavedMember.vregBody (m : SavedMember) : List Word :=
  let h := m.hart
  h.dirtyRegs.flatMap fun i =>
    let k := h.carries i
    let r := (h.binding i).kreg.toNat
    [w64 (i + r * 2 ^ 40 + (if k then 2 ^ 63 else 0))] ++ paddedWords h.vec.vhwb (h.rdV i) ++
      (if k then wordsN 64 (Table.get 0 h.vec.k r) else [])

/-- SCALE (R335). -/
def SavedMember.scaleBody (m : SavedMember) : List Word :=
  let h := m.hart
  let gens := (upTo 0 32).foldl (fun v i => v + (h.kgen (BitVec.ofNat 5 i)).toNat * 2 ^ (8 * i)) 0
  let carried := (h.dirtyRegs.filter h.carries).map fun i => (h.binding i).kreg.toNat
  wordsN 4 gens ++ ((upTo 0 64).map fun i => (h.binding i).word) ++
  ((upTo 0 32).filter fun r => !carried.contains r && decide (Table.get 0 h.vec.k r ≠ 0)).flatMap fun r =>
    w64 r :: wordsN 64 (Table.get 0 h.vec.k r)

/-- TILE (R336): the P(d) accumulators are those of an MMAS that stopped within a row. -/
def SavedMember.tileBody (m : SavedMember) : List Word :=
  let h := m.hart
  (((upTo 0 8).filter fun t => h.shape.talloc.getLsbD t).flatMap fun t =>
    w64 t :: (upTo 0 32).flatMap fun r => wordsN 128 (Table.get 0 m.tiles (32 * t + r))) ++
  [h.vec.mprog] ++
  (match m.cmds.head? with
    | some c =>
      match c.at_ with
      | some (_, _, _, acc) =>
        if c.kind = .mmas then
          w64 c.slc :: (upTo 0 c.slc).flatMap fun d => (upTo 0 256).map fun col => w64 (pat 64 (Table.get 0 acc (256 * d + col)))
        else []
      | none => []
    | none => [])

/-- MQUEUE (R336). -/
def SavedMember.mqueueBody (m : SavedMember) : List Word :=
  m.cmds.flatMap fun c => [c.word, c.msh, c.sa, c.sb, c.sk, c.sn, c.sc, w64 (c.scfmt.toNat + c.slc * 256)]

/-- One slot's state, elements and scale entries (R337); elements at the width of SEW (log 18). -/
def Stream.imageWords (x : Stream) : List Word :=
  let sew := vtSew x.conf
  [x.stat, x.sbase, x.sstride, w64 x.savl, x.conf, x.kbase, x.gap.getD 0, w64 x.bit] ++
  paddedWords (cdiv (sew * x.buf.length) 8) (pack sew x.buf) ++ paddedWords x.sbuf.length (pack 8 x.sbuf)

/-- STREAM (R331, R337). -/
def SavedMember.streamBody (m : SavedMember) : List Word :=
  ((upTo 0 8).filter fun i => (m.hart.stream i).state != 0).flatMap fun i => (m.hart.stream i).imageWords

/-- ENGINE (R331, R248): results that wait for room follow those in the queue. -/
def SavedMember.engineBody (m : SavedMember) : List Word :=
  (upTo 0 4).flatMap fun e =>
    let x := m.hart.engine e
    let res := x.res ++ x.fin.flatten
    w64 (res.length + x.cmd.length * 65536) :: res ++ x.cmd

/-- The sections of a member, in order (R329). -/
def SavedMember.sections (m : SavedMember) : List (List Word) :=
  let o := m.hart.shape.hartid
  [section_ 1 o m.hartBody, section_ 2 o m.predBody, section_ 3 o m.vregBody, section_ 4 o m.scaleBody, section_ 5 o m.tileBody,
    section_ 6 o m.mqueueBody, section_ 7 o m.streamBody, section_ 8 o m.engineBody]

/-- BARRIER (R245). -/
def Barrier.words (b : Barrier) : List Word :=
  [w64 (b.part.toNat + b.arrived.toNat * 2 ^ 32), w64 (b.npart.toNat + b.gen.toNat * 2 ^ 48)]

/-- WINDOW (R224, R331): W, and its rows. -/
def windowBody (w : Nat) (rows : Table Nat) : List Word := w64 w :: (upTo 0 w).flatMap fun i => wordsN 32 (Table.get 0 rows i)

def maxOf (l : List Nat) : Nat := l.foldl max 0

/-- VLMAX of a hart under a VTYPE; 0 under none. -/
def Hart.vlmaxUnder (h : Hart) (t : Word) : Nat := if vtLegal t then vlmaxOf h.vlen t else 0

/-- The image of a gang (R329, R330): `w` rows in each window of `rows`, one for each core. -/
def imageWords (q : QSlate) (g : Nat) (grant : Word) (bar : Barrier) (w : Nat) (rows : List (Table Nat)) (ms : List SavedMember) : List Word :=
  let secs := section_ 9 0 bar.words :: ((upTo 0 rows.length).map fun k => section_ 10 k (windowBody w ((rows[k]?).getD []))) ++
    ms.flatMap fun m => m.sections
  let body := secs.flatten
  let svl := maxOf (ms.map fun m => max m.hart.vec.vl (match m.hart.stoppedEntry with | some e => e.vl | none => 0))
  let vlmax := maxOf (ms.map fun m => m.hart.vlmaxUnder m.hart.vec.vtype)
  let hwb := maxOf (ms.map fun m => m.hart.vec.vhwb)
  let nreg := match ms with | m :: _ => m.hart.shape.nreg.toNat | [] => (slateNreg q.words).toNat
  [w64 (0x5A434931 * 2 ^ 32 + 2 ^ 16 + 1), w64 (log2 g * 2 ^ 56 + nreg * 2 ^ 54 + svl * 2 ^ 41 + vlmax * 2 ^ 28 + hwb),
    w64 (64 + 8 * body.length), q.addr, slateWord q.words 1, grant, w64 q.launch, w64 secs.length] ++ body

end Sys2Proof.Machine
end

