-- ==== Sys2Proof/Machine/Dispatcher.lean ====
section
/-!
DEFINITION. The dispatcher: dependences, conditions and decisions (R262, R263), pre-emption and the continuity image (R239,
R327 to R338), the scheduling quantum, and the stops that come from outside a hart (R318, R319, R326).
-/
namespace Sys2Proof.Machine

/-! ### Queues (R262) -/

/-- A slate leaves its partition's queue. -/
def State.unqueue (s : State) (p launch : Nat) : State :=
  s.updPart p fun x => { x with queue := x.queue.filter fun q => q.launch != launch }

/-- A queued slate is retired without running: its completion word (R261). -/
def State.retireSlate (s : State) (p : Nat) (q : QSlate) (status code : Nat) : State :=
  (s.unqueue p q.launch).complete q.words status code

/-- The effective priority after the quanta waited (R262). -/
def effOf (q : QSlate) (waited : Nat) : Nat := if slatePrio q.words = 7 then 7 else max q.eff (min 6 (slatePrio q.words + waited / 8))

/-- What settling a head came to. -/
inductive Settled where
  | acted (s : State)
  | waits (s : State)

/-- One head is settled (R262, R263). Under `barred` a head of a higher level waits, and this one is not placed. -/
def State.settleHead (s : State) (p : Nat) (barred : Bool) (q : QSlate) : Settled :=
  if slateCond q.words ∧ q.condRead = false ∧ q.image.isNone then
    match s.mgmtLoad (slateWho q.words) (slateWord q.words 6) 8 with
    | (s, none) => .waits s
    | (s, some bs) =>
      if ofBytes bs = 0 then .acted (s.retireSlate p q 2 0) else .acted (s.updQueued p q.launch fun q => { q with condRead := true })
  else if q.image.isNone ∧ s.beyond q p then .acted (s.retireSlate p q 1 0)
  else if barred then .waits s
  else match s.findSpot q p with
    | none => .waits s
    | some spot =>
      match s.refusal q spot with
      | some code => .acted (s.retireSlate p q 1 code)
      | none => .acted ((s.unqueue p q.launch).place q spot)

/-- The levels of a partition from `k` − 1 down, each head settled: one that waits bars the placing of lower ones (R263). -/
def State.settleLevels (p : Nat) : Nat → Bool → State → Option State
  | 0, _, _ => none
  | k + 1, barred, s =>
    match s.headOf p k with
    | none => State.settleLevels p k barred s
    | some q =>
      match s.settleHead p barred q with
      | .acted t => some t
      | .waits t => State.settleLevels p k true t

/-- A slate that a termination named while it waited ends (R357). -/
def State.endCondemned (s : State) (p : Nat) : Option State :=
  ((s.part p).queue.find? fun q => q.term.isSome).map fun q => s.retireSlate p q 3 ((q.term.getD 0).toNat)

/-- One action of the dispatcher, if there is one to take. -/
def State.dispatch (s : State) : Option State :=
  match s.partsList.findSome? fun p => s.endCondemned p with
  | some t => some t
  | none =>
    match s.partsList.findSome? fun p => State.settleLevels p 8 false s with
    | some t => some t
    | none => (s.gangs.map (·.1)).findSome? fun l => s.raiseGrant l

/-- Actions of the dispatcher until none is left. -/
def dispatchAll : Nat → State → State
  | 0, s => s
  | fuel + 1, s =>
    match s.dispatch with
    | some t => dispatchAll fuel t
    | none => s

/-! ### Pre-emption (R239, R327) -/

/-- A stopped matrix command: MPROG names where it resumes, and TSTAT.INMM says so (R239), but for a member within a handler, whose
trap registers stand (R327, log 49). -/
def Hart.stopMma (h : Hart) (mprog : Word) : Hart :=
  { h with
    vec := { h.vec with mprog := mprog }
    trap := if h.q.stopped.isEmpty then { h.trap with tstat := h.trap.tstat ||| 0x100#64 } else h.trap }

/-- MPROG of a stopped command (R55). -/
def mprogWord (r : MRun) : Word := w64 (2 ^ 24 + r.pair * 2 ^ 16 + r.chunk * 256 + r.row)

/-- The matrix commands of a hart are taken from its core (R239): one that cannot stop runs to completion first. -/
def State.takeCmds (s : State) (n : Nat) : State × List MCmd :=
  let c := coreOf n
  let s := match (s.core c).mrun with
    | some r => if r.cmd.hart = n ∧ r.cmd.isMma = false then (s.mRunAll c r.cmd.steps).1 else s
    | none => s
  let k := s.core c
  let mine := k.mq.filter fun x => x.hart == n
  let s' := s.setCore c { k with mq := k.mq.filter fun x => x.hart != n }
  match k.mrun with
  | some r =>
    if r.cmd.hart = n then
      ((s'.updCore c fun u => { u with mrun := none }).updHart n fun h => h.stopMma (mprogWord r),
        { r.cmd with at_ := some (r.row, r.pair, r.chunk, r.acc) } :: mine)
    else (s', mine)
  | none => (s', mine)

/-- The command at the head of an engine's queue starts (R248, R291). -/
def State.engineStart (s : State) (n eng : Nat) : Out :=
  match (s.hart n).headCmd eng with
  | some (c :: _) =>
    let op := cmdOp c
    if eng = 0 then (if op = 1 then execCopy n s else if op = 2 then execFill n s else if op = 3 then execNote n s else execEngineReservedOp n 0 s)
    else if eng = 1 then (if op = 0x20 then execAllreduce n s else if op = 0x21 then execBcast n s else execEngineReservedOp n 1 s)
    else if eng = 2 then
      (if op = 0x30 then execLinkOpen n s else if op = 0x31 then execLinkClose n s else if op = 0x32 then execRekey n s
       else if op = 0x33 then execSend n s else if op = 0x34 then execRecv n s else execEngineReservedOp n 2 s)
    else (if op = 0x10 then execDrain n s else execEngineReservedOp n 3 s)
  | _ => .next s

/-- Commands of one engine whose entries are complete run on (R248): one after another, while the queue gets shorter. Those of
engines 1 and 2 then live in the links. A DRAIN ends with what it has written (log 24). -/
def State.runEngine (n eng : Nat) : Nat → State → State
  | 0, s => s
  | fuel + 1, s =>
    match s.engineStart n eng with
    | .next t =>
      let h := t.hart n
      let t := if eng = 3 ∧ h.draining then t.updHart n fun h => h.endDrain 0 (cmdTag (wordAt (h.engine 3).cmd 0)) h.trc.drained else t
      if ((t.hart n).engine eng).cmd.length < ((s.hart n).engine eng).cmd.length then State.runEngine n eng fuel t else t
    | _ => s

/-- Every engine of a hart. -/
def State.runEngines (n : Nat) (s : State) : State :=
  (upTo 0 4).foldl (fun s e => State.runEngine n e ((s.hart n).engine e).cmd.length s) s

/-- A member stops (R319, R327): its hart as the image keeps it, with its tiles and commands. What its last matrix commands
stored is performed with the rest. -/
def State.saveMember (s : State) (n : Nat) : State × SavedMember :=
  let s := s.performBoth n
  let s := s.updHart n Hart.squash
  let (s, cmds) := s.takeCmds n
  let s := (State.runEngines n s).performBoth n
  let h := s.hart n
  let rows := tileRows [] h.shape.talloc ((s.core (coreOf n)).tile)
  (s.updHart n fun h => { Hart.forget h with eng := [] }, ⟨n, h, savedCsrs.map fun k => (k, s.csrRead n k), rows, cmds⟩)

/-- Members in order; none for a member that has exited. -/
def State.saveAll (s : State) (x : Gang) : List Nat → State × List (Option SavedMember)
  | [] => (s, [])
  | m :: r =>
    if x.live.getLsbD m then
      let (s, a) := s.saveMember (x.memberHart m)
      let (s, l) := State.saveAll s x r
      (s, some a :: l)
    else
      let (s, l) := State.saveAll s x r
      (s, none :: l)

/-- A gang can be pre-empted: no member is stopped by a debugger (R298), no EXIT is under way (R252), and none waits to enter its
slot (R33). -/
def State.mayPreempt (s : State) (x : Gang) : Bool :=
  x.liveMembers.all fun m => decide ((s.hart (x.memberHart m)).q.status = .running) && (s.aheadOf (x.memberHart m)).isNone

/-- The members whose commands stand in the queue of a core of a gang, in order; the command in progress first, where it can stop
within itself (R239). -/
def State.queueOrder (s : State) (launch c : Nat) : List Nat :=
  let k := s.core c
  let run := match k.mrun with | some r => if r.cmd.isMma then [r.cmd.hart] else [] | none => []
  ((run ++ k.mq.map (·.hart)).filter fun n => decide ((s.hart n).q.status ≠ .free ∧ (s.hart n).shape.launch = launch)).map fun n => (s.hart n).shape.hartid

/-- Pre-emption of a gang: it is saved whole and queued again at the front of its level (R263, R327). -/
def State.saveGang (s : State) (l : Nat) : State :=
  let x := s.gang l
  if x.cores.isEmpty ∨ s.mayPreempt x = false ∨ x.stopReq.isSome then s
  else
    let p := slatePart x.slate.words
    let k := (s.part p).power.step
    let order := x.cores.map (s.queueOrder l)
    -- a paused gang is saved at step 5 (R282)
    let (s, saved) := (s.setStep p (min 5 k)).saveAll x (upTo 0 x.members.length)
    let s := s.setStep p k
    let x := s.gang l
    let windows := (upTo 0 x.cores.length).map fun k => windowRows (s.core ((x.cores[k]?).getD 0)) ((x.bst[k]?).getD [])
    let ms := saved.filterMap id
    let g := match ms with | m :: _ => m.hart.shape.g | [] => x.g
    let img : Image :=
      { words := imageWords x.slate g x.grant x.bar (1024 * fld x.grant 21 16) windows ms
        cluster := x.cluster
        harts := saved.map fun m => m.map (·.hart)
        tiles := saved.map fun m => (m.map (·.tiles)).getD []
        cmds := saved.map fun m => (m.map (·.cmds)).getD []
        order := order
        windows := windows
        bar := x.bar, grant := x.grant, exits := x.exits, live := x.live, term := x.term }
    let q : QSlate := { x.slate with image := some img, ready := true, unmet := false }
    (s.dropGang l).updPart (slatePart q.words) fun p => { p with queue := q :: p.queue }

/-! ### The scheduling quantum (R262, R263) -/

/-- A quantum that a slate spent unplaced raises its count, if no DEP was unmet during it and its conditional word was read before
(R262). -/
def QSlate.age (q : QSlate) : QSlate :=
  let q' := { q with unmet := false }
  if q.ready = false ∨ q.unmet ∨ (slateCond q.words ∧ q.condRead = false ∧ q.image.isNone) then q'
  else { q' with waited := q.waited + 1, eff := effOf q (q.waited + 1) }

def State.ageSlates (s : State) (p : Nat) : State := s.updPart p fun x => { x with queue := x.queue.map QSlate.age }

/-- Insertion into a list in order of `le`. -/
def insertBy {α : Type} (le : α → α → Bool) (x : α) : List α → List α
  | [] => [x]
  | y :: r => if le x y then x :: y :: r else y :: insertBy le x r

/-- Running gangs of a partition that a level-7 head may pre-empt: lowest effective priority first, then the youngest. -/
def State.victims (s : State) (p : Nat) : List Nat :=
  let l := (s.gangs.filter fun e => slatePart e.2.slate.words == p && decide (e.2.slate.eff < 7) && s.mayPreempt e.2).map fun e =>
    (e.2.slate.eff, e.2.slate.order, e.1)
  (l.foldl (fun r x => insertBy (fun a b => decide (a.1 < b.1 ∨ (a.1 = b.1 ∧ b.2.1 ≤ a.2.1))) x r) ([] : List (Nat × Nat × Nat))).map (·.2.2)

/-! ### Stops from outside (R318, R319, R326) -/

/-- An interrupt becomes pending at a hart that runs a slate (R256, R318). -/
def execInterrupt (hart : Nat) (source : Word) (s : State) : Out :=
  if (s.hart hart).q.status = .free then .next s else .next (s.raiseIrq hart source)

/-- A hart takes the oldest pending interrupt while TSTAT.IE = 1 (R318, R319). -/
def State.takeIrq (s : State) (n : Nat) : Option Out :=
  let h := s.hart n
  match h.q.irq with
  | src :: rest =>
    if h.q.status = .running ∧ h.q.step = none ∧ tstatIE h.trap.tstat then
      let (i, x) := stopIndex h
      let conv := h.stopConv
      let t : Trap := ⟨0x1C#8, src, i, x, 0, 0⟩
      let s := s.updHart n fun h => { h with q := { h.q with irq := rest } }
      some (s.takeTrap n t (match conv with | some e => e.addr | none => h.resumePoint) (conv.map fun e => (e, e.vl)) h.resumePoint
        (match conv with | some e => e.isPass | none => false))
    else none
  | [] => none

end Sys2Proof.Machine
end

