-- ==== Sys2Proof/Machine/Service.lean ====
section
/-!
DEFINITION. What board, firmware and physics do: patrol reads, injected errors and their records (R352 to R360, R366, R367,
R371), spares (R11, R377), power (R280 to R282, R376), bring-up and reset (R378, R379), table walks (R85, R363) and host
accesses (R93, R356).
-/
namespace Sys2Proof.Machine

/-! ### Errors and records -/

/-- Natural errors appear in words of the copy that holds a line, beside those that it has (R352). -/
def State.appear (s : State) (line corr unc : Nat) : State :=
  let e := s.errOf line
  s.setErr line { e with corr := e.corr ||| corr, unc := e.unc ||| unc }

/-- The words of a line that a list names. -/
def wordsMask (ws : List Nat) : Nat := ws.foldl (fun m i => if i < 16 ∧ m.testBit i = false then m + 2 ^ i else m) 0

/-- The harts that an error in a hart's storage terminates: its holder, or each member of its gang on that core (R352). -/
def State.storeHolders (s : State) (n : Nat) : HartStore → List Nat
  | .bStore => (s.gang (s.hart n).shape.launch).members.filter fun m => coreOf m == coreOf n
  | .vectors | .tiles | .queues => [n]

/-- PLACE of a record for a hart's storage (R366). -/
def State.storePlace (s : State) : HartStore → Nat
  | .vectors => 6
  | .tiles => 7
  | .bStore => 8
  | .queues => Config.queuePlace s.free % 10

/-- An error in the storage of a hart (R352, R353): a corrected one is counted, and one that is not terminates the hart, or
the gang's members on the core, with CODE 0x24, and adds a record of KIND 4 (R366). -/
def State.storeError (s : State) (n : Nat) (store : HartStore) (lost : Bool) : State :=
  let part := (s.hart n).shape.part
  if (s.hart n).q.status = .free then s
  else if !lost then s.countCorrected (some part)
  else
    let t := (s.storeHolders n store).foldl (fun s m => s.terminate m 0x24#8) s
    (t.draw.2).addRas (some part) 4 (t.storePlace store) 0#9 true false false (coreOf n) 0 0 0 0

/-- A patrol read of a line of the shared SRAM and of the HBM4E or LPDDR 6 behind it (R353, R357). An error in the scratchpad, a TCM, host memory or a
hart's storage, which a demand access finds, comes in the same way (log 53). -/
def execPatrolRead (line : Nat) (found : Finding) (s : State) : Out :=
  match found with
  | .storage n store lost => .next (s.storeError n store lost)
  | .clean | .corrected | .uncorrectable _ =>
  match placeOf (line * 128) with
  | .hbm | .lpddr | .window | .spad | .tcm | .host =>
    let s := match found with
      | .corrected => s.appear line 0xFFFF 0
      | .uncorrectable ws => s.appear line 0 (wordsMask ws)
      | _ => s
    .next ((s.detect line 0xFFFF none).detectBehind line)
  | .none => .next s

def execRasInjWrite (part : Nat) (v : Word) (s : State) : Out := .next (if (s.part part).exists_ then s.rasInject part v else s)

/-- The oldest record is removed; IEN keeps its value (R366, R371). -/
def execRasCtlPop (part : Nat) (s : State) : Out := .next (s.updPart part fun x => { x with pq := x.pq.popRas })
def execEvtCtlPop (part : Nat) (s : State) : Out := .next (s.updPart part fun x => { x with pq := x.pq.popEvt })

def execManagementCoreSpareTakeover (s : State) : Out :=
  if s.mgmt.mgmtSpare then .next ({ s with mgmt := { s.mgmt with mgmtSpare := false } }.addEvtAll 7 0) else .next s

/-! ### Walks and host accesses -/

/-- A walk of the table of an ASID by a core (R85, R363): a success leaves a TLB entry, and what its reads find is detected. -/
def execTableWalk (core asid : Nat) (va : Word) (s : State) : Out :=
  match s.walkAsid (s.coreOwner core) asid va.toNat with
  | .ok f => .next ((s.seen f.seen).tlbFill { (mgmtWho asid false none) with hart := 4 * core } (f.entry asid va.toNat))
  | .error e => .next (s.seen e.seen)

/-- A host agent's bytes, in pieces that do not cross a line. -/
def State.hostPut (s : State) (addr : Nat) : List Byte → Nat → State
  | _, 0 => s
  | [], _ => s
  | b :: r, fuel + 1 =>
    let n := 128 - addr % 128
    let piece := (b :: r).take n
    let s := if s.isRetired addr then s else s.put addr piece 0x100#9 (s.pageOwner addr).isSome none
    State.hostPut s (addr + piece.length) ((b :: r).drop n) fuel

/-- A host agent reads `n` bytes: what the reads detect, and then the data, zero in a poisoned word and with CXL poison signalled
(R354). -/
def State.hostGet (s : State) (addr n : Nat) : State :=
  let s := (upTo (addr / 128) ((addr + n + 127) / 128)).foldl (fun s line =>
    let lo := max addr (line * 128)
    s.detect line (wordMask lo (min (addr + n) ((line + 1) * 128) - lo)) none) s
  { s with sto := { s.sto with
    hostRead := ((upTo addr (addr + n)).map fun a => if s.poisoned a then 0 else Memory.byte s.sto.mem a, (upTo (addr / 8) ((addr + n + 7) / 8)).any fun k => s.poisoned (8 * k)) } }

/-- A host agent writes bytes to physical memory over CXL, or reads as many (R93, R354, R356). A HELD module does not answer on its
host port (R378). -/
def execHostMemoryAccess (write : Bool) (addr : Nat) (bytes : List Byte) (s : State) : Out :=
  if s.mgmt.held then .next s
  else match placeOf addr with
  | .hbm | .lpddr | .host => .next (if write then s.hostPut addr bytes bytes.length else s.hostGet addr bytes.length)
  | _ => .next s

/-! ### Power (R280 to R282, R376) -/

def State.setPower (s : State) (p : Nat) (f : Power → Power) : State := s.updPart p fun x => { x with power := f x.power }

/-- The protected floor in watts (R280). -/
def floorWatts : Nat := 60

/-- The sum of budgets exceeds the module limit less the floor (R376). -/
def State.budgetsOver (s : State) : Bool :=
  decide (s.mgmt.limit < (s.partsList.map fun p => (s.part p).power.budget).foldl (· + ·) 0 + floorWatts)

/-- The module's measured power exceeds its limit (R281). -/
def State.moduleOver (s : State) : Bool := decide (1000 * s.mgmt.limit < s.mgmt.drawn)

def Power.exceeds (w : Power) : Bool := decide (1000 * w.budget < w.measured)

/-- The partition that rises for the module: the lowest SPRIO, and among equals the highest number (R281). -/
def State.shedChoice (s : State) : Option Nat :=
  s.partsList.foldl (fun b p =>
    match b with
    | none => some p
    | some q => if (s.part p).power.sprio ≤ (s.part q).power.sprio then some p else some q) none

/-- What forces a rise beyond the partition's own budget: 1 the board limit, 2 the coolant temperature (R372, R376). -/
def State.forcing (s : State) (p : Nat) : Nat :=
  if s.budgetsOver then (if s.mgmt.hot then 2 else 1)
  else if s.moduleOver ∧ (s.partsList.all fun q => !(s.part q).power.exceeds) ∧ s.shedChoice = some p then 3
  else 0

/-- A measurement of a partition, or of the module, which 32 stands for (R281, log 26). -/
def execPowerMeasurement (part mw : Nat) (s : State) : Out :=
  .next (if part = 32 then { s with mgmt := { s.mgmt with drawn := mw } } else if (s.part part).exists_ then s.setPower part fun w => { w with measured := mw } else s)

/-- A cause that forces a step, beside those that do (R376). -/
def Power.force (w : Power) (cause : Nat) : Power := { w with forced := cause :: w.forced.filter (· != cause) }

/-- A rise of one step, where the partition or the module exceeds what it may draw (R281). A rise that a lowered limit forces
is reported (R372). -/
def execShedStepRise (part : Nat) (s : State) : Out :=
  let w := (s.part part).power
  let f := s.forcing part
  if (s.part part).exists_ = false ∨ 6 ≤ w.step ∨ (w.exceeds = false ∧ f = 0) then .next s
  else
    let cause := if f = 3 then 0 else f
    let s := s.setPower part fun w =>
      let w := { w with step := w.step + 1, steps := w.steps + 1 }
      if cause = 0 then w else w.force cause
    .next (if cause = 0 then s else s.addEvt part 8 (w.step + 1 + 256 * cause))

/-- A fall of one step, below 95 % of the budget, once the cause of a forced step has cleared (R281, R376). -/
def execShedStepFall (part : Nat) (s : State) : Out :=
  let w := (s.part part).power
  if (s.part part).exists_ = false ∨ w.step = 0 ∨ 950 * w.budget ≤ w.measured ∨ w.forced ≠ [] then .next s
  else .next (s.setPower part fun w => { w with step := w.step - 1, steps := w.steps + 1 })

/-- Forced steps whose cause has cleared fall under the recovery rule (R376). -/
def State.clearForced (s : State) (cause : Nat) : State :=
  s.partsList.foldl (fun s p => s.setPower p fun w => { w with forced := w.forced.filter (· != cause) }) s

/-- The causes 1 and 2 have cleared once the budgets fit the limit again. -/
def State.limitFits (s : State) : State := if s.budgetsOver then s else (s.clearForced 1).clearForced 2

/-- The module limit changes (R376, R372). -/
def State.setLimit (s : State) (w : Nat) : State :=
  if s.mgmt.limit = w then s
  else
    ({ s with mgmt := { s.mgmt with limit := w } }.addEvtAll 9 w).limitFits

/-- Board management sets its limit, at most 3,200 W (R280). -/
def execModuleLimitChange (watts : Nat) (s : State) : Out :=
  let b := min 3200 watts
  let s := { s with mgmt := { s.mgmt with boardLimit := b } }
  .next (s.setLimit (if s.mgmt.hot then min s.mgmt.limit b else b))

def execCoolantTemperatureHigh (s : State) : Out := .next { s with mgmt := { s.mgmt with hot := true } }

/-- 100 ms above the temperature: the limit falls by 10 % (R376). -/
def execLimitReductionTick (s : State) : Out := .next (if s.mgmt.hot then s.setLimit (s.mgmt.limit * 9 / 10) else s)

/-- The temperature has fallen back: the limit is the board's again (log 26). -/
def execCoolantTemperatureRecovery (s : State) : Out :=
  .next ({ s with mgmt := { s.mgmt with hot := false } }.setLimit s.mgmt.boardLimit)

/-- Every partition goes to step 6 (R376). -/
def execCoolantFlowLoss (s : State) : Out :=
  let s := { s with mgmt := { s.mgmt with noFlow := true } }
  .next (s.partsList.foldl (fun s p =>
    (s.setPower p fun w => { w with step := 6, steps := w.steps + (6 - w.step) }.force 3).addEvt p 8 (6 + 256 * 3)) s)

def execCoolantFlowRestore (s : State) : Out := .next ({ s with mgmt := { s.mgmt with noFlow := false } }.clearForced 3)

/-- With module power removed nothing on the part runs or answers (R280). -/
def execModulePowerRemoval (s : State) : Out := .next { s with mgmt := { s.mgmt with powered := false } }

/-! ### Reset and bring-up (R378, R379) -/

/-- Module reset: the reset state; the model's own inputs and draws go on. -/
def execModuleReset (s : State) : Out := .next { State.reset with inputs := s.inputs, holding := s.holding, free := s.free }

/-- Bring-up has tested the cores: stage 5 has ended (R378). -/
def State.coresTested (s : State) : Bool := decide (5 < s.mgmt.stage)

/-- A core counts as active once its self-test has passed (R379, log 71). -/
def State.activeCore (s : State) (c : Nat) : Bool := s.coresTested && (s.core c).enabled

/-- The enabled-core mask of two dies: 80 bits. -/
def State.coreMask (s : State) (first : Nat) : Nat :=
  (upTo 0 80).foldl (fun m i => if s.activeCore (first + i) then m + 2 ^ i else m) 0

def State.portsUp (s : State) : Nat := ((upTo 0 16).filter fun p => (Table.get ⟨false, false, false⟩ s.links.ports p).up).length
def State.coresUp (s : State) : Nat := ((upTo 0 160).filter s.activeCore).length

/-- Spare cores left: those that passed self-test and have not taken over a core. -/
def State.sparesLeft (s : State) : Nat :=
  if s.coresTested then ((upTo 0 20).filter fun c => !Table.get false s.mgmt.spares c).length else 0

/-- The quarantined ways of a die. -/
def State.waysGone (s : State) (d : Nat) : Nat := (s.sto.quar.filter fun k => k / 2048 == d).length

/-- STATE: 11 HELD, 00 in progress, 10 ready and degraded, 01 ready. -/
def State.reportState (s : State) : Nat :=
  if s.mgmt.held then 3
  else if s.mgmt.stage < 7 then 0
  else if s.coresUp < 160 ∨ s.portsUp < 16 ∨ s.sto.quar ≠ [] then 2
  else 1

/-- The eight words of the report (R379). The build number stands once stage 1 has verified the image. -/
def State.reportWords (s : State) : List Nat :=
  [s.reportState * 2 ^ 62 + s.mgmt.stage * 2 ^ 59 + s.mgmt.failed * 2 ^ 56 + s.coresUp * 2 ^ 24 + s.sparesLeft * 2 ^ 16 + s.portsUp * 256,
    s.coreMask 0, s.coreMask 80,
    s.waysGone 0 % 256 + s.waysGone 1 % 256 * 256 + s.waysGone 2 % 256 * 65536 + s.waysGone 3 % 256 * 16777216,
    if 1 < s.mgmt.stage then Config.buildNumber.toNat else 0, 0, 0, 0]

/-- A core fails its self-test: its cluster's spare takes its number, or the cluster is reduced (R11, R378). -/
def State.coreFails (s : State) (c : Nat) : State :=
  if Table.get false s.mgmt.spares (clusterOf c) then s.updCore c fun u => { u with enabled := false }
  else { s with mgmt := { s.mgmt with spares := Table.set false s.mgmt.spares (clusterOf c) true } }

/-- What a stage found is applied (R359, R378). A way that stage 4 reports in a bank which an earlier one of the report has given a
spare counts against that spare (DESIGN CHOICE, log 71). Once the lanes are trained, Burxus has configured the links (R283, R286). -/
def State.applyStage (s : State) (r : StageReport) : State :=
  if s.mgmt.stage = 2 then { s with mgmt := { s.mgmt with mgmtSpare := s.mgmt.mgmtSpare && r.mgmtFailed == 0 } }
  else if s.mgmt.stage = 4 then r.ways.foldl (fun s k => s.quarantine (k / 2048) (k / 16 % 128) (k % 16) false) s
  else if s.mgmt.stage = 5 then
    let s := { s with mgmt := { s.mgmt with spares := r.sparesBad.foldl (fun t c => Table.set false t c true) s.mgmt.spares } }
    r.coresFailed.foldl State.coreFails s
  else if s.mgmt.stage = 6 then
    let up := (upTo 0 16).filter fun p => !r.portsDown.contains p
    { s with links := { s.links with
        ports := up.foldl (fun t p => Table.set ⟨false, false, false⟩ t p ⟨true, r.lanesSpared.contains p, false⟩) s.links.ports
        protectedPort := up.head?
        etherType := Config.etherType.toNat
        udpPort := Config.udpPort.toNat
        peers := (upTo 0 (33 * 1024)).map fun i => (i, Config.peerKey (i / 1024) (i % 1024)) } }
  else s

/-- A bring-up stage ends: HELD, or the next stage begins, and the report is updated (R378, R379). -/
def execBringupStageComplete (r : StageReport) (s : State) : Out :=
  if 7 ≤ s.mgmt.stage ∨ s.mgmt.held then .next s
  else
    let bad := (decide (s.mgmt.stage = 1 ∨ s.mgmt.stage = 3) && r.held) || (s.mgmt.stage == 2 && decide (2 ≤ r.mgmtFailed))
    let s := s.applyStage r
    let s := { s with mgmt := { s.mgmt with
      held := bad, failed := if bad then s.mgmt.stage else 0, stage := if bad then s.mgmt.stage else s.mgmt.stage + 1 } }
    .next { s with mgmt := { s.mgmt with report := s.reportWords } }

end Sys2Proof.Machine
end

