-- ==== Sys2Proof/Machine/Share.lean ====
section
/-!
DEFINITION. Cache shares and windows (R92, R275, R277, R359): the records that Burxus refuses, and what a rewrite or a change
of LOCK does to lines and to window contents.
-/
namespace Sys2Proof.Machine

/-- The bits of PCACHE that are fields (R275). -/
def pcacheMask : Word := 0xFFFF00FFFFFF0000#64

/-- The share that a record of PCACHE and 128 entries names. -/
def shareOf (pcache : Word) (bt : List Nat) : Share :=
  let x : Share := ⟨pcache &&& pcacheMask, []⟩
  { x with bt := (bt.take x.n).map fun b => b % 128 }

/-- No bank twice. -/
def distinct : List Nat → Bool
  | [] => true
  | b :: r => !r.contains b && distinct r

/-- A record that Burxus refuses (R275). -/
def State.shareBad (s : State) (p die : Nat) (x : Share) : Bool :=
  decide (128 < x.n) || decide (x.n ≠ 0 ∧ x.ways = 0) || decide (x.lock &&& x.ways ≠ x.lock) || !distinct x.bt ||
    s.partsList.any fun q => q != p &&
      (let y := (s.part q).share die
       decide (x.ways &&& y.ways ≠ 0) && x.bt.any fun b => y.bt.contains b)

/-- Lines of a partition that a die caches. -/
def State.linesOf (s : State) (p die : Nat) : List (Nat × Line) :=
  s.sto.lines.filter fun e => e.2.die == die && decide (placeOf (e.1 * 128) ≠ .window) && decide (s.locOwner (e.1 * 128) = some p)

/-- Lines that leave under a new share: those in ways that leave WAYS or enter LOCK, and those whose place moves (R92, R277). -/
def State.shed (s : State) (p die : Nat) (old new : Share) : State :=
  let gone := (s.linesOf p die).filter fun e =>
    !new.ways.testBit e.2.way || new.lock.testBit e.2.way || new.n == 0 || new.bankSet e.1 != old.bankSet e.1
  gone.foldl (fun s e => s.writeBack e.1) s

/-- Locked ways in ascending order. -/
def Share.locked (x : Share) : List Nat := (upTo 0 16).filter fun w => x.lock.testBit w

/-- The offset that a byte of the window has under a new LOCK: bytes of ways that stay keep their place within the way. -/
def moveOff (old new : Share) (off : Nat) : Option Nat :=
  let size := old.n * 262144
  match old.locked[off / max 1 size]? with
  | none => none
  | some w => if new.lock.testBit w then some (new.locked.idxOf w * size + off % size) else none

/-- A table whose keys are locations over `unit` bytes, with the window of a partition moved. -/
def moveTable {α : Type} [DecidableEq α] (d : α) (old new : Share) (base unit : Nat) (t : Table α) : Table α :=
  (t.filterMap fun e =>
    let a := e.1 * unit
    if base ≤ a ∧ a < base + 2 ^ 29 then (moveOff old new (a - base)).map fun o => ((base + o) / unit, e.2) else some e).foldr
    (fun e u => Table.set d u e.1 e.2) []

/-- The window under a new LOCK: contents of unlocked ways are lost, and newly locked ways read as zeros (R92). -/
def State.moveWindow (s : State) (p die : Nat) (old new : Share) : State :=
  let b := winLoc p die 0
  { s with sto := { s.sto with
      mem := moveTable Memory.unlisted old new b 1 s.sto.mem
      poison := moveTable false old new b 8 s.sto.poison
      latent := moveTable Latent.none old new b 128 s.sto.latent
      lines := moveTable lineNone old new b 128 s.sto.lines } }

/-- Ways that are unlocked while they wait for quarantine are quarantined (R359). -/
def State.endLocks (s : State) (die : Nat) (old new : Share) : State :=
  let ways := old.locked.filter fun w => !new.lock.testBit w
  old.bt.foldl (fun s b => ways.foldl (fun s w =>
    let k := wayKey die b w
    if s.sto.quarLater.contains k then
      { s with sto := { s.sto with quarLater := s.sto.quarLater.filter (· != k) } }.settling fun s => s.quarantine die b w false
    else s) s) s

/-- A share takes effect. -/
def State.setShare (s : State) (p die : Nat) (new : Share) : State :=
  let old := (s.part p).share die
  let s := (s.shed p die old new).moveWindow p die old new
  (s.updPart p fun x => { x with shares := Table.set Share.none_ x.shares die new }).endLocks die old new

/-- A rewrite that R277 refuses with BUSY: it moves the banks, or takes a locked way, while a window stands. -/
def Share.busy (old new : Share) : Bool :=
  decide (old.lock ≠ 0) && (decide (old.n ≠ new.n ∨ old.bt ≠ new.bt) || decide (old.lock &&& new.lock ≠ old.lock))

end Sys2Proof.Machine
end

