-- ==== Sys2Proof/Machine/Burxus.lean ====
section
/-!
DEFINITION. Burxus: the call layer (R307 to R312, R380), the owner, partitions (R274, R376, R379), and Mbolux (R315 to R317).
-/
namespace Sys2Proof.Machine

/-! ### Calls and their answers (R307, R308) -/

/-- What a call comes to: the state, the status, and the registers that it names with their values. -/
structure Reply where
  s : State
  status : Nat
  outs : List (Nat × Word)
  deriving DecidableEq, Repr

def callOk : Nat := 0
def callUnknown : Nat := 1
def callDenied : Nat := 2
def callBadarg : Nat := 3
def callBusy : Nat := 4
def callRefused : Nat := 5

/-- A call that changes nothing. -/
def State.reply (s : State) (status : Nat) : Reply := ⟨s, status, []⟩

/-- The agent classes (R312). -/
def agentClass : HostAgent → Nat
  | .driver => 1
  | .board => 2
  | .network => 3

def agentOf (n : Nat) : Option HostAgent := if n = 1 then some .driver else if n = 2 then some .board else if n = 3 then some .network else none

/-- Modes of functions (R310). -/
inductive CallMode where
  | u | s | o | host
  deriving DecidableEq, Repr

/-- Whether a caller may use a function of a mode (R310, R312). -/
def State.mayCall (s : State) (c : Caller) (m : CallMode) : Bool :=
  match c, m with
  | _, .u => true
  | .hart n _, .s => decide ((s.hart n).sc.mode ≠ .user)
  | .hart n _, .o => decide ((s.hart n).sc.mode = .fw)
  | .hart _ _, .host => false
  | .host a, .s => decide (s.mgmt.owner = some a)
  | .host a, .o => decide (s.mgmt.owner = some a)
  | .host _, .host => true

/-- The agreed version of a caller (R309). -/
def State.agreed (s : State) (c : Caller) : Nat :=
  match c with
  | .hart n _ => (s.asid (s.hart n).shape.asid.toNat).version
  | .host a => max 1 (Table.get 0 s.mgmt.versions (agentClass a))

/-- The highest version that this firmware serves (R309). -/
def servedVersions : Nat := 2

def State.setAgreed (s : State) (c : Caller) (v : Nat) : State :=
  match c with
  | .hart n _ => s.updAsid (s.hart n).shape.asid.toNat fun x => { x with version := v }
  | .host a => { s with mgmt := { s.mgmt with versions := Table.set 0 s.mgmt.versions (agentClass a) v } }

/-- The partition of a caller: a hart's own. -/
def State.callPart (s : State) (c : Caller) : Option Nat :=
  match c with
  | .hart n _ => some (s.hart n).shape.part
  | .host _ => none

/-- The features of word 0 that the module offers (R311). -/
def offered (index : Nat) : Word := if index = 0 then 0x3F#64 else 0

/-- The checks that stand before every function: an open and sound module (R378), the version and the feature (R308), and the
mode. -/
def State.gate (s : State) (c : Caller) (from_ : Nat) (feature : Option Nat) (m : CallMode) (f : State → Reply) : Reply :=
  if s.mgmt.held ∨ s.mgmt.stage < 7 then s.reply callDenied
  else if s.agreed c < from_ then s.reply callUnknown
  else if (match feature, s.callPart c with | some b, some p => !s.accepts p b | _, _ => false) then s.reply callUnknown
  else if s.mayCall c m = false then s.reply callDenied
  else f s

/-! ### Memory that a call names (log 11) -/

/-- The management core that acts for a hart, under the hart's ASID. -/
def State.callWho (s : State) (n : Nat) : Who := mgmtWho (s.hart n).shape.asid.toNat false (some (s.hart n).shape.part)

/-- A physical byte, for a host agent; a read that fails detects as any read does. -/
def State.physByte (s : State) (a : Word) : State × Option Byte :=
  match s.physLoc none a.toNat with
  | none => (s, none)
  | some loc =>
    let t : Trans := ⟨loc, 2, none, []⟩
    match s.readErr a t 1 .read with
    | some e => (s.applyFound e, none)
    | none => let (s, b) := s.readOk t 1 none; (s, some ((b[0]?).getD 0))

def State.physBytes (s : State) (a : Word) : Nat → State × Option (List Byte)
  | 0 => (s, some [])
  | n + 1 =>
    match s.physByte a with
    | (s, none) => (s, none)
    | (s, some b) => let (s, r) := State.physBytes s (a + 1) n; (s, r.map fun l => b :: l)

/-- Bytes at an address that a call names: an address of the hart's ASID, or a physical one of a host agent. -/
def State.callBytes (s : State) (c : Caller) (a : Word) (n : Nat) : State × Option (List Byte) :=
  match c with
  | .hart h _ => (match s.getBytes (s.callWho h) a n with | .ok (s, l) => (s, some l) | .error (s, _) => (s, none))
  | .host _ => s.physBytes a n

/-- Bytes that a call writes, all or none; accesses that fail detect as any do (R361). -/
def State.callPut (s : State) (c : Caller) (a : Word) (bs : List Byte) : State × Bool :=
  match c with
  | .hart h _ => (match s.putBytes (s.callWho h) a bs with | (t, _, none) => (t, true) | (_, _, some e) => (s.applyFound e, false))
  | .host _ =>
    if (List.range bs.length).all fun i => (match s.physLoc none (a.toNat + i) with | some l => !s.isRetired l | none => false) then
      (s.hostPut a.toNat bs bs.length, true)
    else (s, false)

/-! ### Versions and features (R309 to R311) -/

def State.callVersion (s : State) (f : CallFrame) : Reply :=
  s.gate f.caller 1 none .u fun s =>
    if f.a0 = 0 then s.reply callBadarg
    else
      let v := min f.a0.toNat servedVersions
      ⟨s.setAgreed f.caller v, callOk, [(10, w64 v), (11, Config.buildNumber)]⟩

def State.callFeatures (s : State) (f : CallFrame) : Reply :=
  s.gate f.caller 1 none .u fun s =>
    let p := (s.callPart f.caller).getD f.a1.toNat
    if 3 < f.a0.toNat ∨ 31 < p then s.reply callBadarg
    else ⟨s, callOk, [(10, offered f.a0.toNat), (11, if f.a0 = 0 then (s.part p).accepted else 0)]⟩

def State.callAccept (s : State) (f : CallFrame) : Reply :=
  s.gate f.caller 1 none .o fun s =>
    let p := f.a2.toNat
    if 3 < f.a0.toNat ∨ (s.part p).exists_ = false then s.reply callBadarg
    else if (s.part p).posted then s.reply callBusy
    else
      let bits := f.a1 &&& offered f.a0.toNat
      ⟨if f.a0 = 0 then s.updPart p fun x => { x with accepted := bits } else s, callOk, [(11, bits)]⟩

/-! ### ASIDs and cache shares (R310) -/

/-- An ASID that a caller may name: one of a hart's own partition, and for the owner one that a partition owns (R310, R380). -/
def State.mayName (s : State) (c : Caller) (asid : Nat) : Bool :=
  match s.callPart c with
  | some p => (s.part p).exists_ && (s.part p).asids.contains asid
  | none => s.partsList.any fun p => (s.part p).asids.contains asid

/-- A level-1 table stands at a multiple of 64 KiB in storage that the ASID's partition reaches, a window of its own among it
(R85, R88, R92). -/
def State.rootBad (s : State) (asid : Nat) (pa : Word) : Bool :=
  decide (pa.toNat % 65536 ≠ 0) || (s.physLoc (s.partsList.find? fun p => (s.part p).asids.contains asid) pa.toNat).isNone

def State.callAsidRoot (s : State) (f : CallFrame) : Reply :=
  s.gate f.caller 1 none .s fun s =>
    if s.mayName f.caller f.a0.toNat = false ∨ s.rootBad f.a0.toNat f.a1 ∨ fld f.a2 2 0 ≠ 0 then s.reply callBadarg
    else ⟨s.updAsid f.a0.toNat fun x => { x with root := some f.a1.toNat, vector := f.a2 }, callOk, []⟩

def State.callCacheSet (s : State) (f : CallFrame) : Reply :=
  s.gate f.caller 1 none .o fun s =>
    let p := f.a0.toNat
    let die := f.a1.toNat
    if (s.part p).exists_ = false ∨ 3 < die then s.reply callBadarg
    else match s.callBytes f.caller f.a2 136 with
      | (s, none) => s.reply callBadarg
      | (s, some bs) =>
        let new := shareOf (w64 (ofBytes (bs.take 8))) ((bs.drop 8).map fun b => b.toNat)
        if s.shareBad p die new then s.reply callBadarg
        else if ((s.part p).share die).busy new then s.reply callBusy
        else ⟨s.setShare p die new, callOk, []⟩

/-- LOCK of the caller's own partition; an agent without one names none (log 11). -/
def State.callCacheLock (s : State) (f : CallFrame) : Reply :=
  s.gate f.caller 2 (some 3) .s fun s =>
    match s.callPart f.caller with
    | none => s.reply callBadarg
    | some p =>
      let die := f.a0.toNat
      let x := (s.part p).share die
      if 3 < die ∨ 65535 < f.a1.toNat ∨ f.a1.toNat &&& x.ways ≠ f.a1.toNat then s.reply callBadarg
      else ⟨s.setShare p die { x with pcache := (x.pcache &&& 0xFFFFFFFF0000FFFF#64) ||| (f.a1 <<< 16) }, callOk, []⟩

/-! ### Slates (R310, R380) -/

/-- What SLATE.POST writes into s10 (R251). -/
def postWord (launch status : Nat) : Word := w64 (launch * 2 ^ 32 + status)

/-- The completion word of a malformed slate (R380). -/
def State.malformed (s : State) (who : Who) (w : List Word) : State :=
  let va := slateWord w 3
  if va = 0 ∨ fld va 2 0 ≠ 0 then s else s.completeAt who va 4 0

def State.callSlatePost (s : State) (f : CallFrame) : Reply :=
  s.gate f.caller 1 none .s fun s =>
    let asid := f.a1.toNat
    if s.mayName f.caller asid = false then ⟨s, callOk, [(10, postWord 0 3)]⟩
    else
      let own := s.partsList.find? fun p => (s.part p).asids.contains asid
      let who := mgmtWho asid false own
      match (if f.a0.toNat % 64 ≠ 0 then (s, none) else s.mgmtLoad who f.a0 64) with
      | (s, none) => s.reply callBadarg
      | (s, some bs) =>
        let w := slateOf bs
        if s.slateBad w then ⟨s.malformed who w, callOk, [(10, postWord 0 2)]⟩
        else if (match s.callPart f.caller with | some p => decide (slatePart w ≠ p) | none => false) then ⟨s, callOk, [(10, postWord 0 3)]⟩
        else if s.queueFull w then ⟨s, callOk, [(10, postWord 0 1)]⟩
        else
          let (s, l) := s.queueSlate f.a0 w
          ⟨s.updPart (slatePart w) fun x => { x with posted := true }, callOk, [(10, postWord l 0)]⟩

/-- A slate that waits and has not been placed leaves its queue, without a completion word. A hart reaches the queues of its
own partition. -/
def State.callSlateWithdraw (s : State) (f : CallFrame) : Reply :=
  s.gate f.caller 1 none .s fun s =>
    let mine := match s.callPart f.caller with | some p => [p] | none => s.partsList
    match mine.find? fun p => (s.part p).queue.any fun q => q.launch == f.a0.toNat && q.image.isNone with
    | some p => ⟨s.unqueue p f.a0.toNat, callOk, [(10, 1)]⟩
    | none => ⟨s, callOk, [(10, 0)]⟩

/-! ### Partitions (R274, R280, R376, R379) -/

/-- Whether two runs of 64 KiB pages meet. -/
def runsMeet (a b : Nat × Nat) : Bool := decide (a.1 < b.1 + b.2 ∧ b.1 < a.1 + a.2)

def pagesMeet (a b : List (Nat × Nat)) : Bool := a.any fun x => b.any fun y => runsMeet x y

/-- A page lies in a list of runs. -/
def pageIn (l : List (Nat × Nat)) (f : Nat) : Bool := l.any fun r => decide (r.1 ≤ f ∧ f < r.1 + r.2)

/-- A record that Burxus refuses: resources that do not exist or that another partition owns (R274, R284), retired frames, which
are never used again (R358), or a budget that the module cannot bear (R280). -/
def State.recordBad (s : State) (p : Nat) (r : PartRecord) : Bool :=
  let others := s.partsList.filter fun q => q != p
  (r.cores.any fun c => decide (160 ≤ c) || others.any fun q => (s.part q).cores.contains c) ||
  (r.asids.any fun a => decide (256 ≤ a) || others.any fun q => (s.part q).asids.contains a) ||
  (r.ports.any fun x => decide (16 ≤ x) || decide (s.links.protectedPort = some x) || others.any fun q => (s.part q).ports.contains x) ||
  (r.pages.any fun x => decide (2 ^ 36 < x.1 + x.2)) || (others.any fun q => pagesMeet r.pages (s.part q).pages) ||
  (r.units.any fun x => decide (20 ≤ x.1 ∨ 256 ≤ x.2) || others.any fun q => (s.part q).units.contains x) ||
  (r.reserve.any fun x => !pageIn r.pages x) || decide (3140 < r.budget) ||
  (s.sto.retired.any fun x => r.reserve.contains x.1 || (pageIn r.pages x.1 && !pageIn (s.part p).pages x.1)) ||
  decide (s.mgmt.limit < (others.map fun q => (s.part q).power.budget).foldl (· + ·) 0 + r.budget + floorWatts)

/-- The slates of a partition that run or wait. -/
def State.slatesOf (s : State) (p : Nat) : List QSlate :=
  ((s.gangs.map fun e => e.2.slate).filter fun q => slatePart q.words == p) ++ (s.part p).queue

/-- A partition under its new record. -/
def Partition.take (x : Partition) (r : PartRecord) : Partition :=
  { x with
    exists_ := true, cores := r.cores, asids := r.asids, pages := r.pages, reserve := r.reserve, ports := r.ports, units := r.units
    hbmw := r.hbmw, netw := r.netw, linkw := r.linkw, power := { x.power with budget := r.budget, sprio := r.sprio } }

/-- A gang of some partition holds a scratchpad unit that its partition would own no more (R274). -/
def State.losesUnit (s t : State) : Bool :=
  s.gangs.any fun e => e.2.spad.any fun u =>
    let p := slatePart e.2.slate.words
    s.ownsUnit p e.2.cluster u && !t.ownsUnit p e.2.cluster u

/-- A record that removes something in use by a running or queued slate (R376): a core that a gang of it holds, an ASID that
a slate names, a port with a session of it, any page while a slate of the partition runs or waits, and a scratchpad unit that a
gang holds (log 11). -/
def State.recordBusy (s : State) (p : Nat) (r : PartRecord) : Bool :=
  let x := s.part p
  let qs := s.slatesOf p
  (x.cores.any fun c => !r.cores.contains c && (s.gangsOn c).any fun g => slatePart g.slate.words == p) ||
  (x.asids.any fun a => !r.asids.contains a && qs.any fun q => slateAsid q.words == a) ||
  (x.ports.any fun n => !r.ports.contains n && !qs.isEmpty && s.links.sessions.any fun e => e.2.port == n && e.2.part == p) ||
  (!qs.isEmpty && x.pages.any fun y => (upTo y.1 (y.1 + y.2)).any fun f => !pageIn r.pages f) ||
  s.losesUnit (s.updPart p fun x => x.take r)

/-- Lines of pages that change hands leave the shared SRAM (R276, R277). -/
def State.dropPages (s : State) (p : Nat) (r : PartRecord) : State :=
  let moved (line : Nat) : Bool :=
    let f := line * 128 / 65536
    decide (placeOf (line * 128) ≠ .window) && (pageIn r.pages f != pageIn (s.part p).pages f)
  (s.sto.lines.filter fun e => moved e.1).foldl (fun s e => s.writeBack e.1) s

/-- An ASID comes to a partition. Where another had it, every TLB entry of it is dropped first, and its agreed version is 1
(R274, R309). -/
def State.takeAsid (p : Nat) (s : State) (a : Nat) : State :=
  if (s.asid a).last = some p then s
  else (s.dropTlb .mod 0 fun e => !e.glob && decide (e.asid.toNat = a)).updAsid a fun x => { x with version := 1, last := some p }

def State.callPartSet (s : State) (f : CallFrame) (r : PartRecord) : Reply :=
  s.gate f.caller 1 none .o fun s =>
    let p := f.a0.toNat
    if 31 < p ∨ s.recordBad p r then s.reply callBadarg
    else if s.recordBusy p r then s.reply callBusy
    else
      let old := s.part p
      let s := s.dropPages p r
      let s := (r.asids.filter fun a => !old.asids.contains a).foldl (State.takeAsid p) s
      let s := s.updPart p fun x => x.take r
      -- the first record of a partition tells of a degraded module (R379)
      let s := if old.exists_ = false ∧ ((s.mgmt.report[0]?).getD 0) / 2 ^ 62 = 2 then s.addEvt p 10 ((s.mgmt.report[0]?).getD 0) else s
      ⟨s.limitFits, callOk, []⟩

def State.callPowerRead (s : State) (f : CallFrame) : Reply :=
  s.gate f.caller 1 none .u fun s =>
    let x := s.part f.a0.toNat
    if x.exists_ = false then s.reply callBadarg
    else ⟨s, callOk, [(10, w64 x.power.step), (11, w64 x.power.measured), (12, w64 x.power.steps)]⟩

/-- A group is set (R293): up to 48 members and the module's own index. A session of the protected port is no member (R284). -/
def State.callGroupSet (s : State) (f : CallFrame) (sids : List Nat) : Reply :=
  s.gate f.caller 2 (some 2) .o fun s =>
    if 65535 < f.a0.toNat ∨ 48 < sids.length ∨ sids.length ≤ f.a2.toNat ∨ (sids.any fun x => decide (65535 < x) || (s.hasSession x && decide ((s.session x).part = 32))) then s.reply callBadarg
    else ⟨{ s with links := { s.links with groups := Table.set ⟨[], 0⟩ s.links.groups f.a0.toNat ⟨sids, f.a2.toNat⟩ } }, callOk, []⟩

/-! ### The owner (R312) -/

/-- Ownership changes hands: the port that the old owner held open is closed (R299). -/
def State.setOwner (s : State) (a : Option HostAgent) : State :=
  { s with mgmt := { s.mgmt with owner := a, handover := none, attached := false } }

def State.callClaim (s : State) (f : CallFrame) : Reply :=
  s.gate f.caller 1 none .host fun s =>
    match f.caller with
    | .hart _ _ => s.reply callDenied
    | .host a =>
      match s.mgmt.owner with
      | none => ⟨s.setOwner (some a), callOk, []⟩
      | some b =>
        if s.mgmt.handover = some a then ⟨s.setOwner (some a), callOk, []⟩
        else ⟨s, callRefused, [(10, w64 (agentClass b))]⟩

/-- Only the owner calls HANDOVER and RELEASE. -/
def State.ownerOnly (s : State) (f : CallFrame) (k : State → Reply) : Reply :=
  s.gate f.caller 1 none .host fun s =>
    match f.caller with
    | .hart _ _ => s.reply callDenied
    | .host a => if s.mgmt.owner = some a then k s else s.reply callDenied

def State.callHandover (s : State) (f : CallFrame) : Reply :=
  s.ownerOnly f fun s =>
    match agentOf f.a0.toNat with
    | none => s.reply callBadarg
    | some a => ⟨{ s with mgmt := { s.mgmt with handover := some a } }, callOk, []⟩

def State.callRelease (s : State) (f : CallFrame) : Reply := s.ownerOnly f fun s => ⟨s.setOwner none, callOk, []⟩

/-! ### Mbolux (R315 to R317, log 12) -/

/-- Whether a text holds VCONF or SETVL.N: issue units are walked from its first word (R18, R315). -/
def shapeChanges : Nat → List Word → Bool
  | 0, _ => false
  | _ + 1, [] => false
  | fuel + 1, w :: r =>
    if isHeader w then shapeChanges fuel (r.drop (headerCount w))
    else match (decodeIn .sc w).toOption with
      | some (.vconf ..) => true
      | some (.setvlN ..) => true
      | _ => shapeChanges fuel r

/-- A header that is refused (R315). -/
def mboluxBad (w : List Word) : Bool :=
  decide (slateWord w 0 ≠ 0x00000001584C424D#64 ∨ fld (slateWord w 7) 63 1 ≠ 0) ||
  ([2, 3].any fun i => decide (fld (slateWord w i) 2 0 ≠ 0)) ||
  decide ((slateWord w 3).toNat ≤ (slateWord w 6).toNat ∨ fld (slateWord w 6) 2 0 ≠ 0)

/-- The slate that a load writes: its GW is the target, and SHRINK is clear (R317). -/
def mboluxSlate (entry : Word) (asid part g nreg tcm : Nat) : List Byte :=
  let ctrl := asid * 2 ^ 56 + part * 2 ^ 51 + g * 2 ^ 28 + nreg * 2 ^ 26 + 1
  toBytes 8 entry.toNat ++ toBytes 8 ctrl ++ toBytes 8 (tcm * 2 ^ 24) ++ toBytes 40 0

/-- The ASID and the partition of the slate that a load writes: a hart's own; for a host agent the partition that owns the
destination's page, and its first ASID (log 12). -/
def State.mboluxHome (s : State) (c : Caller) (dst : Word) : Option (Nat × Nat) :=
  match c with
  | .hart n _ => some ((s.hart n).shape.asid.toNat, (s.hart n).shape.part)
  | .host _ =>
    match s.pageOwner dst.toNat with
    | none => none
    | some p => (s.part p).asids.head?.map fun a => (a, p)

/-- The code of a translated image stands at an address of an ASID; what was translated there before is gone. A factor of 1 is no
translation (R316). -/
def State.recordImage (s : State) (asid base size : Nat) (same : Bool) : State :=
  let left := s.mgmt.images.filter fun x => x.1 != asid || decide (x.2.1 + x.2.2 ≤ base ∨ base + size ≤ x.2.1)
  { s with mgmt := { s.mgmt with images := if same then left else (asid, base, size) :: left } }

/-- MBOLUX.LOAD (R315 to R317). The native image holds the image's own words, and a slate of a translated image runs them as the virtual
machine of R315 does: its registers are that machine's, and so is every result, but for SR roundings (R316). The words that bring this
about, and how many more they are, are open (log 12). -/
def State.callMboluxLoad (s : State) (f : CallFrame) : Reply :=
  s.gate f.caller 2 (some 0) .s fun s =>
    match s.mboluxHome f.caller f.a1 with
    | none => s.reply callBadarg
    | some (asid, part) =>
      let g := f.a3.toNat
      let nreg := f.a4.toNat
      if 2 < g ∨ 3 < nreg ∨ f.a1.toNat % 64 ≠ 0 ∨ fld f.a0 2 0 ≠ 0 then s.reply callBadarg
      else match s.callBytes f.caller f.a0 64 with
        | (s, none) => s.reply callBadarg
        | (s, some hd) =>
          let w := slateOf hd
          if mboluxBad w then s.reply callBadarg
          else
            let size := max ((slateWord w 2).toNat + (slateWord w 3).toNat) (max ((slateWord w 4).toNat + (slateWord w 5).toNat) 64)
            match s.callBytes f.caller f.a0 size with
            | (s, none) => s.reply callBadarg
            | (s, some img) =>
              let text := (img.drop (slateWord w 2).toNat).take (slateWord w 3).toNat
              let words := (List.range (text.length / 8)).map fun i => w64 (ofBytes ((text.drop (8 * i)).take 8))
              if shapeChanges words.length words then s.reply callBadarg
              else if slateWord w 1 &&& ~~~(s.part part).accepted ≠ 0 then s.reply callRefused
              else
                -- the physical VLEN of the target: 16,384 bits is f = 1 (R316)
                let same := decide (vlenOf (2 ^ g) (BitVec.ofNat 2 nreg) = 16384)
                let tcm := if same then 0 else Config.mboluxTcm img g nreg
                let body := img.drop 64 ++ if same then [] else Config.mboluxRest img g nreg
                let native := mboluxSlate (f.a1 + (slateWord w 2 + slateWord w 6)) asid part g nreg tcm ++ body
                if f.a2.toNat < native.length then s.reply callRefused
                else match s.callPut f.caller f.a1 native with
                  | (s, false) => s.reply callBadarg
                  | (s, true) => ⟨s.recordImage asid f.a1.toNat native.length same, callOk, [(10, w64 native.length), (11, w64 tcm)]⟩

/-! ### BCALL (R255, R307) -/

/-- The record that PART.SET reads at s11, and the member list of GROUP.SET: the manual lists what they hold and gives no layout
(log 11). An address that cannot be read is refused. -/
def State.withRecord {α : Type} (s : State) (f : CallFrame) (from_ : Nat) (feature : Option Nat) (n : Nat) (parse : List Byte → α) (call : State → α → Reply) : Reply :=
  s.gate f.caller from_ feature .o fun s =>
    match s.callBytes f.caller f.a1 n with
    | (s, none) => s.reply callBadarg
    | (s, some l) => call s (parse l)

/-- The function of a number (R310). -/
def State.callFn (s : State) (n : Nat) (f : CallFrame) : Reply :=
  if n = 0 then s.callVersion f
  else if n = 1 then s.callFeatures f
  else if n = 2 then s.callAccept f
  else if n = 0x10 then s.callAsidRoot f
  else if n = 0x11 then s.callCacheSet f
  else if n = 0x12 then s.callCacheLock f
  else if n = 0x20 then s.callSlatePost f
  else if n = 0x21 then s.callSlateWithdraw f
  else if n = 0x30 then s.withRecord f 1 none Config.recordLength Config.recordOf fun s r => s.callPartSet f r
  else if n = 0x31 then s.callPowerRead f
  else if n = 0x40 then s.withRecord f 2 (some 2) Config.memberListLength Config.memberListOf fun s l => s.callGroupSet f l
  else if n = 0x50 then s.callClaim f
  else if n = 0x51 then s.callHandover f
  else if n = 0x52 then s.callRelease f
  else if n = 0x60 then s.callMboluxLoad f
  else s.gate f.caller 1 none .u fun s => s.reply callUnknown

/-- s10 to s15, the arguments of a call. -/
def callRegs : List SReg := [10, 11, 12, 13, 14, 15]

def Hart.frame (h : Hart) (n : Nat) (sd : SReg) : CallFrame := ⟨.hart n sd, h.rdS 10, h.rdS 11, h.rdS 12, h.rdS 13, h.rdS 14, h.rdS 15⟩

/-- Results into s10 to s15, and then the status into sd (R307, R308). -/
def Hart.takeReply (h : Hart) (sd : SReg) (r : Reply) : Hart :=
  (r.outs.foldl (fun h (o : Nat × Word) => h.wrS (BitVec.ofNat 5 o.1) o.2) h).wrS sd (w64 r.status)

def execBcall (g : SG) (sd : SReg) (n : BitVec 16) (s : State) : Out :=
  s.scalar g (sd :: callRegs) fun i h => s.fenceAll i fun s =>
    let r := s.callFn n.toNat (h.frame i sd)
    .next (r.s.updHart i fun h => (h.takeReply sd r).nextPc)

/-! ### Calls as events (R307) -/

/-- The six argument words of a frame after a call. -/
def frameWords (f : CallFrame) (outs : List (Nat × Word)) : List Word :=
  let args := [f.a0, f.a1, f.a2, f.a3, f.a4, f.a5]
  (List.range 6).map fun i => match outs.find? fun o => o.1 == 10 + i with | some o => o.2 | none => (args[i]?).getD 0

/-- Whether a host agent's call comes through: network management calls only in a session of the protected port (R284, R307), and a
HELD module does not answer the driver on the host port (R378). -/
def State.heard (s : State) (a : HostAgent) : Bool :=
  match a with
  | .network => s.links.protectedPort.isSome && s.links.sessions.any fun e => e.2.part == 32 && e.2.opened
  | .driver => !s.mgmt.held
  | .board => true

/-- The eight words of a frame before any call (log 10). -/
def frameReset : List Word := List.replicate 8 0

/-- A host agent's frame takes the results and the status. -/
def State.hostFrame (s : State) (a : HostAgent) (fn : Nat) (f : CallFrame) (call : State → Reply) : State :=
  if s.heard a = false then s
  else
    let r := call s
    { r.s with mgmt := { r.s.mgmt with
      mailbox := Table.set frameReset r.s.mgmt.mailbox (agentClass a) (w64 fn :: frameWords f r.outs ++ [w64 r.status]) } }

/-- A call comes to its agent; a hart makes its call by the BCALL at its commit point, and nothing else. -/
def callEvent (fn : Nat) (f : CallFrame) (call : State → Reply) (s : State) : Out :=
  match f.caller with
  | .host a => .next (s.hostFrame a fn f call)
  | .hart n _ =>
    match s.peek n with
    | some (.bcall g sd k) =>
      if k.toNat = fn ∧ s.paused n = false then
        (match execBcall g sd k { s with cur := n } with | .next t => .next { t with cur := s.cur } | o => o)
      else .next s
    | _ => .next s

def execVersion (f : CallFrame) (s : State) : Out := callEvent 0 f (·.callVersion f) s
def execFeatures (f : CallFrame) (s : State) : Out := callEvent 1 f (·.callFeatures f) s
def execAccept (f : CallFrame) (s : State) : Out := callEvent 2 f (·.callAccept f) s
def execAsidRoot (f : CallFrame) (s : State) : Out := callEvent 0x10 f (·.callAsidRoot f) s
def execCacheSet (f : CallFrame) (s : State) : Out := callEvent 0x11 f (·.callCacheSet f) s
def execCacheLock (f : CallFrame) (s : State) : Out := callEvent 0x12 f (·.callCacheLock f) s
def execSlatePost (f : CallFrame) (s : State) : Out := callEvent 0x20 f (·.callSlatePost f) s
def execSlateWithdraw (f : CallFrame) (s : State) : Out := callEvent 0x21 f (·.callSlateWithdraw f) s
def execPartSet (f : CallFrame) (r : PartRecord) (s : State) : Out := callEvent 0x30 f (·.callPartSet f r) s
def execPowerRead (f : CallFrame) (s : State) : Out := callEvent 0x31 f (·.callPowerRead f) s
def execGroupSet (f : CallFrame) (sids : List Nat) (s : State) : Out := callEvent 0x40 f (·.callGroupSet f sids) s
def execClaim (f : CallFrame) (s : State) : Out := callEvent 0x50 f (·.callClaim f) s
def execHandover (f : CallFrame) (s : State) : Out := callEvent 0x51 f (·.callHandover f) s
def execRelease (f : CallFrame) (s : State) : Out := callEvent 0x52 f (·.callRelease f) s
def execMboluxLoad (f : CallFrame) (s : State) : Out := callEvent 0x60 f (·.callMboluxLoad f) s

/-- An owner that has made no call for 10 s is owner no more (R312). -/
def execOwnershipLapse (s : State) : Out := .next (if s.mgmt.owner.isSome then s.setOwner none else s)

/-- An agent resets: its agreed version is 1 again (R309). -/
def execHostAgentReset (who : HostAgent) (s : State) : Out :=
  .next { s with mgmt := { s.mgmt with versions := Table.set 0 s.mgmt.versions (agentClass who) 0 } }

end Sys2Proof.Machine
end

