-- ==== Sys2Proof/Machine/Debug.lean ====
section
/-!
DEFINITION. The debug port (R297 to R301, R328), samples (R304, R305), and the clearing of the dailies (R303).
-/
namespace Sys2Proof.Machine

/-! ### Answers (R297) -/

/-- Answers of the port: OK, BUSY, REFUSED, FAULT (log 16). -/
def dbgOk : Nat := 0
def dbgBusy : Nat := 1
def dbgRefused : Nat := 2
def dbgFault : Nat := 3

def State.answer (s : State) (code v : Nat) : State := { s with mgmt := { s.mgmt with answer := (code, v) } }

/-- A command of the port: refused to every agent that is not the owner. -/
def State.dbg (s : State) (who : HostAgent) (f : State → State) : Out :=
  if s.mgmt.owner = some who then .next (f s) else .next (s.answer dbgRefused 0)

/-! ### RESUME and steps (R298, R300) -/

/-- A stopped hart runs again, for a step or for good. -/
def State.release (s : State) (n : Nat) (m : Option StepMode) : State :=
  s.updHart n fun h =>
    let from_ : Option (Word × Option Nat) :=
      match h.stopConv with
      | none => some (h.sc.pc, none)
      | some e =>
        let w := h.vec.bfstart
        match passIn e with
        | some p => some (e.addr, some (if bfActive w then pairLow (bfPair w) (seqStage (h.rdQ p.q) (bfEntry w)) else 0))
        | none => some (e.addr, some h.vec.vstart)
    { h with q := { h.q with status := .running, step := m, skipBp := if m.isSome then from_ else h.q.skipBp } }

def execResume (who : HostAgent) (hart : Nat) (s : State) : Out :=
  s.dbg who fun s =>
    if (s.hart hart).q.status = .stopped then (s.release hart none).answer dbgOk 0 else s.answer dbgRefused 0

/-- A step begins: its answer is OK once it ends. -/
def State.beginStep (s : State) (n : Nat) (m : StepMode) : State :=
  if (s.hart n).q.status = .stopped then (s.release n (some m)).answer dbgBusy 0 else s.answer dbgRefused 0

def execStepUnit (who : HostAgent) (hart : Nat) (s : State) : Out := s.dbg who fun s => s.beginStep hart .unit
def execStepGroup (who : HostAgent) (hart : Nat) (s : State) : Out := s.dbg who fun s => s.beginStep hart .group

/-! ### The stop state (R322, R328) -/

/-- The stop point: the stopped convoy, or the resume point. -/
def Hart.stopPc (h : Hart) : Word := match h.stopConv with | some e => e.addr | none => h.sc.pc

/-- A stopped hart's control register: inside a convoy the registers of R322 and the bits of TSTAT that tell of the stop answer for
the stop (R328), and every other register holds what a trap left in it (R57). -/
def State.dbgCsr (s : State) (n k : Nat) : Word :=
  let h := s.hart n
  match (if h.q.status = .stopped then h.stopConv else none) with
  | none => s.csrRead n k
  | some e =>
    if k = 0x106 then (h.trap.tstat &&& ~~~0xC0#64) ||| (if e.isPass then 0xC0#64 else 0x40#64)
    else if k = 0x107 then h.resumePoint
    else if 0x108 ≤ k ∧ k ≤ 0x10D then Table.get 0 (tqOf e e.vl) (k - 0x108)
    else s.csrRead n k

/-- The stopped convoy takes other values: its words and checks are made again under them (R328). -/
def State.setStopConv (s : State) (n : Nat) (e : QEntry) : State :=
  let (s, e) := s.rebuild n e
  s.updHart n fun h => { h with q := { h.q with queue := [e] } }

/-- A WRITE of a stopped hart's PC: where it goes on (R297). -/
def State.dbgPcWrite (s : State) (n : Nat) (v : Word) : State :=
  match (s.hart n).stopConv with
  | some e => s.setStopConv n { e with addr := v }
  | none => s.updHart n fun h => h.setPc v

/-- A WRITE of a control register of a stopped hart: as supervisor code's (R301), but inside a convoy the registers of R322 are the
stop's, and INCV := 0 abandons the convoy (R328). -/
def State.dbgCsrWrite (s : State) (n k : Nat) (v : Word) : State :=
  let h := s.hart n
  match h.stopConv with
  | none => s.csrWrite n k v
  | some e =>
    if k = 0x106 then
      let read := s.dbgCsr n k
      let own := 0xC0#64 &&& ~~~(v ^^^ read)
      if v.getLsbD 6 then s.csrWrite n k ((v &&& ~~~own) ||| (h.trap.tstat &&& own))
      else (s.csrWrite n k v).updHart n fun h => { h with q := { h.q with queue := [] } }
    else if k = 0x107 then s.updHart n fun h => h.setPc (v &&& ~~~7#64)
    else if 0x108 ≤ k ∧ k ≤ 0x10D then
      let t := { h.trap with tq := tqOf e e.vl }
      let s' := (s.setHart n { h with trap := t }).csrWrite n k v
      (s'.updHart n fun x => { x with trap := h.trap }).setStopConv n (entryOfTq e.addr (s'.hart n).trap.tq)
    else s.csrWrite n k v

/-! ### READ and WRITE (R297, R301) -/

/-- The management core that reads and writes memory for the port (R301). -/
def State.dbgWho (s : State) (n : Nat) : Who := mgmtWho (s.hart n).shape.asid.toNat false (some (s.hart n).shape.part)

/-- The row of a hart's B-store window (R228). -/
def Hart.bRow (h : Hart) (row : Nat) : Option Nat := if row < 1024 * h.shape.bst.length then some (bRowKey h.shape.bst row) else none

/-- The value of an item; none where it does not exist or the access fails. -/
def State.dbgGet (s : State) (n : Nat) (i : DbgItem) : State × Option Nat :=
  let h := s.hart n
  let c := s.core (coreOf n)
  match i with
  | .s r => (s, some (h.rdS r).toNat)
  | .cond => (s, some (h.sc.c ||| 1#16).toNat)
  | .v r => if r.toNat < h.nregs then (s, some (h.rdV r.toNat)) else (s, none)
  | .p r => (s, some (h.rdP r.toNat))
  | .k r => (s, some (Table.get 0 h.vec.k r.toNat))
  | .o r => (s, some (h.rdO r).toNat)
  | .q r => (s, some (h.rdQ r).toNat)
  | .csr k => if csrExists k.toNat then (s, some (s.dbgCsr n k.toNat).toNat) else (s, none)
  | .msh => (s, some h.sc.msh.toNat)
  | .pc => (s, some h.stopPc.toNat)
  | .tile t row => if h.shape.talloc.getLsbD t.toNat then (s, some (Table.get 0 c.tile (32 * t.toNat + row.toNat))) else (s, none)
  | .bstore row => (s, (h.bRow row).map fun k => Table.get 0 c.bstore k)
  | .mem va => if fld va 2 0 ≠ 0 then (s, none) else let (s, l) := s.mgmtLoad (s.dbgWho n) va 8; (s, l.map ofBytes)
  | .bkpa b => (s, some (Table.get 0 h.q.bkpa b.toNat).toNat)
  | .bkpc b => (s, some (Table.get 0 h.q.bkpc b.toNat).toNat)

/-- Items that a WRITE never reaches: registers that R301 refuses, read-only ones, and breakpoints (R299). -/
def dbgReadOnly : DbgItem → Bool
  | .csr k => csrExists k.toNat && !csrWritable k.toNat
  | .bkpa _ | .bkpc _ => true
  | _ => false

/-- An item takes a value (R301), or does not exist or cannot be written. -/
def State.dbgPut (s : State) (n : Nat) (i : DbgItem) (v : Nat) : State × Bool :=
  let h := s.hart n
  let len := h.vlen
  match i with
  | .s r => (s.setHart n (h.wrS r (w64 v)), true)
  | .cond => (s.setHart n { h with sc := { h.sc with c := BitVec.ofNat 16 v &&& 0xFFFE#16 } }, true)
  | .v r =>
    if r.toNat < h.nregs then
      (s.setHart n (((h.wrV r.toNat (v % 2 ^ len)).unbind r.toNat 1).raiseHwb (len / 8)), true)
    else (s, false)
  | .p r => (s.setHart n ((h.mark r.toNat).wrPraw r.toNat (v % 2 ^ 4096)), true)
  | .k r => (s.setHart n ({ h with vec := { h.vec with k := Table.set 0 h.vec.k r.toNat (v % 2 ^ 4096) } }.advance r), true)
  | .o r => (s.setHart n (h.wrO r (BitVec.ofNat 32 v)), true)
  | .q r => (s.setHart n (h.wrQ r (BitVec.ofNat 128 v)), true)
  | .csr k => if csrExists k.toNat then (s.dbgCsrWrite n k.toNat (w64 v), true) else (s, false)
  | .msh => (s.setHart n { h with sc := { h.sc with msh := w64 v } }, true)
  | .pc => (s.dbgPcWrite n (w64 v), true)
  | .tile t row =>
    if h.shape.talloc.getLsbD t.toNat then
      (s.updCore (coreOf n) fun c => { c with tile := Table.set 0 c.tile (32 * t.toNat + row.toNat) (v % 2 ^ 8192) }, true)
    else (s, false)
  | .bstore row =>
    match h.bRow row with
    | some k => (s.updCore (coreOf n) fun c => { c with bstore := Table.set 0 c.bstore k (v % 2 ^ 2048) }, true)
    | none => (s, false)
  | .mem va => if fld va 2 0 ≠ 0 then (s, false) else s.mgmtStore (s.dbgWho n) va (toBytes 8 v)
  | .bkpa _ | .bkpc _ => (s, true)

/-- A matrix command of the hart runs, or its writes are outstanding (R298). -/
def State.undrained (s : State) (n : Nat) : Bool := s.matrixBusy n || !(s.hart n).q.mheld.isEmpty

def execDbgRead (who : HostAgent) (hart : Nat) (item : DbgItem) (s : State) : Out :=
  s.dbg who fun s =>
    let st := (s.hart hart).q.status
    if st = .running ∨ st = .exiting ∨ s.undrained hart then s.answer dbgBusy 0
    else match s.dbgGet hart item with
      | (s, some v) => s.answer dbgOk v
      | (s, none) => s.answer dbgFault 0

def execDbgWrite (who : HostAgent) (hart : Nat) (item : DbgItem) (v : Nat) (s : State) : Out :=
  s.dbg who fun s =>
    if (s.hart hart).q.status ≠ .stopped ∨ dbgReadOnly item then s.answer dbgRefused 0
    else if s.undrained hart then s.answer dbgBusy 0
    else match s.dbgPut hart item v with
      | (s, true) => s.answer dbgOk 0
      | (s, false) => s.answer dbgFault 0

/-- SETBP: reserved bits of BKPA and BKPC stay zero (R9, R299). -/
def execSetbp (who : HostAgent) (hart : Nat) (n : BitVec 2) (a c : Word) (s : State) : Out :=
  s.dbg who fun s =>
    (s.updHart hart fun h =>
      { h with q := { h.q with
          bkpa := Table.set 0 h.q.bkpa n.toNat (a &&& 0x007FFFFFFFFFFFF8#64)
          bkpc := Table.set 0 h.q.bkpc n.toNat (c &&& 0x8000000000078FFF#64) } }).answer dbgOk 0

/-- The owner opens or closes the port: a debugger is attached while it is open (R299). -/
def execDebuggerAttach (who : HostAgent) (opened : Bool) (s : State) : Out :=
  s.dbg who fun s => { s with mgmt := { s.mgmt with attached := opened } }.answer dbgOk 0

/-! ### Samples and dailies (R303 to R305) -/

/-- A SAMPLE of a hart that runs a slate (R304, R305). -/
def execTraceSample (hart : Nat) (s : State) : Out :=
  let h := s.hart hart
  let si := fld h.trc.trcCtl 23 16
  if h.q.status = .free ∨ h.trc.trcCtl.getLsbD 2 = false ∨ si < 10 ∨ 40 < si then .next s
  else
    let (i, x) := if h.q.run.isSome then stopIndex h else (0, 0)
    let pc := match h.q.run with | some r => r.e.addr | none => h.resumePoint
    .next (s.emit hart 3 i pc x (w64 h.vec.vl) (Table.get 0 h.trc.dly 1))

/-- A write of DLY_CTL with CLR takes effect (R303). -/
def execDlyCtlClr (hart : Nat) (s : State) : Out := .next (s.updHart hart fun h => { h with trc := h.trc.clear })

end Sys2Proof.Machine
end

