-- ==== Sys2Proof/Machine/ScalarFp.lean ====
section
/-!
DEFINITION. Scalar floating point (R36, R54, R148 to R152).
-/
namespace Sys2Proof.Machine

/-- A scalar operand in a format: the low bits of the register (R36). -/
def Hart.rdF (h : Hart) (f : FP) (r : SReg) : Nat := (h.rdS r).toNat % 2 ^ (fpFmt f).width

/-- The rounding of a scalar FP word; none when FRM holds 110 or 111 under dynamic rounding (R54, R70, R148). -/
def Hart.srm (h : Hart) (rm : SRm) : Option Rnd :=
  (match rm with | .mode m => some m | .dyn => rmodeOf h.sc.frm.toNat).map fun m => ⟨m, srRandom h.sc.srseed 0 (if h.shape.virt then Config.physStrip h.physVlen h.vec.stripno 0 else h.vec.stripno)⟩

/-- A scalar FP instruction that rounds (R148). -/
def fpOp (s : State) (i : Instr) (g : SG) (rs : List SReg) (rm : SRm) (sd : SReg) (op : Hart → Rnd → FR) : Out :=
  s.scalar g (sd :: rs) fun n h =>
    match h.srm rm with
    | none => s.illegal n i
    | some md =>
      let r := op h md
      .next (s.setHart n (((h.wrS sd (w64 r.1)).flags r.2).nextPc))

/-- A two-operand rounded form. -/
def fpBin (s : State) (i : Instr) (op : Fmt → Rnd → Nat → Nat → FR) (g : SG) (sd sa sb : SReg) (rm : SRm) (f : FP) : Out :=
  fpOp s i g [sa, sb] rm sd fun h md => op (fpFmt f) md (h.rdF f sa) (h.rdF f sb)

def execFadd (g : SG) (sd sa sb : SReg) (rm : SRm) (f : FP) (s : State) : Out := fpBin s (.fadd g sd sa sb rm f) Fmt.fadd g sd sa sb rm f
def execFsub (g : SG) (sd sa sb : SReg) (rm : SRm) (f : FP) (s : State) : Out := fpBin s (.fsub g sd sa sb rm f) Fmt.fsub g sd sa sb rm f
def execFmul (g : SG) (sd sa sb : SReg) (rm : SRm) (f : FP) (s : State) : Out := fpBin s (.fmul g sd sa sb rm f) Fmt.fmul g sd sa sb rm f
def execFdiv (g : SG) (sd sa sb : SReg) (rm : SRm) (f : FP) (s : State) : Out := fpBin s (.fdiv g sd sa sb rm f) Fmt.fdiv g sd sa sb rm f

def execFma (g : SG) (sd sa sb sc : SReg) (rm : SRm) (f : FP) (s : State) : Out :=
  fpOp s (.fma g sd sa sb sc rm f) g [sa, sb, sc] rm sd fun h md =>
    (fpFmt f).fused md false false (h.rdF f sa) (h.rdF f sb) (h.rdF f sc)

def execFsqrt (g : SG) (sd sa : SReg) (rm : SRm) (f : FP) (s : State) : Out :=
  fpOp s (.fsqrt g sd sa rm f) g [sa] rm sd fun h md => (fpFmt f).fsqrt md (h.rdF f sa)

/-- FMIN and FMAX (R149). -/
def minMaxOp (s : State) (greater : Bool) (g : SG) (sd sa sb : SReg) (f : FP) : Out :=
  s.regOp g [sd, sa, sb] fun h =>
    let r := (fpFmt f).minMax greater (h.rdF f sa) (h.rdF f sb)
    (h.wrS sd (w64 r.1)).flags r.2

def execFmin (g : SG) (sd sa sb : SReg) (f : FP) (s : State) : Out := minMaxOp s false g sd sa sb f
def execFmax (g : SG) (sd sa sb : SReg) (f : FP) (s : State) : Out := minMaxOp s true g sd sa sb f

/-- The FP formats of sub-codes 0000 to 0011. -/
def subFmt (sub : Nat) : Fmt := if sub = 0 then fmtF32 else if sub = 1 then fmtF64 else if sub = 2 then fmtF16 else fmtBF16

/-- A conversion of R151: the value of `x` by sub-code and format. -/
def fcvtOp (f : Fmt) (md : Rnd) (sub : Nat) (x : Word) : FR :=
  let low (w : Nat) : Nat := x.toNat % 2 ^ w
  let src : FV := f.decode (low f.width)
  let wide (w : Nat) (r : FR) : FR := (pat 64 (sgn w r.1), r.2)
  match sub with
  | 0 | 1 | 2 | 3 => (subFmt sub).convert f md false (low (subFmt sub).width)
  | 4 => fromInteger f md x.toInt
  | 5 => fromInteger f md (x.toNat : Int)
  | 6 => toInteger md 64 false src
  | 7 => toInteger md 64 true src
  | 8 => wide 32 (toInteger md 32 false src)
  | 9 => toInteger md 32 true src
  | 10 => fromInteger f md (sgn 32 (low 32))
  | 11 => fromInteger f md (low 32 : Int)
  | 12 => fmtE4M3.convert f md false (low 8)
  | 13 => fmtE5M2.convert f md false (low 8)
  | 14 => f.convert fmtE4M3 md false (low f.width)
  | _ => f.convert fmtE5M2 md false (low f.width)

def execFcvt (g : SG) (sd sa : SReg) (rm : SRm) (f : FP) (sub : BitVec 4) (s : State) : Out :=
  fpOp s (.fcvt g sd sa rm f sub) g [sa] rm sd fun h md => fcvtOp (fpFmt f) md sub.toNat (h.rdS sa)

def execFcmp (g : SG) (cd : CReg) (sa sb : SReg) (cc : Cond) (f : FP) (s : State) : Out :=
  s.regOp g [sa, sb] fun h =>
    let r := fpCond cc ((fpFmt f).decode (h.rdF f sa)) ((fpFmt f).decode (h.rdF f sb))
    (h.wrPair cd r.1).flags r.2

def execFclass (g : SG) (sd sa : SReg) (f : FP) (s : State) : Out :=
  s.regOp g [sd, sa] fun h => h.wrS sd (w64 ((fpFmt f).classify (h.rdF f sa)))

end Sys2Proof.Machine
end

