-- ==== Sys2Proof/Machine/Issue.lean ====
section
/-!
DEFINITION. Issue: a scalar instruction at its commit point (R18, R30, R136, R299, R300), the hand-off of a convoy (R31), and
one turn of a hart (log 3).
-/
namespace Sys2Proof.Machine

/-- The meaning of a scalar word, on the current hart; none for everything else. -/
def scalarExec (i : Instr) : Option (State → Out) :=
  match i with
  | .add g sd sa sb => some (execAdd g sd sa sb)
  | .sub g sd sa sb => some (execSub g sd sa sb)
  | .and g sd sa sb => some (execAnd g sd sa sb)
  | .or g sd sa sb => some (execOr g sd sa sb)
  | .xor g sd sa sb => some (execXor g sd sa sb)
  | .sll g sd sa sb => some (execSll g sd sa sb)
  | .srl g sd sa sb => some (execSrl g sd sa sb)
  | .sra g sd sa sb => some (execSra g sd sa sb)
  | .mul g sd sa sb => some (execMul g sd sa sb)
  | .mulh g sd sa sb => some (execMulh g sd sa sb)
  | .mulhu g sd sa sb => some (execMulhu g sd sa sb)
  | .div g sd sa sb => some (execDiv g sd sa sb)
  | .divu g sd sa sb => some (execDivu g sd sa sb)
  | .rem g sd sa sb => some (execRem g sd sa sb)
  | .remu g sd sa sb => some (execRemu g sd sa sb)
  | .min g sd sa sb => some (execMin g sd sa sb)
  | .max g sd sa sb => some (execMax g sd sa sb)
  | .minu g sd sa sb => some (execMinu g sd sa sb)
  | .maxu g sd sa sb => some (execMaxu g sd sa sb)
  | .addImm g sd sa imm => some (execAddImm g sd sa imm)
  | .andImm g sd sa imm => some (execAndImm g sd sa imm)
  | .orImm g sd sa imm => some (execOrImm g sd sa imm)
  | .xorImm g sd sa imm => some (execXorImm g sd sa imm)
  | .sllImm g sd sa sh => some (execSllImm g sd sa sh)
  | .srlImm g sd sa sh => some (execSrlImm g sd sa sh)
  | .sraImm g sd sa sh => some (execSraImm g sd sa sh)
  | .lih g sd imm => some (execLih g sd imm)
  | .ldB g sd sa imm => some (execLdB g sd sa imm)
  | .ldH g sd sa imm => some (execLdH g sd sa imm)
  | .ldW g sd sa imm => some (execLdW g sd sa imm)
  | .ldD g sd sa imm => some (execLdD g sd sa imm)
  | .ldBu g sd sa imm => some (execLdBu g sd sa imm)
  | .ldHu g sd sa imm => some (execLdHu g sd sa imm)
  | .ldWu g sd sa imm => some (execLdWu g sd sa imm)
  | .stB g sd sa imm => some (execStB g sd sa imm)
  | .stH g sd sa imm => some (execStH g sd sa imm)
  | .stW g sd sa imm => some (execStW g sd sa imm)
  | .stD g sd sa imm => some (execStD g sd sa imm)
  | .cmp g cd sa sb cc => some (execCmp g cd sa sb cc)
  | .b g off => some (execB g off)
  | .bc g sd off => some (execBc g sd off)
  | .call g sd off => some (execCall g sd off)
  | .jr g sd sa => some (execJr g sd sa)
  | .ret g sa => some (execRet g sa)
  | .bany g p off => some (execBany g p off)
  | .ball g p off => some (execBall g p off)
  | .bnone g p off => some (execBnone g p off)
  | .fadd g sd sa sb rm f => some (execFadd g sd sa sb rm f)
  | .fsub g sd sa sb rm f => some (execFsub g sd sa sb rm f)
  | .fmul g sd sa sb rm f => some (execFmul g sd sa sb rm f)
  | .fma g sd sa sb sc rm f => some (execFma g sd sa sb sc rm f)
  | .fdiv g sd sa sb rm f => some (execFdiv g sd sa sb rm f)
  | .fsqrt g sd sa rm f => some (execFsqrt g sd sa rm f)
  | .fmin g sd sa sb f => some (execFmin g sd sa sb f)
  | .fmax g sd sa sb f => some (execFmax g sd sa sb f)
  | .fcvt g sd sa rm f sub => some (execFcvt g sd sa rm f sub)
  | .fcmp g cd sa sb cc f => some (execFcmp g cd sa sb cc f)
  | .fclass g sd sa f => some (execFclass g sd sa f)
  | .csrr g sd n => some (execCsrr g sd n)
  | .csrw g sa n => some (execCsrw g sa n)
  | .csrs g sa n => some (execCsrs g sa n)
  | .csrc g sa n => some (execCsrc g sa n)
  | .csrrC g sd => some (execCsrrC g sd)
  | .csrwC g sa => some (execCsrwC g sa)
  | .setvl g sd sa sb vt => some (execSetvl g sd sa sb vt)
  | .setvlN g sd sa sb vt => some (execSetvlN g sd sa sb vt)
  | .vconf g n => some (execVconf g n)
  | .amo g sd sa sb sc acq rel dbl op => some (execAmo g sd sa sb sc acq rel dbl op)
  | .cas g sd sa sb sc acq rel dbl => some (execCas g sd sa sb sc acq rel dbl)
  | .fence g kind sc => some (execFence g kind sc)
  | .bararv g sd => some (execBararv g sd)
  | .barwait g sd => some (execBarwait g sd)
  | .barset g sd sa => some (execBarset g sd sa)
  | .epush g eng sa => some (execEpush g eng sa)
  | .epop g sd eng => some (execEpop g sd eng)
  | .tstamp g sa sb => some (execTstamp g sa sb)
  | .strmcfg g m sa sb kbase stride zc gap => some (execStrmcfg g m sa sb kbase stride zc gap)
  | .strmend g m => some (execStrmend g m)
  | .strmwait g m sa => some (execStrmwait g m sa)
  | .strmavail g sd m => some (execStrmavail g sd m)
  | .mshape g sd sa r => some (execMshape g sd sa r)
  | .mbld g sa sb sk sn sc => some (execMbld g sa sb sk sn sc)
  | .mma g t v sa => some (execMma g t v sa)
  | .mmas g t v sa => some (execMmas g t v sa)
  | .mzero g t => some (execMzero g t)
  | .maccld g t sa => some (execMaccld g t sa)
  | .maccst g t sa => some (execMaccst g t sa)
  | .mwait g => some (execMwait g)
  | .launch g sd sa => some (execLaunch g sd sa)
  | .exit g sa => some (execExit g sa)
  | .cacheIinv g sa => some (execCacheIinv g sa)
  | .cacheIall g sa => some (execCacheIall g sa)
  | .cacheDinv g sa => some (execCacheDinv g sa)
  | .cacheClean g sa => some (execCacheClean g sa)
  | .cacheFlush g sa => some (execCacheFlush g sa)
  | .cacheTlbiva g sa sb sc => some (execCacheTlbiva g sa sb sc)
  | .cacheTlbiasid g sa sb sc => some (execCacheTlbiasid g sa sb sc)
  | .cacheTlbiall g sa sb sc => some (execCacheTlbiall g sa sb sc)
  | .svc g n => some (execSvc g n)
  | .brk g n => some (execBrk g n)
  | .bcall g sd n => some (execBcall g sd n)
  | .eret g => some (execEret g)
  | .wfe g => some (execWfe g)
  | _ => none

/-! ### The commit of a scalar instruction -/

/-- The end of a step that ran a scalar instruction (R300): the breakpoint to pass is behind it. The stop after an ERET that
hands a convoy off again falls at that convoy. -/
def State.stepDone (s : State) (n : Nat) : State :=
  let q := (s.hart n).q
  if q.step.isSome ∧ q.status = .running ∧ q.skipBp = none then s.debugStop n 2 0 (stopIndex (s.hart n)).2 none else s

/-- The end of a step that passed a convoy which VSKIP discarded. -/
def State.skipDone (s : State) (n : Nat) : State :=
  if (s.hart n).q.queue.isEmpty ∧ (s.hart n).q.run.isNone then s.stepDone n else s

/-- A step of a convoy is in progress: no later issue unit is reached within it (R300). -/
def Hart.inConvoyStep (h : Hart) : Bool := h.q.step.isSome && (h.q.run.isSome || !h.q.queue.isEmpty)

/-- The scalar instruction whose word is `w` commits: a breakpoint, an undecodable word, or the instruction's own meaning. A
breakpoint never fires on an instruction whose guard is false (R299). -/
def State.issueScalar (s : State) (n : Nat) (w : Word) : Out :=
  let h := s.hart n
  match (if h.guard (splitSc w).g then h.bpBefore h.sc.pc 0 else none) with
  | some b => .next (s.debugStop n 1 b 0 (some (h.sc.pc, none)))
  | none =>
    match (decodeIn .sc w).toOption with
    | none => s.scalarTrap n (trap0 0x01#8 w)
    | some i =>
      match scalarExec i with
      | none => s.scalarTrap n (trap0 0x01#8 w)
      | some f => (f { s with cur := n }).andThen fun t => .next (t.stepDone n)

/-- Whether a hart may issue: it runs, its partition is not paused (R281), and nothing is to end it. -/
def State.mayIssue (s : State) (n : Nat) : Bool :=
  let h := s.hart n
  decide (h.q.status = .running) && !s.paused n && (s.gang h.shape.launch).stopReq.isNone

/-- The scalar instruction at the commit point, if there is one there. -/
def execScalarCommit (hart : Nat) (s : State) : Out :=
  if s.mayIssue hart = false ∨ (s.hart hart).atCommit = false ∨ (s.hart hart).inConvoyStep then .next s
  else match s.fetchWord hart (s.hart hart).sc.pc with
    | .error e => s.accessTrap hart e
    | .ok (t, w) => if isHeader w then .next s else t.issueScalar hart w

/-- The convoy at the PC is handed off. -/
def execConvoyHandoff (hart : Nat) (s : State) : Out :=
  if s.mayIssue hart = false ∨ (s.hart hart).inConvoyStep then .next s
  else match s.fetchWord hart (s.hart hart).sc.pc with
    | .error _ => .next s
    | .ok (t, w) => if isHeader w then .next ((t.handOff hart w).skipDone hart) else .next s

/-! ### A turn of a hart (log 3) -/

/-- The started convoy, if there is one, takes its part in a decision of the sequencer. -/
def State.runConvoy (s : State) (n : Nat) : Out := if (s.hart n).q.run.isSome then s.sequence (coreOf n) else .next s

/-- The issue unit at the PC: a scalar instruction commits; a convoy is handed off, started and run. -/
def State.issue (s : State) (n : Nat) : Out :=
  match s.fetchWord n (s.hart n).sc.pc with
  | .error e => s.accessTrap n e
  | .ok (s, w) =>
    if isHeader w then
      ((s.handOff n w).skipDone n).startHead n |>.andThen fun s => s.runConvoy n
    else s.issueScalar n w

/-- The turn of a hart that nothing from outside stops: the started convoy, the oldest queued one, the completion of an EXIT, or the next
issue unit. -/
def State.ownTurn (s : State) (n : Nat) : Out :=
  let h := s.hart n
  if h.q.run.isSome then s.runConvoy n
  else if !h.q.queue.isEmpty then (s.startHead n).andThen fun s => s.runConvoy n
  else if h.q.status = .exiting then s.finishExit n
  else s.issue n

/-! ### What comes first (R299, R318, R321) -/

/-- Whether a turn ended in an event that comes before a stop asked for from outside, on the same issue unit or element (R321): a
breakpoint, an EXIT, the end of the hart, or a synchronous fault, which a service call or a breakpoint trap is not (R318). Trap
entry alone adds to the traps that have not returned. -/
def State.comesFirst (s t : State) (n : Nat) : Bool :=
  let h := s.hart n
  let k := t.hart n
  decide (k.q.status ≠ h.q.status) ||
    (decide (k.q.stopped.length = h.q.stopped.length + 1) && !decide (k.trap.tcause = 0x18#8 ∨ k.trap.tcause = 0x19#8))

/-- The state after what comes before a pre-emption or a termination that falls due at a hart's next issue unit or element; as it is
where nothing does (R282, R299, R321). -/
def State.first (s : State) (n : Nat) : State :=
  let l := (s.hart n).shape.launch
  let req := (s.gang l).stopReq
  if (s.hart n).q.status ≠ .running then s
  else match (if req.isSome then s.updGang l fun x => { x with stopReq := none } else s).awake n fun s => s.ownTurn n with
    | .next t =>
      if s.comesFirst t n then (if req.isSome ∧ (t.gang l).cores ≠ [] then t.updGang l fun x => { x with stopReq := req } else t) else s
    | _ => s

/-- A hart ends at its stop point (R326), once what comes first has happened. A hart whose EXIT came first exits. -/
def State.endHart (s : State) (n : Nat) (cause : BitVec 8) : State :=
  let t := s.first n
  if (t.hart n).q.status = .exiting then t else t.terminate n cause

/-- One turn: an end that others asked for (R326, R357), what the hart does, or an interrupt before that (R318, R321). -/
def State.hartTurn (s : State) (n : Nat) : Out :=
  match (s.hart n).q.status with
  | .free => .next s
  | .exiting =>
    if s.paused n = false then s.ownTurn n
    else if (s.gang (s.hart n).shape.launch).stopReq.isSome then s.awake n fun s => s.ownTurn n
    else .next s
  | .running | .stopped =>
    match (s.gang (s.hart n).shape.launch).stopReq with
    | some c => .next (s.endHart n c)
    | none =>
      if (s.hart n).q.status = .stopped ∨ s.paused n then .next s
      else match s.takeIrq n with
        | some o => (match s.ownTurn n with | .next t => if s.comesFirst t n then .next t else o | r => r)
        | none => s.ownTurn n

/-! ### A member behind an old slate (R33, R266) -/

/-- Instructions that a member may commit before the old slate of its slot has completed: those that reach nothing beyond its own
scalar state and memory. The others wait (log 39). -/
def runsAhead : Instr → Bool
  | .add .. | .sub .. | .and .. | .or .. | .xor .. | .sll .. | .srl .. | .sra .. | .mul .. | .mulh .. | .mulhu .. | .div .. | .divu ..
  | .rem .. | .remu .. | .min .. | .max .. | .minu .. | .maxu .. | .addImm .. | .andImm .. | .orImm .. | .xorImm .. | .sllImm ..
  | .srlImm .. | .sraImm .. | .lih .. | .ldB .. | .ldH .. | .ldW .. | .ldD .. | .ldBu .. | .ldHu .. | .ldWu .. | .stB .. | .stH ..
  | .stW .. | .stD .. | .cmp .. | .b .. | .bc .. | .call .. | .jr .. | .ret .. | .fadd .. | .fsub .. | .fmul .. | .fma .. | .fdiv ..
  | .fsqrt .. | .fmin .. | .fmax .. | .fcvt .. | .fcmp .. | .fclass .. | .setvl .. => true
  | _ => false

/-- The front end of a member that runs ahead: a scalar instruction commits, or a convoy is queued, which waits until the slot is the
member's. An instruction that stops, traps or is none of these waits too. -/
def State.frontStep (s : State) (n : Nat) : State :=
  match s.fetchWord n (s.hart n).sc.pc with
  | .error _ => s
  | .ok (u, w) =>
    if isHeader w then u.handOff n w
    else match (decodeIn .sc w).toOption with
      | none => s
      | some i =>
        if runsAhead i = false then s
        else match u.issueScalar n w with
          | .next t => if (t.hart n).q.status = .running ∧ (t.hart n).q.stopped = [] then t else s
          | _ => s

/-! ### The uncommitted region (R30) -/

/-- The base, the offset and the size of a scalar load. -/
def loadOf : Instr → Option (SReg × BitVec 24 × Nat)
  | .ldB _ _ sa i | .ldBu _ _ sa i => some (sa, i, 1)
  | .ldH _ _ sa i | .ldHu _ _ sa i => some (sa, i, 2)
  | .ldW _ _ sa i | .ldWu _ _ sa i => some (sa, i, 4)
  | .ldD _ _ sa i => some (sa, i, 8)
  | _ => none

def isStore : Instr → Bool
  | .stB .. | .stH .. | .stW .. | .stD .. => true
  | _ => false

/-- What a scalar load reads ahead of the commit point: nothing from a region mapped non-speculative, ATTR 01, and nothing where it would
fault, since both wait for the commit (R30, R86). -/
def State.earlyRead (s : State) (n : Nat) (va : Word) (size : Nat) : Option EarlyLoad :=
  match s.locate (s.who n) va .read, s.load n .scalar va size .read with
  | .ok (_, t), .ok (_, bs) => if t.attr = 1 then none else some ⟨(s.hart n).sc.pc, va, bs⟩
  | _, _ => none

/-- The next load that the front end of a hart meets, on a copy of the machine in which it runs on from the commit point: its stores are
held, the convoys that it passes count as started, and the loads before this one take what they returned. It stops at 64 scalar
instructions, 16 held stores and 32 convoys (R30), and at an instruction that stops, traps, waits for a register, or is none of those
that `runsAhead` names (log 4). -/
def State.regionLoad (n : Nat) : Nat → Nat → Nat → Nat → State → Option EarlyLoad
  | 0, _, _, _, _ => none
  | fuel + 1, scalars, stores, convoys, s =>
    let h := s.hart n
    match s.fetchWord n h.sc.pc with
    | .error _ => none
    | .ok (u, w) =>
      if isHeader w then
        let t := u.handOff n w
        let new := (t.hart n).q.queue
        if 32 < convoys + new.length ∨ (t.hart n).sc.pc = h.sc.pc then none
        else State.regionLoad n fuel scalars stores (convoys + new.length) (t.updHart n fun h =>
          { h with q := { h.q with
            queue := []
            run := h.q.run.map fun r => { r with e := { r.e with instrs := r.e.instrs ++ new.flatMap fun (x : QEntry) => x.instrs } } } })
      else match (decodeIn .sc w).toOption with
        | none => none
        | some i =>
          if 64 ≤ scalars ∨ runsAhead i = false ∨ (isStore i ∧ 16 ≤ stores) then none
          else match u.issueScalar n w with
            | .next t =>
              let k := t.hart n
              if k.q.status ≠ .running ∨ k.q.stopped ≠ h.q.stopped ∨ k.sc.pc = h.sc.pc then none
              else match (if h.q.region.isEmpty ∧ h.guard (splitSc w).g then loadOf i else none) with
                | some (sa, imm, size) => u.earlyRead n (lsAddr h sa imm) size
                | none => State.regionLoad n fuel (scalars + 1) (stores + (isStore i).toNat) convoys t
            | _ => none

/-- The front end of a hart takes in the next load of its uncommitted region, which lies behind a convoy that has not started (R30). -/
def State.runAhead (s : State) (n : Nat) : State :=
  let h := s.hart n
  let conv := (match h.q.run with | some r => [r.e] | none => []) ++ h.q.queue
  match conv with
  | e :: _ =>
    if s.mayIssue n = false ∨ h.q.queue.isEmpty ∨ h.q.step.isSome then s
    else
      let copy := { s with holding := true }.updHart n fun h =>
        { h with q := { h.q with queue := [], run := some ⟨{ e with instrs := conv.flatMap fun (x : QEntry) => x.instrs }, 0, [], false, [], []⟩ } }
      match State.regionLoad n 96 0 0 conv.length copy with
      | some x => s.updHart n fun h => { h with q := { h.q with region := h.q.region ++ [x] } }
      | none => s
  | [] => s

/-! ### A member behind an old slate, in its turn -/

/-- The member ends before it has entered its slot. -/
def State.dropAhead (s : State) (n : Nat) (a : Hart) (cause : BitVec 8) : State :=
  let t := ((s.setHart n a).performBoth n).leaveGang n none cause
  (t.setHart n (s.hart n)).setAhead n none

/-- The turn of a member that waits behind an old slate: it enters the slot once that slate has left it, with nothing of the old one's
but what belongs to the slot (R266); until then its front end runs ahead, once the old slate's EXIT has committed (R33). -/
def State.aheadTurn (s : State) (n : Nat) : State :=
  match s.aheadOf n with
  | none => s
  | some a =>
    match (s.gang a.shape.launch).stopReq with
    | some c => s.dropAhead n a c
    | none =>
      if s.paused n then s
      else match (s.hart n).q.status with
        | .free =>
          if ((upTo 0 4).any fun e => ((s.hart n).headCmd e).isSome) ∨ s.orphanRun (coreOf n) then s
          else (s.setAhead n none).enterSlot n (Hart.slot { a with trc := { a.trc with trcCtl := (s.hart n).trc.trcCtl } } (s.hart n))
        | .exiting =>
          let t := (s.setHart n a).frontStep n
          (t.setAhead n (some (t.hart n))).setHart n (s.hart n)
        | _ => s

end Sys2Proof.Machine
end

