-- ==== Sys2Proof/Machine/Stops.lean ====
section
/-!
DEFINITION. Stops that come from outside a hart, after what comes first (R318, R321): pre-emption (R239, R327) and those who ask for it
(R11, R263), termination by Burxus (R326), and the debugger's halt (R298).
-/
namespace Sys2Proof.Machine

/-! ### Pre-emption -/

/-- Pre-emption of a gang: each member's breakpoint, fault or EXIT that falls due at its stop point comes first (R299, R321), and then
the gang is saved, if it still can be. -/
def State.preempt (s : State) (l : Nat) : State :=
  let x := s.gang l
  if s.mayPreempt x then ((x.liveMembers.map x.memberHart).foldl State.first s).saveGang l else s

def execPreemption (gang : Nat) (s : State) : Out := .next (s.preempt gang)

/-- Gangs are pre-empted one after another until the head fits; none is when even all would not do. -/
def preemptFor (q : QSlate) (p : Nat) : List Nat → State → Option State
  | [], _ => none
  | l :: r, s =>
    let t := s.preempt l
    if (t.findSpot q p).isSome then some t else preemptFor q p r t

/-- The level-7 head of a partition, when it waits (R263). -/
def State.urgent (s : State) (p : Nat) : State :=
  match s.headOf p 7 with
  | some q =>
    if s.headWaits p q then (preemptFor q p (s.victims p) s).getD s else s
  | none => s

/-- A quantum boundary: ageing, dependences, pre-emption for level-7 heads, decisions, and lowered grants for the heads that wait
after them. -/
def execSchedulingQuantum (s : State) : Out :=
  let s := { s with quanta := s.quanta + 1 }
  let s := (s.partsList.foldl (fun s p => s.ageSlates p) s).readDeps
  let s := s.partsList.foldl (fun s p => s.urgent p) s
  let s := dispatchAll 64 s
  .next ((s.gangs.map (·.1)).foldl (fun s l => s.lowerGrant l) s)

/-- A spare takes over a core once its gangs are pre-empted, and a matrix command of a hart that has ended is not in progress there:
the substitution changes no result (R11, R319). With the spare spent, the cluster is reduced (R11, R377). -/
def execSpareCoreSubstitution (core : Nat) (s : State) : Out :=
  let s := ((s.gangs.filter fun e => e.2.cores.contains core).map (·.1)).foldl (fun s l => s.preempt l) s
  if !(s.gangsOn core).isEmpty ∨ s.orphanRun core then .next s
  else
    let cl := clusterOf core
    let tell (s : State) (kind : Nat) : State := match s.coreOwner core with | some p => s.addEvt p kind core | none => s
    if Table.get false s.mgmt.spares cl then .next (tell (s.updCore core fun c => { c with enabled := false }) 5)
    else
      let s := { s with mgmt := { s.mgmt with spares := Table.set false s.mgmt.spares cl true } }
      .next (tell (s.setCore core { Core.reset with hist := (s.core core).hist }) 4)

/-! ### Termination (R326) -/

/-- A member of a gang ends: the hart, or what waits to enter its slot (R33). -/
def State.endMember (s : State) (l n : Nat) (cause : BitVec 8) : State :=
  match s.aheadOf n with
  | some a => if a.shape.launch = l then s.dropAhead n a cause else s.endHart n cause
  | none => s.endHart n cause

/-- Termination by Burxus (R326): of one hart, or of every member of a slate, running or queued; the cause is 0x1E. -/
def execTermination (who : TermTarget) (s : State) : Out :=
  match who with
  | .hart n => .next (s.endHart n 0x1E#8)
  | .slate l =>
    let x := s.gang l
    let s := (x.liveMembers.map x.memberHart).foldl (fun s n => s.endMember l n 0x1E#8) s
    .next (s.partsList.foldl (fun s p =>
      match (s.part p).queue.find? fun q => q.launch == l with
      | some q => s.retireSlate p q 3 0x1E
      | none => s) s)

/-! ### HALT (R298) -/

/-- The halt of one hart, after what comes first: a breakpoint has stopped it already, a fault has entered its handler, and an EXIT
wins, so that the halt lapses (R321). -/
def State.haltHart (s : State) (n : Nat) : State :=
  let t := if s.paused n then s else s.first n
  if (t.hart n).q.status = .running then t.debugStop n 0 0 (stopIndex (t.hart n)).2 none else t

def execHalt (who : HostAgent) (hart : Nat) (s : State) : Out :=
  s.dbg who fun s =>
    let s := s.haltHart hart
    match (s.hart hart).q.status with
    | .stopped => s.answer dbgOk 0
    | .exiting => s.answer dbgBusy 0
    | _ => s.answer dbgRefused 0

def execHaltGang (who : HostAgent) (hart : Nat) (s : State) : Out :=
  s.dbg who fun s =>
    if (s.hart hart).q.status = .free then s.answer dbgRefused 0
    else
      let x := s.gang (s.hart hart).shape.launch
      let s := x.liveMembers.foldl (fun s m => s.haltHart (x.memberHart m)) s
      s.answer (if x.liveMembers.all fun m => decide ((s.hart (x.memberHart m)).q.status = .stopped) then dbgOk else dbgBusy) 0

end Sys2Proof.Machine
end

