-- ==== Sys2Proof/Machine/Dispatch.lean ====
section
/-!
DEFINITION. The dispatch: one arm for each constructor of the instruction type, each a direct call of that instruction's
meaning.
-/
namespace Sys2Proof.Machine

def exec (i : Instr) (s : State) : Host.Outcome State Fault Refusal :=
  match i with
  | .add g sd sa sb => Sys2Proof.Machine.execAdd g sd sa sb s
  | .sub g sd sa sb => Sys2Proof.Machine.execSub g sd sa sb s
  | .and g sd sa sb => Sys2Proof.Machine.execAnd g sd sa sb s
  | .or g sd sa sb => Sys2Proof.Machine.execOr g sd sa sb s
  | .xor g sd sa sb => Sys2Proof.Machine.execXor g sd sa sb s
  | .sll g sd sa sb => Sys2Proof.Machine.execSll g sd sa sb s
  | .srl g sd sa sb => Sys2Proof.Machine.execSrl g sd sa sb s
  | .sra g sd sa sb => Sys2Proof.Machine.execSra g sd sa sb s
  | .mul g sd sa sb => Sys2Proof.Machine.execMul g sd sa sb s
  | .mulh g sd sa sb => Sys2Proof.Machine.execMulh g sd sa sb s
  | .mulhu g sd sa sb => Sys2Proof.Machine.execMulhu g sd sa sb s
  | .div g sd sa sb => Sys2Proof.Machine.execDiv g sd sa sb s
  | .divu g sd sa sb => Sys2Proof.Machine.execDivu g sd sa sb s
  | .rem g sd sa sb => Sys2Proof.Machine.execRem g sd sa sb s
  | .remu g sd sa sb => Sys2Proof.Machine.execRemu g sd sa sb s
  | .min g sd sa sb => Sys2Proof.Machine.execMin g sd sa sb s
  | .max g sd sa sb => Sys2Proof.Machine.execMax g sd sa sb s
  | .minu g sd sa sb => Sys2Proof.Machine.execMinu g sd sa sb s
  | .maxu g sd sa sb => Sys2Proof.Machine.execMaxu g sd sa sb s
  | .addImm g sd sa imm => Sys2Proof.Machine.execAddImm g sd sa imm s
  | .andImm g sd sa imm => Sys2Proof.Machine.execAndImm g sd sa imm s
  | .orImm g sd sa imm => Sys2Proof.Machine.execOrImm g sd sa imm s
  | .xorImm g sd sa imm => Sys2Proof.Machine.execXorImm g sd sa imm s
  | .sllImm g sd sa sh => Sys2Proof.Machine.execSllImm g sd sa sh s
  | .srlImm g sd sa sh => Sys2Proof.Machine.execSrlImm g sd sa sh s
  | .sraImm g sd sa sh => Sys2Proof.Machine.execSraImm g sd sa sh s
  | .lih g sd imm => Sys2Proof.Machine.execLih g sd imm s
  | .ldB g sd sa imm => Sys2Proof.Machine.execLdB g sd sa imm s
  | .ldH g sd sa imm => Sys2Proof.Machine.execLdH g sd sa imm s
  | .ldW g sd sa imm => Sys2Proof.Machine.execLdW g sd sa imm s
  | .ldD g sd sa imm => Sys2Proof.Machine.execLdD g sd sa imm s
  | .ldBu g sd sa imm => Sys2Proof.Machine.execLdBu g sd sa imm s
  | .ldHu g sd sa imm => Sys2Proof.Machine.execLdHu g sd sa imm s
  | .ldWu g sd sa imm => Sys2Proof.Machine.execLdWu g sd sa imm s
  | .stB g sd sa imm => Sys2Proof.Machine.execStB g sd sa imm s
  | .stH g sd sa imm => Sys2Proof.Machine.execStH g sd sa imm s
  | .stW g sd sa imm => Sys2Proof.Machine.execStW g sd sa imm s
  | .stD g sd sa imm => Sys2Proof.Machine.execStD g sd sa imm s
  | .cmp g cd sa sb cc => Sys2Proof.Machine.execCmp g cd sa sb cc s
  | .b g off => Sys2Proof.Machine.execB g off s
  | .bc g sd off => Sys2Proof.Machine.execBc g sd off s
  | .call g sd off => Sys2Proof.Machine.execCall g sd off s
  | .jr g sd sa => Sys2Proof.Machine.execJr g sd sa s
  | .ret g sa => Sys2Proof.Machine.execRet g sa s
  | .bany g p off => Sys2Proof.Machine.execBany g p off s
  | .ball g p off => Sys2Proof.Machine.execBall g p off s
  | .bnone g p off => Sys2Proof.Machine.execBnone g p off s
  | .fadd g sd sa sb rm f => Sys2Proof.Machine.execFadd g sd sa sb rm f s
  | .fsub g sd sa sb rm f => Sys2Proof.Machine.execFsub g sd sa sb rm f s
  | .fmul g sd sa sb rm f => Sys2Proof.Machine.execFmul g sd sa sb rm f s
  | .fma g sd sa sb sc rm f => Sys2Proof.Machine.execFma g sd sa sb sc rm f s
  | .fdiv g sd sa sb rm f => Sys2Proof.Machine.execFdiv g sd sa sb rm f s
  | .fsqrt g sd sa rm f => Sys2Proof.Machine.execFsqrt g sd sa rm f s
  | .fmin g sd sa sb f => Sys2Proof.Machine.execFmin g sd sa sb f s
  | .fmax g sd sa sb f => Sys2Proof.Machine.execFmax g sd sa sb f s
  | .fcvt g sd sa rm f sub => Sys2Proof.Machine.execFcvt g sd sa rm f sub s
  | .fcmp g cd sa sb cc f => Sys2Proof.Machine.execFcmp g cd sa sb cc f s
  | .fclass g sd sa f => Sys2Proof.Machine.execFclass g sd sa f s
  | .csrr g sd n => Sys2Proof.Machine.execCsrr g sd n s
  | .csrw g sa n => Sys2Proof.Machine.execCsrw g sa n s
  | .csrs g sa n => Sys2Proof.Machine.execCsrs g sa n s
  | .csrc g sa n => Sys2Proof.Machine.execCsrc g sa n s
  | .csrrC g sd => Sys2Proof.Machine.execCsrrC g sd s
  | .csrwC g sa => Sys2Proof.Machine.execCsrwC g sa s
  | .setvl g sd sa sb vt => Sys2Proof.Machine.execSetvl g sd sa sb vt s
  | .setvlN g sd sa sb vt => Sys2Proof.Machine.execSetvlN g sd sa sb vt s
  | .vconf g n => Sys2Proof.Machine.execVconf g n s
  | .amo g sd sa sb sc acq rel dbl op => Sys2Proof.Machine.execAmo g sd sa sb sc acq rel dbl op s
  | .cas g sd sa sb sc acq rel dbl => Sys2Proof.Machine.execCas g sd sa sb sc acq rel dbl s
  | .fence g kind sc => Sys2Proof.Machine.execFence g kind sc s
  | .bararv g sd => Sys2Proof.Machine.execBararv g sd s
  | .barwait g sd => Sys2Proof.Machine.execBarwait g sd s
  | .barset g sd sa => Sys2Proof.Machine.execBarset g sd sa s
  | .epush g eng sa => Sys2Proof.Machine.execEpush g eng sa s
  | .epop g sd eng => Sys2Proof.Machine.execEpop g sd eng s
  | .tstamp g sa sb => Sys2Proof.Machine.execTstamp g sa sb s
  | .strmcfg g m sa sb kbase stride zc gap => Sys2Proof.Machine.execStrmcfg g m sa sb kbase stride zc gap s
  | .strmend g m => Sys2Proof.Machine.execStrmend g m s
  | .strmwait g m sa => Sys2Proof.Machine.execStrmwait g m sa s
  | .strmavail g sd m => Sys2Proof.Machine.execStrmavail g sd m s
  | .mshape g sd sa r => Sys2Proof.Machine.execMshape g sd sa r s
  | .mbld g sa sb sk sn sc => Sys2Proof.Machine.execMbld g sa sb sk sn sc s
  | .mma g t v sa => Sys2Proof.Machine.execMma g t v sa s
  | .mmas g t v sa => Sys2Proof.Machine.execMmas g t v sa s
  | .mzero g t => Sys2Proof.Machine.execMzero g t s
  | .maccld g t sa => Sys2Proof.Machine.execMaccld g t sa s
  | .maccst g t sa => Sys2Proof.Machine.execMaccst g t sa s
  | .mwait g => Sys2Proof.Machine.execMwait g s
  | .launch g sd sa => Sys2Proof.Machine.execLaunch g sd sa s
  | .exit g sa => Sys2Proof.Machine.execExit g sa s
  | .exitComplete hart => Sys2Proof.Machine.execExitComplete hart s
  | .cacheIinv g sa => Sys2Proof.Machine.execCacheIinv g sa s
  | .cacheIall g sa => Sys2Proof.Machine.execCacheIall g sa s
  | .cacheDinv g sa => Sys2Proof.Machine.execCacheDinv g sa s
  | .cacheClean g sa => Sys2Proof.Machine.execCacheClean g sa s
  | .cacheFlush g sa => Sys2Proof.Machine.execCacheFlush g sa s
  | .cacheTlbiva g sa sb sc => Sys2Proof.Machine.execCacheTlbiva g sa sb sc s
  | .cacheTlbiasid g sa sb sc => Sys2Proof.Machine.execCacheTlbiasid g sa sb sc s
  | .cacheTlbiall g sa sb sc => Sys2Proof.Machine.execCacheTlbiall g sa sb sc s
  | .svc g n => Sys2Proof.Machine.execSvc g n s
  | .brk g n => Sys2Proof.Machine.execBrk g n s
  | .bcall g sd n => Sys2Proof.Machine.execBcall g sd n s
  | .eret g => Sys2Proof.Machine.execEret g s
  | .wfe g => Sys2Proof.Machine.execWfe g s
  | .wfeTimeout hart => Sys2Proof.Machine.execWfeTimeout hart s
  | .scalarCommit hart => Sys2Proof.Machine.execScalarCommit hart s
  | .convoyHandoff hart => Sys2Proof.Machine.execConvoyHandoff hart s
  | .convoyStart hart => Sys2Proof.Machine.execConvoyStart hart s
  | .sequencerDecision core => Sys2Proof.Machine.execSequencerDecision core s
  | .vadd g vd vs1 o sat u => Sys2Proof.Machine.execVadd g vd vs1 o sat u s
  | .vsub g vd vs1 o sat u => Sys2Proof.Machine.execVsub g vd vs1 o sat u s
  | .vrsub g vd vs1 o sat u => Sys2Proof.Machine.execVrsub g vd vs1 o sat u s
  | .vmul g vd vs1 o sat u => Sys2Proof.Machine.execVmul g vd vs1 o sat u s
  | .vmulh g vd vs1 o sat u => Sys2Proof.Machine.execVmulh g vd vs1 o sat u s
  | .vdiv g vd vs1 o sat u => Sys2Proof.Machine.execVdiv g vd vs1 o sat u s
  | .vrem g vd vs1 o sat u => Sys2Proof.Machine.execVrem g vd vs1 o sat u s
  | .vmin g vd vs1 o sat u => Sys2Proof.Machine.execVmin g vd vs1 o sat u s
  | .vmax g vd vs1 o sat u => Sys2Proof.Machine.execVmax g vd vs1 o sat u s
  | .vand g vd vs1 o sat u => Sys2Proof.Machine.execVand g vd vs1 o sat u s
  | .vor g vd vs1 o sat u => Sys2Proof.Machine.execVor g vd vs1 o sat u s
  | .vxor g vd vs1 o sat u => Sys2Proof.Machine.execVxor g vd vs1 o sat u s
  | .vsll g vd vs1 o sat u => Sys2Proof.Machine.execVsll g vd vs1 o sat u s
  | .vsrl g vd vs1 o sat u => Sys2Proof.Machine.execVsrl g vd vs1 o sat u s
  | .vsra g vd vs1 o sat u => Sys2Proof.Machine.execVsra g vd vs1 o sat u s
  | .vaddw g vd vs1 o sat u => Sys2Proof.Machine.execVaddw g vd vs1 o sat u s
  | .vsubw g vd vs1 o sat u => Sys2Proof.Machine.execVsubw g vd vs1 o sat u s
  | .vmulw g vd vs1 o sat u => Sys2Proof.Machine.execVmulw g vd vs1 o sat u s
  | .vmacc g vd vs1 o sat u => Sys2Proof.Machine.execVmacc g vd vs1 o sat u s
  | .vnsrl g vd vs1 o sat u => Sys2Proof.Machine.execVnsrl g vd vs1 o sat u s
  | .vnclip g vd vs1 o sat u => Sys2Proof.Machine.execVnclip g vd vs1 o sat u s
  | .vabs g vd vs1 sat => Sys2Proof.Machine.execVabs g vd vs1 sat s
  | .vavg g vd vs1 o sat u => Sys2Proof.Machine.execVavg g vd vs1 o sat u s
  | .vfadd g vd vs1 o rm => Sys2Proof.Machine.execVfadd g vd vs1 o rm s
  | .vfsub g vd vs1 o rm => Sys2Proof.Machine.execVfsub g vd vs1 o rm s
  | .vfmul g vd vs1 o rm => Sys2Proof.Machine.execVfmul g vd vs1 o rm s
  | .vfdiv g vd vs1 o rm => Sys2Proof.Machine.execVfdiv g vd vs1 o rm s
  | .vfsqrt g vd vs1 rm => Sys2Proof.Machine.execVfsqrt g vd vs1 rm s
  | .vfmin g vd vs1 o => Sys2Proof.Machine.execVfmin g vd vs1 o s
  | .vfmax g vd vs1 o => Sys2Proof.Machine.execVfmax g vd vs1 o s
  | .vfma g vd vs1 o rm => Sys2Proof.Machine.execVfma g vd vs1 o rm s
  | .vfms g vd vs1 o rm => Sys2Proof.Machine.execVfms g vd vs1 o rm s
  | .vfnma g vd vs1 o rm => Sys2Proof.Machine.execVfnma g vd vs1 o rm s
  | .vfnms g vd vs1 o rm => Sys2Proof.Machine.execVfnms g vd vs1 o rm s
  | .vfclamp g vd vs1 o => Sys2Proof.Machine.execVfclamp g vd vs1 o s
  | .vfabs g vd vs1 => Sys2Proof.Machine.execVfabs g vd vs1 s
  | .vfneg g vd vs1 => Sys2Proof.Machine.execVfneg g vd vs1 s
  | .vfsgnj g vd vs1 o => Sys2Proof.Machine.execVfsgnj g vd vs1 o s
  | .vfwadd g vd vs1 o rm => Sys2Proof.Machine.execVfwadd g vd vs1 o rm s
  | .vfwmul g vd vs1 o rm => Sys2Proof.Machine.execVfwmul g vd vs1 o rm s
  | .vfwma g vd vs1 o rm => Sys2Proof.Machine.execVfwma g vd vs1 o rm s
  | .vfcvt g vd vs1 rm => Sys2Proof.Machine.execVfcvt g vd vs1 rm s
  | .vfcvti g vd vs1 u rm sat => Sys2Proof.Machine.execVfcvti g vd vs1 u rm sat s
  | .vicvtf g vd vs1 u rm => Sys2Proof.Machine.execVicvtf g vd vs1 u rm s
  | .vfncvt g vd vs1 rm sat => Sys2Proof.Machine.execVfncvt g vd vs1 rm sat s
  | .vfwcvt g vd vs1 => Sys2Proof.Machine.execVfwcvt g vd vs1 s
  | .vcmp g pair vs1 o cc => Sys2Proof.Machine.execVcmp g pair vs1 o cc s
  | .vfcmp g pair vs1 o cc => Sys2Proof.Machine.execVfcmp g pair vs1 o cc s
  | .vmv g vd o => Sys2Proof.Machine.execVmv g vd o s
  | .vmerge g vd vs1 o => Sys2Proof.Machine.execVmerge g vd vs1 o s
  | .vext g sd vs1 ix => Sys2Proof.Machine.execVext g sd vs1 ix s
  | .vins g vd v => Sys2Proof.Machine.execVins g vd v s
  | .vid g vd => Sys2Proof.Machine.execVid g vd s
  | .plogic g pd => Sys2Proof.Machine.execPlogic g pd s
  | .pset g pd => Sys2Proof.Machine.execPset g pd s
  | .psets g pd useB => Sys2Proof.Machine.execPsets g pd useB s
  | .pclr g pd => Sys2Proof.Machine.execPclr g pd s
  | .psbf g pd ps => Sys2Proof.Machine.execPsbf g pd ps s
  | .psif g pd ps => Sys2Proof.Machine.execPsif g pd ps s
  | .psof g pd ps => Sys2Proof.Machine.execPsof g pd ps s
  | .pcount g sd ps => Sys2Proof.Machine.execPcount g sd ps s
  | .pffs g sd ps => Sys2Proof.Machine.execPffs g sd ps s
  | .pkill pd plast => Sys2Proof.Machine.execPkill pd plast s
  | .pfromv g pd vs => Sys2Proof.Machine.execPfromv g pd vs s
  | .ptov g vd ps => Sys2Proof.Machine.execPtov g vd ps s
  | .kadd g kd ks1 o => Sys2Proof.Machine.execKadd g kd ks1 o s
  | .ksub g kd ks1 o => Sys2Proof.Machine.execKsub g kd ks1 o s
  | .kmax g kd ks1 o => Sys2Proof.Machine.execKmax g kd ks1 o s
  | .kmin g kd ks1 o => Sys2Proof.Machine.execKmin g kd ks1 o s
  | .kmov g kd ks => Sys2Proof.Machine.execKmov g kd ks s
  | .kset g kd v => Sys2Proof.Machine.execKset g kd v s
  | .kfromv g kd vs v => Sys2Proof.Machine.execKfromv g kd vs v s
  | .vbind g vd kd => Sys2Proof.Machine.execVbind g vd kd s
  | .vunbind g vd => Sys2Proof.Machine.execVunbind g vd s
  | .vskip g ps n => Sys2Proof.Machine.execVskip g ps n s
  | .bfop g od v => Sys2Proof.Machine.execBfop g od v s
  | .vld g vd m => Sys2Proof.Machine.execVld g vd m s
  | .vlds g vd m => Sys2Proof.Machine.execVlds g vd m s
  | .vldx g vd vs2 m => Sys2Proof.Machine.execVldx g vd vs2 m s
  | .vldff g vd m => Sys2Proof.Machine.execVldff g vd m s
  | .vldz vd sd => Sys2Proof.Machine.execVldz vd sd s
  | .vldk g vd kd m => Sys2Proof.Machine.execVldk g vd kd m s
  | .vst g vd m => Sys2Proof.Machine.execVst g vd m s
  | .vsts g vd m => Sys2Proof.Machine.execVsts g vd m s
  | .vstx g vd vs2 m => Sys2Proof.Machine.execVstx g vd vs2 m s
  | .vstk g vd ks m => Sys2Proof.Machine.execVstk g vd ks m s
  | .vamo g vd vs2 op m => Sys2Proof.Machine.execVamo g vd vs2 op m s
  | .pld g pd m => Sys2Proof.Machine.execPld g pd m s
  | .pst g pd m => Sys2Proof.Machine.execPst g pd m s
  | .kld g k m => Sys2Proof.Machine.execKld g k m s
  | .kst g k m => Sys2Proof.Machine.execKst g k m s
  | .strmbind g vd m kd => Sys2Proof.Machine.execStrmbind g vd m kd s
  | .strmunbind g m => Sys2Proof.Machine.execStrmunbind g m s
  | .bfseq g q m => Sys2Proof.Machine.execBfseq g q m s
  | .bftab g o m => Sys2Proof.Machine.execBftab g o m s
  | .vpref g strided m => Sys2Proof.Machine.execVpref g strided m s
  | .bfpass g vd vs o q vc sw => Sys2Proof.Machine.execBfpass g vd vs o q vc sw s
  | .bfpassKp g vd vs o q vc sw => Sys2Proof.Machine.execBfpassKp g vd vs o q vc sw s
  | .mdrn g vd t r => Sys2Proof.Machine.execMdrn g vd t r s
  | .mdrnt g vd t r => Sys2Proof.Machine.execMdrnt g vd t r s
  | .mput g vd t r => Sys2Proof.Machine.execMput g vd t r s
  | .matrixCommandStart core => Sys2Proof.Machine.execMatrixCommandStart core s
  | .matrixCommandComplete core => Sys2Proof.Machine.execMatrixCommandComplete core s
  | .matrixAsyncFault core => Sys2Proof.Machine.execMatrixAsyncFault core s
  | .tableWalk core asid va => Sys2Proof.Machine.execTableWalk core asid va s
  | .interrupt hart source => Sys2Proof.Machine.execInterrupt hart source s
  | .preemption gang => Sys2Proof.Machine.execPreemption gang s
  | .termination who => Sys2Proof.Machine.execTermination who s
  | .streamFetch hart m => Sys2Proof.Machine.execStreamFetch hart m s
  | .copy hart => Sys2Proof.Machine.execCopy hart s
  | .fill hart => Sys2Proof.Machine.execFill hart s
  | .note hart => Sys2Proof.Machine.execNote hart s
  | .drain hart => Sys2Proof.Machine.execDrain hart s
  | .engineReservedOp hart eng => Sys2Proof.Machine.execEngineReservedOp hart eng s
  | .engineResultPost hart eng => Sys2Proof.Machine.execEngineResultPost hart eng s
  | .allreduce hart => Sys2Proof.Machine.execAllreduce hart s
  | .bcast hart => Sys2Proof.Machine.execBcast hart s
  | .linkOpen hart => Sys2Proof.Machine.execLinkOpen hart s
  | .linkClose hart => Sys2Proof.Machine.execLinkClose hart s
  | .rekey hart => Sys2Proof.Machine.execRekey hart s
  | .send hart => Sys2Proof.Machine.execSend hart s
  | .recv hart => Sys2Proof.Machine.execRecv hart s
  | .dataFrame port f => Sys2Proof.Machine.execDataFrame port f s
  | .acknowledgement port f => Sys2Proof.Machine.execAcknowledgement port f s
  | .handshakeMessage1 port f => Sys2Proof.Machine.execHandshakeMessage1 port f s
  | .handshakeMessage2 port f => Sys2Proof.Machine.execHandshakeMessage2 port f s
  | .handshakeMessage3 port f => Sys2Proof.Machine.execHandshakeMessage3 port f s
  | .closeFrame port f => Sys2Proof.Machine.execCloseFrame port f s
  | .resendTimer sid seq => Sys2Proof.Machine.execResendTimer sid seq s
  | .noFrameTimeout sid => Sys2Proof.Machine.execNoFrameTimeout sid s
  | .rekeyTimeout sid => Sys2Proof.Machine.execRekeyTimeout sid s
  | .openTimeout sid => Sys2Proof.Machine.execOpenTimeout sid s
  | .frameCountRekey sid => Sys2Proof.Machine.execFrameCountRekey sid s
  | .collectiveContribution c => Sys2Proof.Machine.execCollectiveContribution c s
  | .collectiveDeadline group epoch => Sys2Proof.Machine.execCollectiveDeadline group epoch s
  | .collectiveResult r => Sys2Proof.Machine.execCollectiveResult r s
  | .coordinatorLostTimeout group epoch => Sys2Proof.Machine.execCoordinatorLostTimeout group epoch s
  | .contributionHoldExpiry group epoch member => Sys2Proof.Machine.execContributionHoldExpiry group epoch member s
  | .laneFailure port lane => Sys2Proof.Machine.execLaneFailure port lane s
  | .laneErrorRateWindow port lane high => Sys2Proof.Machine.execLaneErrorRateWindow port lane high s
  | .portRetrainComplete port => Sys2Proof.Machine.execPortRetrainComplete port s
  | .schedulingQuantum => Sys2Proof.Machine.execSchedulingQuantum s
  | .halt who hart => Sys2Proof.Machine.execHalt who hart s
  | .haltGang who hart => Sys2Proof.Machine.execHaltGang who hart s
  | .resume who hart => Sys2Proof.Machine.execResume who hart s
  | .stepUnit who hart => Sys2Proof.Machine.execStepUnit who hart s
  | .stepGroup who hart => Sys2Proof.Machine.execStepGroup who hart s
  | .dbgRead who hart item => Sys2Proof.Machine.execDbgRead who hart item s
  | .dbgWrite who hart item v => Sys2Proof.Machine.execDbgWrite who hart item v s
  | .setbp who hart n a c => Sys2Proof.Machine.execSetbp who hart n a c s
  | .traceSample hart => Sys2Proof.Machine.execTraceSample hart s
  | .dlyCtlClr hart => Sys2Proof.Machine.execDlyCtlClr hart s
  | .version f => Sys2Proof.Machine.execVersion f s
  | .features f => Sys2Proof.Machine.execFeatures f s
  | .accept f => Sys2Proof.Machine.execAccept f s
  | .asidRoot f => Sys2Proof.Machine.execAsidRoot f s
  | .cacheSet f => Sys2Proof.Machine.execCacheSet f s
  | .cacheLock f => Sys2Proof.Machine.execCacheLock f s
  | .slatePost f => Sys2Proof.Machine.execSlatePost f s
  | .slateWithdraw f => Sys2Proof.Machine.execSlateWithdraw f s
  | .partSet f r => Sys2Proof.Machine.execPartSet f r s
  | .powerRead f => Sys2Proof.Machine.execPowerRead f s
  | .groupSet f sids => Sys2Proof.Machine.execGroupSet f sids s
  | .claim f => Sys2Proof.Machine.execClaim f s
  | .handover f => Sys2Proof.Machine.execHandover f s
  | .release f => Sys2Proof.Machine.execRelease f s
  | .mboluxLoad f => Sys2Proof.Machine.execMboluxLoad f s
  | .ownershipLapse => Sys2Proof.Machine.execOwnershipLapse s
  | .patrolRead line found => Sys2Proof.Machine.execPatrolRead line found s
  | .spareCoreSubstitution core => Sys2Proof.Machine.execSpareCoreSubstitution core s
  | .rasInjWrite part v => Sys2Proof.Machine.execRasInjWrite part v s
  | .rasCtlPop part => Sys2Proof.Machine.execRasCtlPop part s
  | .evtCtlPop part => Sys2Proof.Machine.execEvtCtlPop part s
  | .powerMeasurement part mw => Sys2Proof.Machine.execPowerMeasurement part mw s
  | .shedStepRise part => Sys2Proof.Machine.execShedStepRise part s
  | .shedStepFall part => Sys2Proof.Machine.execShedStepFall part s
  | .moduleLimitChange watts => Sys2Proof.Machine.execModuleLimitChange watts s
  | .coolantTemperatureHigh => Sys2Proof.Machine.execCoolantTemperatureHigh s
  | .limitReductionTick => Sys2Proof.Machine.execLimitReductionTick s
  | .coolantFlowLoss => Sys2Proof.Machine.execCoolantFlowLoss s
  | .modulePowerRemoval => Sys2Proof.Machine.execModulePowerRemoval s
  | .moduleReset => Sys2Proof.Machine.execModuleReset s
  | .bringupStageComplete r => Sys2Proof.Machine.execBringupStageComplete r s
  | .hostMemoryAccess write addr bytes => Sys2Proof.Machine.execHostMemoryAccess write addr bytes s
  | .coolantFlowRestore => Sys2Proof.Machine.execCoolantFlowRestore s
  | .coolantTemperatureRecovery => Sys2Proof.Machine.execCoolantTemperatureRecovery s
  | .managementCoreSpareTakeover => Sys2Proof.Machine.execManagementCoreSpareTakeover s
  | .hostAgentReset who => Sys2Proof.Machine.execHostAgentReset who s
  | .reservedKindFrame port f => Sys2Proof.Machine.execReservedKindFrame port f s
  | .debuggerAttach who opened => Sys2Proof.Machine.execDebuggerAttach who opened s

end Sys2Proof.Machine
end

