-- ==== Sys2Proof/Machine/Schedule.lean ====
section
/-!
DEFINITION. Who acts next (log 3), and the moments at which held writes become visible (log 5). Step.lean only calls these.
-/
namespace Sys2Proof.Machine

/-! ### Agents -/

/-- What an agent does in its turn. -/
def State.take (s : State) : Turn → Out
  | .hart n => s.hartTurn n
  | .ahead n => .next (s.aheadTurn n)
  | .matrix c => .next (s.matrixTurn c)
  | .stream h m => execStreamFetch h (BitVec.ofNat 3 m) s
  | .engine h e => s.engineStart h e
  | .dispatcher => .next ((s.dispatch).getD s)

/-- Agents that have something to do, in the order of their turns. -/
def State.agents (s : State) : List Turn :=
  ((s.harts.filter fun e => decide (e.2.q.status ≠ .free)).map fun e => Turn.hart e.1) ++
  (s.ahead.map fun e => Turn.ahead e.1) ++
  ((s.cores.filter fun e => e.2.mrun.isSome || !e.2.mq.isEmpty).map fun e => Turn.matrix e.1) ++
  (s.harts.flatMap fun e => ((upTo 0 8).filter fun m => (e.2.stream m).fetches).map fun m => Turn.stream e.1 m) ++
  (s.harts.flatMap fun e => ((upTo 0 4).filter fun k => (e.2.headCmd k).isSome).map fun k => Turn.engine e.1 k) ++
  (if s.dispatch.isSome then [.dispatcher] else [])

/-- The agent after `t` in a cyclic order; `t` itself when nothing else has work. -/
def turnAfter (t : Turn) (l : List Turn) : Turn :=
  match (l.dropWhile (· != t)).tail with
  | u :: _ => u
  | [] => l.head?.getD t

/-- The default schedule: agents in a cycle. -/
def State.rotate (s : State) : State := { s with turn := turnAfter s.turn s.agents }

/-! ### Held writes (R103, R104) -/

/-- The `k`-th held write of an agent becomes visible, unless an older one that it comes after is still held (R103, R106), or
elements of its word are still to come (R102). -/
def State.performNth (s : State) (n : Nat) (ag : Agent) (k : Nat) : State :=
  let l := (s.hart n).heldOf ag
  match l[k]? with
  | none => s
  | some w =>
    if w.slot ≠ 0 ∨ (l.take k).any fun o => o.before w then s
    else (s.updHart n fun h => h.setHeld ag (l.take k ++ l.drop (k + 1))).putAll (storeBy n ag) [w]

/-! ### Inputs -/

/-- An input that is no step of the table's event rows. -/
def State.input (s : State) : Input → Out
  | .act t => s.take t
  | .hold on => .next { s with holding := on }
  | .perform n ag k => .next (s.performNth n ag k)
  | .frame fn f =>
    match f.caller with
    | .host a => .next (s.hostFrame a fn f fun s => s.callFn fn f)
    | .hart _ _ => .next s
  | .runAhead n => .next (s.runAhead n)
  | .elapse n => .next { s with clock := s.clock + n }
  | .event _ => .next s

/-- A row of the table that is an event: it has no word (R10). -/
def isEvent (i : Instr) : Bool := (encode i).isNone

/-! ### Placing a word (log 1) -/

/-- First address of a hart's TCM window (R89). -/
def tcmBase : Word := 0x007FFFFFFFE00000#64

/-- The longest issue unit: a header and five words (R19). -/
def longest : Nat := 48

/-- Hart 0 of core 0 runs from its TCM window, which holds the instruction. -/
def State.placeWord (s : State) (nbits w : Nat) : State :=
  let h := s.hart 0
  let h := { h with sc := { h.sc with pc := tcmBase }, shape := { HShape.reset with tcm := [0] }, q := { HQueue.reset with status := .running } }
  let loc := tcmLoc 0 0
  let inside (unit k : Nat) : Bool := decide (loc ≤ k * unit + unit - 1 ∧ k * unit < loc + longest)
  let sto := { s.sto with
    mem := Memory.write s.sto.mem loc longest (w % 2 ^ nbits)
    poison := Table.erase (inside 8) s.sto.poison
    latent := Table.erase (inside 128) s.sto.latent }
  let s := ({ s with sto := sto, inputs := [], turn := .hart 0, mgmt := { s.mgmt with powered := true } }).setHart 0 h
  (s.updCore 0 fun c => { c with icache := [] }).setStep 0 0

end Sys2Proof.Machine
end

