-- ==== Sys2Proof/Machine/Step.lean ====
section
/-!
DEFINITION. One step of the machine: the next input, or the turn of the agent whose turn it is (log 3). With module power
removed nothing runs or answers until module reset (R280, R378).
-/
namespace Sys2Proof.Machine

/-- An event of the table, by its meaning; a word of the instruction set is no event. -/
def event (i : Instr) (s : State) : Out := if isEvent i then exec i s else .next s

/-- The machine with power. -/
def stepOn (s : State) : Out :=
  match s.inputs with
  | .event i :: r => event i { s with inputs := r }
  | x :: r => State.input { s with inputs := r } x
  | [] => (s.take s.turn).andThen fun t => .next { t with turn := s.turn }.rotate

/-- The machine without power: module reset alone acts. -/
def stepOff (s : State) : Out :=
  match s.inputs with
  | .event .moduleReset :: r => exec .moduleReset { s with inputs := r }
  | _ :: r => .next { s with inputs := r }
  | [] => .next s

def step (s : State) : Host.Outcome State Fault Refusal := if s.mgmt.powered then stepOn s else stepOff s

/-- `s` with an instruction where the next step fetches (log 1). -/
def State.withFetchWord (s : State) (nbits w : Nat) : State := s.placeWord nbits w

end Sys2Proof.Machine
end

