-- ==== Sys2Proof/Safety.lean ====
section
/-!
DEFINITION. What statements about the machine are made of: the hart on which a word acts, what is left alone, the conditions
under which a scalar word commits and a vector word runs, and the invariant of memory.
-/
namespace Sys2Proof.Machine

/-- The hart on which a scalar or vector word acts. -/
def State.me (s : State) : Hart := s.hart s.cur

/-- The invariant: memory keeps its canonical form. -/
def State.MemInv (s : State) : Prop := s.sto.mem.wf = true

/-- No error waits to be found, and no line of the shared SRAM differs from the storage behind it for an error found there. -/
def State.Clean (s : State) : Prop := s.sto.latent = [] ∧ ∀ e ∈ s.sto.lines, e.2.behind = []

/-- Nothing of the machine differs but the record of hart `n`. -/
def State.Same (s t : State) (n : Nat) : Prop := (∀ m, m ≠ n → t.hart m = s.hart m) ∧ { t with harts := s.harts } = s

/-- The instruction completes: its hart becomes `h`, and nothing else changes. -/
def Acts (i : Instr) (s : State) (h : Hart) : Prop := ∃ t, exec i s = .next t ∧ t.me = h ∧ s.Same t s.cur

/-- A scalar word reaches its effect: it stands at the commit point, its guard holds, and no register that it names is still
to be written by the started convoy (R30, R32, R127). -/
def State.Commits (s : State) (g : SG) (rs : List SReg) : Prop :=
  s.me.atCommit = true ∧ s.me.guard g = true ∧ s.me.pending rs = false

/-- The vector queue has drained. -/
def State.Drained (s : State) : Prop := s.me.q.run = none

/-- The entry in which a vector word acts: what its convoy captured, or the live values of a convoy of one (log 6). -/
def State.entry (s : State) (i : Instr) : QEntry := (s.me.entryFor i).1

/-- A vector word may run: its hart runs, the word is well formed, its width is legal, and, outside a convoy, the checks of
hand-off pass (R345). -/
def VReady (s : State) (i : Instr) : Prop :=
  s.me.q.status = .running ∧ i.wf = true ∧ sewLegal (s.entry i).sew i = true ∧
  (s.me.q.run = none → vtLegal (s.entry i).vtype = true ∧ slotLegal s.me (s.entry i) i [] [] = true)

/-- The end of the element group at VSTART (R21). -/
def State.groupTop (s : State) (i : Instr) : Nat :=
  if s.me.vec.vstart < (s.entry i).vl then groupEnd s.me.shape.g (s.entry i) s.me.vec.vstart else s.me.vec.vstart

/-- A vector word completes on the current group: `f` gives the hart after elements lo to hi − 1, and `tail` what retirement
does once the group is the last one (R158). Nothing but that hart changes. -/
def VRun (i : Instr) (f : QEntry → Nat → Nat → Nat → Hart → Hart) (tail : QEntry → Nat → Hart → Hart) : Prop :=
  ∀ s : State, VReady s i →
    let e := s.entry i
    let k := (s.me.entryFor i).2
    let lo := s.me.vec.vstart
    let hi := s.groupTop i
    let h := if lo < hi then f e k lo hi s.me else s.me
    Acts i s (if e.vl ≤ hi then tail e k h else h)

/-- A vector destination by R158, its elements `k` times as wide as SEW. -/
def VElem (i : Instr) (g : VG) (vd : VReg) (k : Nat) (op : QEntry → Nat → Hart → FR) : Prop :=
  VRun i (fun e _ lo hi h => h.each lo hi fun x h => h.elem e g vd.toNat (e.sew * k) x (op e x))
    (fun e _ h => h.vtail e vd.toNat (e.sew * k))

/-- The guard of a scalar word. -/
def guardOf : Instr → Option SG
  | .add g _ _ _ | .sub g _ _ _ | .and g _ _ _ | .or g _ _ _ | .xor g _ _ _ | .sll g _ _ _ | .srl g _ _ _ | .sra g _ _ _
  | .mul g _ _ _ | .mulh g _ _ _ | .mulhu g _ _ _ | .div g _ _ _ | .divu g _ _ _ | .rem g _ _ _ | .remu g _ _ _
  | .min g _ _ _ | .max g _ _ _ | .minu g _ _ _ | .maxu g _ _ _ => some g
  | .addImm g _ _ _ | .andImm g _ _ _ | .orImm g _ _ _ | .xorImm g _ _ _ | .sllImm g _ _ _ | .srlImm g _ _ _
  | .sraImm g _ _ _ | .lih g _ _ => some g
  | .ldB g _ _ _ | .ldH g _ _ _ | .ldW g _ _ _ | .ldD g _ _ _ | .ldBu g _ _ _ | .ldHu g _ _ _ | .ldWu g _ _ _
  | .stB g _ _ _ | .stH g _ _ _ | .stW g _ _ _ | .stD g _ _ _ => some g
  | .cmp g _ _ _ _ | .b g _ | .bc g _ _ | .call g _ _ | .jr g _ _ | .ret g _ | .bany g _ _ | .ball g _ _ | .bnone g _ _ => some g
  | .fadd g _ _ _ _ _ | .fsub g _ _ _ _ _ | .fmul g _ _ _ _ _ | .fma g _ _ _ _ _ _ | .fdiv g _ _ _ _ _ | .fsqrt g _ _ _ _
  | .fmin g _ _ _ _ | .fmax g _ _ _ _ | .fcvt g _ _ _ _ _ | .fcmp g _ _ _ _ _ | .fclass g _ _ _ => some g
  | .csrr g _ _ | .csrw g _ _ | .csrs g _ _ | .csrc g _ _ | .csrrC g _ | .csrwC g _ | .setvl g _ _ _ _ | .setvlN g _ _ _ _
  | .vconf g _ => some g
  | .amo g _ _ _ _ _ _ _ _ | .cas g _ _ _ _ _ _ _ | .fence g _ _ | .bararv g _ | .barwait g _ | .barset g _ _
  | .epush g _ _ | .epop g _ _ | .tstamp g _ _ => some g
  | .strmcfg g _ _ _ _ _ _ _ | .strmend g _ | .strmwait g _ _ | .strmavail g _ _ => some g
  | .mshape g _ _ _ | .mbld g _ _ _ _ _ | .mma g _ _ _ | .mmas g _ _ _ | .mzero g _ | .maccld g _ _ | .maccst g _ _
  | .mwait g => some g
  | .launch g _ _ | .exit g _ | .cacheIinv g _ | .cacheIall g _ | .cacheDinv g _ | .cacheClean g _ | .cacheFlush g _
  | .cacheTlbiva g _ _ _ | .cacheTlbiasid g _ _ _ | .cacheTlbiall g _ _ _ => some g
  | .svc g _ | .brk g _ | .bcall g _ _ | .eret g | .wfe g => some g
  | _ => none

end Sys2Proof.Machine
end

