-- ==== Sys2Proof/Certificates/Slice0/Obligations.lean ====
section
/-!
DEFINITION. The statements about the machine. Each docstring names the rules of spec/ that it formalises, or says that the
clause is the model's own. OBLIGATIONS.json lists them.
-/
open Sys2Proof Sys2Proof.Machine

/-! ### Encoding, reset, memory, the step -/

/-- The rows of the opcode table that are steps of the machine and no words (R10). -/
def isEventRow : Instr → Bool
  | .exitComplete .. | .wfeTimeout .. | .scalarCommit .. | .convoyHandoff .. | .convoyStart .. | .sequencerDecision ..
  | .matrixCommandStart .. | .matrixCommandComplete .. | .matrixAsyncFault .. | .tableWalk .. | .interrupt ..
  | .preemption .. | .termination .. | .streamFetch .. | .copy .. | .fill .. | .note .. | .drain .. | .engineReservedOp ..
  | .engineResultPost .. | .allreduce .. | .bcast .. | .linkOpen .. | .linkClose .. | .rekey .. | .send .. | .recv ..
  | .dataFrame .. | .acknowledgement .. | .handshakeMessage1 .. | .handshakeMessage2 .. | .handshakeMessage3 ..
  | .closeFrame .. | .resendTimer .. | .noFrameTimeout .. | .rekeyTimeout .. | .openTimeout .. | .frameCountRekey ..
  | .collectiveContribution .. | .collectiveDeadline .. | .collectiveResult .. | .coordinatorLostTimeout ..
  | .contributionHoldExpiry .. | .laneFailure .. | .laneErrorRateWindow .. | .portRetrainComplete ..
  | .schedulingQuantum .. | .halt .. | .haltGang .. | .resume .. | .stepUnit .. | .stepGroup .. | .dbgRead ..
  | .dbgWrite .. | .setbp .. | .traceSample .. | .dlyCtlClr .. | .version .. | .features .. | .accept .. | .asidRoot ..
  | .cacheSet .. | .cacheLock .. | .slatePost .. | .slateWithdraw .. | .partSet .. | .powerRead .. | .groupSet ..
  | .claim .. | .handover .. | .release .. | .mboluxLoad .. | .ownershipLapse .. | .patrolRead ..
  | .spareCoreSubstitution .. | .rasInjWrite .. | .rasCtlPop .. | .evtCtlPop .. | .powerMeasurement .. | .shedStepRise ..
  | .shedStepFall .. | .moduleLimitChange .. | .coolantTemperatureHigh .. | .limitReductionTick .. | .coolantFlowLoss ..
  | .modulePowerRemoval .. | .moduleReset .. | .bringupStageComplete .. | .hostMemoryAccess .. | .coolantFlowRestore ..
  | .coolantTemperatureRecovery .. | .managementCoreSpareTakeover .. | .hostAgentReset .. | .reservedKindFrame ..
  | .debuggerAttach .. => true
  | _ => false

/-- The word of a well-formed instruction decodes to it, and every row that is no event has one (R120 to R135). -/
def Obligations.EncodingRoundTrip : Prop :=
  (∀ i : Instr, i.wf = true → ∀ c, encode i = some c → decodeCode c = some i) ∧
  ∀ i : Instr, isEventRow i = false → (encode i).isSome = true

/-- Words of the manual's worked encodings decode to the instructions that it writes beside them (R118, R119, the programs). -/
def Obligations.DecodeWords : Prop :=
  (decodeHeader 0x5A20000021800000#64).toOption = some ⟨[.vm, .va, .vm], 4#5, 6#5, 0#16⟩ ∧
  decodeCode ⟨.vm, 0x01FF000000200000#64⟩ = some (.vld ⟨0xFF#8, 0, 0, 0⟩ 1#6 ⟨false, false, false⟩) ∧
  decodeCode ⟨.va, 0x22FF000000408600#64⟩ = some (.vfmul ⟨0xFF#8, 0, 0, 0⟩ 2#6 1#6 (.vs2 3#6) .rne) ∧
  decodeCode ⟨.vm, 0x08FF000000400010#64⟩ = some (.vst ⟨0xFF#8, 0, 0, 0⟩ 2#6 ⟨false, true, false⟩) ∧
  decodeCode ⟨.sc, 0x103FC00042000006#64⟩ = some (.cmp ⟨0xFF#8, 0, 0, 0⟩ 2#4 2#5 0#5 .gt) ∧
  decodeCode ⟨.sc, 0x123C08001FFFFFFA#64⟩ = some (.b ⟨0xF0#8, 2#4, 0, 0⟩ 0x1FFFFFFA#29) ∧
  decodeCode ⟨.sc, 0x1A3FC0006248A902#64⟩ = some (.setvl ⟨0xFF#8, 0, 0, 0⟩ 3#5 2#5 9#5 0xA902#16)

/-- A step runs what the bytes at the program counter decode to: the turn of a running hart with nothing older to do fetches
the word there, and is the meaning of the instruction, followed by the end of a debugger's step and the next turn (log 3). -/
def Obligations.StepRunsDecoded : Prop :=
  ∀ (s t : State) (n : Nat) (w : Word) (i : Instr),
    s.mgmt.powered = true → s.inputs = [] → s.turn = .hart n →
    (s.hart n).q.status = .running → (s.gang (s.hart n).shape.launch).stopReq = none → s.paused n = false →
    s.takeIrq n = none → (s.hart n).q.run = none → (s.hart n).q.queue = [] →
    s.fetchWord n (s.hart n).sc.pc = .ok (t, w) → isHeader w = false → decodeIn .sc w = .ok i →
    (t.hart n).bpBefore (t.hart n).sc.pc 0 = none →
    step s = Out.andThen (exec i { t with cur := n }) fun u => .next { u.stepDone n with turn := .hart n }.rotate

/-- The hand-off of a convoy (R20, R31): the queue gains one entry, which records the address, VL, VTYPE, MFC, the captured
registers, the immediate and the strip number of that point, and the program counter passes the whole convoy. -/
def Obligations.ConvoyHandoff : Prop :=
  ∀ (s t : State) (n : Nat) (w : Word),
    s.mayIssue n = true → s.fetchWord n (s.hart n).sc.pc = .ok (t, w) → isHeader w = true →
    (t.hart n).vec.vskipc = 0 → (t.hart n).q.queue.length + (if (t.hart n).q.run = none then 0 else 1) < 32 → (t.hart n).owed = [] → (s.hart n).q.step = none →
    ∃ u e, exec (.convoyHandoff n) s = .next u ∧
      (u.hart n).q.queue = (t.hart n).q.queue ++ [e] ∧
      (u.hart n).sc.pc = (t.hart n).sc.pc + w64 (8 * (headerCount w + 1)) ∧
      e.addr = (t.hart n).sc.pc ∧ e.vl = (t.hart n).vec.vl ∧ e.vtype = (t.hart n).vec.vtype ∧ e.mfc = (t.hart n).vec.mfc ∧
      e.xa = (t.hart n).rdS (w.extractLsb' 27 5) ∧ e.xb = (t.hart n).rdS (w.extractLsb' 22 5) ∧
      e.imm = w.extractLsb' 0 16 ∧ e.strip = (t.hart n).vec.stripno

/-- What reset leaves (R378, R58, R245, R280, R307, R312, R366): power, bring-up at stage 1, no owner, no partition, every hart
slot free with its maps at their reset values. That a hart slot's registers read 0 and that memory reads 0 where the manual
gives no value is the model's choice (log 10, log 2). -/
def Obligations.ResetState : Prop :=
  State.reset.mgmt.powered = true ∧ State.reset.mgmt.stage = 1 ∧ State.reset.mgmt.owner = none ∧
  (∀ p, State.reset.part p = Partition.none_) ∧ (∀ l, State.reset.gang l = Gang.none_) ∧
  State.reset.nextLaunch = 1 ∧ State.reset.clock = 0 ∧ (∀ a, Memory.byte State.reset.sto.mem a = 0#8) ∧
  ∀ n, (State.reset.hart n).q.status = .free ∧ (State.reset.hart n).q.queue = [] ∧
    (∀ r, (State.reset.hart n).rdS r = 0) ∧ (∀ r, (State.reset.hart n).rdC r = decide (r = 0#4)) ∧
    (∀ r, (State.reset.hart n).rdV r = 0) ∧ (∀ p, p ≠ 0 → (State.reset.hart n).rdP p = 0) ∧
    (∀ k j, (State.reset.hart n).kEnt k j = 0) ∧ (∀ k, (State.reset.hart n).kgen k = 0#8) ∧
    (∀ r, (State.reset.hart n).binding r = Binding.clear) ∧ (∀ r, (State.reset.hart n).rdO r = 0) ∧
    (∀ r, (State.reset.hart n).rdQ r = 0xF0F0F0F0F0F0F0F0F0F0F0F0F0F0F0F0#128) ∧ (∀ m, (State.reset.hart n).stream m = Stream.idle) ∧
    (State.reset.hart n).vec.vl = 0 ∧ (State.reset.hart n).vec.vtype = 0 ∧ (State.reset.hart n).vec.mfc = 0x38000#64 ∧
    (State.reset.hart n).sc.fflags = 0 ∧ (State.reset.hart n).sc.frm = 0 ∧ (State.reset.hart n).trap.tvec = 0 ∧
    (State.reset.hart n).trap.tstat = 0

/-- Memory is in its canonical form after reset. The form is the model's own. -/
def Obligations.MemoryInvariantReset : Prop := State.reset.MemInv

/-- Every step keeps the canonical form of memory. The form is the model's own. -/
def Obligations.MemoryInvariantStep : Prop := ∀ s t : State, s.MemInv → step s = .next t → t.MemInv

/-- s0 and c0 (R35): s0 reads 0 and writes to it are ignored, c0 reads 1 and writes to it are ignored, p0 reads all ones and
writes to it are ignored. -/
def Obligations.FixedRegisters : Prop :=
  ∀ h : Hart, h.rdS 0 = 0 ∧ (∀ v, h.wrS 0 v = h) ∧ h.rdC 0 = true ∧ (∀ b, h.wrC 0 b = h) ∧
    h.rdP 0 = 2 ^ 4096 - 1 ∧ (∀ i b, h.wrP 0 i b = h) ∧
    (∀ r v, r ≠ 0#5 → (h.wrS r v).rdS r = v) ∧ (∀ r q v, q ≠ r → (h.wrS r v).rdS q = h.rdS q) ∧
    (∀ r b, r ≠ 0#4 → (h.wrC r b).rdC r = b) ∧ (∀ r q b, q ≠ r → (h.wrC r b).rdC q = h.rdC q)

/-! ### Scalar instructions (09_scalar_instructions.md) -/

/-- A scalar instruction whose guard is false has no effect: only the program counter moves on (R127, R139), to PC + 8 (R18).
The guard of a scalar word is the bit of the truth table that its three condition registers name (R127). The spec does not say on which
side of the guard some checks stand: that an MMA or MMAS whose vM is no group of the hart's registers is an illegal instruction whatever
its guard, and that under a false guard a CSR word of an unlisted or read-only register, a SETVL or SETVL.N of an illegal type and a
VCONF in a gang do nothing, are the model's choice (DESIGN CHOICE, log 54). -/
def Obligations.GuardFalse : Prop :=
  (∀ (s : State) (i : Instr) (g : SG), guardOf i = some g → s.me.atCommit = true → s.me.guard g = false →
    let al := 2 ^ (s.me.sc.msh.extractLsb' 51 2).toNat
    let group (v : VReg) : Prop := v.toNat % al = 0 ∧ v.toNat + al ≤ s.me.nregs
    (∀ g t v sa, i = .mma g t v sa ∨ i = .mmas g t v sa → group v) → Acts i s s.me.nextPc) ∧
  (∀ (s : State) g t (v : VReg) sa, s.me.atCommit = true → s.Drained →
    let al := 2 ^ (s.me.sc.msh.extractLsb' 51 2).toNat
    v.toNat % al ≠ 0 ∨ s.me.nregs < v.toNat + al →
    let ill (i : Instr) : Prop := exec i s = s.takeTrap s.cur ⟨0x01#8, wordOf i, 0, 0, 0, 0⟩ s.me.sc.pc none s.me.sc.pc false
    ill (.mma g t v sa) ∧ ill (.mmas g t v sa)) ∧
  ∀ (h : Hart) (g : SG),
    h.guard g = g.tt.getLsbD (4 * (h.rdC g.ca).toNat + 2 * (h.rdC g.cb).toNat + (h.rdC g.cc).toNat) ∧
    h.nextPc.sc = { h.sc with pc := h.sc.pc + 8 }

/-- An R-layout integer instruction: its opcode decodes to it, and it writes `f sa sb` to sd and moves on. -/
def RForm (opc : BitVec 8) (mk : SG → SReg → SReg → SReg → Instr) (f : Word → Word → Word) : Prop :=
  ∀ g sd sa sb, decodeIn .sc (packSc ⟨opc, g, sd, sa, sb, 0⟩) = .ok (mk g sd sa sb) ∧
    ∀ s : State, s.Commits g [sd, sa, sb] → Acts (mk g sd sa sb) s ((s.me.wrS sd (f (s.me.rdS sa) (s.me.rdS sb))).nextPc)

/-- R140, every row: the results on 64-bit values, no flag, no fault. -/
def Obligations.IntegerRegister : Prop :=
  RForm 0x01#8 .add (fun a b => a + b) ∧ RForm 0x02#8 .sub (fun a b => a - b) ∧
  RForm 0x03#8 .and (fun a b => a &&& b) ∧ RForm 0x04#8 .or (fun a b => a ||| b) ∧ RForm 0x05#8 .xor (fun a b => a ^^^ b) ∧
  RForm 0x06#8 .sll (fun a b => a <<< (b.extractLsb' 0 6).toNat) ∧
  RForm 0x07#8 .srl (fun a b => a >>> (b.extractLsb' 0 6).toNat) ∧
  RForm 0x08#8 .sra (fun a b => a.sshiftRight (b.extractLsb' 0 6).toNat) ∧
  RForm 0x09#8 .mul (fun a b => a * b) ∧
  RForm 0x0A#8 .mulh (fun a b => BitVec.ofInt 64 (a.toInt * b.toInt / 2 ^ 64)) ∧
  RForm 0x0B#8 .mulhu (fun a b => BitVec.ofNat 64 (a.toNat * b.toNat / 2 ^ 64)) ∧
  RForm 0x0C#8 .div (fun a b => if b = 0 then -1 else if a.toInt = -2 ^ 63 ∧ b.toInt = -1 then a
    else BitVec.ofInt 64 (a.toInt.tdiv b.toInt)) ∧
  RForm 0x0D#8 .divu (fun a b => if b = 0 then BitVec.ofNat 64 (2 ^ 64 - 1) else BitVec.ofNat 64 (a.toNat / b.toNat)) ∧
  RForm 0x0E#8 .rem (fun a b => if b = 0 then a else if a.toInt = -2 ^ 63 ∧ b.toInt = -1 then 0
    else BitVec.ofInt 64 (a.toInt - b.toInt * a.toInt.tdiv b.toInt)) ∧
  RForm 0x0F#8 .remu (fun a b => if b = 0 then a else BitVec.ofNat 64 (a.toNat - b.toNat * (a.toNat / b.toNat))) ∧
  RForm 0x10#8 .min (fun a b => if a.toInt ≤ b.toInt then a else b) ∧
  RForm 0x11#8 .max (fun a b => if b.toInt ≤ a.toInt then a else b) ∧
  RForm 0x12#8 .minu (fun a b => if a.toNat ≤ b.toNat then a else b) ∧
  RForm 0x13#8 .maxu (fun a b => if b.toNat ≤ a.toNat then a else b)

/-- An instruction on sa and a constant that writes sd and moves on. -/
def IForm (i : Instr) (g : SG) (sd sa : SReg) (f : Word → Word) : Prop :=
  ∀ s : State, s.Commits g [sd, sa] → Acts i s ((s.me.wrS sd (f (s.me.rdS sa))).nextPc)

/-- R141: the immediate forms and LIH; opcode 0x22 is reserved, and a shift with a bit of IMM24[23:6] set is refused. -/
def Obligations.IntegerImmediate : Prop :=
  (∀ g sd sa (imm : BitVec 24),
    (let code (opc : BitVec 8) := decodeIn .sc (packSc ⟨opc, g, sd, sa, imm.extractLsb' 19 5, imm.extractLsb' 0 19⟩)
     code 0x21#8 = .ok (.addImm g sd sa imm) ∧ code 0x22#8 = .error .reservedOpcode ∧ code 0x23#8 = .ok (.andImm g sd sa imm) ∧
     code 0x24#8 = .ok (.orImm g sd sa imm) ∧ code 0x25#8 = .ok (.xorImm g sd sa imm) ∧
     (imm.extractLsb' 6 18 ≠ 0 → code 0x26#8 = .error .nonzeroField ∧ code 0x27#8 = .error .nonzeroField ∧
       code 0x28#8 = .error .nonzeroField)) ∧
    IForm (.addImm g sd sa imm) g sd sa (fun a => a + imm.signExtend 64) ∧
    IForm (.andImm g sd sa imm) g sd sa (fun a => a &&& imm.setWidth 64) ∧
    IForm (.orImm g sd sa imm) g sd sa (fun a => a ||| imm.setWidth 64) ∧
    IForm (.xorImm g sd sa imm) g sd sa (fun a => a ^^^ imm.setWidth 64)) ∧
  (∀ g sd sa (sh : BitVec 6),
    (let code (opc : BitVec 8) := decodeIn .sc (packSc ⟨opc, g, sd, sa, 0, sh.setWidth 19⟩)
     code 0x26#8 = .ok (.sllImm g sd sa sh) ∧ code 0x27#8 = .ok (.srlImm g sd sa sh) ∧ code 0x28#8 = .ok (.sraImm g sd sa sh)) ∧
    IForm (.sllImm g sd sa sh) g sd sa (fun a => a <<< sh.toNat) ∧
    IForm (.srlImm g sd sa sh) g sd sa (fun a => a >>> sh.toNat) ∧
    IForm (.sraImm g sd sa sh) g sd sa (fun a => a.sshiftRight sh.toNat)) ∧
  ∀ g sd (imm : BitVec 29),
    decodeIn .sc (packSc ⟨0x20#8, g, sd, imm.extractLsb' 24 5, imm.extractLsb' 19 5, imm.extractLsb' 0 19⟩) = .ok (.lih g sd imm) ∧
    ∀ s : State, s.Commits g [sd] → Acts (.lih g sd imm) s ((s.me.wrS sd (imm.signExtend 64 <<< 24)).nextPc)

/-- A scalar load of `k` bytes: when the checked read of the scalar agent succeeds, the instruction completes, sd takes the
extended value, and beside what the read itself did only that register, the program counter and the loads that have returned ahead of
the commit point change. -/
def LoadForm (mk : SG → SReg → SReg → BitVec 24 → Instr) (k : Nat) (ext : List Byte → Word) : Prop :=
  ∀ g sd sa imm (s u : State) (bs : List Byte),
    let va := s.me.rdS sa + imm.signExtend 64
    s.Commits g [sd, sa] → va.toNat < 2 ^ 55 → va.toNat % k = 0 → s.load s.cur .scalar va k .read = .ok (u, bs) →
    exec (mk g sd sa imm) s = .next (u.updHart s.cur fun h => ((h.takeEarly va bs).1.wrS sd (ext (h.takeEarly va bs).2)).nextPc)

/-- R30: a load takes the bytes that it read now, unless it returned its data ahead of the commit point: then it takes those, which is
the oldest entry of the region at its program counter and address. Only the region changes. That an entry of another load gives the
region up is the model's (log 4). -/
def EarlyLoadRules : Prop :=
  ∀ (h : Hart) (va : Word) (bs : List Byte),
    let left (r : List EarlyLoad) : Hart := { h with q := { h.q with region := r } }
    (h.q.region = [] → h.takeEarly va bs = (h, bs)) ∧
    ∀ x r, h.q.region = x :: r →
      let same : Prop := x.pc = h.sc.pc ∧ x.va = va ∧ x.bytes.length = bs.length
      (same → h.takeEarly va bs = (left r, x.bytes)) ∧ (¬ same → h.takeEarly va bs = (left [], bs))

/-- What a checked read returns: the bytes of memory at the translated location, over which the agent's own earlier writes
lie (R104); while no error waits to be found and no line differs from the storage behind it, memory differs afterwards at most in the
A and D bits of the table entry used. -/
def CheckedReadRules : Prop :=
  ∀ (s u : State) (n : Nat) (ag : Agent) (va : Word) (k : Nat) (a : Acc) (bs : List Byte),
    s.load n ag va k a = .ok (u, bs) →
    ∃ v t, s.locate (s.whoOf n ag) va a = .ok (v, t) ∧
      bs = overlay ((v.hart n).heldOf ag) t.loc k (Memory.readBytes v.sto.mem t.loc k) ∧
      (s.Clean → v.sto.mem = s.sto.mem ∧ v.harts = s.harts ∧
        ∀ x, (∀ e, t.entry = some e → x < e.1 ∨ e.1 + 8 ≤ x) → Memory.byte u.sto.mem x = Memory.byte s.sto.mem x)

/-- A scalar store of `k` bytes: when the checked write of the scalar agent succeeds, the instruction completes, and beside
the write only the program counter changes. -/
def StoreForm (mk : SG → SReg → SReg → BitVec 24 → Instr) (k : Nat) : Prop :=
  ∀ g sd sa imm (s u : State),
    let va := s.me.rdS sa + imm.signExtend 64
    s.Commits g [sd, sa] → va.toNat < 2 ^ 55 → va.toNat % k = 0 →
    s.store s.cur .scalar va (toBytes k (s.me.rdS sd).toNat) = .ok u →
    exec (mk g sd sa imm) s = .next (u.updHart s.cur Hart.nextPc)

/-- R143: LD sign-extends, LD.xU zero-extends, ST stores the low bytes of sd. -/
def Obligations.ScalarLoadsStores : Prop :=
  EarlyLoadRules ∧
  LoadForm .ldB 1 (fun bs => (BitVec.ofNat 8 (ofBytes bs)).signExtend 64) ∧
  LoadForm .ldH 2 (fun bs => (BitVec.ofNat 16 (ofBytes bs)).signExtend 64) ∧
  LoadForm .ldW 4 (fun bs => (BitVec.ofNat 32 (ofBytes bs)).signExtend 64) ∧
  LoadForm .ldD 8 (fun bs => BitVec.ofNat 64 (ofBytes bs)) ∧
  LoadForm .ldBu 1 (fun bs => BitVec.ofNat 64 (ofBytes bs)) ∧
  LoadForm .ldHu 2 (fun bs => BitVec.ofNat 64 (ofBytes bs)) ∧
  LoadForm .ldWu 4 (fun bs => BitVec.ofNat 64 (ofBytes bs)) ∧
  StoreForm .stB 1 ∧ StoreForm .stH 2 ∧ StoreForm .stW 4 ∧ StoreForm .stD 8

/-- The frame of a store, while no error waits to be found and no line differs from the storage behind it. A write that is not held back, with none before it that is: the
bytes stored lie at the location that the address translates to, and every byte of memory outside them, and outside the table
entry used, is as before; so is every register, and every other hart. A write that is held back (R104, log 5) joins the agent's
held writes, and memory changes in the table entry alone. -/
def StoreFrameRules : Prop :=
  ∀ (s u v : State) (va : Word) (bs : List Byte) (t : Trans),
    s.Clean → s.locate (s.who s.cur) va .write = .ok (v, t) → s.store s.cur .scalar va bs = .ok u →
    let outside (x : Nat) : Prop := ∀ e, t.entry = some e → x < e.1 ∨ e.1 + 8 ≤ x
    (s.holding = false ∨ t.attr = 1 → s.me.q.sheld = [] →
      (∀ x, (x < t.loc ∨ t.loc + bs.length ≤ x) → outside x → Memory.byte u.sto.mem x = Memory.byte s.sto.mem x) ∧
      (∀ i, i < bs.length → Memory.byte u.sto.mem (t.loc + i) = (bs[i]?).getD 0) ∧ u.harts = s.harts) ∧
    (s.holding = true → t.attr ≠ 1 →
      (∀ x, outside x → Memory.byte u.sto.mem x = Memory.byte s.sto.mem x) ∧
      (u.hart s.cur).q.sheld = s.me.q.sheld ++ [⟨t.loc, bs, (s.who s.cur).tag, t.attr, 0, 0, false, s.me.q.sheld.any fun w => w.seen⟩] ∧
      ∀ n, n ≠ s.cur → u.hart n = s.hart n)

/-- What a checked read and a checked write leave alone. -/
def Obligations.MemoryFrame : Prop := CheckedReadRules ∧ StoreFrameRules

/-- R95 and R84 at a scalar access, AMO and CAS with it: an address with a bit of [63:55] set raises an address fault, and then one
that is not a multiple of its size raises an alignment fault, before anything is accessed (R143); the trap is taken at the
instruction. -/
def Obligations.ScalarAccessFaults : Prop :=
  ∀ (g : SG) (sd sa sb : SReg) (imm : BitVec 24) (s : State),
    s.Commits g [sd, sa] → s.Drained →
    let va := s.me.rdS sa + imm.signExtend 64
    let trapAt (cause : BitVec 8) (acc : Nat) : Out :=
      s.takeTrap s.cur ⟨cause, va, 0, 0, BitVec.ofNat 64 (256 * acc), 0⟩ s.me.sc.pc none s.me.sc.pc false
    let faults (mk : SG → SReg → SReg → BitVec 24 → Instr) (k acc : Nat) : Prop :=
      (2 ^ 55 ≤ va.toNat → exec (mk g sd sa imm) s = trapAt 0x05#8 acc) ∧
      (va.toNat < 2 ^ 55 → va.toNat % k ≠ 0 → exec (mk g sd sa imm) s = trapAt 0x06#8 acc)
    faults .ldB 1 0 ∧ faults .ldH 2 0 ∧ faults .ldW 4 0 ∧ faults .ldD 8 0 ∧ faults .ldBu 1 0 ∧ faults .ldHu 2 0 ∧
    faults .ldWu 4 0 ∧ faults .stB 1 1 ∧ faults .stH 2 1 ∧ faults .stW 4 1 ∧ faults .stD 8 1 ∧
    (∀ dbl sc acq rel op, let va := s.me.rdS sa
      let atomicTrap (cause : BitVec 8) : Prop :=
        let o := s.takeTrap s.cur ⟨cause, va, 0, 0, BitVec.ofNat 64 768, 0⟩ s.me.sc.pc none s.me.sc.pc false
        exec (.amo g sd sa sb sc acq rel dbl op) s = o ∧ exec (.cas g sd sa sb sc acq rel dbl) s = o
      s.me.pending [sb] = false →
        (2 ^ 55 ≤ va.toNat → atomicTrap 0x05#8) ∧
        (va.toNat < 2 ^ 55 → va.toNat % (if dbl then 8 else 4) ≠ 0 → atomicTrap 0x06#8))

/-- R144: a compare writes its condition to c(cd) and the negation to c(cd + 1); a pair that is odd and a condition code from
10 to 15 are refused. -/
def Obligations.Compare : Prop :=
  (∀ g (cd : CReg) sa sb (cc : Cond) (s : State), cd.extractLsb' 0 1 = 0#1 → s.Commits g [sa, sb] →
    let x := s.me.rdS sa
    let y := s.me.rdS sb
    let r : Bool := match cc with
      | .eq => decide (x = y) | .ne => decide (x ≠ y)
      | .lt => decide (x.toInt < y.toInt) | .ge => decide (y.toInt ≤ x.toInt)
      | .ltu => decide (x.toNat < y.toNat) | .geu => decide (y.toNat ≤ x.toNat)
      | .gt => decide (y.toInt < x.toInt) | .le => decide (x.toInt ≤ y.toInt)
      | .gtu => decide (y.toNat < x.toNat) | .leu => decide (x.toNat ≤ y.toNat)
    decodeIn .sc (packSc ⟨0x40#8, g, 0#1 ++ cd, sa, sb, (condCode cc).setWidth 19⟩) = .ok (.cmp g cd sa sb cc) ∧
    Acts (.cmp g cd sa sb cc) s (((s.me.wrC cd r).wrC (cd + 1) (!r)).nextPc)) ∧
  ∀ g (sd : BitVec 5) sa sb (fn : BitVec 19),
    (sd.extractLsb' 0 1 = 1#1 ∨ 10 ≤ (fn.extractLsb' 0 4).toNat) →
    (decodeIn .sc (packSc ⟨0x40#8, g, sd, sa, sb, fn⟩)).toOption = none

/-- R145: B, BC and CALL, whose target is PC + 8 × sext(IMM29); a BC of s0 is refused. -/
def BranchesRules : Prop :=
  (∀ g (off : BitVec 29) (s : State), s.Commits g [] →
    Acts (.b g off) s (s.me.setPc (s.me.sc.pc + 8 * off.signExtend 64))) ∧
  (∀ g sd (off : BitVec 29) (s : State), sd ≠ 0#5 → s.Commits g [sd] →
    Acts (.bc g sd off) s
      ((s.me.wrS sd (s.me.rdS sd - 1)).setPc
        (if s.me.rdS sd - 1 ≠ 0 then s.me.sc.pc + 8 * off.signExtend 64 else s.me.sc.pc + 8))) ∧
  (∀ g sd (off : BitVec 29) (s : State), s.Commits g [sd] →
    Acts (.call g sd off) s ((s.me.wrS sd (s.me.sc.pc + 8)).setPc (s.me.sc.pc + 8 * off.signExtend 64))) ∧
  ∀ g sd (off : BitVec 29),
    (let code (opc : BitVec 8) := decodeIn .sc (packSc ⟨opc, g, sd, off.extractLsb' 24 5, off.extractLsb' 19 5, off.extractLsb' 0 19⟩)
     (if sd = 0#5 then code 0x48#8 = .ok (.b g off) ∧ code 0x49#8 = .error .reservedValue
       else code 0x48#8 = .error .nonzeroField ∧ code 0x49#8 = .ok (.bc g sd off)) ∧
     code 0x4A#8 = .ok (.call g sd off))

/-- R146: JR links and jumps to sa as it was before the link, RET jumps; a target with a bit of [63:55] set raises an address
fault and one with a bit of [2:0] set an alignment fault, with the target in TVAL and the jump's address as TPC. -/
def RegisterJumpsRules : Prop :=
  ∀ g sd sa (s : State), s.Commits g [sd, sa] →
    decodeIn .sc (packSc ⟨0x4B#8, g, sd, sa, 0, 0⟩) = .ok (.jr g sd sa) ∧
    decodeIn .sc (packSc ⟨0x4C#8, g, 0, sa, 0, 0⟩) = .ok (.ret g sa) ∧
    let t := s.me.rdS sa
    let trapAt (cause : BitVec 8) : Out := s.takeTrap s.cur ⟨cause, t, 0, 0, 0x200#64, 0⟩ s.me.sc.pc none s.me.sc.pc false
    (t.toNat < 2 ^ 55 → t.toNat % 8 = 0 →
      Acts (.jr g sd sa) s ((s.me.wrS sd (s.me.sc.pc + 8)).setPc t) ∧ Acts (.ret g sa) s (s.me.setPc t)) ∧
    (s.Drained → 2 ^ 55 ≤ t.toNat → exec (.jr g sd sa) s = trapAt 0x05#8 ∧ exec (.ret g sa) s = trapAt 0x05#8) ∧
    (s.Drained → t.toNat < 2 ^ 55 → t.toNat % 8 ≠ 0 →
      exec (.jr g sd sa) s = trapAt 0x06#8 ∧ exec (.ret g sa) s = trapAt 0x06#8)

/-- R145 and R146: branches and calls, and jumps to a register. -/
def Obligations.BranchesAndJumps : Prop := BranchesRules ∧ RegisterJumpsRules

/-- R147: the vector branches test elements 0 to VL − 1 of a predicate once the vector queue has drained; while a convoy is
started they wait, unless the guard is false. The predicate sits in IMM29[28:22], the offset below it, and SD is 0. -/
def Obligations.VectorBranches : Prop :=
  (∀ g sd (p : PReg) (off : BitVec 22),
    let imm : BitVec 29 := p ++ off
    let code (opc : BitVec 8) := decodeIn .sc (packSc ⟨opc, g, sd, imm.extractLsb' 24 5, imm.extractLsb' 19 5, imm.extractLsb' 0 19⟩)
    (sd = 0#5 → code 0x4D#8 = .ok (.bany g p off) ∧ code 0x4E#8 = .ok (.ball g p off) ∧ code 0x4F#8 = .ok (.bnone g p off)) ∧
    (sd ≠ 0#5 → code 0x4D#8 = .error .nonzeroField ∧ code 0x4E#8 = .error .nonzeroField ∧ code 0x4F#8 = .error .nonzeroField)) ∧
  (∀ g (p : PReg) (off : BitVec 22) (s : State), s.me.atCommit = true → s.me.guard g = false →
    Acts (.bany g p off) s s.me.nextPc ∧ Acts (.ball g p off) s s.me.nextPc ∧ Acts (.bnone g p off) s s.me.nextPc) ∧
  (∀ (h : Hart) e, e < 4096 → h.pBit 0 e = true) ∧
  ∀ g (p : PReg) (off : BitVec 22) (s : State), s.Commits g [] → s.me.vec.vl ≤ 4096 →
    let target := s.me.sc.pc + 8 * off.signExtend 64
    let go (taken : Bool) : Hart := s.me.setPc (if taken then target else s.me.sc.pc + 8)
    let some1 := (List.range s.me.vec.vl).any fun e => s.me.pBit p.toNat e
    let all1 := (List.range s.me.vec.vl).all fun e => s.me.pBit p.toNat e
    (s.Drained → Acts (.bany g p off) s (go some1) ∧ Acts (.ball g p off) s (go all1) ∧ Acts (.bnone g p off) s (go (!some1))) ∧
    (¬ s.Drained → exec (.bany g p off) s = .next s ∧ exec (.ball g p off) s = .next s ∧ exec (.bnone g p off) s = .next s)

/-! ### Scalar floating point -/

/-- The sign, exponent and fraction of an encoding (R61). -/
def sigOf (f : Fmt) (x : Nat) : Bool := x.testBit (f.we + f.wf)
def expOf (f : Fmt) (x : Nat) : Nat := x / 2 ^ f.wf % 2 ^ f.we
def fracOf (f : Fmt) (x : Nat) : Nat := x % 2 ^ f.wf

/-- A NaN, and a signalling one, of a binary format (R61, R62). -/
def isNaN (f : Fmt) (x : Nat) : Bool := decide (expOf f x = 2 ^ f.we - 1) && decide (fracOf f x ≠ 0)
def isSNaN (f : Fmt) (x : Nat) : Bool := isNaN f x && !(fracOf f x).testBit (f.wf - 1)

/-- The order of the numbers of a binary format, as an integer; both zeros are 0. -/
def fpOrder (f : Fmt) (x : Nat) : Int :=
  if sigOf f x then -((x % 2 ^ (f.we + f.wf) : Nat) : Int) else ((x % 2 ^ (f.we + f.wf) : Nat) : Int)

/-- The rounding that a scalar FP word uses: its own mode, or that of FRM when FRM holds a mode (R54, R148), with the random
value of R70 at e = 0; a translated image rounds in a sub-strip of the physical machine, whose strip number is open (R316, log 12). -/
def roundingOf (h : Hart) (rm : SRm) (md : Rnd) : Prop :=
  md.h = srRandom h.sc.srseed 0
      (if h.shape.virt = true then Config.physStrip (vlenOf h.shape.g h.shape.nreg) h.vec.stripno 0 else h.vec.stripno) ∧
    match rm with
    | .mode m => md.mode = m
    | .dyn => h.sc.frm = rmodeCode md.mode

/-- An instruction that writes a rounded result to sd and its flags to FFLAGS. -/
def Rounds (i : Instr) (s : State) (sd : SReg) (r : FR) : Prop :=
  Acts i s (((s.me.wrS sd (w64 r.1)).flags r.2).nextPc)

/-- R148: FADD, FSUB, FMUL, FDIV, FMA and FSQRT in the four formats, with operands read from the low bits and results written
with zeros above (R36). The values are those of the model's one operation each, which rounds the exact result once. -/
def Obligations.FloatArithmetic : Prop :=
  ∀ g sd sa sb sc rm (p : FP) (md : Rnd) (s : State),
    s.Commits g [sd, sa, sb, sc] → roundingOf s.me rm md →
    let f := fpFmt p
    let x := (s.me.rdS sa).toNat % 2 ^ f.width
    let y := (s.me.rdS sb).toNat % 2 ^ f.width
    let z := (s.me.rdS sc).toNat % 2 ^ f.width
    Rounds (.fadd g sd sa sb rm p) s sd (f.fadd md x y) ∧
    Rounds (.fsub g sd sa sb rm p) s sd (f.fsub md x y) ∧
    Rounds (.fmul g sd sa sb rm p) s sd (f.fmul md x y) ∧
    Rounds (.fdiv g sd sa sb rm p) s sd (f.fdiv md x y) ∧
    Rounds (.fma g sd sa sb sc rm p) s sd (f.fused md false false x y z) ∧
    Rounds (.fsqrt g sd sa rm p) s sd (f.fsqrt md x)

/-- The special cases of R148 and R83 in the four formats: invalid operations give the canonical NaN and NV, a finite nonzero
value over zero gives a signed infinity and DZ, the square root of −0 is −0, and a signalling NaN operand sets NV. -/
def Obligations.FloatSpecials : Prop :=
  ∀ (p : FP) (md : Rnd) (x y : Nat), let f := fpFmt p
    x < 2 ^ f.width → y < 2 ^ f.width →
    let isInf (v : Nat) : Prop := expOf f v = 2 ^ f.we - 1 ∧ fracOf f v = 0
    let isZero (v : Nat) : Prop := v % 2 ^ (f.we + f.wf) = 0
    let invalid : FR := (f.nan, 16#6)
    (isInf x → isZero y → f.fmul md x y = invalid ∧ f.fmul md y x = invalid) ∧
    (isInf x → isInf y → sigOf f x ≠ sigOf f y → f.fadd md x y = invalid) ∧
    (isInf x → isInf y → sigOf f x = sigOf f y → f.fsub md x y = invalid) ∧
    (isZero x → isZero y → f.fdiv md x y = invalid) ∧ (isInf x → isInf y → f.fdiv md x y = invalid) ∧
    (sigOf f x = true → isNaN f x = false → ¬ isZero x → f.fsqrt md x = invalid) ∧
    (isZero x → f.fsqrt md x = (x, 0#6)) ∧
    (isNaN f x = false → ¬ isInf x → ¬ isZero x → isZero y →
      f.fdiv md x y = ((if sigOf f x = sigOf f y then 0 else 2 ^ (f.we + f.wf)) + (2 ^ f.we - 1) * 2 ^ f.wf, 8#6)) ∧
    (isNaN f x = true → f.fadd md x y = (f.nan, if isSNaN f x || isSNaN f y then 16#6 else 0#6))

/-- R67, the choice of each mode on a grid of spacing 2^k: of the magnitude `m` it takes t or t′, exactly where m lies on the
grid; RNE the nearer and at a tie the even one, RTZ t, RDN and RUP by the sign, RMM the nearer and at a tie t′. -/
def RoundingModesRules : Prop :=
  ∀ (neg : Bool) (m k h : Nat), 0 < k →
    let t := m / 2 ^ k
    let on (md : RMode) := roundAt ⟨md, h⟩ neg m 0 false k
    (∀ md, m % 2 ^ k = 0 → on md = (t, false)) ∧
    (m % 2 ^ k ≠ 0 →
      (∀ md, (on md).2 = true ∧ ((on md).1 = t ∨ (on md).1 = t + 1)) ∧
      (on .rtz).1 = t ∧ (on .rdn).1 = (if neg then t + 1 else t) ∧ (on .rup).1 = (if neg then t else t + 1) ∧
      (2 * (m % 2 ^ k) < 2 ^ k → (on .rne).1 = t ∧ (on .rmm).1 = t) ∧
      (2 ^ k < 2 * (m % 2 ^ k) → (on .rne).1 = t + 1 ∧ (on .rmm).1 = t + 1) ∧
      (2 * (m % 2 ^ k) = 2 ^ k → (on .rne).1 = (if t % 2 = 0 then t else t + 1) ∧ (on .rmm).1 = t + 1))

/-- R67, step 1, and the same-format case of R151: a finite or infinite encoding of a binary format rounds to itself and sets
no flag, in every mode. -/
def ExactValuesRoundToThemselvesRules : Prop :=
  ∀ (p : FP) (md : Rnd) (sat : Bool) (x : Nat), x < 2 ^ (fpFmt p).width → isNaN (fpFmt p) x = false →
    (fpFmt p).convert (fpFmt p) md sat x = (x, 0#6)

/-- R67: the choice of each mode, and that an encoding of the destination rounds to itself. -/
def Obligations.Rounding : Prop := RoundingModesRules ∧ ExactValuesRoundToThemselvesRules

/-- R151: FCVT by sub-code. -/
def Obligations.FloatConvert : Prop :=
  ∀ g sd sa rm (p : FP) (md : Rnd) (s : State), s.Commits g [sd, sa] → roundingOf s.me rm md →
    let f := fpFmt p
    let x := s.me.rdS sa
    let low (w : Nat) := x.toNat % 2 ^ w
    let sub (n : BitVec 4) (r : FR) : Prop := Rounds (.fcvt g sd sa rm p n) s sd r
    sub 0 (fmtF32.convert f md false (low 32)) ∧ sub 1 (fmtF64.convert f md false (low 64)) ∧
    sub 2 (fmtF16.convert f md false (low 16)) ∧ sub 3 (fmtBF16.convert f md false (low 16)) ∧
    sub 4 (fromInteger f md x.toInt) ∧ sub 5 (fromInteger f md x.toNat) ∧
    sub 6 (toInteger md 64 false (f.decode (low f.width))) ∧ sub 7 (toInteger md 64 true (f.decode (low f.width))) ∧
    (let r := toInteger md 32 false (f.decode (low f.width))
     sub 8 (((BitVec.ofNat 32 r.1).signExtend 64).toNat, r.2)) ∧
    sub 9 (toInteger md 32 true (f.decode (low f.width))) ∧
    sub 10 (fromInteger f md (x.setWidth 32).toInt) ∧ sub 11 (fromInteger f md (x.setWidth 32).toNat) ∧
    sub 12 (fmtE4M3.convert f md false (low 8)) ∧ sub 13 (fmtE5M2.convert f md false (low 8)) ∧
    sub 14 (f.convert fmtE4M3 md false (low f.width)) ∧ sub 15 (f.convert fmtE5M2 md false (low f.width))

/-- R149: FMIN and FMAX, with −0 below +0; a NaN yields to a number, two NaNs give the canonical NaN, a signalling one sets
NV. -/
def FloatMinMaxRules : Prop :=
  ∀ g sd sa sb (p : FP) (s : State), s.Commits g [sd, sa, sb] →
    let f := fpFmt p
    let x := (s.me.rdS sa).toNat % 2 ^ f.width
    let y := (s.me.rdS sb).toNat % 2 ^ f.width
    let key (v : Nat) : Int := if sigOf f v then fpOrder f v - 1 else fpOrder f v
    let flags : BitVec 6 := if isSNaN f x || isSNaN f y then 16#6 else 0#6
    let pick (lesser : Bool) : Nat :=
      if isNaN f x && isNaN f y then f.nan else if isNaN f x then y else if isNaN f y then x
      else if (if lesser then key x ≤ key y else key y ≤ key x) then x else y
    Rounds (.fmin g sd sa sb p) s sd (pick true, flags) ∧ Rounds (.fmax g sd sa sb p) s sd (pick false, flags)

/-- R150: FCMP writes its condition and the negation; unordered operands make every condition false; NV for a signalling NaN
under .eq and .ne, for any NaN under the others. -/
def FloatCompareRules : Prop :=
  ∀ g (cd : CReg) sa sb (cc : Cond) (p : FP) (s : State),
    cd.extractLsb' 0 1 = 0#1 → cc.fpLegal = true → s.Commits g [sa, sb] →
    let f := fpFmt p
    let x := (s.me.rdS sa).toNat % 2 ^ f.width
    let y := (s.me.rdS sb).toNat % 2 ^ f.width
    let a := fpOrder f x
    let b := fpOrder f y
    let ordered := !(isNaN f x || isNaN f y)
    let r : Bool := ordered && (match cc with
      | .eq => decide (a = b) | .ne => decide (a ≠ b) | .lt => decide (a < b) | .ge => decide (b ≤ a)
      | .gt => decide (b < a) | .le => decide (a ≤ b) | _ => false)
    let flags : BitVec 6 :=
      if (if cc = .eq ∨ cc = .ne then isSNaN f x || isSNaN f y else isNaN f x || isNaN f y) then 16#6 else 0#6
    Acts (.fcmp g cd sa sb cc p) s ((((s.me.wrC cd r).wrC (cd + 1) (!r)).flags flags).nextPc)

/-- R152: FCLASS sets exactly one of bits [9:0]; a rounding code or a sub-code other than 0 is refused. -/
def FloatClassRules : Prop :=
  (∀ g sd sa (p : FP) (s : State), s.Commits g [sd, sa] →
    let f := fpFmt p
    let x := (s.me.rdS sa).toNat % 2 ^ f.width
    let bit : Nat :=
      if expOf f x = 2 ^ f.we - 1 then
        (if fracOf f x = 0 then (if sigOf f x then 0 else 7) else if (fracOf f x).testBit (f.wf - 1) then 9 else 8)
      else if expOf f x = 0 then
        (if fracOf f x = 0 then (if sigOf f x then 3 else 4) else if sigOf f x then 2 else 5)
      else if sigOf f x then 1 else 6
    decodeIn .sc (packSc ⟨0x5A#8, g, sd, sa, 0, fpFn 0 p 0 0⟩) = .ok (.fclass g sd sa p) ∧
    Acts (.fclass g sd sa p) s ((s.me.wrS sd (BitVec.ofNat 64 (2 ^ bit))).nextPc)) ∧
  ∀ g sd sa sb (rm : BitVec 3) (p : FP) sc sub, rm ≠ 0 ∨ sub ≠ 0 →
    (decodeIn .sc (packSc ⟨0x5A#8, g, sd, sa, sb, fpFn rm p sc sub⟩)).toOption = none

/-- R149, R150 and R152: minimum and maximum, comparison, and classification. -/
def Obligations.FloatMinMaxCompareClass : Prop := FloatMinMaxRules ∧ FloatCompareRules ∧ FloatClassRules

/-! ### Control registers and vector length -/

/-- R153: the CSR instructions on a register that exists and that the mode may access, when nothing has to be waited for: the
read value goes to sd; the written value is sa, the OR with sa, or the AND with its complement. -/
def CsrAccess : Prop :=
  ∀ g r (k : BitVec 12) (s : State), s.Commits g [r] →
    csrExists k.toNat = true → (csrHist k.toNat = true → s.histOn (coreOf s.cur) = true) →
    (csrSup k.toNat = true → s.me.sc.mode ≠ .user) →
    (s.csrReadWaits s.cur k.toNat = false →
      Acts (.csrr g r k) s ((s.me.wrS r (s.csrRead s.cur k.toNat)).nextPc)) ∧
    (csrWritable k.toNat = true → s.csrWriteWaits s.cur k.toNat = false →
      exec (.csrw g r k) s = .next ((s.csrWrite s.cur k.toNat (s.me.rdS r)).updHart s.cur Hart.nextPc) ∧
      (s.csrReadWaits s.cur k.toNat = false →
        exec (.csrs g r k) s =
          .next ((s.csrWrite s.cur k.toNat (s.csrRead s.cur k.toNat ||| s.me.rdS r)).updHart s.cur Hart.nextPc) ∧
        exec (.csrc g r k) s =
          .next ((s.csrWrite s.cur k.toNat (s.csrRead s.cur k.toNat &&& ~~~(s.me.rdS r))).updHart s.cur Hart.nextPc)))

/-- The numbers of R49 and what each register reads: the listed ones exist, those marked read-only are not writable, and each
reads the state that its rule names (R41 to R43, R47, R48, R50 to R57, R260, R303, R305, R306, R322, R362, R366, R367, R371). An unlisted number, a register of a histogram unit that
the partition has not accepted (R311, log 65), or a write to a read-only register, raises an illegal-instruction fault, and then
a user access to an S register raises a privilege fault (R49, R153). -/
def CsrMapRules : Prop :=
  (∀ g r (k : BitVec 12) (s : State), s.Commits g [r] → s.Drained →
    let fault (cause : BitVec 8) (i : Instr) : Prop :=
      exec i s = s.takeTrap s.cur ⟨cause, wordOf i, 0, 0, 0, 0⟩ s.me.sc.pc none s.me.sc.pc false
    (csrExists k.toNat = false ∨ (csrHist k.toNat = true ∧ s.histOn (coreOf s.cur) = false) →
      fault 0x01#8 (.csrr g r k) ∧ fault 0x01#8 (.csrw g r k) ∧ fault 0x01#8 (.csrs g r k) ∧ fault 0x01#8 (.csrc g r k)) ∧
    (csrWritable k.toNat = false → fault 0x01#8 (.csrw g r k) ∧ fault 0x01#8 (.csrs g r k) ∧ fault 0x01#8 (.csrc g r k)) ∧
    ((csrHist k.toNat = true → s.histOn (coreOf s.cur) = true) → csrExists k.toNat = true → csrSup k.toNat = true →
      s.me.sc.mode = .user → fault 0x02#8 (.csrr g r k)) ∧
    ((csrHist k.toNat = true → s.histOn (coreOf s.cur) = true) → csrWritable k.toNat = true → csrSup k.toNat = true → s.me.sc.mode = .user →
      fault 0x02#8 (.csrw g r k) ∧ fault 0x02#8 (.csrs g r k) ∧ fault 0x02#8 (.csrc g r k))) ∧
  (∀ k : Nat, k < 9 ∨ (0x10 ≤ k ∧ k ≤ 0x12) ∨ (0x20 ≤ k ∧ k ≤ 0x23) ∨ (0x30 ≤ k ∧ k ≤ 0x35) ∨ (0x40 ≤ k ∧ k ≤ 0xC6) ∨
    (0x100 ≤ k ∧ k ≤ 0x112) ∨ (0x120 ≤ k ∧ k ≤ 0x139) ∨ k = 0x140 ∨ k = 0x141 ∨ (0x144 ≤ k ∧ k ≤ 0x148) ∨ (0x14A ≤ k ∧ k ≤ 0x14C) ∨
    (0x180 ≤ k ∧ k ≤ 0x183) ↔ csrExists k = true) ∧
  (∀ k : Nat, (k ≤ 2 ∨ (6 ≤ k ∧ k ≤ 8) ∨ (0x20 ≤ k ∧ k ≤ 0x23) ∨ (0x30 ≤ k ∧ k ≤ 0x35) ∨ (0x40 ≤ k ∧ k ≤ 0xC5) ∨
    (0x120 ≤ k ∧ k ≤ 0x139) ∨ k = 0x141 ∨ (0x144 ≤ k ∧ k ≤ 0x147) ∨ k = 0x14A ∨ k = 0x14B ∨
    (0x180 ≤ k ∧ k ≤ 0x183)) → csrWritable k = false) ∧
  ∀ (s : State) (n : Nat), let h := s.hart n
    let rd := s.csrRead n
    let pq := (s.part h.shape.part).pq
    let hist := (s.core (coreOf n)).hist
    (∀ c, h.shape.g = 2 ^ c → rd 0x002 = BitVec.ofNat 64 (64 * c + 4 * h.shape.nnext.toNat + if h.shape.virt = true then 2 else h.shape.nreg.toNat)) ∧
    rd 0x031 = BitVec.ofNat 64 (h.shape.launch % 65536) ∧ rd 0x034 = h.shape.grant ∧ rd 0x035 = h.shape.sarg ∧
    (∀ k, k < 6 → rd (0x0C0 + k) = Table.get 0 h.trc.dly k) ∧ rd 0x0C6 = (if h.trc.dlyEn then 1 else 0) ∧
    rd 0x107 = h.trap.tnpc ∧ (∀ k, k < 6 → rd (0x108 + k) = Table.get 0 h.trap.tq k) ∧ rd 0x10E = h.trap.tscr ∧
    rd 0x10F = h.trap.tdet ∧ rd 0x110 = h.trc.trcCtl ∧ rd 0x111 = hist.ctl ∧ rd 0x112 = h.trap.tmpc ∧
    (∀ k, k < 25 → rd (0x120 + k) = Table.get 0 hist.rdh k) ∧ rd 0x139 = hist.noReuse ∧
    rd 0x140 = pq.rasInj ∧ rd 0x141 = pq.rasCnt ∧
    (pq.ras = [] → ∀ k, k < 4 → rd (0x144 + k) = 0) ∧
    (∀ r l, pq.ras = r :: l → rd 0x144 = r.w0 ∧ rd 0x145 = r.w1 ∧ rd 0x146 = r.w2 ∧ rd 0x147 = r.w3) ∧
    rd 0x148 = BitVec.ofNat 64 (65536 * pq.rasLost + 256 * pq.ras.length + (if pq.rasIen then 2 else 0)) ∧
    (pq.evt = [] → rd 0x14A = 0 ∧ rd 0x14B = 0) ∧ (∀ r l, pq.evt = r :: l → rd 0x14A = r.w0 ∧ rd 0x14B = r.w1) ∧
    rd 0x14C = BitVec.ofNat 64 (65536 * pq.evtLost + 256 * pq.evt.length + (if pq.evtIen then 2 else 0)) ∧
    rd 0x000 = BitVec.ofNat 64 h.vec.vl ∧ rd 0x001 = h.vec.vtype ∧ rd 0x003 = BitVec.ofNat 64 h.vec.vstart ∧ rd 0x004 = h.vec.mfc ∧
    rd 0x005 = h.vec.bfstart ∧ rd 0x006 = h.vec.mprog ∧ rd 0x007 = BitVec.ofNat 64 h.vec.vskipc ∧
    rd 0x008 = h.vec.stripno.setWidth 64 ∧ rd 0x010 = h.sc.fflags.setWidth 64 ∧ rd 0x011 = h.sc.frm.setWidth 64 ∧
    rd 0x012 = h.sc.srseed.setWidth 64 ∧ rd 0x020 = (h.vec.plive.extractLsb' 0 64) ∧ rd 0x021 = (h.vec.plive.extractLsb' 64 64) ∧
    rd 0x022 = h.vec.vdirty ∧ rd 0x023 = h.shape.talloc.setWidth 64 ∧ rd 0x030 = BitVec.ofNat 64 h.shape.hartid ∧
    rd 0x032 = BitVec.ofNat 64 h.shape.gangsize ∧ rd 0x033 = h.shape.lanes.setWidth 64 ∧
    (∀ r : KReg, rd (0x040 + r.toNat) = (h.kgen r).setWidth 64) ∧
    (∀ r : VReg, rd (0x060 + r.toNat) = (h.binding r.toNat).word) ∧
    (∀ m : MSlot, rd (0x0A0 + m.toNat) = (h.stream m.toNat).stat ∧ rd (0x0A8 + m.toNat) = (h.stream m.toNat).sbase ∧
      rd (0x0B0 + m.toNat) = (h.stream m.toNat).sstride ∧ rd (0x0B8 + m.toNat) = BitVec.ofNat 64 (h.stream m.toNat).savl) ∧
    rd 0x100 = h.trap.tcause.setWidth 64 ∧ rd 0x101 = h.trap.tval ∧ rd 0x102 = h.trap.tpc ∧ rd 0x103 = h.trap.tindex.setWidth 64 ∧
    rd 0x104 = h.trap.telem.setWidth 64 ∧ rd 0x105 = h.trap.tvec ∧ rd 0x106 = h.trap.tstat ∧
    (∀ k, k < 4 → rd (0x180 + k) = s.lat (coreOf n) k)

/-- A written control register keeps the fields that its map has and ignores the write elsewhere (R9, R52, R53, R54, R55, R57,
R153, R305, R306, R322, R362), and no other control register of that hart changes, but for what DLYCTL clears. -/
def CsrWriteReadsRules : Prop :=
  ∀ (s : State) (n : Nat) (v : Word),
    let keeps (k : Nat) (mask : Word) : Prop :=
      (s.csrWrite n k v).csrRead n k = v &&& mask ∧
      ∀ j, csrExists j = true → j ≠ k → ¬ (k = 0xC6 ∧ 0xC0 ≤ j ∧ j < 0xC6) → (s.csrWrite n k v).csrRead n j = s.csrRead n j
    keeps 0x003 0xFFF#64 ∧ keeps 0x004 0xFFFFE0#64 ∧ keeps 0x005 0x1F7FF#64 ∧ keeps 0x010 0x3F#64 ∧ keeps 0x011 0x7#64 ∧
    keeps 0x012 0xFFFFFFFF#64 ∧ keeps 0x0C6 0x1#64 ∧ keeps 0x100 0xFF#64 ∧ keeps 0x101 (~~~0#64) ∧ keeps 0x102 (~~~0#64) ∧
    keeps 0x103 0x7#64 ∧ keeps 0x104 0xFFF#64 ∧ keeps 0x105 (~~~7#64) ∧ keeps 0x106 0x1CF#64 ∧ keeps 0x107 (~~~7#64) ∧
    keeps 0x108 0x1FFF#64 ∧ keeps 0x109 (~~~0#64) ∧ keeps 0x10A (~~~0#64) ∧ keeps 0x10B (~~~0#64) ∧ keeps 0x10C (~~~0#64) ∧
    keeps 0x10D 0xFFFFFFFF0000FFFF#64 ∧ keeps 0x10E (~~~0#64) ∧ keeps 0x10F 0x8000FFFF00000F0F#64 ∧ keeps 0x110 0xFF001F#64 ∧
    keeps 0x111 0xFFF1#64 ∧ keeps 0x112 (~~~7#64)

/-- R49, R153 and the rules of the maps: what every control register reads, and what a write of one leaves in it and in the others. -/
def Obligations.CsrRegisters : Prop := CsrMapRules ∧ CsrWriteReadsRules

/-- R154: CSRR.C and CSRW.C. -/
def ConditionWordRules : Prop :=
  ∀ g r (s : State), s.Commits g [r] →
    decodeIn .sc (packSc ⟨0x64#8, g, r, 0, 0, 0⟩) = .ok (.csrrC g r) ∧
    decodeIn .sc (packSc ⟨0x65#8, g, 0, r, 0, 0⟩) = .ok (.csrwC g r) ∧
    (∃ v : Word, (∀ n, n < 64 → v.getLsbD n = (decide (n < 16) && s.me.rdC (BitVec.ofNat 4 n))) ∧
      Acts (.csrrC g r) s ((s.me.wrS r v).nextPc)) ∧
    ∃ t, exec (.csrwC g r) s = .next t ∧ s.Same t s.cur ∧
      (∀ n : CReg, t.me.rdC n = if n = 0#4 then true else (s.me.rdS r).getLsbD n.toNat) ∧
      { t.me with sc := { t.me.sc with c := s.me.sc.c } } = s.me.nextPc

/-- R153 and R154: the instructions on control registers and on the condition word. -/
def Obligations.CsrInstructions : Prop := CsrAccess ∧ ConditionWordRules

/-- R155: SETVL writes VTYPE, VL, sd and STRIPNO; a reserved type raises an illegal-instruction fault and nothing else
happens. -/
def SetvlRules : Prop :=
  ∀ g sd sa sb (vt : BitVec 16) (s : State), s.Commits g [sd, sa, sb] →
    let t : Word := vt.setWidth 64
    let req := (s.me.rdS sa).toNat
    let vl := min (if sb = 0#5 then req else min req (s.me.rdS sb).toNat) (vlmaxOf s.me.vlen t)
    (vtLegal t = true →
      Acts (.setvl g sd sa sb vt) s
        ((({ s.me with vec := { s.me.vec with vtype := t, vl := vl, stripno := s.me.vec.stripno + 1 } }).wrS sd
          (BitVec.ofNat 64 vl)).nextPc)) ∧
    (vtLegal t = false → s.Drained →
      let ill (i : Instr) : Out := s.takeTrap s.cur ⟨0x01#8, wordOf i, 0, 0, 0, 0⟩ s.me.sc.pc none s.me.sc.pc false
      exec (.setvl g sd sa sb vt) s = ill (.setvl g sd sa sb vt) ∧
      exec (.setvlN g sd sa sb vt) s = ill (.setvlN g sd sa sb vt))

/-- R156: SETVL.N takes NNEXT, adopts the grant of the hart's next epoch, and kills every vector register, predicate and
binding, before it sets VTYPE and VL under the new shape; it waits for the vector queue and for queued matrix commands that
still read vector registers. Scale registers, generations, streams and scalar state stay. -/
def Obligations.SetVectorLengthNew : Prop :=
  ∀ g sd sa sb (vt : BitVec 16) (s : State), s.Commits g [sd, sa, sb] → vtLegal (vt.setWidth 64) = true →
    ((¬ s.Drained ∨ s.matrixReads s.cur = true) → exec (.setvlN g sd sa sb vt) s = .next s) ∧
    (s.Drained → s.matrixReads s.cur = false →
      let t : Word := vt.setWidth 64
      let grant := (s.gang s.me.shape.launch).grantAt (s.me.shape.setvlNs + 1)
      let req := (s.me.rdS sa).toNat
      let vl := min (if sb = 0#5 then req else min req (s.me.rdS sb).toNat) (vlmaxOf (if s.me.shape.virt = true then 16384 else vlenOf grant s.me.shape.nnext) t)
      ∃ u, exec (.setvlN g sd sa sb vt) s = .next u ∧ s.Same u s.cur ∧
        u.me.shape.nreg = s.me.shape.nnext ∧ u.me.shape.g = grant ∧ u.me.shape.lanes = lanesFor (s.cur % 4) grant ∧
        u.me.shape.setvlNs = s.me.shape.setvlNs + 1 ∧
        u.me.vec.vdirty = 0 ∧ u.me.vec.plive = 0 ∧ (∀ r, u.me.binding r = Binding.clear) ∧
        (∀ r, u.me.rdV r = 0) ∧ (∀ p, p ≠ 0 → u.me.rdP p = 0) ∧
        u.me.vec.vtype = t ∧ u.me.vec.vl = vl ∧ u.me.vec.stripno = s.me.vec.stripno + 1 ∧
        (sd ≠ 0#5 → u.me.rdS sd = BitVec.ofNat 64 vl) ∧ (∀ r, r ≠ sd → u.me.rdS r = s.me.rdS r) ∧
        u.me.sc.pc = s.me.sc.pc + 8 ∧ u.me.sc.c = s.me.sc.c ∧ u.me.sc.fflags = s.me.sc.fflags ∧
        u.me.vec.k = s.me.vec.k ∧ u.me.vec.kgen = s.me.vec.kgen ∧ u.me.str = s.me.str ∧ u.me.vec.mfc = s.me.vec.mfc)

/-- R157: VCONF writes NNEXT in a gang of one member, and raises an illegal-instruction fault in a larger gang. -/
def VectorConfigureRules : Prop :=
  ∀ g (k : BitVec 2) (s : State), s.Commits g [] →
    decodeIn .sc (packSc ⟨0x6A#8, g, 0, 0, 0, k.setWidth 19⟩) = .ok (.vconf g k) ∧
    (s.me.shape.gangsize ≤ 1 →
      Acts (.vconf g k) s ({ s.me with shape := { s.me.shape with nnext := k } }).nextPc ∧
      ∀ t, exec (.vconf g k) s = .next t → (t.csrRead s.cur 2).extractLsb' 2 2 = k) ∧
    (1 < s.me.shape.gangsize → s.Drained →
      exec (.vconf g k) s = s.takeTrap s.cur ⟨0x01#8, wordOf (.vconf g k), 0, 0, 0, 0⟩ s.me.sc.pc none s.me.sc.pc false)

/-- R27 and R315: the registers of a hart and their length, from its grant and NREG; a hart that runs an image which Burxus translated has
those of the virtual machine (log 12). -/
def VectorShapeRules : Prop :=
  ∀ h : Hart,
    (h.shape.virt = false → h.nregs = 8 * 2 ^ h.shape.nreg.toNat ∧ h.vlen = 131072 * h.shape.g / h.nregs) ∧
    (h.shape.virt = true → h.nregs = 32 ∧ h.vlen = 16384)

/-- R155, R157 and R27: SETVL and VCONF, and the shape of the vector registers. -/
def Obligations.SetVectorLength : Prop := SetvlRules ∧ VectorConfigureRules ∧ VectorShapeRules

/-! ### Synchronisation and system instructions (13_synchronisation_and_system_instructions.md) -/

/-- R241: the new memory value of an atomic on `w` bits, from the old value `m` and the operand `b`, and its flags. -/
def amoNew (op : AmoOp) (w m b : Nat) : FR :=
  let signed (n : Nat) : Int := (BitVec.ofNat w n).toInt
  match op with
  | .swap => (b, 0) | .add => ((m + b) % 2 ^ w, 0) | .and => (m &&& b, 0) | .or => (m ||| b, 0) | .xor => (m ^^^ b, 0)
  | .min => (if signed m ≤ signed b then m else b, 0) | .max => (if signed b ≤ signed m then m else b, 0)
  | .minu => (if m ≤ b then m else b, 0) | .maxu => (if b ≤ m then m else b, 0)
  | .fadd => (if w = 64 then fmtF64 else fmtF32).fadd ⟨.rne, 0⟩ m b

/-- The state once a hart's scalar and vector writes are performed, as FENCE.ALL does. -/
def fenced (s : State) : State := (s.performAll s.cur .scalar).performAll s.cur .vector

/-- R241 and R242: AMO writes the table's value and CAS writes only when the memory operand equals sd; both give sd the old
value, sign-extended. The access is one read-modify-write of the scalar agent, and a CAS that fails writes nothing; .rel alone
makes the agent's earlier writes visible first (R108). -/
def AtomicResults : Prop :=
  ∀ g sd sa sb sc acq rel (dbl : Bool) (s u : State) (old : List Byte),
    let w := if dbl then 64 else 32
    let va := s.me.rdS sa
    let s0 := if rel then s.performAll s.cur .scalar else s
    let b := (s.me.rdS sb).toNat % 2 ^ w
    let done (u : State) (fl : BitVec 6) : Out :=
      .next (u.updHart s.cur fun h => ((h.wrS sd ((BitVec.ofNat w (ofBytes old)).signExtend 64)).flags fl).nextPc)
    s.Commits g [sd, sa, sb] → va.toNat < 2 ^ 55 → va.toNat % (w / 8) = 0 →
    (∀ op, let new (m : Nat) : FR := amoNew op w m b
      s0.rmw s.cur .scalar va (w / 8) (fun bs => some (toBytes (w / 8) (new (ofBytes bs)).1)) = .ok (u, old) →
      exec (.amo g sd sa sb sc acq rel dbl op) s = done u (new (ofBytes old)).2) ∧
    (s0.rmw s.cur .scalar va (w / 8) (fun bs => if ofBytes bs = (s.me.rdS sd).toNat % 2 ^ w then some (toBytes (w / 8) b) else none)
        = .ok (u, old) →
      exec (.cas g sd sa sb sc acq rel dbl) s = done u 0)

/-- What a read-modify-write does (R242, R243): it returns the bytes of memory at the translated location and leaves the new
ones there; beside them, and the A and D bits of the table entry used, memory is as before, while the agent has no earlier
write held, no error waits to be found and no line differs from the storage behind it. -/
def AtomicAccessRules : Prop :=
  ∀ (s u : State) (n : Nat) (va : Word) (k : Nat) (f : List Byte → Option (List Byte)) (old : List Byte),
    s.Clean → (s.hart n).q.sheld = [] → (∀ bs new, f bs = some new → new.length = k) →
    s.rmw n .scalar va k f = .ok (u, old) →
    ∃ v t, s.locate (s.who n) va .atomic = .ok (v, t) ∧ old = Memory.readBytes s.sto.mem t.loc k ∧ u.harts = s.harts ∧
      (∀ new, f old = some new → ∀ i, i < k → Memory.byte u.sto.mem (t.loc + i) = (new[i]?).getD 0) ∧
      ∀ x, (f old ≠ none → x < t.loc ∨ t.loc + k ≤ x) → (∀ e, t.entry = some e → x < e.1 ∨ e.1 + 8 ≤ x) →
        Memory.byte u.sto.mem x = Memory.byte s.sto.mem x

/-- R241 and R242: AMO and CAS, and the accesses that they make. -/
def Obligations.Atomics : Prop := AtomicResults ∧ AtomicAccessRules

/-- R106 and R244: a fence performs the writes that it orders and moves on; FENCE.VS and FENCE.ALL wait for the vector queue,
and FENCE.VV is recorded in it. -/
def FencesRules : Prop :=
  ∀ g sc (s : State), s.Commits g [] →
    exec (.fence g .sv sc) s = .next ((s.performAll s.cur .scalar).updHart s.cur Hart.nextPc) ∧
    Acts (.fence g .vv sc) s ({ s.me with q := { s.me.q with vvFence := some s.me.q.ticket } }).nextPc ∧
    (s.Drained →
      exec (.fence g .vs sc) s = .next ((s.performAll s.cur .vector).updHart s.cur Hart.nextPc) ∧
      exec (.fence g .all sc) s =
        .next (((s.performAll s.cur .scalar).performAll s.cur .vector).updHart s.cur Hart.nextPc)) ∧
    (¬ s.Drained → exec (.fence g .vs sc) s = .next s ∧ exec (.fence g .all sc) s = .next s)

/-- R245 and R246: BARARV, BARWAIT and BARSET on the gang's record, and the completion of a generation: the members that
arrived take ARRIVED as their mask, GEN rises, ARRIVED is cleared, PART takes NPART. -/
def GangBarrierRules : Prop :=
  ∀ g sd sa (s : State),
    (s.Commits g [sd] → s.Drained →
      let s0 := fenced s
      let x := s0.gang s0.me.shape.launch
      let b := x.bar
      let arrived := b.arrived ||| (1#32 <<< s0.me.shape.hartid)
      (b.part.getLsbD s0.me.shape.hartid = false →
        exec (.bararv g sd) s = .next (s0.setHart s.cur ((s0.me.wrS sd (b.gen.setWidth 64)).nextPc))) ∧
      (b.part.getLsbD s0.me.shape.hartid = true → s0.me.q.barPend = some b.gen → exec (.bararv g sd) s = .next s0) ∧
      (b.part.getLsbD s0.me.shape.hartid = true → s0.me.q.barPend ≠ some b.gen →
        ∃ t, exec (.bararv g sd) s = .next t ∧ (t.hart s.cur).q.barPend = some b.gen ∧
          (t.hart s.cur).sc.pc = s0.me.sc.pc + 8 ∧ (sd ≠ 0#5 → (t.hart s.cur).rdS sd = b.gen.setWidth 64) ∧
          (∀ r, r ≠ sd → (t.hart s.cur).rdS r = s0.me.rdS r) ∧
          (t.gang s0.me.shape.launch).bar =
            (if b.part &&& arrived = b.part then ⟨b.gen + 1, b.npart, 0, b.npart⟩ else { b with arrived := arrived }) ∧
          (b.part &&& arrived = b.part → ∀ k, k < x.members.length → x.live.getLsbD k = true → arrived.getLsbD k = true →
            (t.hart ((x.members[k]?).getD 640)).q.barMask = arrived))) ∧
    (s.Commits g [sd] →
      (s.me.q.barPend = none → Acts (.barwait g sd) s ((s.me.wrS sd 0).nextPc)) ∧
      (∀ k, s.me.q.barPend = some k → k = (s.gang s.me.shape.launch).bar.gen → exec (.barwait g sd) s = .next s) ∧
      (∀ k, s.me.q.barPend = some k → k ≠ (s.gang s.me.shape.launch).bar.gen →
        Acts (.barwait g sd) s
          ((({ s.me with q := { s.me.q with barPend := none } }).wrS sd (s.me.q.barMask.setWidth 64)).nextPc))) ∧
    (s.Commits g [sd, sa] →
      let x := s.gang s.me.shape.launch
      ∃ (t : State) (want : BitVec 32), exec (.barset g sd sa) s = .next t ∧
        t.me = (s.me.wrS sd (x.bar.npart.setWidth 64)).nextPc ∧
        (∀ k, k < 32 → want.getLsbD k = ((s.me.rdS sa).getLsbD k && x.live.getLsbD k && decide (k < x.members.length) &&
          decide ((s.hart ((x.members[k]?).getD 640)).q.status ≠ .exiting))) ∧
        (t.gang s.me.shape.launch).bar =
          { x.bar with npart := want, part := if x.bar.arrived = 0#32 then want else x.bar.part })

/-- R106 and R244 to R246: the fences and the gang barrier. That a fence performs for every scope alike is the model's choice (log 5),
and that BARSET leaves a member whose EXIT is under way out of the mask is its reading (log 50). -/
def Obligations.FencesAndBarrier : Prop := FencesRules ∧ GangBarrierRules

/-- R98, R247 and R248: EPUSH appends an entry once the queue has room; EPOP takes the oldest result once there is one; a
finished command posts its result when the result queue has room, which sets the event latch. -/
def Obligations.EngineQueues : Prop :=
  (∀ g (eng : BitVec 2) sa (s : State), s.Commits g [sa] → s.Drained →
    let s0 := fenced s
    let e := s0.me.engine eng.toNat
    (e.cmd.length < 16 →
      exec (.epush g eng sa) s =
        .next (s0.setHart s.cur (s0.me.setEngine eng.toNat { e with cmd := e.cmd ++ [s0.me.rdS sa] }).nextPc)) ∧
    (16 ≤ e.cmd.length → exec (.epush g eng sa) s = .next s0)) ∧
  (∀ g sd (eng : BitVec 2) (s : State), s.Commits g [sd] →
    let e := s.me.engine eng.toNat
    (e.res = [] → exec (.epop g sd eng) s = .next s) ∧
    (∀ r rest, e.res = r :: rest →
      ∃ t, exec (.epop g sd eng) s = .next t ∧ s.Same t s.cur ∧ (sd ≠ 0#5 → t.me.rdS sd = r) ∧
        (∀ q, q ≠ sd → t.me.rdS q = s.me.rdS q) ∧ t.me.sc.pc = s.me.sc.pc + 8 ∧
        (e.fin = [] → (t.me.engine eng.toNat).res = rest ∧ t.me.sc.latch = s.me.sc.latch) ∧
        ∀ f fs, e.fin = f :: fs → rest.length + f.length ≤ 16 →
          t.me.engine eng.toNat = { e with res := rest ++ f, fin := fs } ∧ t.me.sc.latch = true)) ∧
  ∀ n (eng : BitVec 2) (s : State), let e := (s.hart n).engine eng.toNat
    ∃ t, exec (.engineResultPost n eng) s = .next t ∧
      (∀ f fs, e.fin = f :: fs → e.res.length + f.length ≤ 16 →
        (t.hart n).engine eng.toNat = { e with res := e.res ++ f, fin := fs } ∧ (t.hart n).sc.latch = true) ∧
      (∀ f fs, e.fin = f :: fs → 16 < e.res.length + f.length → t.hart n = s.hart n)

/-- R250 and R256: TSTAMP sets the tag of the 4 KiB tile that holds sa, and outside the scratchpad raises an access fault; WFE
with the latch set clears it and completes, and otherwise waits, until its time has passed. -/
def Obligations.TileStampAndWait : Prop :=
  (∀ g sa sb (s : State), s.Commits g [sa, sb] →
    (∀ k, s.me.tile s.cur (s.me.rdS sa) = some k → s.Drained →
      let s0 := fenced s
      ∃ t, exec (.tstamp g sa sb) s = .next t ∧ Table.get 0 t.sto.tags k = (s.me.rdS sb).setWidth 16 ∧
        (∀ j, j ≠ k → Table.get 0 t.sto.tags j = Table.get 0 s0.sto.tags j) ∧
        t.me.sc.pc = s0.me.sc.pc + 8 ∧ (∀ r, t.me.rdS r = s0.me.rdS r)) ∧
    (s.me.tile s.cur (s.me.rdS sa) = none → s.Drained →
      exec (.tstamp g sa sb) s =
        s.takeTrap s.cur ⟨0x07#8, s.me.rdS sa, 0, 0, 0x100#64, 0⟩ s.me.sc.pc none s.me.sc.pc false)) ∧
  (∀ g (s : State), s.Commits g [] →
    (s.me.sc.latch = true →
      Acts (.wfe g) s ({ s.me with sc := { s.me.sc with latch := false } }).nextPc) ∧
    (s.me.sc.latch = false → exec (.wfe g) s = .next s)) ∧
  ∀ n g (s t : State) (w : Word), (s.hart n).atCommit = true → (s.hart n).guard g = true → (s.hart n).sc.latch = false →
    s.fetchWord n (s.hart n).sc.pc = .ok (t, w) → decodeIn .sc w = .ok (.wfe g) →
    exec (.wfeTimeout n) s = .next (s.setHart n (s.hart n).nextPc)

/-- R251: LAUNCH reads the slate at sa and writes sd: 0 with the launch number when it is queued, 1 for a full queue, 2 for a
malformed slate, 3 for one that is not permitted. -/
def LaunchRules : Prop :=
  ∀ g sd sa (s u : State) (bs : List Byte), s.Commits g [sd, sa] → s.Drained →
    (s.me.rdS sa).toNat < 2 ^ 55 → (s.me.rdS sa).toNat % 64 = 0 →
    (fenced s).load s.cur .scalar (s.me.rdS sa) 64 .read = .ok (u, bs) →
    let w := slateOf bs
    let refused (code : Word) : Prop := exec (.launch g sd sa) s = .next (u.updHart s.cur fun h => (h.wrS sd code).nextPc)
    (u.slateBad w = true → refused 2) ∧
    (u.slateBad w = false → u.mayLaunch s.cur w = false → refused 3) ∧
    (u.slateBad w = false → u.mayLaunch s.cur w = true → u.queueFull w = true → refused 1) ∧
    (u.slateBad w = false → u.mayLaunch s.cur w = true → u.queueFull w = false →
      ∃ t, exec (.launch g sd sa) s = .next t ∧
        t.me = (u.me.wrS sd (BitVec.ofNat 64 (u.nextLaunch * 2 ^ 32))).nextPc ∧
        t.nextLaunch = (if u.nextLaunch = 2 ^ 32 - 1 then 1 else u.nextLaunch + 1) ∧
        ∃ q, (t.part (slatePart w)).queue = (u.part (slatePart w)).queue ++ [q] ∧ q.launch = u.nextLaunch ∧ q.words = w ∧
          q.addr = s.me.rdS sa) ∧
    (u.mayLaunch s.cur w = true ↔ slatePart w = (u.hart s.cur).shape.part ∧ ((u.hart s.cur).sc.mode = .user →
      slateAsid w = (u.hart s.cur).shape.asid.toNat ∧ slateMode w = 0 ∧
      slatePrio w ≤ slatePrio (u.gang (u.hart s.cur).shape.launch).slate.words))

/-- R252: at its commit EXIT takes its code and leaves the barrier, and nothing further issues; it completes, freeing the hart
slot, once every older convoy has drained and every matrix command of the hart has completed (R33). -/
def ExitRules : Prop :=
  (∀ g sa (s : State), s.Commits g [sa] → s.me.q.mfault = none →
    ∃ t, exec (.exit g sa) s = .next t ∧ t.me.q.status = .exiting ∧ t.me.q.exitCode = (s.me.rdS sa).setWidth 32 ∧
      t.mayIssue s.cur = false ∧ (s.me.shape.hartid < 32 →
        (t.gang s.me.shape.launch).bar.part.getLsbD s.me.shape.hartid = false ∧
        (t.gang s.me.shape.launch).bar.npart.getLsbD s.me.shape.hartid = false)) ∧
  ∀ n (s : State), (s.hart n).q.status = .exiting →
    ((s.hart n).q.run ≠ none ∨ (s.hart n).q.queue ≠ [] ∨ s.matrixBusy n = true → exec (.exitComplete n) s = .next s) ∧
    ((s.hart n).q.run = none → (s.hart n).q.queue = [] → s.matrixBusy n = false → (s.hart n).q.mfault = none →
      ∃ t, exec (.exitComplete n) s = .next t ∧ (t.hart n).q.status = .free ∧ (t.hart n).q.queue = [] ∧ (t.hart n).str = [])

/-- R251 and R252: a slate is queued, and a member ends. The order of LAUNCH's refusals, 2 before 3 before 1, is the model's reading
(log 41). -/
def Obligations.LaunchAndExit : Prop := LaunchRules ∧ ExitRules

/-- R253: an address form of CACHE acts on the line that holds sa, translated as a load; a TLB form drops entries of every core
in its scope, after a FENCE.ALL and once the accesses that the harts of those cores made have been performed, and in user mode
raises a privilege fault. -/
def Obligations.CacheMaintenance : Prop :=
  ∀ g sa sb sc (s : State),
    (s.Commits g [sa] → ∀ u t, s.locate (s.who s.cur) (s.me.rdS sa) .read = .ok (u, t) →
      let v := u.setAD t false
      let line := t.loc / 128
      let inL1I (i : Instr) (gone : Nat → Bool) : Prop :=
        ∃ w, exec i s = .next w ∧ w.me = v.me.nextPc ∧ w.sto = v.sto ∧
          (w.core (coreOf s.cur)).icache = (v.core (coreOf s.cur)).icache.filter fun e => !gone e.1
      inL1I (.cacheIinv g sa) (fun k => k == line) ∧ inL1I (.cacheIall g sa) (fun _ => true) ∧
      (∃ w, exec (.cacheDinv g sa) s = .next w ∧ w.me = v.me.nextPc ∧ w.sto.mem = v.sto.mem ∧
        (placeOf t.loc ≠ .window → (w.core (coreOf s.cur)).l1d = (v.core (coreOf s.cur)).l1d.filter (· != line))) ∧
      (s.Clean → Table.wf lineNone v.sto.lines = true → (∀ l, v.line? line = some l → l.way < 16) →
        (∃ w, exec (.cacheClean g sa) s = .next w ∧ w.me = v.me.nextPc ∧ w.sto.mem = v.sto.mem ∧
          (placeOf t.loc ≠ .window → ((w.line? line).isSome = (v.line? line).isSome ∧ ∀ l, w.line? line = some l → l.dirty = false))) ∧
        (∃ w, exec (.cacheFlush g sa) s = .next w ∧ w.me = v.me.nextPc ∧ w.sto.mem = v.sto.mem ∧
          (placeOf t.loc ≠ .window → w.line? line = none)))) ∧
    (s.Commits g [sa, sb] → s.Drained →
      let va := s.me.rdS sa
      let asid := (s.me.rdS sb).toNat % 256
      let s0 := ((fenced s).harts.filter fun e => inScope sc (coreOf s.cur) (coreOf e.1)).foldl (fun x e => x.performBoth e.1) (fenced s)
      let drops (i : Instr) (p : TlbEntry → Bool) : Prop :=
        (s.me.sc.mode = .user →
          exec i s = s.takeTrap s.cur ⟨0x02#8, wordOf i, 0, 0, 0, 0⟩ s.me.sc.pc none s.me.sc.pc false) ∧
        (s.me.sc.mode ≠ .user → ∃ t, exec i s = .next t ∧ t.me = s0.me.nextPc ∧ t.sto = s0.sto ∧
          ∀ k, (t.core k).tlb = (if inScope sc (coreOf s.cur) k then (s0.core k).tlb.filter (fun e => !p e) else (s0.core k).tlb) ∧
            ∀ j, j < 4 → Table.get [] (t.core k).utlb j =
              if inScope sc (coreOf s.cur) k then (Table.get [] (s0.core k).utlb j).filter (fun e => !p e) else Table.get [] (s0.core k).utlb j)
      drops (.cacheTlbiva g sa sb sc) (fun e =>
        decide (va.toNat / 2 ^ e.bits = e.base / 2 ^ e.bits) && (e.glob || decide (e.asid.toNat = asid))) ∧
      drops (.cacheTlbiasid g sa sb sc) (fun e => !e.glob && decide (e.asid.toNat = asid)) ∧
      drops (.cacheTlbiall g sa sb sc) (fun _ => true))

/-- R323 and R325: what taking a trap does, once the hart's committed writes have been performed. A hart whose TVEC is 0 ends; so
does one in supervisor mode with IE = 0 that takes any trap other than an interrupt (cause 1C). Otherwise TCAUSE, TVAL, TPC, TINDEX, TELEM,
TDET and TMPC are written, PMODE and PIE keep mode and IE, IE and INMM are cleared, the mode is supervisor, the queue is
squashed, and the pc is at TVEC; INCV, INBF, TNPC and TQ say whether the stop fell inside a convoy, and which. An interrupt is
held while IE = 0. -/
def Obligations.TrapEntry : Prop :=
  ∀ (s : State) (n : Nat) (x : Trap) (tpc resume : Word) (conv : Option (QEntry × Nat)) (bf : Bool),
    let h := s.hart n
    let h0 := (s.performBoth n).hart n
    h.sc.mode ≠ .fw → h.q.step = none →
    let ends : Prop := h.trap.tvec = 0 ∨ (x.cause ≠ 0x1C#8 ∧ h.sc.mode = .sup ∧ h.trap.tstat.getLsbD 0 = false)
    (h.trap.tstat.getLsbD 0 = false → s.takeIrq n = none) ∧
    (ends → ∃ t, s.takeTrap n x tpc conv resume bf = .next t ∧ (t.hart n).q.status = .free) ∧
    (¬ ends →
      ∃ t, s.takeTrap n x tpc conv resume bf = .next t ∧
        (t.hart n).sc = { h0.sc with mode := .sup, pc := h0.trap.tvec } ∧ (t.hart n).vec = h0.vec ∧ (t.hart n).str = h0.str ∧
        (t.hart n).q.status = .running ∧ (t.hart n).q.queue = [] ∧ (t.hart n).q.run = none ∧
        t.csrRead n 0x100 = x.cause.setWidth 64 ∧ t.csrRead n 0x101 = x.tval ∧ t.csrRead n 0x102 = tpc ∧
        t.csrRead n 0x103 = BitVec.ofNat 64 (x.tindex % 8) ∧ t.csrRead n 0x104 = BitVec.ofNat 64 (x.telem % 4096) ∧
        t.csrRead n 0x10F = x.tdet ∧ t.csrRead n 0x112 = x.tmpc ∧ t.csrRead n 0x105 = h0.trap.tvec ∧
        t.csrRead n 0x10E = h0.trap.tscr ∧
        (let st := t.csrRead n 0x106
         st.getLsbD 0 = false ∧ st.getLsbD 1 = h0.trap.tstat.getLsbD 0 ∧
         st.extractLsb' 2 2 = (match h0.sc.mode with | .user => 0#2 | .sup => 1#2 | .fw => 2#2) ∧
         st.getLsbD 6 = conv.isSome ∧ st.getLsbD 7 = (conv.isSome && bf) ∧ st.getLsbD 8 = false) ∧
        t.csrRead n 0x107 = (if conv.isSome then resume else h0.trap.tnpc) ∧
        ∀ e vl, conv = some (e, vl) →
          t.csrRead n 0x108 = BitVec.ofNat 64 vl ∧ t.csrRead n 0x109 = e.vtype ∧ t.csrRead n 0x10A = e.mfc ∧
          t.csrRead n 0x10B = e.xa ∧ t.csrRead n 0x10C = e.xb ∧
          t.csrRead n 0x10D = BitVec.ofNat 64 (e.strip.toNat * 2 ^ 32 + e.imm.toNat))

/-- R255 and R299: SVC and BRK take their traps with TVAL n and TPC at PC + 8; BRK stops the hart while a debugger is
attached. -/
def ServiceTrapsRules : Prop :=
  ∀ g (x : BitVec 16) (s : State), s.Commits g [] → s.Drained →
    let traps (i : Instr) (cause : BitVec 8) : Prop :=
      exec i s = s.takeTrap s.cur ⟨cause, x.setWidth 64, 0, 0, 0, 0⟩ (s.me.sc.pc + 8) none (s.me.sc.pc + 8) false ∧
      (s.me.sc.mode ≠ .fw → s.me.trap.tvec ≠ 0 → s.me.q.step = none → s.performBoth s.cur = s →
        (s.me.sc.mode = .sup → s.me.trap.tstat.getLsbD 0 = true) →
        ∃ t, exec i s = .next t ∧ t.me.sc.pc = s.me.trap.tvec ∧ t.me.sc.mode = .sup ∧ t.me.trap.tcause = cause ∧
          t.me.trap.tval = x.setWidth 64 ∧ t.me.trap.tpc = s.me.sc.pc + 8 ∧ t.me.trap.tindex = 0)
    traps (.svc g x) 0x18#8 ∧
    (s.mgmt.attached = false → traps (.brk g x) 0x19#8) ∧
    (s.mgmt.attached = true →
      ∃ t, exec (.brk g x) s = .next t ∧ t.me.q.status = .stopped ∧ t.me.sc.pc = s.me.sc.pc + 8)

/-- R324: ERET restores the mode from PMODE, IE from PIE, and the pc from TPC, or from TNPC with the stopped convoy handed off
again from TQ; in user mode, or in supervisor mode with PMODE 10 or 11, it raises a privilege fault and changes nothing. -/
def ExceptionReturnRules : Prop :=
  ∀ g (s : State), s.Commits g [] → s.Drained →
    let st := s.me.trap.tstat
    let denied : Prop := s.me.sc.mode = .user ∨ (s.me.sc.mode = .sup ∧ st.getLsbD 3 = true)
    (denied → exec (.eret g) s =
      s.takeTrap s.cur ⟨0x02#8, wordOf (.eret g), 0, 0, 0, 0⟩ s.me.sc.pc none s.me.sc.pc false) ∧
    (¬ denied →
      ∃ t, exec (.eret g) s = .next t ∧
        t.me.sc.mode = (match st.extractLsb' 2 2 with | 0#2 => .user | 1#2 => .sup | _ => .fw) ∧
        (∀ k, k < 64 → t.me.trap.tstat.getLsbD k = if k = 0 then st.getLsbD 1 else st.getLsbD k) ∧
        (∀ r, t.me.rdS r = s.me.rdS r) ∧ t.me.vec = s.me.vec ∧ t.me.str = s.me.str ∧
        (st.getLsbD 6 = false → t.me.sc.pc = s.me.trap.tpc ∧ t.me.q.queue = []) ∧
        (st.getLsbD 6 = true → t.me.sc.pc = s.me.trap.tnpc ∧
          ∃ e, t.me.q.queue = [e] ∧ e.addr = s.me.trap.tpc ∧ e.resumed = true ∧
            let q (k : Nat) : Word := Table.get 0 s.me.trap.tq k
            e.vl = (q 0).toNat % 8192 ∧ e.vtype = q 1 ∧ e.mfc = q 2 ∧ e.xa = q 3 ∧ e.xb = q 4 ∧
            e.strip = (q 5).extractLsb' 32 32 ∧ e.imm = (q 5).extractLsb' 0 16))

/-- R255, R299 and R324: SVC, BRK and ERET. -/
def Obligations.TrapsAndReturn : Prop := ServiceTrapsRules ∧ ExceptionReturnRules

/-! ### Streams (10, 12) -/

/-- R191, R48: STRMCFG captures MFC and VTYPE, sets SBASE, SSTRIDE and SAVL, empties the slot, and leaves it configured, idle for
a count of 0, or in error with ERR 4 when a combination is refused; with no legal VTYPE it raises an illegal-instruction
fault. -/
def StreamConfigureRules : Prop :=
  ∀ g (m : MSlot) sa sb kbase stride (zc : Bool) gap (s : State), s.Commits g [sa, sb, kbase, stride, gap] → s.Drained →
    let i : Instr := .strmcfg g m sa sb kbase stride zc gap
    (vtLegal s.me.vec.vtype = false →
      exec i s = s.takeTrap s.cur ⟨0x01#8, wordOf i, 0, 0, 0, 0⟩ s.me.sc.pc none s.me.sc.pc false) ∧
    (vtLegal s.me.vec.vtype = true →
      let h := (s.performBoth s.cur).me
      let code := (h.vec.mfc.extractLsb' 5 5).toNat
      let sew := 8 * 2 ^ (h.vec.vtype.extractLsb' 0 2).toNat
      let packed := code = 17 ∨ code = 18 ∨ code = 19
      let bpn := code = 21 ∨ code = 22
      let strided := stride ≠ 0#5
      let refused : Prop := 23 ≤ code ∨ 2 ≤ (h.vec.mfc.extractLsb' 18 2).toNat ∨ (strided ∧ (zc = true ∨ packed ∨ bpn)) ∨
        (kbase ≠ 0#5 ∧ ¬ (15 ≤ code ∧ code ≤ 20)) ∨
        (zc = true ∧ ¬ (code = 1 ∨ code = 2 ∨ (13 ≤ code ∧ code ≤ 16) ∨ code = 19 ∨ code = 20))
      ∃ t x, exec i s = .next t ∧ t.me.stream m.toNat = x ∧
        (refused → x.state = 4 ∧ x.err = 4) ∧ (¬ refused → x.err = 0 ∧ x.state = if h.rdS sa = 0 then 0 else 1) ∧
        x.sbase = h.rdS sb ∧ x.savl = (h.rdS sa).toNat ∧ x.buf = [] ∧ x.bound = false ∧ x.zc = zc ∧
        x.gap = (if gap = 0#5 then none else some (h.rdS gap)) ∧
        (strided → x.sstride = h.rdS stride) ∧ (¬ strided → zc = true ∨ packed ∨ bpn → x.sstride = 0) ∧
        (¬ strided → zc = false → code = 0 → x.sstride = BitVec.ofNat 64 (sew / 8)) ∧
        x.code = code ∧ x.sew = sew ∧ x.planes = (h.vec.mfc.extractLsb' 15 3).toNat + 1 ∧
        (∀ j, j ≠ m.toNat → t.me.stream j = h.stream j) ∧ (∀ r, t.me.rdS r = h.rdS r) ∧ t.me.vec = h.vec ∧
        t.me.sc.pc = h.sc.pc + 8)

/-- R193 and R196: STRMEND by the slot's state; STRMWAIT completes once AVAIL reaches min(sa, SAVL, 65,536 / SEW) or the slot is
idle or in error; STRMAVAIL writes AVAIL, or 2^64 − 1 for a slot in error, once the vector queue has drained. That STRMEND of a
slot in error empties its buffer is the model's choice (log 64). -/
def StreamScalarsRules : Prop :=
  ∀ g (m : MSlot) (r : SReg) (s : State),
    let x := s.me.stream m.toNat
    (s.Commits g [] → ∃ t, exec (.strmend g m) s = .next t ∧ s.Same t s.cur ∧ t.me.sc.pc = s.me.sc.pc + 8 ∧
      (∀ q, t.me.rdS q = s.me.rdS q) ∧ t.me.vec = s.me.vec ∧ (∀ j, j ≠ m.toNat → t.me.stream j = s.me.stream j) ∧
      let y := t.me.stream m.toNat
      (x.state = 1 ∨ x.state = 2 → y.savl = x.buf.length ∧ y.buf = x.buf ∧ y.state = if x.buf = [] then 0 else 3) ∧
      (x.state = 4 → y.state = 0 ∧ y.err = 0 ∧ (s.Drained → y.buf = [])) ∧ (x.state = 0 ∨ x.state = 3 → y = x)) ∧
    (s.Commits g [r] →
      let enough : Prop := min (s.me.rdS r).toNat (min x.savl (65536 / x.sew)) ≤ x.buf.length
      (x.state = 0 ∨ x.state = 4 ∨ enough → Acts (.strmwait g m r) s s.me.nextPc) ∧
      (x.state ≠ 0 → x.state ≠ 4 → ¬ enough → exec (.strmwait g m r) s = .next s)) ∧
    (s.Commits g [r] →
      (s.Drained → Acts (.strmavail g r m) s
        ((s.me.wrS r (if x.state = 4 then BitVec.ofNat 64 (2 ^ 64 - 1) else BitVec.ofNat 64 x.buf.length)).nextPc)) ∧
      (¬ s.Drained → exec (.strmavail g r m) s = .next s))

/-- The scalar words of streams. -/
def Obligations.StreamInstructions : Prop := StreamConfigureRules ∧ StreamScalarsRules

/-- An access of `sz` bytes that the hart's own TCM or scratchpad windows take: in range and aligned (R84, R89, R95). -/
def Local (s : State) (n : Nat) (va : Word) (sz : Nat) : Prop :=
  va.toNat < 2 ^ 55 ∧ va.toNat % sz = 0 ∧ localBase ≤ va.toNat ∧ ((s.hart n).localLoc n va.toNat).isSome = true

/-- No error waits to be found, no line differs from the storage behind it, and no word is poisoned. -/
def Quiet (s : State) : Prop := s.Clean ∧ s.sto.poison = []

/-- Bytes of the hart's own windows, as a number. -/
def localRead (s : State) (n : Nat) (va : Word) (sz : Nat) : Nat :=
  match (s.hart n).localLoc n va.toNat with
  | some loc => Memory.read s.sto.mem loc sz
  | none => 0

/-- The next element of a stream (R191, R192, R365): its stored value is read at the slot's own address, by elements of SSTRIDE bytes,
by bits, or by planes, brought to SEW under the captured code, and joins the buffer; its block's scale entry is read with its first
element; SBASE moves to the element after it. An access that fails puts the slot in error 1, or 2 for an error of memory, with
SBASE at the element. A read of the stream sees memory and no held write (R111). Of a ZC stream the element is that of the word
that the slot is in. -/
def StreamElementRules : Prop :=
  ∀ (x : Stream) (n : Nat) (s : State),
    let a := x.fetched
    let w64 := BitVec.ofNat 64
    let next (x : Stream) (sb : List Nat) (v : FR) (sbase : Word) : Stream :=
      { x with buf := x.buf ++ [v.1 + 2 ^ 64 * v.2.toNat], sbuf := sb, fetched := a + 1, sbase := sbase }
    let failed (sbase : Word) (e : AErr) : StreamErr := ⟨if e.cause = 0x20#8 ∨ e.cause = 0x21#8 then 2 else 1, sbase, some e⟩
    let plain (t : State) (sb : List Nat) : Prop := ∀ sz, storedOf x.sew x.code = .plain sz → x.zc = false →
      let at_ (k : Nat) : Word := x.base + w64 k * x.sstride
      (∀ u bs, t.streamRead n sz (at_ a) = .ok (u, bs) →
        x.fetch n s = .ok (u, next x sb (loadConv x.sew x.fmt x.code (ofBytes bs)) (at_ (a + 1)))) ∧
      ∀ e, t.streamRead n sz (at_ a) = .error e → x.fetch n s = .error (failed (at_ a) e)
    (x.scaled = false ∨ a % 2 ^ x.shift ≠ 0 →
      plain s x.sbuf ∧
      (∀ w, storedOf x.sew x.code = .packed w → x.zc = false →
        ∀ u ws bs, s.streamPacked n x.words (packedAt x.base w a).1 = .ok (u, ws, bs) →
          x.fetch n s = .ok (u, next { x with words := ws } x.sbuf (loadConv x.sew x.fmt x.code (imgGet (ofBytes bs) (w * a % 8) w))
            (x.base + w64 (w * (a + 1) / 8)))) ∧
      (∀ mid, storedOf x.sew x.code = .bpn mid → x.zc = false → bpnErr x.base a x.planes .read = none →
        ∀ u ws bs, s.streamPacked n x.words ((upTo 0 x.planes).map fun j => bpnAddr x.base a j) = .ok (u, ws, bs) →
          x.fetch n s = .ok (u, next { x with words := ws } x.sbuf
            (bpnLoad x.sew x.planes (bs.foldl (fun q b => 2 * q + (b.getLsbD (a % 8)).toNat) 0) mid, 0) (bpnAddr x.base (a + 1) 0))) ∧
      (x.zc = true → ∀ t y l len k, x.zcWord n s = .ok (t, y, l, len) → y.fetched = a → k = a - y.out * (if y.code = 19 then 2 else 1) →
        k < l.length → ∃ z, x.fetch n s = .ok (t, z) ∧ z.fetched = a + 1 ∧ z.buf = y.buf ++ [y.conv ((l[k]?).getD 0)] ∧
          z.sbase = x.base + 128 + w64 (z.bit / 8) ∧ (k + 1 < l.length → z.word = some (l, len)) ∧
          (l.length ≤ k + 1 → z.word = none ∧ z.bit = y.bit + len))) ∧
    (x.scaled = true → a % 2 ^ x.shift = 0 →
      let entry := s.streamRead n 1 (x.kbase + w64 (a / 2 ^ x.shift))
      (∀ t bs, entry = .ok (t, bs) → plain t (x.sbuf ++ [((bs[0]?).getD 0).toNat])) ∧
      ∀ sz e, entry = .error e → storedOf x.sew x.code = .plain sz → x.zc = false →
        x.fetch n s = .error (failed (x.base + w64 a * x.sstride) e)) ∧
    ∀ sz va,
      (va.toNat < 2 ^ 55 → va.toNat % sz ≠ 0 → s.streamRead n sz va = .error (AErr.plain 0x06#8 va .read)) ∧
      ∀ u bs, s.streamRead n sz va = .ok (u, bs) → s.Clean →
        ∃ v t, s.locate (s.who n) va .read = .ok (v, t) ∧ bs = Memory.readBytes v.sto.mem t.loc sz ∧ v.sto.mem = s.sto.mem

/-- Where a stream fetch completes (R192): a slot that is configured or bound, with elements left and room, whose next element of a
plain format, and whose scale entry where a block begins, lie in the hart's own windows, while no error waits. The slot takes the
element, and nothing changes but the slot and the latch. -/
def StreamCompletes : Prop :=
  ∀ n (m : MSlot) (s : State) (sz : Nat),
    let x := (s.hart n).stream m.toNat
    let a := x.fetched
    let at_ (k : Nat) : Word := x.base + BitVec.ofNat 64 k * x.sstride
    let entry := x.kbase + BitVec.ofNat 64 (a / 2 ^ x.shift)
    let opens : Prop := x.scaled = true ∧ a % 2 ^ x.shift = 0
    s.paused n = false → Quiet s → (x.state = 1 ∨ x.state = 2) → a < x.consumed + x.savl → x.buf.length < 65536 / x.sew →
    x.zc = false → storedOf x.sew x.code = .plain sz → Local s n (at_ a) sz → (opens → Local s n entry 1) →
    let v := loadConv x.sew x.fmt x.code (localRead s n (at_ a) sz)
    ∃ t sb, exec (.streamFetch n m) s = .next t ∧ t.sto = s.sto ∧ (∀ k, k ≠ n → t.hart k = s.hart k) ∧
      (opens → sb = x.sbuf ++ [localRead s n entry 1]) ∧ (¬ opens → sb = x.sbuf) ∧
      t.hart n = { s.hart n with
        sc := { (s.hart n).sc with latch := true }
        str := Table.set Stream.idle (s.hart n).str m.toNat { x with
          buf := x.buf ++ [v.1 + 2 ^ 64 * v.2.toNat], sbuf := sb, fetched := a + 1, sbase := at_ (a + 1), asked := x.asked.take 16 } }

/-- R192, R194, R365: a stream fetch moves a slot that is configured or bound, has elements left and has room: the slot takes its next
element, or goes to error with what it holds kept, under the number of the failure and with SBASE there; any other slot is left
alone. The fetch sets the hart's event latch; nothing else of any hart changes, while no error waits to be found. A fetch of a plain
element, and of its block's scale entry, from the hart's own TCM or scratchpad completes with that element. -/
def Obligations.StreamFetch : Prop :=
  StreamElementRules ∧ StreamCompletes ∧
  ∀ n (m : MSlot) (s : State),
    let x := (s.hart n).stream m.toNat
    let fetches : Prop := (x.state = 1 ∨ x.state = 2) ∧ x.fetched < x.consumed + x.savl ∧ x.buf.length < 65536 / x.sew
    -- the lines that the slot asked for count for its fetch (R100, log 37)
    let s0 := s.updHart n fun h => { h with q := { h.q with asked := x.asked } }
    let slot (h : Hart) (y : Stream) : Hart :=
      { h with str := Table.set Stream.idle h.str m.toNat y, sc := { h.sc with latch := true } }
    (s.paused n = true ∨ ¬ fetches → exec (.streamFetch n m) s = .next s) ∧
    (s.paused n = false → fetches →
      (∀ u y, x.fetch n s0 = .ok (u, y) → ∃ t l, exec (.streamFetch n m) s = .next t ∧ t.sto = u.sto ∧
        (t.hart n).stream m.toNat = { y with asked := l } ∧ y.state = x.state ∧ y.err = x.err ∧ y.savl = x.savl ∧
        (∃ v, y.buf = x.buf ++ [v]) ∧
        (s.Clean → t.hart n = slot (s.hart n) { y with asked := l } ∧ ∀ k, k ≠ n → t.hart k = s.hart k)) ∧
      (∀ e, x.fetch n s0 = .error e →
        let u := match e.a with | some a => s.seen a.found | none => s
        1 ≤ e.err ∧ e.err ≤ 4 ∧
        exec (.streamFetch n m) s = .next (u.updHart n fun h => slot h { x with state := 4, err := e.err, sbase := e.sbase })))

/-! ### The matrix engine (12_the_matrix_engine.md) -/

/-- A matrix command whose operands break nothing takes its place in the queue with what it captured (R228); a queue that holds
64 commands, the one in progress among them, keeps it at its commit. A command on memory comes after the scalar agent's earlier
writes (R110). -/
def Posts (s : State) (i : Instr) (k : MKind) (t : TReg) (v : VReg) (sa sb sk sn sc : SReg) : Prop :=
  let s0 := if k = .mbld ∨ k = .maccld ∨ k = .maccst then s.performAll s.cur .scalar else s
  let c := s0.core (coreOf s.cur)
  let held := (s.core (coreOf s.cur)).mq.length + if (s.core (coreOf s.cur)).mrun = none then 0 else 1
  let m : MCmd := ⟨s.cur, s.me.sc.pc, wordOf i, k, t, v, s.me.sc.msh, s.me.rdS sa, s.me.rdS sb, s.me.rdS sk, s.me.rdS sn, s.me.rdS sc,
    s.me.vec.mfc.extractLsb' 18 2, (s.me.vec.vtype.extractLsb' 13 3).toNat, s.me.q.ticket, none, none⟩
  (held < 64 → ∃ u, exec i s = .next u ∧ u.me = { s0.me with q := { s0.me.q with ticket := s0.me.q.ticket + 1 } }.nextPc ∧
    u.core (coreOf s.cur) = { c with mq := c.mq ++ [m] } ∧ ∀ j, j ≠ coreOf s.cur → u.core j = s0.core j) ∧
  (64 ≤ held → exec i s = .next s0)

/-- R226, R228, R229, R234: MSHAPE gives the old MSH and sets the new one; MWAIT completes once no command of the hart is left,
with what they stored performed (R110), and takes the fault that one left; MBLD, MMA, MMAS, MZERO, MACCLD and MACCST enter the queue when they break none of the checks
at posting, and otherwise raise their fault there. -/
def MatrixPostingRules : Prop :=
  (∀ g sd sa (s : State), s.Commits g [sd, sa] →
    Acts (.mshape g sd sa false) s
      (({ (s.me.wrS sd s.me.sc.msh) with sc := { (s.me.wrS sd s.me.sc.msh).sc with msh := s.me.rdS sa } }).nextPc) ∧
    Acts (.mshape g sd sa true) s ((s.me.wrS sd s.me.sc.msh).nextPc)) ∧
  (∀ g (s : State), s.Commits g [] →
    (s.matrixBusy s.cur = true → exec (.mwait g) s = .next s) ∧
    (s.matrixBusy s.cur = false → s.me.q.mfault = none →
      exec (.mwait g) s = .next ((s.performAll s.cur .matrix).updHart s.cur Hart.nextPc)) ∧
    (∀ m, s.matrixBusy s.cur = false → s.me.q.mfault = some m → s.Drained →
      exec (.mwait g) s = (s.updHart s.cur fun h => { h with q := { h.q with mfault := none } }).takeTrap
        s.cur m.trap s.me.sc.pc none s.me.sc.pc false)) ∧
  (∀ g (t : TReg) (v : VReg) sa (s : State), s.Commits g [sa] → s.me.q.mfault = none →
    let kb := (s.me.rdS sa).toNat
    let msh := s.me.sc.msh
    let rows := (msh.extractLsb' 0 5).toNat + 1
    let k := (msh.extractLsb' 16 16).toNat
    let kp := (msh.extractLsb' 32 16).toNat
    let al := 2 ^ (msh.extractLsb' 51 2).toNat
    let af := (msh.extractLsb' 57 4).toNat
    let bf := (msh.extractLsb' 53 4).toNat
    let smode := msh.extractLsb' 62 2
    let slc := (s.me.vec.vtype.extractLsb' 13 3).toNat
    let span := (rows - 1) * kp + k
    let width (f : Nat) : Nat := if f = 2 then 4 else if f = 5 ∨ f = 6 then 16 else if f = 7 then 64 else 8
    let held (n : Nat) : Prop := s.me.shape.talloc.getLsbD n = true
    let window := 1024 * s.me.shape.bst.length
    let data := 15 * window / 16
    let scales := window - data
    let shape : Prop := 1 ≤ k ∧ k ≤ kp ∧ msh.extractLsb' 48 3 = 0 ∧ msh.extractLsb' 5 11 = 0 ∧
      v.toNat % al = 0 ∧ v.toNat + al ≤ s.me.nregs ∧ span * width af ≤ al * s.me.vlen ∧ kb % 32 = 0
    let mmaOk : Prop := held t.toNat ∧ shape ∧ af ≤ 6 ∧ bf ≤ 6 ∧ (af = 3 ↔ bf = 3) ∧ (smode ≠ 0#2 → af ≠ 3) ∧
      (smode = 1#2 ∨ smode = 3#2 → span ≤ 4096) ∧
      (if width bf = 4 then (kb + k + 1) / 2 else if width bf = 16 then 2 * (kb + k) else kb + k) ≤ data ∧
      (smode = 2#2 ∨ smode = 3#2 → (kb + k - 1) / 32 < scales)
    let mmasOk : Prop := t.toNat % 2 = 0 ∧ held t.toNat ∧ held (t.toNat + 1) ∧ shape ∧ af = 7 ∧ bf = 7 ∧ smode = 0#2 ∧
      3 ≤ slc ∧ slc * (kb + k) ≤ data ∧ 2 * (kb / 32) + 1 < scales
    let formatOk : Prop := smode ≠ 0#2 → (s.me.vec.mfc.extractLsb' 18 2).toNat < 2
    let trap (i : Instr) (x : Trap) : Prop := exec i s = s.takeTrap s.cur x s.me.sc.pc none s.me.sc.pc false
    (mmaOk → formatOk → Posts s (.mma g t v sa) .mma t v sa 0 0 0 0) ∧
    (mmasOk → Posts s (.mmas g t v sa) .mmas t v sa 0 0 0 0) ∧
    (s.Drained →
      (¬ mmaOk → trap (.mma g t v sa) ⟨0x01#8, wordOf (.mma g t v sa), 0, 0, 0, 0⟩) ∧
      (mmaOk → ¬ formatOk → trap (.mma g t v sa) ⟨0x04#8, 0, 0, 0, 0, 0⟩) ∧
      (¬ mmasOk → trap (.mmas g t v sa) ⟨0x01#8, wordOf (.mmas g t v sa), 0, 0, 0, 0⟩))) ∧
  (∀ g (t : TReg) sa (s : State), s.me.q.mfault = none →
    let held : Prop := s.me.shape.talloc.getLsbD t.toNat = true
    let base := s.me.rdS sa
    let trap (i : Instr) (x : Trap) : Prop := exec i s = s.takeTrap s.cur x s.me.sc.pc none s.me.sc.pc false
    (s.Commits g [] → (held → Posts s (.mzero g t) .mzero t 0 0 0 0 0 0) ∧
      (¬ held → s.Drained → trap (.mzero g t) ⟨0x01#8, wordOf (.mzero g t), 0, 0, 0, 0⟩)) ∧
    (s.Commits g [sa] → held → base.toNat % 128 = 0 →
      Posts s (.maccld g t sa) .maccld t 0 sa 0 0 0 0 ∧ Posts s (.maccst g t sa) .maccst t 0 sa 0 0 0 0) ∧
    (s.Commits g [sa] → s.Drained →
      (¬ held → trap (.maccld g t sa) ⟨0x01#8, wordOf (.maccld g t sa), 0, 0, 0, 0⟩ ∧
        trap (.maccst g t sa) ⟨0x01#8, wordOf (.maccst g t sa), 0, 0, 0, 0⟩) ∧
      (held → base.toNat % 128 ≠ 0 → trap (.maccld g t sa) ⟨0x06#8, base, 0, 0, 0, 0⟩ ∧
        trap (.maccst g t sa) ⟨0x06#8, base, 0, 0, 0x100#64, 0⟩))) ∧
  ∀ g sa sb sk sn sc (s : State), s.Commits g [sa, sb, sk, sn, sc] → s.me.q.mfault = none →
    let i : Instr := .mbld g sa sb sk sn sc
    let bf := (s.me.sc.msh.extractLsb' 53 4).toNat
    let slc := (s.me.vec.vtype.extractLsb' 13 3).toNat
    let n := (s.me.rdS sn).toNat
    let kb := (s.me.rdS sk).toNat
    let top := kb + (n + 31) / 32 * 32
    let window := 1024 * s.me.shape.bst.length
    let data := 15 * window / 16
    let scales := window - data
    let scaled := sc ≠ 0#5
    let ok : Prop := bf < 8 ∧ (bf = 7 → 3 ≤ slc ∧ ¬ scaled) ∧ kb % 32 = 0 ∧ (n ≠ 0 →
      (if bf = 7 then slc * (kb + n) else if bf = 2 then (top + 1) / 2 else if bf = 5 ∨ bf = 6 then 2 * top else top) ≤ data ∧
      (scaled → kb / 32 + (n + 31) / 32 ≤ scales) ∧ (bf = 7 → 2 * (kb / 32) + 1 < scales))
    let aligned : Prop := (n ≠ 0 → (s.me.rdS sa).toNat % 128 = 0) ∧ (1 < n → (s.me.rdS sb).toNat % 128 = 0)
    (ok → aligned → Posts s i .mbld 0 0 sa sb sk sn sc) ∧
    (s.Drained →
      (¬ ok → exec i s = s.takeTrap s.cur ⟨0x01#8, wordOf i, 0, 0, 0, 0⟩ s.me.sc.pc none s.me.sc.pc false) ∧
      (ok → ¬ aligned → ∃ va, va ∈ [s.me.rdS sa, s.me.rdS sa + s.me.rdS sb] ∧ va.toNat % 128 ≠ 0 ∧
        exec i s = s.takeTrap s.cur ⟨0x06#8, va, 0, 0, 0, 0⟩ s.me.sc.pc none s.me.sc.pc false))

/-- The command in progress of a core: nothing holds it, and no convoy of its hart is left that could. -/
def Works (s : State) (core : Nat) (r : MRun) : Prop :=
  let q := (s.hart r.cmd.hart).q
  (s.core core).mrun = some r ∧ s.arrayHolds r.cmd.hart = false ∧ coreOf r.cmd.hart = core ∧ q.run = none ∧ q.queue = [] ∧ q.stopped = []

/-- A command ends and leaves its core `c`, with no command in progress: memory is as it was, MPROG reads 0, and of its hart only
FFLAGS, which take `f`, and the latch may change. -/
def Ends (s : State) (core n : Nat) (c : Core) (f : BitVec 6) (t : State) : Prop :=
  t.core core = { c with mrun := none } ∧ t.sto = s.sto ∧
  ∃ l, t.hart n = let h := (s.hart n).flags f; { h with vec := { h.vec with mprog := 0 }, sc := { h.sc with latch := l } }

/-- The tile rows that `rows` names hold what `f` says of their columns, and every other row of every tile is as it was. -/
def TileWritten (c d : Core) (rows : List Nat) (f : Nat → Nat → Nat) : Prop :=
  d = { c with tile := d.tile } ∧
  (∀ i ∈ rows, ∀ col, col < 256 → imgGet (Table.get 0 d.tile i) (32 * col) 32 = f i col) ∧
  ∀ i, i ∉ rows → Table.get 0 d.tile i = Table.get 0 c.tile i

/-- One block of at most 32 positions of an MMA added to the accumulator of a column (R80, R231): for float formats the exact sum of
the products, scales applied, is added to the accumulator and rounded to nearest even; for INT8 the sum saturates to 32 bits. -/
def blockAdded (k : MCmd) (h : Hart) (c : Core) (row b col acc : Nat) : FR :=
  let n := min 32 ((k.msh.extractLsb' 16 16).toNat - 32 * b)
  let a (j : Nat) : Nat := row * (k.msh.extractLsb' 32 16).toNat + 32 * b + j
  let pos (j : Nat) : Nat := k.sa.toNat + 32 * b + j
  if k.msh.extractLsb' 57 4 = 3#4 then
    narrowInt 32 false true (sgn 32 acc + ((List.range n).map fun j =>
      sgn 8 (h.rdE k.vreg.toNat (a j) 8) * sgn 8 (c.bElem h.shape 8 (pos j) col)).foldl (· + ·) 0)
  else
    let t := sumFV ((List.range n).map fun j => (k.aValue h (a j)).mul (k.bValue h.shape c (pos j) col))
    let r := fmtF32.op Rnd.rne ((fmtF32.decode acc).add Rnd.rne t.1)
    (r.1, r.2 ||| t.2)

/-- A row-chunk of 256 positions: its blocks in ascending order, from the tile's element, or from zero in the first chunk under
OVW (R231). -/
def chunkAdded (k : MCmd) (h : Hart) (c : Core) (row chunk col : Nat) : FR :=
  let first := if k.msh.getLsbD 61 = true ∧ chunk = 0 then 0 else c.tileElem k.tile.toNat row col
  (upTo (8 * chunk) (min (8 * chunk + 8) (((k.msh.extractLsb' 16 16).toNat + 31) / 32))).foldl (fun x b =>
    let y := blockAdded k h c row b col x.1
    (y.1, x.2 ||| y.2)) (first, 0)

/-- R80, R231, R239: MMA works through its rows in chunks of 256 positions; each chunk writes the elements of its tile row and raises
the flags of its blocks, and the last chunk of the last row ends the command. A scaled command tests the record of its source register
before the first chunk, faults where it is stale (R235, R339), and reads its scales through the record that it found there to its end
(R210). -/
def MmaRules : Prop :=
  ∀ core (s : State) (r : MRun), Works s core r → r.cmd.kind = .mma → 1 ≤ (r.cmd.msh.extractLsb' 16 16).toNat →
    let h := s.hart r.cmd.hart
    let b := h.binding r.cmd.vreg.toNat
    let tests := r.row = 0 ∧ r.chunk = 0 ∧ r.cmd.msh.getLsbD 62 = true ∧ r.cmd.bind = none
    let k := if tests then { r.cmd with bind := some b } else r.cmd
    let r := { r with cmd := k }
    let c := s.core core
    let chunks := ((k.msh.extractLsb' 16 16).toNat + 255) / 256
    let rows := (k.msh.extractLsb' 0 5).toNat + 1
    let stale : Prop := tests ∧ (b.valid = false ∨ b.stale = true ∨ b.gen ≠ h.kgen b.kreg)
    (¬ stale → ∃ d f, TileWritten c d [32 * k.tile.toNat + r.row] (fun _ col => (chunkAdded k h c r.row r.chunk col).1 % 2 ^ 32) ∧
      f = (List.range 256).foldl (fun f col => f ||| (chunkAdded k h c r.row r.chunk col).2) 0 ∧
      let goesOn (r : MRun) : Prop := exec (.matrixCommandComplete core) s =
        exec (.matrixCommandComplete core) ((s.setCore core { d with mrun := some r }).updHart k.hart fun h => h.flags f)
      if r.chunk + 1 < chunks then goesOn { r with chunk := r.chunk + 1 }
      else if r.row + 1 < rows then goesOn { r with row := r.row + 1, chunk := 0 }
      else ∃ t, exec (.matrixCommandComplete core) s = .next t ∧ Ends s core k.hart d f t) ∧
    (stale → h.q.status ≠ .free → ∃ t m, exec (.matrixAsyncFault core) s = .next t ∧ (t.hart k.hart).q.mfault = some m ∧
      m.trap.cause = 0x8A#8 ∧ m.trap.tmpc = k.pc ∧ (t.core core).mrun = none ∧ ∀ x ∈ (t.core core).mq, x.hart ≠ k.hart)

/-- R81, R82, R232: MMAS works through its rows, through the slice pairs of a row in the order of R82, and through a pair in chunks of
256 positions; each chunk adds the products of its slices to the accumulator P(i + j) of a column. After the last, P gives the
row's elements in the pair of tiles, rounded once; NaN, with NV, where the row or the column has a special value. -/
def MmasRules : Prop :=
  ∀ core (s : State) (r : MRun), Works s core r → r.cmd.kind = .mmas → 1 ≤ (r.cmd.msh.extractLsb' 16 16).toNat →
    let k := r.cmd
    let h := s.hart k.hart
    let c := s.core core
    let kLen := (k.msh.extractLsb' 16 16).toNat
    let cut := splitCut k.slc ((List.range kLen).map fun j =>
      h.rdE k.vreg.toNat (r.row * (k.msh.extractLsb' 32 16).toNat + j) 64)
    let pair := ((slicePairs k.slc)[r.pair]?).getD (0, 0)
    let product (p col : Nat) : Int :=
      (((cut.1[p]?).getD [])[pair.1]?).getD 0 * sgn 8 (c.bByte h.shape (k.slc * (k.sa.toNat + p) + pair.2) col)
    let eb (col : Nat) : Int := sgn 16 (c.scaleByte h.shape (2 * (k.sa.toNat / 32)) col + 256 * c.scaleByte h.shape (2 * (k.sa.toNat / 32) + 1) col)
    let element (acc : Table Int) (col : Nat) : FR :=
      if cut.2.2 = true ∨ eb col = -32768 then (fmtF64.nan, fNV)
      else
        let sum := ((List.range k.slc).map fun d => Table.get 0 acc (256 * d + col) * (2 : Int) ^ (8 * (2 * k.slc - 2 - d))).foldl (· + ·) 0
        let v := fvOfInt sum (cut.2.1 + eb col + 2 - 2 * (8 * k.slc - 2)) false
        if k.msh.getLsbD 61 = true then fmtF64.round Rnd.rne false v
        else fmtF64.op Rnd.rne ((fmtF64.decode (c.pairElem k.tile.toNat r.row col)).add Rnd.rne v)
    ∃ acc : Table Int,
      (∀ col, col < 256 → Table.get 0 acc (256 * (pair.1 + pair.2) + col) = Table.get 0 r.acc (256 * (pair.1 + pair.2) + col) +
        ((upTo (256 * r.chunk) (min (256 * r.chunk + 256) kLen)).map fun p => product p col).foldl (· + ·) 0) ∧
      (∀ j, (∀ col, col < 256 → j ≠ 256 * (pair.1 + pair.2) + col) → Table.get 0 acc j = Table.get 0 r.acc j) ∧
      let goesOn (u : State) : Prop := exec (.matrixCommandComplete core) s = exec (.matrixCommandComplete core) u
      if r.chunk + 1 < (kLen + 255) / 256 then
        goesOn (s.setCore core { c with mrun := some { r with chunk := r.chunk + 1, acc := acc } })
      else if r.pair + 1 < (slicePairs k.slc).length then
        goesOn (s.setCore core { c with mrun := some { r with pair := r.pair + 1, chunk := 0, acc := acc } })
      else ∃ d f,
        TileWritten c d [32 * k.tile.toNat + r.row, 32 * (k.tile.toNat + 1) + r.row] (fun i col =>
          let x := (element acc (128 * (if i = 32 * k.tile.toNat + r.row then 0 else 1) + col / 2)).1
          x / 2 ^ (32 * (col % 2)) % 2 ^ 32) ∧
        f = (List.range 256).foldl (fun f col => f ||| (element acc col).2) 0 ∧
        if r.row + 1 < (k.msh.extractLsb' 0 5).toNat + 1 then 
          goesOn ((s.setCore core { d with mrun := some { r with row := r.row + 1, pair := 0, chunk := 0, acc := [] } }).updHart k.hart
            fun h => h.flags f)
        else ∃ t, exec (.matrixCommandComplete core) s = .next t ∧ Ends s core k.hart d f t

/-- R225, R230: MBLD of a float or integer format leaves element (r, col) of its rows in the data rows from K position kb on, zeros
from the last row to the end of its block of 32, and, where it is scaled, its scale rows; under BFMT 7 it leaves the slices of each
column's elements and, in the two scale rows, the column's exponent, or −32768 for a column with a special value. Every other row of
the B-store, every tile and memory are as before. -/
def MbldRules : Prop :=
  ∀ core (s : State) (r : MRun), Works s core r → r.cmd.kind = .mbld → Quiet s → (s.hart r.cmd.hart).q.mheld = [] →
    (s.hart r.cmd.hart).shape.bst.Nodup →
    let k := r.cmd
    let sh := (s.hart k.hart).shape
    let c := s.core core
    let n := k.sn.toNat
    let kb := k.sk.toNat
    let bf := (k.msh.extractLsb' 53 4).toNat
    let w := if bf = 2 then 4 else if bf = 5 ∨ bf = 6 then 16 else if bf = 7 then 64 else 8
    let blocks := (n + 31) / 32
    let scaled : Prop := k.word.extractLsb' 4 5 ≠ 0
    let row (i : Nat) : Word := k.sa + BitVec.ofNat 64 i * k.sb
    let value (i col : Nat) : Nat := localRead s k.hart (row i + BitVec.ofNat 64 (w * col / 8)) ((w + 7) / 8) / 2 ^ (w * col % 8) % 2 ^ w
    let window := 1024 * sh.bst.length
    let data := 15 * window / 16
    (∀ i, i < n → ∀ j, j < w / 4 → Local s k.hart (row i + BitVec.ofNat 64 (128 * j)) 128) →
    (bf ≠ 7 →
      (n ≠ 0 → (if w = 4 then (kb + 32 * blocks + 1) / 2 else if w = 16 then 2 * (kb + 32 * blocks) else kb + 32 * blocks) ≤ data) →
      (scaled → n ≠ 0 → kb / 32 + blocks ≤ window - data ∧ ∀ j, j < 2 * blocks → Local s k.hart (k.sc + BitVec.ofNat 64 (128 * j)) 128) →
      ∃ t, exec (.matrixCommandComplete core) s = .next t ∧ t.sto.mem = s.sto.mem ∧
        let d := t.core core
        d.tile = c.tile ∧ d.mrun = none ∧
        (∀ i, i < n → ∀ col, col < 256 → d.bElem sh w (kb + i) col = value i col) ∧
        (∀ i, n ≤ i → i < 32 * blocks → ∀ col, col < 256 → d.bElem sh w (kb + i) col = 0) ∧
        (scaled → ∀ j, j < blocks → ∀ col, col < 256 →
          d.scaleByte sh (kb / 32 + j) col = localRead s k.hart (k.sc + BitVec.ofNat 64 (256 * j + col)) 1) ∧
        ∀ i, i < window → (i < w * kb / 8 ∨ (w * (kb + 32 * blocks) + 7) / 8 ≤ i) →
          (scaled → i < data + kb / 32 ∨ data + kb / 32 + blocks ≤ i) → d.bRow sh i = c.bRow sh i) ∧
    (bf = 7 → n ≠ 0 → k.slc * (kb + n) ≤ data → 2 * (kb / 32) + 1 < window - data →
      ∃ t, exec (.matrixCommandComplete core) s = .next t ∧ t.sto.mem = s.sto.mem ∧
        let d := t.core core
        let cut (col : Nat) : List (List Int) × Int × Bool := splitCut k.slc ((List.range n).map fun i => value i col)
        d.tile = c.tile ∧ d.mrun = none ∧
        (∀ col, col < 256 →
          (∀ i j, i < n → j < k.slc → sgn 8 (d.bByte sh (k.slc * (kb + i) + j) col) =
            if (cut col).2.2 = true then 0 else ((((cut col).1[i]?).getD [])[j]?).getD 0) ∧
          sgn 16 (d.scaleByte sh (2 * (kb / 32)) col + 256 * d.scaleByte sh (2 * (kb / 32) + 1) col) =
            if (cut col).2.2 = true then -32768 else (cut col).2.1) ∧
        ∀ i, i < window → (i < k.slc * kb ∨ k.slc * (kb + n) ≤ i) → i ≠ data + 2 * (kb / 32) → i ≠ data + 2 * (kb / 32) + 1 →
          d.bRow sh i = c.bRow sh i)

/-- R47, R233: MACCLD fills its tile from 32,768 bytes of memory, row by row, and MACCST writes them; nothing else of the core, and no
other byte of memory, changes. -/
def TileMemoryRules : Prop :=
  ∀ core (s : State) (r : MRun), Works s core r → Quiet s → (s.hart r.cmd.hart).q.mheld = [] →
    let k := r.cmd
    let c := s.core core
    let n := k.hart
    let at_ (a : Nat) : Option Nat := (s.hart n).localLoc n (k.sa + BitVec.ofNat 64 a).toNat
    (∀ j, j < 512 → Local s n (k.sa + BitVec.ofNat 64 (64 * j)) 64) →
    (k.kind = .maccld → ∃ t, exec (.matrixCommandComplete core) s = .next t ∧ t.sto.mem = s.sto.mem ∧
      let d := t.core core
      TileWritten c { d with mrun := c.mrun, hist := c.hist } ((List.range 32).map fun i => 32 * k.tile.toNat + i) (fun i col =>
        localRead s n (k.sa + BitVec.ofNat 64 (1024 * (i % 32) + 4 * col)) 4) ∧ d.mrun = none) ∧
    (k.kind = .maccst → s.holding = false → (∀ a b, a < 32768 → b < 32768 → at_ a = at_ b → a = b) →
      ∃ t, exec (.matrixCommandComplete core) s = .next t ∧ (t.core core).tile = c.tile ∧ (t.core core).bstore = c.bstore ∧
        (t.core core).mrun = none ∧
        (∀ i col, i < 32 → col < 256 → localRead t n (k.sa + BitVec.ofNat 64 (1024 * i + 4 * col)) 4 = c.tileElem k.tile.toNat i col) ∧
        ∀ loc, (∀ a, a < 32768 → at_ a ≠ some loc) → Memory.byte t.sto.mem loc = Memory.byte s.sto.mem loc)

/-- R233, R235, R238, R239: the first command of the queue starts when no command runs and nothing holds it, from the point that
it had reached when it was saved; a command that runs comes to its end;
MZERO writes zeros to all of its tile and to nothing else of the core; and a command whose first access faults leaves its report and discards
the later ones of its hart. -/
def MatrixCommandsRules : Prop :=
  (∀ core (s : State) (k : MCmd) (rest : List MCmd), (s.core core).mrun = none → (s.core core).mq = k :: rest →
    (s.commandHeld k = false → s.arrayHolds k.hart = false → ∃ r : MRun,
      exec (.matrixCommandStart core) s = .next ((s.setCore core { s.core core with mq := rest, mrun := some r }).updHart k.hart fun h =>
        { h with q := { h.q with mline := none } }) ∧
      r.cmd = k ∧ (k.at_ = none → r = ⟨k, 0, 0, 0, []⟩) ∧ ∀ a b c d, k.at_ = some (a, b, c, d) → r = ⟨k, a, b, c, d⟩) ∧
    (s.commandHeld k = true ∨ s.arrayHolds k.hart = true → exec (.matrixCommandStart core) s = .next s) ∧
    ((s.hart k.hart).q.run = none → (s.hart k.hart).q.queue = [] → (s.hart k.hart).q.stopped = [] → s.commandHeld k = false)) ∧
  (∀ core (s : State) (r : MRun), Works s core r → 1 ≤ (r.cmd.msh.extractLsb' 16 16).toNat →
    ∃ t, exec (.matrixCommandComplete core) s = .next t ∧ (t.core core).mrun = none) ∧
  (∀ core (s : State) (r : MRun), Works s core r → r.cmd.kind = .mzero →
    ∃ d t, exec (.matrixCommandComplete core) s = .next t ∧ Ends s core r.cmd.hart d 0 t ∧
      TileWritten (s.core core) d ((List.range 32).map fun i => 32 * r.cmd.tile.toNat + i) (fun _ _ => 0)) ∧
  (∀ core (s : State) (r : MRun) (e : AErr), Works s core r → Quiet s → (s.hart r.cmd.hart).q.status ≠ .free →
    r.cmd.sa.toNat % 128 = 0 →
    (match r.cmd.kind with
      | .maccst => s.store r.cmd.hart .matrix r.cmd.sa (toBytes 64 (imgGet ((s.core core).tileRow r.cmd.tile.toNat 0) 0 512)) = .error e
      | .maccld => s.load r.cmd.hart .matrix r.cmd.sa 64 .read = .error e
      | .mbld => r.cmd.sn ≠ 0 ∧ s.load r.cmd.hart .matrix r.cmd.sa 128 .read = .error e
      | _ => False) →
    ∃ t m, exec (.matrixAsyncFault core) s = .next t ∧ (t.hart r.cmd.hart).q.mfault = some m ∧ (t.core core).mrun = none ∧
      m.trap.cause = (0x80#8 ||| e.cause) ∧ m.trap.tval = r.cmd.sa ∧ m.trap.tmpc = r.cmd.pc ∧
      ∀ k ∈ (t.core core).mq, k.hart ≠ r.cmd.hart)

/-- The words that post matrix commands, when a command starts and ends, and what each leaves in its tiles, in the B-store and in
memory. What MBLD, MACCLD and MACCST do is stated of the hart's own TCM and scratchpad, while no error waits. -/
def Obligations.MatrixUnit : Prop :=
  MatrixPostingRules ∧ MatrixCommandsRules ∧ MmaRules ∧ MmasRules ∧ MbldRules ∧ TileMemoryRules

/-! ### Vector words on the current element group (10_vector_arithmetic.md, 11; log 6) -/

/-- op2[x] (R128): a vector element, the low SEW bits of a captured scalar, or ximm, sign-extended or read as BF16. -/
def operand (int : Bool) (o : Op2) (e : QEntry) (x : Nat) (h : Hart) : Nat :=
  match o with
  | .vs2 r => h.rdE r.toNat x e.sew
  | .wide r => h.rdE r.toNat x (2 * e.sew)
  | .xa => e.xa.toNat % 2 ^ e.sew
  | .xb => e.xb.toNat % 2 ^ e.sew
  | .ximm => if int then (e.imm.toInt % ((2 ^ e.sew : Nat) : Int)).toNat
    else (fmtBF16.convert (kindFmt e.sew e.fk) ⟨.rne, 0⟩ false e.imm.toNat).1

/-- A pattern of `w` bits read as unsigned or as signed. -/
def asInt (u : Bool) (w x : Nat) : Int :=
  if u then ((x % 2 ^ w : Nat) : Int)
  else if x % 2 ^ w < 2 ^ (w - 1) then ((x % 2 ^ w : Nat) : Int) else ((x % 2 ^ w : Nat) : Int) - ((2 ^ w : Nat) : Int)

/-- An integer modulo 2^w. -/
def wrapped (w : Nat) (x : Int) : Nat := (x % ((2 ^ w : Nat) : Int)).toNat

/-- R163: a result wrapped, or clamped with SX (bit 5) to the signed or unsigned range. -/
def brought (w : Nat) (u sat : Bool) (x : Int) : FR :=
  let lo : Int := if u then 0 else -((2 ^ (w - 1) : Nat) : Int)
  let hi : Int := if u then ((2 ^ w : Nat) : Int) - 1 else ((2 ^ (w - 1) : Nat) : Int) - 1
  if sat = true ∧ x < lo then (wrapped w lo, 32#6)
  else if sat = true ∧ hi < x then (wrapped w hi, 32#6)
  else (wrapped w x, 0#6)

/-- An integer form on vs1[x] and op2[x] at SEW. -/
def IntForm (mk : VG → VReg → VReg → Op2 → Bool → Bool → Instr) (f : Nat → Bool → Bool → Nat → Nat → FR) : Prop :=
  ∀ g vd vs1 o sat u, VElem (mk g vd vs1 o sat u) g vd 1 fun e x h =>
    f e.sew sat u (h.rdE vs1.toNat x e.sew) (operand true o e x h)

/-- A widening integer form at 2·SEW: B is ext(b), or the wide vs2[x]. -/
def WideIntForm (mk : VG → VReg → VReg → Op2 → Bool → Bool → Instr) (f : Int → Int → Int) (clamps : Bool) : Prop :=
  ∀ g vd vs1 o sat u, VElem (mk g vd vs1 o sat u) g vd 2 fun e x h =>
    brought (2 * e.sew) u (clamps && sat)
      (f (asInt u e.sew (h.rdE vs1.toNat x e.sew)) (asInt u (match o with | .wide _ => 2 * e.sew | _ => e.sew) (operand true o e x h)))

/-- R162 and R163, every row: on a word that runs, the elements of the group take these results, disabled elements follow MP and
the tail follows TP (R158). -/
def Obligations.VectorInteger : Prop :=
  IntForm .vadd (fun w sat u a b => brought w u sat (asInt u w a + asInt u w b)) ∧
  IntForm .vsub (fun w sat u a b => brought w u sat (asInt u w a - asInt u w b)) ∧
  IntForm .vrsub (fun w sat u a b => brought w u sat (asInt u w b - asInt u w a)) ∧
  IntForm .vmul (fun w sat u a b => brought w u sat (asInt u w a * asInt u w b)) ∧
  IntForm .vmulh (fun w _ u a b => (wrapped (2 * w) (asInt u w a * asInt u w b) / 2 ^ w % 2 ^ w, 0)) ∧
  IntForm .vdiv (fun w _ u a b =>
    (if b % 2 ^ w = 0 then 2 ^ w - 1
     else if u then a % 2 ^ w / (b % 2 ^ w) % 2 ^ w
     else if asInt false w a = -((2 ^ (w - 1) : Nat) : Int) ∧ asInt false w b = -1 then wrapped w (asInt false w a)
     else wrapped w ((asInt false w a).tdiv (asInt false w b)), 0)) ∧
  IntForm .vrem (fun w _ u a b =>
    (if b % 2 ^ w = 0 then a % 2 ^ w
     else if u then a % 2 ^ w % (b % 2 ^ w) % 2 ^ w
     else if asInt false w a = -((2 ^ (w - 1) : Nat) : Int) ∧ asInt false w b = -1 then 0
     else wrapped w ((asInt false w a).tmod (asInt false w b)), 0)) ∧
  IntForm .vmin (fun w _ u a b => (wrapped w (if asInt u w a < asInt u w b then asInt u w a else asInt u w b), 0)) ∧
  IntForm .vmax (fun w _ u a b => (wrapped w (if asInt u w a < asInt u w b then asInt u w b else asInt u w a), 0)) ∧
  IntForm .vand (fun w _ _ a b => ((a &&& b) % 2 ^ w, 0)) ∧ IntForm .vor (fun w _ _ a b => ((a ||| b) % 2 ^ w, 0)) ∧
  IntForm .vxor (fun w _ _ a b => ((a ^^^ b) % 2 ^ w, 0)) ∧
  IntForm .vsll (fun w _ _ a b => (a * 2 ^ (b % w) % 2 ^ w, 0)) ∧
  IntForm .vsrl (fun w _ _ a b => (a / 2 ^ (b % w) % 2 ^ w, 0)) ∧
  IntForm .vsra (fun w _ _ a b => (wrapped w (asInt false w a / ((2 ^ (b % w) : Nat) : Int)), 0)) ∧
  WideIntForm .vaddw (fun a b => a + b) true ∧ WideIntForm .vsubw (fun a b => a - b) true ∧
  WideIntForm .vmulw (fun a b => a * b) false ∧
  (∀ g vd vs1 o sat u, VElem (.vmacc g vd vs1 o sat u) g vd 1 fun e x h =>
    brought e.sew u sat (asInt u e.sew (h.rdE vd.toNat x e.sew) +
      asInt u e.sew (h.rdE vs1.toNat x e.sew) * asInt u e.sew (operand true o e x h))) ∧
  (∀ g vd vs1 o sat u, VElem (.vnsrl g vd vs1 o sat u) g vd 1 fun e x h =>
    (h.rdE vs1.toNat x (2 * e.sew) / 2 ^ (operand true o e x h % (2 * e.sew)) % 2 ^ e.sew, 0)) ∧
  (∀ g vd vs1 o sat u, VElem (.vnclip g vd vs1 o sat u) g vd 1 fun e x h =>
    let sh := operand true o e x h % (2 * e.sew)
    let a := asInt u (2 * e.sew) (h.rdE vs1.toNat x (2 * e.sew))
    brought e.sew u true (if sh = 0 then a else (a + ((2 ^ (sh - 1) : Nat) : Int)) / ((2 ^ sh : Nat) : Int))) ∧
  (∀ g vd vs1 sat, VElem (.vabs g vd vs1 sat) g vd 1 fun e x h =>
    let a := asInt false e.sew (h.rdE vs1.toNat x e.sew)
    brought e.sew false sat (if a < 0 then -a else a)) ∧
  IntForm .vavg (fun w _ u a b => (wrapped w ((asInt u w a + asInt u w b + 1) / 2), 0))

/-- The rounding of element x (R70): its mode, and the random value for the element and the strip; in a translated image those of the physical
sub-strip (R316, log 12). -/
def roundAtElement (h : Hart) (e : QEntry) (rm : RMode) (x : Nat) : Rnd :=
  let n := max 1 (vlmaxOf (vlenOf h.shape.g h.shape.nreg) e.vtype)
  ⟨rm, if h.shape.virt = true then srRandom h.sc.srseed (x % n) (Config.physStrip (vlenOf h.shape.g h.shape.nreg) e.strip (x / n))
    else srRandom h.sc.srseed x e.strip⟩

/-- A float form on vs1[x] and op2[x] in the format of SEW and FK, under its rounding mode (R164, R70). -/
def FloatForm (i : Instr) (g : VG) (vd vs1 : VReg) (o : Op2) (rm : RMode) (f : Fmt → Rnd → Nat → Nat → Nat → FR) : Prop :=
  VElem i g vd 1 fun e x h =>
    f (kindFmt e.sew e.fk) (roundAtElement h e rm x) (h.rdE vs1.toNat x e.sew) (operand false o e x h) (h.rdE vd.toNat x e.sew)

/-- The wide format of widening and narrowing forms (R167, R168). -/
def wideOf (sew : Nat) : Fmt := if sew = 8 then fmtF16 else if sew = 16 then fmtF32 else fmtF64

/-- R164 to R168: the float instructions and conversions of one vector word, with the single operations that the scalar
statements describe. -/
def Obligations.VectorFloat : Prop :=
  (∀ g vd vs1 o rm,
    FloatForm (.vfadd g vd vs1 o rm) g vd vs1 o rm (fun f md a b _ => f.fadd md a b) ∧
    FloatForm (.vfsub g vd vs1 o rm) g vd vs1 o rm (fun f md a b _ => f.fsub md a b) ∧
    FloatForm (.vfmul g vd vs1 o rm) g vd vs1 o rm (fun f md a b _ => f.fmul md a b) ∧
    FloatForm (.vfdiv g vd vs1 o rm) g vd vs1 o rm (fun f md a b _ => f.fdiv md a b) ∧
    FloatForm (.vfma g vd vs1 o rm) g vd vs1 o rm (fun f md a b y => f.fused md false false a b y) ∧
    FloatForm (.vfms g vd vs1 o rm) g vd vs1 o rm (fun f md a b y => f.fused md false true a b y) ∧
    FloatForm (.vfnma g vd vs1 o rm) g vd vs1 o rm (fun f md a b y => f.fused md true true a b y) ∧
    FloatForm (.vfnms g vd vs1 o rm) g vd vs1 o rm (fun f md a b y => f.fused md true false a b y)) ∧
  (∀ g vd vs1 rm, FloatForm (.vfsqrt g vd vs1 rm) g vd vs1 .xa rm (fun f md a _ _ => f.fsqrt md a)) ∧
  (∀ g vd vs1 o,
    FloatForm (.vfmin g vd vs1 o) g vd vs1 o .rne (fun f _ a b _ => f.minMax false a b) ∧
    FloatForm (.vfmax g vd vs1 o) g vd vs1 o .rne (fun f _ a b _ => f.minMax true a b) ∧
    FloatForm (.vfsgnj g vd vs1 o) g vd vs1 o .rne (fun f _ a b _ =>
      (b / 2 ^ (f.we + f.wf) * 2 ^ (f.we + f.wf) + a % 2 ^ (f.we + f.wf), 0)) ∧
    FloatForm (.vfclamp g vd vs1 o) g vd vs1 o .rne (fun f _ a b _ =>
      let m := b % 2 ^ (f.we + f.wf)
      let flags : BitVec 6 := if isSNaN f a || isSNaN f b then 16#6 else 0#6
      if isNaN f a || isNaN f m then (f.nan, flags)
      else if fpOrder f m < fpOrder f a then (m, flags)
      else if fpOrder f a < -fpOrder f m then (2 ^ (f.we + f.wf) + m, flags)
      else (a, flags))) ∧
  (∀ g vd vs1,
    FloatForm (.vfabs g vd vs1) g vd vs1 .xa .rne (fun f _ a _ _ => (a % 2 ^ (f.we + f.wf), 0)) ∧
    FloatForm (.vfneg g vd vs1) g vd vs1 .xa .rne (fun f _ a _ _ => (a ^^^ 2 ^ (f.we + f.wf), 0))) ∧
  (∀ g vd vs1 o rm,
    let wide (i : Instr) (op : Rnd → FV → FV → FV → FV × BitVec 6) : Prop :=
      VElem i g vd 2 fun e x h =>
        let f := kindFmt e.sew e.fk
        let w := wideOf e.sew
        let md : Rnd := roundAtElement h e rm x
        let b := match o with | .wide _ => w.decode (operand false o e x h) | _ => f.decode (operand false o e x h)
        w.op md (op md (f.decode (h.rdE vs1.toNat x e.sew)) b (w.decode (h.rdE vd.toNat x (2 * e.sew))))
    wide (.vfwadd g vd vs1 o rm) (fun md a b _ => a.add md b) ∧ wide (.vfwmul g vd vs1 o rm) (fun _ a b _ => a.mul b) ∧
    wide (.vfwma g vd vs1 o rm) (fun md a b y => FV.fma md a b y)) ∧
  ∀ g vd vs1 rm (u sat : Bool),
    let conv (i : Instr) (k : Nat) (op : QEntry → Rnd → (Nat → Nat) → FR) : Prop :=
      VElem i g vd k fun e x h => op e (roundAtElement h e rm x) (fun w => h.rdE vs1.toNat x w)
    conv (.vfcvt g vd vs1 rm) 1 (fun e md a => (kindFmt e.sew (1 - e.fk)).convert (kindFmt e.sew e.fk) md false (a e.sew)) ∧
    conv (.vfcvti g vd vs1 u rm sat) 1 (fun e md a => toInteger md e.sew u ((kindFmt e.sew e.fk).decode (a e.sew))) ∧
    conv (.vicvtf g vd vs1 u rm) 1 (fun e md a => fromInteger (kindFmt e.sew e.fk) md (asInt u e.sew (a e.sew))) ∧
    conv (.vfncvt g vd vs1 rm sat) 1 (fun e md a => (wideOf e.sew).convert (kindFmt e.sew e.fk) md sat (a (2 * e.sew))) ∧
    conv (.vfwcvt g vd vs1) 2 (fun e _ a => (kindFmt e.sew e.fk).convert (wideOf e.sew) ⟨.rne, 0⟩ false (a e.sew))

/-- The tail of a word that has made the record of its destination: that record stands, and so does every other (R44, R171, R184). -/
def tailBound (e : QEntry) (vd w : Nat) (h : Hart) : Hart :=
  let t := h.vtail e vd w
  { t with vec := { t.vec with vbr := h.vec.vbr } }

/-- R169 to R175: compares write a pair of predicates, both false where the guard is; VMV copies op2 and, from a register, its
binding; VMERGE chooses by the guard and writes every element; VEXT and VINS reach one element; VID writes the index. -/
def Obligations.VectorCompareMove : Prop :=
  (∀ g (pair : BitVec 6) vs1 o cc,
    let compare (i : Instr) (op : QEntry → Nat → Hart → Bool × BitVec 6) : Prop :=
      VRun i
        (fun e _ lo hi h => ((h.mark (2 * pair.toNat)).mark (2 * pair.toNat + 1)).each lo hi fun x h =>
          let on := h.vguard g x
          let r := op e x h
          let h' := (h.wrP (2 * pair.toNat) x (on && r.1)).wrP (2 * pair.toNat + 1) x (on && !r.1)
          if on then h'.flags r.2 else h')
        (fun e _ h => (h.ptail e (2 * pair.toNat)).ptail e (2 * pair.toNat + 1))
    compare (.vcmp g pair vs1 o cc) (fun e x h =>
      let a := h.rdE vs1.toNat x e.sew
      let b := operand true o e x h
      let i (u : Bool) (n : Nat) : Int := asInt u e.sew n
      ((match cc with
        | .eq => decide (i true a = i true b) | .ne => decide (i true a ≠ i true b)
        | .lt => decide (i false a < i false b) | .ge => decide (i false b ≤ i false a)
        | .ltu => decide (i true a < i true b) | .geu => decide (i true b ≤ i true a)
        | .gt => decide (i false b < i false a) | .le => decide (i false a ≤ i false b)
        | .gtu => decide (i true b < i true a) | .leu => decide (i true a ≤ i true b)), 0)) ∧
    compare (.vfcmp g pair vs1 o cc) (fun e x h => fpCond cc ((kindFmt e.sew e.fk).decode (h.rdE vs1.toNat x e.sew))
      ((kindFmt e.sew e.fk).decode (operand false o e x h)))) ∧
  (∀ g vd o, (∀ r, o ≠ .vs2 r) → VElem (.vmv g vd o) g vd 1 fun e x h => (operand false o e x h, 0)) ∧
  (∀ g vd r, VRun (.vmv g vd (.vs2 r))
    (fun e _ lo hi h => ((h.each lo hi fun x h => h.elem e g vd.toNat e.sew x fun h => (h.rdE r.toNat x e.sew, 0)).unbind
      vd.toNat e.lmul).setBinding vd.toNat (h.binding r.toNat))
    (fun e _ h => tailBound e vd.toNat e.sew h)) ∧
  (∀ g vd vs1 o, VRun (.vmerge g vd vs1 o)
    (fun e _ lo hi h => h.each lo hi fun x h => h.wrElem vd.toNat x e.sew
      (if h.vguard g x then h.rdE vs1.toNat x e.sew else operand false o e x h))
    (fun e _ h => h.vtail e vd.toNat e.sew)) ∧
  (∀ g sd vs1 (i : Sel3), let at_ (e : QEntry) : Nat := match i with | .xa => e.xa.toNat | .xb => e.xb.toNat | .ximm => e.imm.toNat
    VRun (.vext g sd vs1 i)
      (fun e k lo hi h => if lo ≤ at_ e ∧ at_ e < hi ∧ h.vguard g (at_ e)
        then h.slotWrite k sd (BitVec.ofInt 64 (asInt false e.sew (h.rdE vs1.toNat (at_ e) e.sew))) else h)
      (fun e k h => if e.vl ≤ at_ e then h.slotWrite k sd 0 else h)) ∧
  (∀ g vd (v : Sel3), let at_ (e : QEntry) : Nat := match v with | .xa => e.xb.toNat | _ => e.xa.toNat
    VRun (.vins g vd v)
      (fun e _ lo hi h => if lo ≤ at_ e ∧ at_ e < hi then h.elem e g vd.toNat e.sew (at_ e) (fun _ =>
        let new : Nat := match v with
          | .xa => e.xa.toNat % 2 ^ e.sew
          | .xb => e.xb.toNat % 2 ^ e.sew
          | .ximm => (fmtBF16.convert (kindFmt e.sew e.fk) ⟨.rne, 0⟩ false e.imm.toNat).1
        (new, 0)) else h)
      (fun e _ h => h.vtail e vd.toNat e.sew)) ∧
  ∀ g vd, VElem (.vid g vd) g vd 1 fun e x _ => (x % 2 ^ e.sew, 0)

/-- A predicate destination: disabled elements follow MP, the tail follows TP, and the mark is set (R40, R41, R197). -/
def PElem (i : Instr) (g : VG) (pd : PReg) (op : QEntry → Nat → Hart → Bool) : Prop :=
  VRun i (fun e _ lo hi h => (h.mark pd.toNat).each lo hi fun x h => h.pelem e g pd.toNat x (op e x))
    (fun e _ h => h.ptail e pd.toNat)

/-- The least element of a range that is enabled and set in `ps`. -/
def leastSet (h : Hart) (g : VG) (ps : PReg) (lo hi : Nat) : Option Nat :=
  (upTo lo hi).find? fun x => h.vguard g x && (decide (ps = 0#7) || (h.rdP ps.toNat).testBit x)

/-- R199 to R205, R31: the predicate instructions and VSKIP; that VSKIPC stops at 63 when a convoy has two is the model's choice
(log 34). The scans are stated for a word that stands alone, where the search
runs from element 0 of the vector (R201). -/
def Obligations.VectorPredicate : Prop :=
  (∀ g pd, VRun (.plogic g pd)
    (fun _ _ lo hi h => (h.mark pd.toNat).each lo hi fun x h => h.wrP pd.toNat x (h.vguard g x))
    (fun e _ h => h.ptail e pd.toNat)) ∧
  (∀ g pd useB (vs : VReg),
    PElem (.pset g pd) g pd (fun _ _ _ => true) ∧ PElem (.pclr g pd) g pd (fun _ _ _ => false) ∧
    PElem (.psets g pd useB) g pd (fun e _ _ => decide ((if useB then e.xb else e.xa) ≠ 0)) ∧
    PElem (.pfromv g pd vs) g pd (fun e x h => decide (h.rdE vs.toNat x e.sew ≠ 0))) ∧
  (∀ g vd (ps : PReg), VElem (.ptov g vd ps) g vd 1 fun _ x h =>
    (if ps = 0#7 ∨ (h.rdP ps.toNat).testBit x = true then 1 else 0, 0)) ∧
  (∀ g (pd ps : PReg) (s : State), s.Drained →
    let scan (i : Instr) (f : Nat → Option Nat → Bool) : Prop := VReady s i →
      let e := s.entry i
      let lo := s.me.vec.vstart
      let hi := s.groupTop i
      let h := if lo < hi then (s.me.mark pd.toNat).each lo hi fun x h => h.pelem e g pd.toNat x fun _ => f x (leastSet s.me g ps 0 hi)
        else s.me
      Acts i s (if e.vl ≤ hi then h.ptail e pd.toNat else h)
    scan (.psbf g pd ps) (fun x f => match f with | some y => decide (x < y) | none => true) ∧
    scan (.psif g pd ps) (fun x f => match f with | some y => decide (x ≤ y) | none => true) ∧
    scan (.psof g pd ps) (fun x f => decide (f = some x))) ∧
  (∀ g sd (ps : PReg),
    VRun (.pcount g sd ps) (fun _ _ _ _ h => h) (fun e k h => h.slotWrite k sd (BitVec.ofNat 64
      (((upTo 0 e.vl).filter fun x => h.vguard g x && (decide (ps = 0#7) || (h.rdP ps.toNat).testBit x)).length))) ∧
    VRun (.pffs g sd ps) (fun _ _ _ _ h => h) (fun e k h => h.slotWrite k sd
      (match leastSet h g ps 0 e.vl with | some x => BitVec.ofNat 64 x | none => BitVec.ofNat 64 (2 ^ 64 - 1)))) ∧
  (∀ (pd plast : PReg), VRun (.pkill pd plast) (fun _ _ _ _ h => h) (fun _ _ h =>
    (upTo pd.toNat ((if plast = 0#7 then pd.toNat else plast.toNat) + 1)).foldl (fun h p => if p = 0 then h else h.kill p) h)) ∧
  ∀ g (ps : PReg) (n : BitVec 6), VRun (.vskip g ps n) (fun _ _ _ _ h => h) (fun e _ h =>
    if leastSet h g ps 0 e.vl = none then
      { h with
        q := { h.q with queue := h.q.queue.drop n.toNat }
        vec := { h.vec with vskipc := min 63 (h.vec.vskipc + (n.toNat - h.q.queue.length)) } }
    else h)

/-- A scale instruction: KGEN[kd] advances with element 0's group, and the entry of every enabled block start takes `op`
(R42, R206); one that interprets entries does so under a legal SCFMT (R207). -/
def KForm (i : Instr) (g : VG) (kd : KReg) (interp : Bool) (op : QEntry → Nat → Hart → FR) : Prop :=
  ∀ s : State, VReady s i →
    let e := s.entry i
    let lo := s.me.vec.vstart
    let hi := s.groupTop i
    let start := if lo = 0 ∧ lo < hi then s.me.advance kd else s.me
    let blocks := (upTo lo hi).filter fun x => x % 2 ^ e.shift = 0
    (interp = true → e.scfmt < 2) →
    Acts i s (blocks.foldl (fun h x => if h.vguard g x then
      (h.setKEnt kd (x / 2 ^ e.shift) (op e (x / 2 ^ e.shift) h).1).flags (op e (x / 2 ^ e.shift) h).2 else h) start)

/-- R207: an exponent as an entry of E8M0 or EXP8, clamped with SX. -/
def entryOf (exp8 : Bool) (n : Int) : FR :=
  if exp8 then (if n < -128 then (0x80, 32#6) else if 127 < n then (127, 32#6) else (wrapped 8 n, 0))
  else if n < -127 then (0, 32#6) else if 127 < n then (254, 32#6) else ((n + 127).toNat, 0)

/-- R206 to R209, R189: the scale instructions, the bindings, and BFOP. -/
def Obligations.ScaleAndBinding : Prop :=
  (∀ g kd ks1 (o : KOp2),
    let form (i : Instr) (f : Int → Int → Int) : Prop := KForm i g kd true fun e j h =>
      let exp8 := decide (e.scfmt = 1)
      let value (v : Nat) : Option Int := if exp8 then some (asInt false 8 v) else if v = 255 then none else some ((v : Int) - 127)
      let b : Option Int := match o with
        | .ks k => value (h.kEnt k j) | .sel .xa => some e.xa.toInt | .sel .xb => some e.xb.toInt | .sel .ximm => some e.imm.toInt
      match value (h.kEnt ks1 j), b with
      | some x, some y => entryOf exp8 (f x y)
      | _, _ => (0xFF, 0)
    form (.kadd g kd ks1 o) (fun a b => a + b) ∧ form (.ksub g kd ks1 o) (fun a b => a - b) ∧
    form (.kmax g kd ks1 o) (fun a b => max a b) ∧ form (.kmin g kd ks1 o) (fun a b => min a b)) ∧
  (∀ g kd ks (v : Sel3),
    KForm (.kmov g kd ks) g kd false (fun _ j h => (h.kEnt ks j, 0)) ∧
    KForm (.kset g kd v) g kd false (fun e _ _ =>
      ((match v with | .xa => e.xa.toNat | .xb => e.xb.toNat | .ximm => e.imm.toNat) % 256, 0))) ∧
  (∀ g kd vs (v : Sel3), KForm (.kfromv g kd vs v) g kd true fun e j h =>
    let exp8 := decide (e.scfmt = 1)
    let adj : Int := match v with | .xa => e.xa.toInt | .xb => e.xb.toInt | .ximm => e.imm.toInt
    match (kindFmt e.sew e.fk).decode (h.rdE vs.toNat (j * 2 ^ e.shift) e.sew) with
    | .fin n m x k => if m = 0 then (if exp8 then 0x80 else 0, 0) else entryOf exp8 ((FV.fin n m x k).ilog - adj)
    | v => if exp8 then (127, 16#6) else (0xFF, if v = .nan true then 16#6 else 0)) ∧
  (∀ g vd kd,
    VRun (.vbind g vd kd) (fun e _ lo _ h => if lo = 0 ∧ h.vguard g 0 then
      (h.unbind vd.toNat e.lmul).setBinding vd.toNat ⟨BitVec.ofNat 3 (fld e.vtype 12 10), true, false, kd, h.kgen kd⟩ else h)
      (fun _ _ h => h) ∧
    VRun (.vunbind g vd) (fun e _ lo _ h => if lo = 0 ∧ h.vguard g 0 then h.unbind vd.toNat e.lmul else h) (fun _ _ h => h)) ∧
  ∀ g od (v : Sel3) (s : State), VReady s (.bfop g od v) →
    let e := s.entry (.bfop g od v)
    Acts (.bfop g od v) s (if s.me.q.run = none ∧ s.me.vec.vstart = 0 ∧ s.me.vguard g 0 = true then
      s.me.wrO od (match v with
        | .ximm => (e.imm.setWidth 32 : BitVec 32) <<< 16 | .xa => e.xa.setWidth 32 | .xb => e.xb.setWidth 32) else s.me)

/-- Elements in ascending order, each on the state that the ones below it left. -/
def elements (l : List Nat) (op : Nat → State → Option State) (s : State) : Option State := l.foldlM (fun s x => op x s) s

/-- A vector memory word completes on the current group when every element that it reaches does: `first` comes before the
elements, `op` is one element, `tail` what retirement does with the last group; words of packed formats are complete with the
instruction (R102). A group of no element makes no access. -/
def VMem (i : Instr) (l : QEntry → Nat → Nat → List Nat) (first : Nat → State → State) (op : Ctx → Nat → State → Option State)
    (tail : Ctx → State → State) : Prop :=
  ∀ s : State, VReady s i →
    let c : Ctx := ⟨s.cur, (s.me.entryFor i).2, s.entry i⟩
    let lo := s.me.vec.vstart
    let hi := s.groupTop i
    let s0 := s.clearAsked s.cur
    let done (t : State) : State := (if c.e.vl ≤ hi then tail c t else t).closeHeld s.cur fun _ => true
    (hi ≤ lo → exec i s = .next (done s0)) ∧
    ∀ t, lo < hi → elements (l c.e lo hi) (op c) (first lo s0) = some t → exec i s = .next (done t)

/-- A vector memory word stops at an element that fails, the ones below it complete: the fault is taken there (R23, R341). -/
def VStops (i : Instr) (op : Ctx → Nat → State → Option State) (fails : Ctx → Nat → State → AErr → Prop) : Prop :=
  ∀ s : State, VReady s i →
    let c : Ctx := ⟨s.cur, (s.me.entryFor i).2, s.entry i⟩
    ∀ x t a, s.me.vec.vstart ≤ x → x < s.groupTop i →
      elements (upTo s.me.vec.vstart x) (op c) (s.clearAsked s.cur) = some t → fails c x t a →
      exec i s = match t.stopAt s.cur c.e c.slot x a with
        | .next u => .next (u.closeHeld s.cur fun _ => true)
        | o => o

/-- What retirement does: nothing, or the tail of a vector destination (R158). -/
def noTail (_ : Ctx) (s : State) : State := s
def vectorTail (vd : VReg) (c : Ctx) (s : State) : State := s.updHart c.n fun h => h.vtail c.e vd.toNat c.e.sew

/-- The elements of a group, and its block starts (R206). -/
def everyElem (_ : QEntry) (lo hi : Nat) : List Nat := upTo lo hi
def blockStarts (e : QEntry) (lo hi : Nat) : List Nat := (upTo lo hi).filter fun x => x % 2 ^ e.shift = 0

/-- One element of a vector destination: an enabled one takes what `op` gives, a disabled one follows MP (R158, R177). -/
def destination (g : VG) (vd : VReg) (op : Ctx → Nat → State → Except AErr (State × FR)) (c : Ctx) (x : Nat) (s : State) : Option State :=
  if (s.hart c.n).vguard g x then
    match op c x s with
    | .ok (t, r) => some (t.updHart c.n fun h => (h.wrElem vd.toNat x c.e.sew r.1).flags r.2)
    | .error _ => none
  else some (if c.e.mp then s.updHart c.n fun h => h.wrElem vd.toNat x c.e.sew (2 ^ c.e.sew - 1) else s)

/-- One enabled element of an instruction without a destination policy. -/
def enabledOnly (g : VG) (op : Ctx → Nat → State → Except AErr State) (c : Ctx) (x : Nat) (s : State) : Option State :=
  if (s.hart c.n).vguard g x then (op c x s).toOption else some s

/-- The base address of an access, and the addresses of element x under a stride and under an index register, and of the scale
entry of its block (R176, R184, R185). -/
def baseOf (c : Ctx) (m : MemForm) : Word := (if m.base then c.e.xb else c.e.xa) + (if m.off then c.e.imm.signExtend 64 else 0)
def stridedAt (c : Ctx) (m : MemForm) (x : Nat) : Word := baseOf c m + BitVec.ofNat 64 x * (if m.base then c.e.xa else c.e.xb)
def indexedAt (c : Ctx) (m : MemForm) (vs2 : VReg) (x : Nat) (s : State) : Word :=
  baseOf c m + BitVec.ofNat 64 ((s.hart c.n).rdE vs2.toNat x c.e.sew)
def scaleAt (c : Ctx) (x : Nat) : Word := c.e.xb + BitVec.ofNat 64 (x / 2 ^ c.e.shift)

/-- The rounding that a store needs is there: SRND names a mode, or FRM does (R179). -/
def roundOk (c : Ctx) (x : Nat) (s : State) : Prop :=
  roundsCode (c.e.mfc.extractLsb' 10 5).toNat = true → ((s.hart c.n).srnd c.e x).isSome = true

/-- A byte read, and a byte written, by the vector agent. -/
def readByte (s : State) (n : Nat) (va : Word) : Except AErr (State × Byte) :=
  if 2 ^ 55 ≤ va.toNat then .error ⟨0x05#8, va, 0, []⟩
  else match s.load n .vector va 1 .read with
    | .ok (t, bs) => .ok (t, (bs[0]?).getD 0)
    | .error e => .error e
def writeByte (s : State) (n : Nat) (va : Word) (b : Nat) : Except AErr State :=
  if 2 ^ 55 ≤ va.toNat then .error ⟨0x05#8, va, 0, []⟩ else s.store n .vector va [BitVec.ofNat 8 b]

/-- R25, R182: VLDFF at a failing element x after element 0, whose failure is one of address, alignment, access or translation: no
fault is taken, the elements below x stand, VL becomes x, and the tail is that of the new length; convoys of the strip that wait
behind it take the new length where it is less than theirs. Stated for a convoy in which no VLDZ has decoded a word (log 32). -/
def TrimRules : Prop :=
  (∀ g vd m (s : State), let i : Instr := .vldff g vd m
    (∀ r, s.me.q.run = some r → r.zc = []) → VReady s i →
    let c : Ctx := ⟨s.cur, (s.me.entryFor i).2, s.entry i⟩
    ∀ x t a, s.me.vec.vstart ≤ x → x < s.groupTop i → x ≠ 0 →
      elements (upTo s.me.vec.vstart x) (destination g vd (fun c x s => s.loadElem c m .unit x) c) (s.clearAsked s.cur) = some t →
      t.me.vguard g x = true → t.loadElem c m .unit x = .error a → a.cause ∈ [0x05#8, 0x06#8, 0x07#8, 0x08#8] →
      exec i s = .next ((vectorTail vd { c with e := { c.e with vl := x } } ((t.seen a.found).trimTo s.cur c.e x)).closeHeld
        s.cur fun _ => true)) ∧
  ∀ (s : State) (n : Nat) (e : QEntry) (x : Nat),
    let t := s.trimTo n e x
    let h := s.hart n
    t.sto = s.sto ∧ (∀ m, m ≠ n → t.hart m = s.hart m) ∧ (t.hart n).sc = h.sc ∧
    (t.hart n).vec = { h.vec with vl := if h.vec.stripno = e.strip then x else h.vec.vl } ∧
    (t.hart n).q.queue = h.q.queue.map fun y => if y.strip = e.strip then { y with vl := min y.vl x } else y

/-- R177, R181, R182, R186: the loads of a vector register and VAMO. An element is loaded from its address and converted; for
VAMO the old memory value goes to the element and the new one is that of the scalar atomics. A strided load takes an element from
a gathered line that holds it, where the access is cached (R94, R86), and elements of a packed format that share an aligned word read it
once (R102): a word that has been read is kept, and a write of the same agent that falls on it changes what is kept. A load stops
at the element that fails, VLDFF at its first element or where the failure is none that trims. -/
def LoadRules : Prop :=
  (∀ g vd vs2 m,
    let load (i : Instr) (f : AddrForm) : Prop :=
      VMem i everyElem (fun _ s => s) (destination g vd fun c x s => s.loadElem c m f x) (vectorTail vd)
    let stops (i : Instr) (f : AddrForm) (faults : Nat → AErr → Prop) : Prop :=
      VStops i (destination g vd fun c x s => s.loadElem c m f x) fun c x s a =>
        (s.hart c.n).vguard g x = true ∧ s.loadElem c m f x = .error a ∧ faults x a
    load (.vld g vd m) .unit ∧ load (.vlds g vd m) .strided ∧ load (.vldx g vd vs2 m) (.indexed vs2) ∧ load (.vldff g vd m) .unit ∧
    stops (.vld g vd m) .unit (fun _ _ => True) ∧ stops (.vlds g vd m) .strided (fun _ _ => True) ∧
    stops (.vldx g vd vs2 m) (.indexed vs2) (fun _ _ => True) ∧
    stops (.vldff g vd m) .unit (fun x a => x = 0 ∨ a.cause ∉ [0x05#8, 0x06#8, 0x07#8, 0x08#8])) ∧
  TrimRules ∧
  (∀ g vd vs2 op m,
    VMem (.vamo g vd vs2 op m) everyElem (fun _ s => s)
      (destination g vd fun c x s =>
        let h := s.hart c.n
        let va := indexedAt c m vs2 x s
        let b := h.rdE vd.toNat x c.e.sew
        if 2 ^ 55 ≤ va.toNat ∨ va.toNat % (c.e.sew / 8) ≠ 0 then .error ⟨0x06#8, va, 0, []⟩
        else match s.rmw c.n .vector va (c.e.sew / 8) fun bs => some (toBytes (c.e.sew / 8) (amoNew op c.e.sew (ofBytes bs) b).1) with
          | .ok (t, old) => .ok (t, (ofBytes old, (amoNew op c.e.sew (ofBytes old) b).2))
          | .error e => .error e)
      (vectorTail vd)) ∧
  ∀ (s : State) (c : Ctx) (m : MemForm) (f : AddrForm) (x : Nat),
    let code := (c.e.mfc.extractLsb' 5 5).toNat
    let fmt := kindFmt c.e.sew c.e.fk
    (∀ sz, storedOf c.e.sew code = .plain sz → m.tag = false →
      let va := match f with
        | .unit => baseOf c m + BitVec.ofNat 64 (x * sz)
        | .strided => stridedAt c m x
        | .indexed r => indexedAt c m r x s
      va.toNat < 2 ^ 55 → va.toNat % sz = 0 →
      (f ≠ .strided → ∀ u bs, s.load c.n .vector va sz .read = .ok (u, bs) →
        s.loadElem c m f x = .ok (u, loadConv c.e.sew fmt code (ofBytes bs))) ∧
      (f = .strided → ∀ v t, s.locate (s.whoOf c.n .vector) va .read = .ok (v, t) →
        (v.caches t = false ∨ (v.core (coreOf c.n)).gatherHit t.loc sz = none → ∀ u bs, s.load c.n .vector va sz .read = .ok (u, bs) →
          ∃ w, s.loadElem c m f x = .ok (w, loadConv c.e.sew fmt code (ofBytes bs)) ∧ w.harts = u.harts ∧ w.sto.mem = u.sto.mem) ∧
        (v.caches t = true → (v.core (coreOf c.n)).gatherHit t.loc sz ≠ none → ((v.hart c.n).q.vheld.all fun w => !w.over t.loc sz) = true →
          v.poisoned t.loc = false → v.isRetired t.loc = false →
          ∃ w, s.loadElem c m f x = .ok (w, loadConv c.e.sew fmt code (ofBytes (Memory.readBytes v.sto.mem t.loc sz))) ∧
            w.harts = v.harts))) ∧
    (∀ va u loc bs, (s.hart c.n).wordRead c.slot (va.toNat / 8) = none →
      s.loadAt c.n .vector (BitVec.ofNat 64 (8 * (va.toNat / 8))) 8 .read = .ok (u, loc, bs) →
      s.fetchPacked c va = .ok (u.updHart c.n fun h => h.keepWord ⟨c.slot, va.toNat / 8, loc, ofBytes bs⟩,
        [BitVec.ofNat 8 (imgGet (ofBytes bs) (8 * (va.toNat % 8)) 8)])) ∧
    (∀ va w, (s.hart c.n).wordRead c.slot (va.toNat / 8) = some w →
      s.fetchPacked c va = .ok (s, [BitVec.ofNat 8 (imgGet w (8 * (va.toNat % 8)) 8)])) ∧
    (∀ (h : Hart) (r : Run) (y : PackedWord), h.q.run = some r → (h.keepWord y).wordRead y.slot y.word = some y.val ∧
      ∀ w : Held, ((h.keepWord y).patchWords w).wordRead y.slot y.word =
        some (if w.over y.loc 8 = true then ofBytes (overlay [w] y.loc 8 (toBytes 8 y.val)) else y.val)) ∧
    (∀ w, storedOf c.e.sew code = .packed w → f ≠ .unit → ∃ a, s.loadElem c m f x = .error a ∧ a.cause = 0x04#8) ∧
    (storedOf c.e.sew code = .reserved → ∃ a, s.loadElem c m f x = .error a ∧ a.cause = 0x04#8)

/-- R178: what a stored value becomes in a register, by its code. -/
def LoadConversionRules : Prop :=
  ∀ (sew : Nat) (f : Fmt) (raw : Nat), sew ∈ [8, 16, 32, 64] →
    loadConv sew f 0 raw = (raw, 0) ∧
    (∀ code, 1 ≤ code → code ≤ 8 →
      let w := 8 * 2 ^ ((code - 1) / 2)
      raw < 2 ^ w → loadConv sew f code raw = (wrapped sew (asInt (decide (code % 2 = 0)) w raw), 0)) ∧
    loadConv sew f 9 raw = fmtF16.convert f ⟨.rne, 0⟩ false raw ∧ loadConv sew f 10 raw = fmtBF16.convert f ⟨.rne, 0⟩ false raw ∧
    loadConv sew f 11 raw = fmtF32.convert f ⟨.rne, 0⟩ false raw ∧ loadConv sew f 12 raw = fmtF64.convert f ⟨.rne, 0⟩ false raw ∧
    loadConv sew f 13 raw = fmtE4M3.convert f ⟨.rne, 0⟩ false raw ∧ loadConv sew f 14 raw = fmtE5M2.convert f ⟨.rne, 0⟩ false raw ∧
    loadConv sew f 15 raw = fmtE4M3.convert f ⟨.rne, 0⟩ false raw ∧ loadConv sew f 16 raw = fmtE5M2.convert f ⟨.rne, 0⟩ false raw ∧
    loadConv sew f 17 raw = fmtE3M2.convert f ⟨.rne, 0⟩ false raw ∧ loadConv sew f 18 raw = fmtE2M3.convert f ⟨.rne, 0⟩ false raw ∧
    loadConv sew f 19 raw = fmtE2M1.convert f ⟨.rne, 0⟩ false raw

/-- The vector loads, and how a loaded element is brought to SEW. -/
def Obligations.VectorLoads : Prop := LoadRules ∧ LoadConversionRules

/-- R177, R185, R187, R188: the stores; predicates and scales to and from memory; VLDK and VSTK, which move a block's scale entry
with the elements of the block. -/
def Obligations.VectorStores : Prop :=
  (∀ g vd vs2 m,
    let store (i : Instr) (f : AddrForm) : Prop :=
      VMem i everyElem (fun _ s => s) (enabledOnly g fun c x s => s.storeElem c m f vd none x) closeSlot
    store (.vst g vd m) .unit ∧ store (.vsts g vd m) .strided ∧ store (.vstx g vd vs2 m) (.indexed vs2)) ∧
  (∀ (s u : State) (c : Ctx) (m : MemForm) (f : AddrForm) (vd : VReg) (x sz : Nat),
    let code := (c.e.mfc.extractLsb' 10 5).toNat
    let va := match f with
      | .unit => baseOf c m + BitVec.ofNat 64 (x * sz)
      | .strided => stridedAt c m x
      | .indexed r => indexedAt c m r x s
    let r := storeConv c.e.sew (kindFmt c.e.sew c.e.fk) code ((s.hart c.n).rdE vd.toNat x c.e.sew)
      (((s.hart c.n).srnd c.e x).getD ⟨.rne, 0⟩) (c.e.mfc.getLsbD 20) .one
    storedOf c.e.sew code = .plain sz → va.toNat < 2 ^ 55 → va.toNat % sz = 0 → roundOk c x s →
    s.store c.n .vector va (toBytes sz r.1) = .ok u →
    s.storeElem c m f vd none x = .ok (u.updHart c.n fun h => h.flags r.2)) ∧
  (∀ g (pd : PReg) m,
    let at_ (c : Ctx) (x : Nat) : Word := baseOf c m + BitVec.ofNat 64 (x / 8)
    VMem (.pld g pd m) everyElem (fun _ s => s.updHart s.cur fun h => h.mark pd.toNat)
      (fun c x s => if (s.hart c.n).vguard g x then
          match s.fetchPacked c (at_ c x) with
          | .ok (t, b) => some (t.updHart c.n fun h => h.wrP pd.toNat x ((ofBytes b).testBit (x % 8)))
          | .error _ => none
        else some (if c.e.mp then s.updHart c.n fun h => h.wrP pd.toNat x true else s))
      (fun c s => s.updHart c.n fun h => h.ptail c.e pd.toNat) ∧
    VMem (.pst g pd m) everyElem (fun _ s => s)
      (enabledOnly g fun c x s =>
        s.mergeAll c [(at_ c x, 2 ^ (x % 8), if (s.hart c.n).pBit pd.toNat x then 2 ^ (x % 8) else 0)])
      closeSlot) ∧
  (∀ g (k : KReg) m,
    let at_ (c : Ctx) (x : Nat) : Word := stridedAt c m (x / 2 ^ c.e.shift)
    VMem (.kld g k m) blockStarts (fun lo s => if lo = 0 then s.updHart s.cur fun h => h.advance k else s)
      (fun c x s => if (s.hart c.n).vguard g x then
          match readByte s c.n (at_ c x) with
          | .ok (t, b) => some (t.updHart c.n fun h => h.setKEnt k (x / 2 ^ c.e.shift) b.toNat)
          | .error _ => none
        else some s)
      noTail ∧
    VMem (.kst g k m) blockStarts (fun _ s => s)
      (enabledOnly g fun c x s => writeByte s c.n (at_ c x) ((s.hart c.n).kEnt k (x / 2 ^ c.e.shift)))
      noTail) ∧
  (∀ g vd ks m, VMem (.vstk g vd ks m) everyElem (fun _ s => s)
    (enabledOnly g fun c x s =>
      match s.storeElem c m .unit vd (some ks) x with
      | .error a => .error a
      | .ok t =>
        if (t.hart c.n).marked c.slot (x / 2 ^ c.e.shift) then .ok t
        else match writeByte t c.n (scaleAt c x) ((t.hart c.n).kEnt ks (x / 2 ^ c.e.shift)) with
          | .error a => .error a
          | .ok u => .ok (u.updHart c.n fun h => h.setMark (markKey c.slot (x / 2 ^ c.e.shift))))
    closeSlot) ∧
  ∀ g vd kd m (s t : State), let i : Instr := .vldk g vd kd m
    VReady s i →
    let e := s.entry i
    let c : Ctx := ⟨s.cur, (s.me.entryFor i).2, e⟩
    let lo := s.me.vec.vstart
    let hi := s.groupTop i
    let s0 := s.clearAsked s.cur
    let run := elements (upTo lo hi) (fun x s => if (s.hart c.n).vguard g x then
        match s.loadElem c m .unit x with
        | .error _ => none
        | .ok (t, r) =>
          let t := t.updHart c.n fun h => (h.wrElem vd.toNat x e.sew r.1).flags r.2
          if (t.hart c.n).marked c.slot (x / 2 ^ e.shift) then some t
          else match readByte t c.n (scaleAt c x) with
            | .error _ => none
            | .ok (u, b) => some ((u.updHart c.n fun h => h.setKEnt kd (x / 2 ^ e.shift) b.toNat).updHart c.n fun h =>
                h.setMark (markKey c.slot (x / 2 ^ e.shift)))
      else some (if e.mp then s.updHart c.n fun h => h.wrElem vd.toNat x e.sew (2 ^ e.sew - 1) else s))
      (if lo = 0 then s0.updHart s.cur fun h => h.advance kd else s0)
    let bound (t : State) : State := t.updHart s.cur fun h =>
      if h.firstGroup lo then (h.unbind vd.toNat e.lmul).setBinding vd.toNat
        ⟨BitVec.ofNat 3 (fld e.vtype 12 10), true, false, kd, h.kgen kd⟩
      else { h with vec := { h.vec with vbr := s.me.vec.vbr } }
    let done (t : State) : State :=
      (if e.vl ≤ hi then t.updHart s.cur (tailBound e vd.toNat e.sew) else t).closeHeld s.cur fun _ => true
    (hi ≤ lo → exec i s = .next (done s0)) ∧
    (lo < hi → run = some t → exec i s = .next (done (bound t)))

/-- R189, R190, R193, R183: BFSEQ, BFTAB, STRMBIND and STRMUNBIND act once, when their convoy starts with VSTART = 0 and the
guard holds at element 0; VPREF, with no packed word of the hart open, changes no register and no byte; VLDZ writes the elements that it decodes, VL, where the
coded bytes end short of it, and the position after the last word taken, and stops where its table, its format or its first word
fails. BFSEQ to STRMUNBIND are stated for a word that stands alone (log 6), a VLDZ for a run that has just begun, whose strip is one
element group. -/
def Obligations.VectorOnce : Prop :=
  (∀ g (q : QReg) (o : OReg) m (s : State), s.Drained →
    let at_ (i : Instr) : Word := (if m.base then (s.entry i).xb else (s.entry i).xa) + (if m.off then (s.entry i).imm.signExtend 64 else 0)
    let on := s.me.vec.vstart = 0 ∧ s.me.vguard g 0 = true
    (VReady s (.bfseq g q m) → ¬ on → Acts (.bfseq g q m) s s.me) ∧
    (VReady s (.bftab g o m) → ¬ on → Acts (.bftab g o m) s s.me) ∧
    (∀ u bs, VReady s (.bfseq g q m) → on → s.fetchAll s.cur 8 [at_ (.bfseq g q m), at_ (.bfseq g q m) + 8] = .ok (u, bs) →
      exec (.bfseq g q m) s = .next (u.updHart s.cur fun h => h.wrQ q (BitVec.ofNat 128 (ofBytes bs)))) ∧
    (∀ u bs, VReady s (.bftab g o m) → on → (at_ (.bftab g o m)).toNat < 2 ^ 55 → (at_ (.bftab g o m)).toNat % 4 = 0 →
      s.load s.cur .vector (at_ (.bftab g o m)) 4 .read = .ok (u, bs) →
      exec (.bftab g o m) s = .next (u.updHart s.cur fun h => h.wrO o (BitVec.ofNat 32 (ofBytes bs))))) ∧
  (∀ g vd (m : MSlot) kd (s : State), s.Drained →
    let x := s.me.stream m.toNat
    let on := s.me.vec.vstart = 0 ∧ s.me.vguard g 0 = true
    let slot (i : Instr) (from_ : Prop) (f : Stream → Stream → Prop) : Prop := VReady s i → on → from_ →
      ∃ t, exec i s = .next t ∧ s.Same t s.cur ∧ t.me.vec = s.me.vec ∧ t.me.sc = s.me.sc ∧ f x (t.me.stream m.toNat)
    (VReady s (.strmbind g vd m kd) → ¬ on → Acts (.strmbind g vd m kd) s s.me) ∧
    (VReady s (.strmunbind g m) → ¬ on → Acts (.strmunbind g m) s s.me) ∧
    slot (.strmbind g vd m kd) (x.state = 1 ∨ x.state = 2) (fun x y => y = { x with state := 2, bound := true, vreg := vd, kd := kd }) ∧
    slot (.strmbind g vd m kd) (x.state = 3) (fun x y => y = { x with state := 3, bound := true, vreg := vd, kd := kd }) ∧
    (VReady s (.strmbind g vd m kd) → on → x.state = 0 ∨ x.state = 4 →
      exec (.strmbind g vd m kd) s =
        s.stopAt s.cur (s.entry (.strmbind g vd m kd)) 1 0 ⟨0x0B#8, BitVec.ofNat 64 x.err, 0, []⟩) ∧
    slot (.strmunbind g m) True (fun x y => y = if x.state = 2 then { x with state := 1, bound := false } else x)) ∧
  (∀ g strided m (s : State), s.Clean → s.me.q.asked = [] → (∀ w ∈ s.me.q.vheld, w.slot = 0) → VReady s (.vpref g strided m) →
    ∃ t, exec (.vpref g strided m) s = .next t ∧ t.sto.mem = s.sto.mem ∧ t.me = s.me) ∧
  ∀ vd sd (s : State), let i : Instr := .vldz vd sd
    (∀ r, s.me.q.run = some r → r.sw = [] ∧ r.zc = []) → VReady s i →
    let e := s.entry i
    let c : Ctx := ⟨s.cur, (s.me.entryFor i).2, e⟩
    (s.Drained → e.vl ≤ s.me.vec.vstart → Acts i s ((s.me.wrS sd e.xb).vtail e vd.toNat e.sew)) ∧
    -- a word that stands alone acts in the run of a convoy of one
    let run := if s.me.q.run = none then s.updHart s.cur fun h => { h with q := { h.q with run := some ⟨e, 0, [], false, [], []⟩ } } else s
    let decoded := Ctx.zcDecode c e.vl run
    let halted (a : AErr) : Prop := exec i s =
      match run.stopAt s.cur e c.slot 0 a with
      | .next t => .next (if s.me.q.run = none then t.updHart s.cur fun h => { h with q := { h.q with run := none } } else t)
      | o => o
    s.me.vec.vstart = 0 → 0 < e.vl → s.groupTop i = e.vl →
      (∀ a, decoded = .error a → halted a) ∧
      ∀ lens d fin, decoded = .ok (lens, d, fin) →
        let value (x : Nat) : Nat := (loadConv e.sew e.fmt e.ldfmt ((d.elems.reverse[x]?).getD 0)).1 % 2 ^ e.sew
        let done (n vl : Nat) : Prop := ∃ t, exec i s = .next t ∧ t.me.vec.vl = vl ∧ (sd ≠ 0#5 → t.me.rdS sd = BitVec.ofNat 64 d.pos) ∧
          (1 ≤ s.me.shape.g → ∀ x, x < n → t.me.rdE vd.toNat x e.sew = value x)
        (fin = .reached → done e.vl s.me.vec.vl) ∧
        (fin = .stop → done d.n (if s.me.vec.stripno = e.strip then d.n else s.me.vec.vl)) ∧
        (∀ a, fin = .fail a → d.n = 0 → halted a)

/-- R38 to R42, R44, R158, R197: where an element, a predicate bit, a scale entry and a tail lie, and that nothing else is
touched; a tail clears the records of the registers that it writes; that the tail of a word which commits no group reaches only
registers that are not clear, and no record, is the model's reading of R39 (log 9). Untouched are the other elements, the other registers, and everything of the hart that a vector destination does not name. -/
def Obligations.ElementWrites : Prop :=
  (∀ (h : Hart) (r i w x : Nat), w ∈ [8, 16, 32, 64] → 1 ≤ h.shape.g → r + i * w / h.vlen < 64 →
    let h' := h.wrElem r i w x
    h'.rdE r i w = x % 2 ^ w ∧ (∀ j, j ≠ i → h'.rdE r j w = h.rdE r j w) ∧
    (∀ q, q ≠ r + i * w / h.vlen → h'.rdV q = h.rdV q ∧ h'.binding q = h.binding q) ∧
    h'.binding (r + i * w / h.vlen) = Binding.clear ∧ h'.vec.vdirty.getLsbD (r + i * w / h.vlen) = true) ∧
  (∀ (h : Hart) (p i : Nat) (b : Bool), p ≠ 0 → p < 128 →
    (∀ j, ((h.wrP p i b).rdP p).testBit j = if j = i then b else (h.rdP p).testBit j) ∧
    (∀ q, q ≠ p → (h.wrP p i b).rdP q = h.rdP q) ∧ (h.wrP p i b).vec.plive.getLsbD p = true) ∧
  (∀ (h : Hart) (k : KReg) (j v : Nat),
    (h.setKEnt k j v).kEnt k j = v % 256 ∧ (∀ i, i ≠ j → (h.setKEnt k j v).kEnt k i = h.kEnt k i) ∧
    (∀ q, q ≠ k → ∀ i, (h.setKEnt k j v).kEnt q i = h.kEnt q i)) ∧
  (∀ (h : Hart) (done : Bool) (r n from_ : Nat), 1 ≤ h.shape.g → r + n ≤ 64 →
    let h' := h.wrTail done r n from_
    (∀ j b, j < n → b < h.vlen → (h'.rdV (r + j)).testBit b =
      (decide (from_ ≤ j * h.vlen + b) && (done || h.vec.vdirty.getLsbD (r + j)) || (h.rdV (r + j)).testBit b)) ∧
    (∀ q, q < r ∨ r + n ≤ q → h'.rdV q = h.rdV q ∧ h'.binding q = h.binding q) ∧
    (done = true → ∀ j, j < n → from_ < (j + 1) * h.vlen → h'.binding (r + j) = Binding.clear) ∧
    (done = false → h'.vec.vdirty = h.vec.vdirty ∧ h'.vec.vbr = h.vec.vbr)) ∧
  ∀ (h : Hart) (e : QEntry) (g : VG) (vd w lo hi : Nat) (op : Nat → Hart → FR),
    let h' := h.each lo hi fun x h => h.elem e g vd w x (op x)
    h'.sc = { h.sc with fflags := h'.sc.fflags } ∧ h.sc.fflags &&& h'.sc.fflags = h.sc.fflags ∧
    h'.vec = { h.vec with v := h'.vec.v, vdirty := h'.vec.vdirty, vbr := h'.vec.vbr, vhwb := h'.vec.vhwb } ∧
    h'.shape = h.shape ∧ h'.trap = h.trap ∧ h'.q = h.q ∧ h'.trc = h.trc ∧ h'.str = h.str ∧ h'.eng = h.eng ∧
    ∀ r, r < vd ∨ vd + hi * w / h.vlen < r → h'.rdV r = h.rdV r ∧ h'.binding r = h.binding r

/-- R236: MDRN, MDRNT and MPUT move bits between vd and the tile elements that r names; an enabled element whose row exceeds 31
or whose column exceeds 255 stops the convoy there with an illegal-instruction fault. -/
def Obligations.TileMoves : Prop :=
  ∀ g vd (t : TReg) (r : Sel3) (s : State),
    let at_ (e : QEntry) : Nat := match r with | .xa => e.xa.toNat | .xb => e.xb.toNat | .ximm => e.imm.toNat
    let core := s.core (coreOf s.cur)
    let lo := s.me.vec.vstart
    let inside (i : Instr) (place : QEntry → Nat → Nat × Nat) : Prop :=
      ∀ x, lo ≤ x → x < s.groupTop i → s.me.vguard g x = true → (place (s.entry i) x).1 ≤ 31 ∧ (place (s.entry i) x).2 ≤ 255
    let stops (i : Instr) (place : QEntry → Nat → Nat × Nat) : Prop :=
      VReady s i → lo < s.groupTop i → s.me.vguard g lo = true → 31 < (place (s.entry i) lo).1 ∨ 255 < (place (s.entry i) lo).2 →
        exec i s = s.stopAt s.cur (s.entry i) (s.me.entryFor i).2 lo ⟨0x01#8, wordOf i, 0, []⟩
    let rows (e : QEntry) (x : Nat) : Nat × Nat := (at_ e + x / 256, x % 256)
    let columns (e : QEntry) (x : Nat) : Nat × Nat := (x % 32, at_ e + x / 32)
    let drains (i : Instr) (place : QEntry → Nat → Nat × Nat) : Prop :=
      VReady s i → inside i place →
        let e := s.entry i
        let h := s.me.each lo (s.groupTop i) fun x h => h.elem e g vd.toNat e.sew x fun _ =>
          (core.tileElem t.toNat (place e x).1 (place e x).2, 0)
        Acts i s (if e.vl ≤ s.groupTop i then h.vtail e vd.toNat e.sew else h)
    drains (.mdrn g vd t r) rows ∧ drains (.mdrnt g vd t r) columns ∧
    stops (.mdrn g vd t r) rows ∧ stops (.mdrnt g vd t r) columns ∧ stops (.mput g vd t r) rows ∧
    (let i : Instr := .mput g vd t r
     VReady s i → inside i rows →
      ∃ u, exec i s = .next u ∧ u.harts = s.harts ∧ u.sto = s.sto ∧ (∀ k, k ≠ coreOf s.cur → u.core k = s.core k) ∧
        (∀ x, lo ≤ x → x < s.groupTop i → s.me.vguard g x = true →
          (u.core (coreOf s.cur)).tileElem t.toNat (rows (s.entry i) x).1 (rows (s.entry i) x).2 = s.me.rdE vd.toNat x 32) ∧
        ∀ row col, row < 32 → col < 256 → (∀ x, lo ≤ x → x < s.groupTop i → s.me.vguard g x = true → rows (s.entry i) x ≠ (row, col)) →
          (u.core (coreOf s.cur)).tileElem t.toNat row col = core.tileElem t.toNat row col)

/-- R212, R216, R219: a pass that meets no check at its start copies its sources, takes the entries of its sequence in order, and
in each entry the pairs in order that lie below VL; then the tail follows TP and BFSTART is 0. A pass over VL = 0 only ends.
A check that fails is its fault. At one node a comparator exchanges by its direction, and a reduction gives both ends the
combined value. -/
def Obligations.ButterflyPass : Prop :=
  (∀ g vd vs o q vc sw (s : State),
    let run (i : Instr) (kp : Bool) : Prop :=
      let p : Pass := ⟨g, vd, vs, o, q, vc, sw, kp⟩
      let e := s.entry i
      let x := passCtx s.me e p
      VReady s i → bfActive s.me.vec.bfstart = false →
        (∀ a, passCheck s.me e (wordOf i) p = some a → exec i s = s.stopAt s.cur e (s.me.entryFor i).2 s.me.vec.vstart a) ∧
        (passCheck s.me e (wordOf i) p = none → e.vl = 0 → Acts i s (x.finish s.me)) ∧
        (passCheck s.me e (wordOf i) p = none → e.vl ≠ 0 → (∀ j, j < seqEnd x.q → seqStage x.q j < 12) →
          Acts i s (x.finish ((upTo 0 (seqEnd x.q)).foldl (fun h j =>
            ((upTo 0 2048).filter fun n => pairLow n (seqStage x.q j) + 2 ^ seqStage x.q j < e.vl).foldl
              (fun h n => x.pair j (seqStage x.q j) n h) h) (x.copy s.me))))
    run (.bfpass g vd vs o q vc sw) false ∧ run (.bfpassKp g vd vs o q vc sw) true) ∧
  ∀ (x : PassCtx) (c : Bool) (s i a b : Nat), a < 2 ^ x.e.sew → b < 2 ^ x.e.sew →
    (x.o.kind = 0 → x.o.type = 1 →
      x.node c s i [a] [b] = if (if c then a < b else b < a) then ([b], [a], 0) else ([a], [b], 0)) ∧
    (x.o.kind = 3 → x.o.type = 1 → x.o.comb = 1 →
      x.node c s i [a] [b] = ([(a + b) % 2 ^ x.e.sew], [(a + b) % 2 ^ x.e.sew], 0))

/-! ### Harts and the dispatcher as events -/

/-- R18, R24, R29, R30 and R85: a scalar word that stands at the commit point commits with its own meaning, an ADD for one, and a word that
decodes to nothing raises an illegal-instruction fault (R136); the oldest queued convoy becomes the started one, with VSTART as it stands, or takes the fault that it holds since its hand-off, with
TELEM from VSTART, or stops at a breakpoint (R299), a pass waits for the earlier matrix commands that it meets (R221), and nothing starts
once its gang is to stop (R319); a decision of the sequencer
grants the ready harts whose lane groups are disjoint, and counts the others as passed over; a walk leaves a TLB entry. -/
def Obligations.HartEvents : Prop :=
  (∀ (s t : State) (n : Nat) (w : Word) (i : Instr),
    s.mayIssue n = true → (s.hart n).inConvoyStep = false → (s.hart n).atCommit = true → s.fetchWord n (s.hart n).sc.pc = .ok (t, w) → isHeader w = false →
    decodeIn .sc w = .ok i → (t.hart n).bpBefore (t.hart n).sc.pc 0 = none →
    (exec (.scalarCommit n) s = Out.andThen (exec i { t with cur := n }) fun u => .next (u.stepDone n)) ∧
    ∀ g sd sa sb, i = .add g sd sa sb → (t.hart n).atCommit = true → (t.hart n).guard g = true →
      (t.hart n).pending [sd, sa, sb] = false → (t.hart n).q.step = none →
      ∃ u, exec (.scalarCommit n) s = .next u ∧ (∀ m, m ≠ n → u.hart m = t.hart m) ∧
        u.hart n = ((t.hart n).wrS sd ((t.hart n).rdS sa + (t.hart n).rdS sb)).nextPc) ∧
  (∀ (s t : State) (n : Nat) (w : Word),
    s.mayIssue n = true → (s.hart n).inConvoyStep = false → (s.hart n).atCommit = true → s.fetchWord n (s.hart n).sc.pc = .ok (t, w) → isHeader w = false →
    (decodeIn .sc w).toOption = none → (t.hart n).bpBefore (t.hart n).sc.pc 0 = none → (t.hart n).q.run = none →
    exec (.scalarCommit n) s = t.takeTrap n ⟨0x01#8, w, 0, 0, 0, 0⟩ (t.hart n).sc.pc none (t.hart n).sc.pc false) ∧
  (∀ (s : State) (n : Nat) (e : QEntry) (rest : List QEntry),
    let h := s.hart n
    let lo := h.vec.vstart
    h.q.status = .running → h.q.run = none → h.q.queue = e :: rest → h.q.vvFence = none →
    (s.goesOn n = false → exec (.convoyStart n) s = .next s) ∧
    (∀ b, s.goesOn n = true → h.bpStart e = some (b, none) →
      exec (.convoyStart n) s = .next (s.debugStop n 1 b 0 (some (e.addr, none)))) ∧
    (∀ x, s.goesOn n = true → h.bpStart e = none → e.fault = some x →
      exec (.convoyStart n) s =
        (s.setHart n { h with q := { h.q with queue := rest } }).takeTrap n { x with telem := lo } e.addr (some (e, e.vl))
          (Hart.resumePoint { h with q := { h.q with queue := rest } }) e.isPass) ∧
    (s.goesOn n = true → h.bpStart e = none → e.fault = none → h.consumed e = [] →
      let waits : Prop := e.isPass = true ∧ s.convoyHeld n e 0 e.vl = true
      (waits → exec (.convoyStart n) s = .next s) ∧
      (¬ waits → startErrs n e s = [] →
        exec (.convoyStart n) s =
          .next ((startAll n e ((s.setHart n { h with q := { h.q with
            queue := rest, run := some ⟨e, lo, e.wrote, false, [], []⟩
            skipBp := if h.q.skipBp = some (e.addr, none) then none else h.q.skipBp } }).clearAsked n)).countGroup n 0 true (0, 0, 0))))) ∧
  (∀ (s : State) (c : Nat),
    let passed (s : State) (n k : Nat) : State := s.updHart n fun h => { h with q := { h.q with passed := k } }
    (s.readyHarts c = [] → exec (.sequencerDecision c) s = .next s) ∧
    (∀ a, s.readyHarts c = [a] → exec (.sequencerDecision c) s = (passed s a 0).runOne a) ∧
    (∀ a r, s.readyHarts c = [a] → (s.hart a).q.run = some r → passIn r.e = none → r.e.vl ≤ (s.hart a).vec.vstart →
      exec (.sequencerDecision c) s = .next ((passed s a 0).retire_ a r)) ∧
    (∀ a b, s.readyHarts c = [a, b] → a ≠ b → (s.hart b).shape.lanes &&& (s.hart a).shape.lanes ≠ 0 →
      exec (.sequencerDecision c) s = (passed (passed s a 0) b ((s.hart b).q.passed + 1)).runOne a) ∧
    (∀ a b, s.readyHarts c = [a, b] → a ≠ b → (s.hart b).shape.lanes &&& (s.hart a).shape.lanes = 0 →
      exec (.sequencerDecision c) s = Out.andThen ((passed (passed s a 0) b 0).runOne a) fun t => t.runOne b)) ∧
  ∀ (s : State) (core asid : Nat) (va : Word),
    let walk := s.walkAsid (s.coreOwner core) asid va.toNat
    (∀ f, walk = .ok f →
      ∃ t, exec (.tableWalk core asid va) s = .next t ∧
        (∃ rest, (t.core core).tlb = ⟨BitVec.ofNat 8 asid, f.pte.getLsbD 7, va.toNat / 2 ^ levelBits f.level * 2 ^ levelBits f.level,
          levelBits f.level, f.pte, f.at_, f.level⟩ :: rest) ∧
        (s.sto.latent = [] → t.sto = s.sto ∧ t.harts = s.harts ∧ ∀ k, k ≠ core → t.core k = s.core k)) ∧
    ∀ e, walk = .error e → exec (.tableWalk core asid va) s = .next (s.seen e.seen) ∧
      (s.sto.latent = [] → e.reason ≠ 9 → exec (.tableWalk core asid va) s = .next s)

/-- R256, R318, R319 and R321: an interrupt waits at its hart and sets the event latch, and a hart that runs with IE = 1 takes the
oldest one, unless a breakpoint, an EXIT or a synchronous fault of the next issue unit comes first. -/
def InterruptRules : Prop :=
  ∀ (s : State) (n : Nat) (src : Word),
    ((s.hart n).q.status = .free → exec (.interrupt n src) s = .next s) ∧
    ((s.hart n).q.status ≠ .free →
      ∃ t, exec (.interrupt n src) s = .next t ∧ s.Same t n ∧ (t.hart n).q.irq = (s.hart n).q.irq ++ [src] ∧
        (t.hart n).sc = { (s.hart n).sc with latch := true }) ∧
    (∀ rest, (s.hart n).q.irq = src :: rest → (s.hart n).q.status = .running → (s.hart n).q.step = none →
      ((s.hart n).trap.tstat.getLsbD 0 = false → s.takeIrq n = none) ∧
      ((s.hart n).trap.tstat.getLsbD 0 = true → (s.hart n).q.run = none → (s.hart n).q.queue = [] →
        s.takeIrq n = some ((s.updHart n fun h => { h with q := { h.q with irq := rest } }).takeTrap n ⟨0x1C#8, src, 0, 0, 0, 0⟩
          (s.hart n).sc.pc none (s.hart n).sc.pc false))) ∧
    ∀ (o : Host.Outcome State Fault Refusal) (t : State), (s.hart n).q.status = .running →
      (s.gang (s.hart n).shape.launch).stopReq = none → s.paused n = false → s.takeIrq n = some o → s.ownTurn n = .next t →
      let entered : Prop := (t.hart n).q.stopped.length = (s.hart n).q.stopped.length + 1
      let earlier : Prop := (t.hart n).q.status ≠ .running ∨ (entered ∧ (t.hart n).trap.tcause ∉ [0x18#8, 0x19#8])
      (earlier → s.hartTurn n = .next t) ∧ (¬ earlier → s.hartTurn n = o)

/-- R321, R326: a termination ends the hart, once what comes first at its next issue unit has happened, with queue and streams
empty; a hart whose EXIT came first exits (log 29). A slate that waits leaves its queue. -/
def TerminationRules : Prop :=
  (∀ (s : State) (n : Nat), let u := s.first n
    ((s.hart n).q.status ≠ .running → u = s) ∧
    ((s.hart n).q.status = .free → exec (.termination (.hart n)) s = .next s) ∧
    ((u.hart n).q.status = .exiting → exec (.termination (.hart n)) s = .next u) ∧
    ((u.hart n).q.status ≠ .exiting → (u.hart n).q.status ≠ .free →
      ∃ t, exec (.termination (.hart n)) s = .next t ∧ (t.hart n).q.status = .free ∧ (t.hart n).q.queue = [] ∧
        (t.hart n).q.run = none ∧ (t.hart n).str = [])) ∧
  ∀ (s : State) (l p : Nat) (q : QSlate),
    s.gangs = [] → s.partsList = [p] → (s.part p).queue.find? (fun x => x.launch == l) = some q → slateWord q.words 3 = 0 →
    ∃ t, exec (.termination (.slate l)) s = .next t ∧ (t.part p).queue = (s.part p).queue.filter fun x => x.launch != l

/-- R239, R263, R298, R321, R327, R333 and R338: a pre-empted gang is saved at the front of its partition's queue, its members as they
stand at their stop points; a gang with a member that a debugger has stopped is not pre-empted, nor, by the model's choice, one with a
member that exits (log 43). A saved member runs on from what it was, with the latch clear and its o and q registers at their entry
values, but for the operator and the sequence of a pass that it resumes (R220, log 18). What the image of a member holds is stated of members with no write held back, no matrix command and no engine command. -/
def PreemptionRules : Prop :=
  (∀ (s : State) (l : Nat), s.mayPreempt (s.gang l) = false → exec (.preemption l) s = .next s) ∧
  (∀ (s : State) (l : Nat), s.mayPreempt (s.gang l) = true →
    let u := ((s.gang l).liveMembers.map (s.gang l).memberHart).foldl State.first s
    let x := u.gang l
    ((x.cores = [] ∨ u.mayPreempt x = false ∨ x.stopReq ≠ none) → exec (.preemption l) s = .next u) ∧
    (x.cores ≠ [] → u.mayPreempt x = true → x.stopReq = none →
      ∃ t q img, exec (.preemption l) s = .next t ∧ t.gang l = Gang.none_ ∧
        (t.part (slatePart q.words)).queue.head? = some q ∧ q.image = some img ∧ img.harts.length = x.members.length ∧
        (∀ m, m < x.members.length → x.live.getLsbD m = false → img.harts[m]? = some none) ∧
        (x.members.Nodup → ∀ m, m < x.members.length → x.live.getLsbD m = true →
          let n := x.memberHart m
          let h := u.hart n
          h.q.sheld = [] → h.q.vheld = [] → h.q.mheld = [] → h.draining = false → (∀ e, e < 4 → h.headCmd e = none) →
          (∀ k, (u.core (coreOf k)).mrun = none ∧ (u.core (coreOf k)).mq = []) →
          (∀ k, k ≠ m → x.live.getLsbD k = true → (u.hart (x.memberHart k)).q.sheld = [] ∧ (u.hart (x.memberHart k)).q.vheld = [] ∧
            (u.hart (x.memberHart k)).q.mheld = [] ∧ (u.hart (x.memberHart k)).draining = false ∧
            ∀ e, e < 4 → (u.hart (x.memberHart k)).headCmd e = none) →
          img.harts[m]? = some (some { h with
            sc := { h.sc with pc := h.resumePoint }
            q := { h.q with run := none, queue := (match h.stopConv with | some e => [h.saved e] | none => []), region := [] } }) ∧
          img.cmds[m]? = some []))) ∧
  (∀ (s : State) (p : Nat) (q : QSlate) (spot : Spot), q.image ≠ none → s.findSpot q p = some spot → s.refusal q spot = none →
    s.settleHead p false q = .acted ((s.unqueue p q.launch).place q spot)) ∧
  ∀ (s : State) (q : QSlate) (i : Image) (spot : Spot) (m n : Nat) (saved : Hart),
    q.image = some i → (m, n) ∈ s.seats q spot.cores → ((s.seats q spot.cores).map (·.2)).Nodup → i.harts[m]? = some (some saved) →
    let h := (s.place q spot).hart n
    h.sc = { saved.sc with latch := false } ∧ h.vec = { saved.vec with o := h.vec.o, q := h.vec.q } ∧
    (saved.stoppedPass = none → h.vec.o = [] ∧ h.vec.q = []) ∧
    (∀ p, saved.stoppedPass = some p → h.rdO p.o = saved.rdO p.o ∧ h.rdQ p.q = saved.rdQ p.q ∧
      (∀ r, r ≠ p.o → h.rdO r = 0) ∧ ∀ r, r ≠ p.q → h.rdQ r = 0xF0F0F0F0F0F0F0F0F0F0F0F0F0F0F0F0#128) ∧
    h.trap = saved.trap ∧ h.str = saved.str ∧
    h.eng = saved.eng ∧ h.q.status = .running ∧ h.q.queue = saved.q.queue ∧ h.q.stopped = saved.q.stopped ∧ h.q.irq = saved.q.irq ∧
    ∃ lanes g grant tcm spad bst,
      h.shape = { saved.shape with lanes := lanes, g := g, grant := grant, tcm := tcm, spad := spad, bst := bst }

/-- R262: a quantum counts for a ready slate that waits, unless a DEP was unmet during it. -/
def QuantumRules : Prop :=
  ∀ (s : State),
    (s.gangs = [] → s.parts = [] → exec .schedulingQuantum s = .next { s with quanta := s.quanta + 1 }) ∧
    (∀ (p : Nat) (x : Partition) (q : QSlate),
      let prio := slatePrio q.words
      let q' := if q.unmet then { q with unmet := false } else
        { q with waited := q.waited + 1, eff := if prio = 7 then 7 else max q.eff (min 6 (prio + (q.waited + 1) / 8)) }
      let t := { s with quanta := s.quanta + 1, parts := [(p, { x with queue := [q'] })] }
      s.gangs = [] → s.parts = [(p, x)] → x.exists_ = true → x.queue = [q] → q.image = none → q.ready = true →
      slateWord q.words 4 = 0 → slateWord q.words 5 = 0 → slateCond q.words = false → q'.eff < 7 → t.dispatch = none →
      exec .schedulingQuantum s = .next t)

/-- Interrupts, terminations, pre-emption and the quantum. -/
def Obligations.StopsAndQuanta : Prop := InterruptRules ∧ TerminationRules ∧ PreemptionRules ∧ QuantumRules

/-! ### Engines (18, 24, 26) -/

/-- A command with its entries stands at the head of an engine's queue, and the engine may start it (R248, R281). -/
def Stands (s : State) (n eng : Nat) (c : List Word) : Prop :=
  (s.hart n).headCmd eng = some c ∧ c ≠ [] ∧ (s.hart n).engineFree eng = true ∧ s.paused n = false

/-- OP, TAG and the operand field of a command's first entry (R248). -/
def opOf (l : List Word) : Nat := (((l[0]?).getD 0).extractLsb' 56 8).toNat
def tagOf (l : List Word) : Nat := (((l[0]?).getD 0).extractLsb' 48 8).toNat
def lowOf (l : List Word) : Nat := (((l[0]?).getD 0).extractLsb' 0 48).toNat
def entryAt (l : List Word) (k : Nat) : Word := (l[k]?).getD 0

/-- Entry 0 of a result (R248): STATUS, TAG, DONE. -/
def resultOf (status tag done : Nat) : Word := BitVec.ofNat 64 (status * 2 ^ 56 + tag * 2 ^ 48 + done)

/-- The queues of an engine after a command of `k` entries has ended with the entries `r`, for which there is room (R248). -/
def Posted (h t : Hart) (eng k : Nat) (r : List Word) : Prop :=
  t.engine eng = { h.engine eng with cmd := (h.engine eng).cmd.drop k, res := (h.engine eng).res ++ r } ∧ t.sc.latch = true

/-- R248, R249, R304 and R364: COPY reads its bytes, up to the first that fails, and writes what it has read, in ascending order, or in
descending order where the destination begins inside the source, in aligned units of at most 8 bytes (the division into units and
the reads before the writes are the model's, log 70); FILL repeats its pattern by
address; both end with one result entry that counts the bytes done, whose status is 0
exactly when all were; NOTE has no effect but its result; DRAIN, which reaches no TCM, writes whole records and ends when the next one does not fit;
a reserved OP ends with status 4, on engines 1 and 2 with outcome 5 beside it. -/
def Obligations.EngineCommands : Prop :=
  (∀ (s : State) (n : Nat) (c : List Word), Stands s n 0 c →
    let len := lowOf c
    let src := entryAt c 1
    let dst := entryAt c 2
    let ends (r : State × Nat × Option AErr) : Out :=
      .next (r.1.updHart n fun h => h.endCmd 0 (match r.2.2 with
        | none => 0
        | some e => if e.cause = 0x05#8 ∨ e.cause = 0x08#8 then 1 else if e.cause = 0x20#8 ∨ e.cause = 0x21#8 then 3 else 2)
        (tagOf c) r.2.1)
    let full (r : State × Nat × Option AErr) : Prop := r.2.1 ≤ len ∧ (r.2.2 = none ↔ r.2.1 = len)
    (opOf c = 1 →
      let down := decide (src.toNat < dst.toNat ∧ dst.toNat < src.toNat + len)
      let r := copyBytes (s.who n) src dst len down s
      exec (.copy n) s = ends r ∧ full r) ∧
    (opOf c = 2 →
      let r := fillBytes (s.who n) (entryAt c 1) dst len s len 0
      exec (.fill n) s = ends r ∧ full r) ∧
    (opOf c = 3 → (s.hart n).q.status ≠ .free → ((s.hart n).engine 0).res.length < 16 →
      ∃ t, exec (.note n) s = .next t ∧ s.Same t n ∧ Posted (s.hart n) (t.hart n) 0 1 [resultOf 0 (tagOf c) 0])) ∧
  (∀ a n : Nat, 0 < n → unitUp a n ∈ [1, 2, 4, 8] ∧ unitUp a n ≤ n ∧ a % unitUp a n = 0) ∧
  (∀ (w : Who) (src dst : Word) (len k : Nat) (s u v : State) (bs : List Byte) (e x : Option AErr),
    let far := BitVec.ofNat 64 len
    (State.getUp w len s src len = (u, bs, e) → State.putUp w bs.length u dst bs 0 = (v, k, x) →
      copyBytes w src dst len false s = (v, k, if x = none then e else x)) ∧
    (State.getDown w len s (src + far) len = (u, bs, e) → State.putDown w bs.length u (dst + far) bs 0 = (v, k, x) →
      copyBytes w src dst len true s = (v, k, if x = none then e else x))) ∧
  (∀ (w : Who) (fuel n : Nat) (a : Word) (s u : State) (bs : List Byte), 0 < n →
    let k := unitUp a.toNat n
    (s.readUnit w a k = .ok (u, bs) →
      State.getUp w (fuel + 1) s a n =
        let r := State.getUp w fuel u (a + BitVec.ofNat 64 k) (n - k)
        (r.1, bs ++ r.2.1, r.2.2)) ∧
    (s.readUnit w (a - BitVec.ofNat 64 k) k = .ok (u, bs) →
      State.getDown w (fuel + 1) s a n =
        let r := State.getDown w fuel u (a - BitVec.ofNat 64 k) (n - k)
        (r.1, r.2.1 ++ bs, r.2.2)) ∧
    (∀ e, s.readUnit w a k = .error e → State.getUp w (fuel + 1) s a n = (s.seen e.found, [], some e)) ∧
    (∀ e, s.readUnit w (a - BitVec.ofNat 64 k) k = .error e → State.getDown w (fuel + 1) s a n = (s.seen e.found, [], some e))) ∧
  (∀ (w : Who) (fuel done : Nat) (a : Word) (bs : List Byte) (s v : State), bs ≠ [] →
    let k := unitUp a.toNat bs.length
    (s.writeUnit w a (bs.take k) = .ok v →
      State.putUp w (fuel + 1) s a bs done = State.putUp w fuel v (a + BitVec.ofNat 64 k) (bs.drop k) (done + k)) ∧
    (s.writeUnit w (a - BitVec.ofNat 64 k) (bs.drop (bs.length - k)) = .ok v →
      State.putDown w (fuel + 1) s a bs done =
        State.putDown w fuel v (a - BitVec.ofNat 64 k) (bs.take (bs.length - k)) (done + k)) ∧
    (∀ e, s.writeUnit w a (bs.take k) = .error e → State.putUp w (fuel + 1) s a bs done = (s.seen e.found, done, some e)) ∧
    (∀ e, s.writeUnit w (a - BitVec.ofNat 64 k) (bs.drop (bs.length - k)) = .error e →
      State.putDown w (fuel + 1) s a bs done = (s.seen e.found, done, some e))) ∧
  (∀ (w : Who) (pattern dst : Word) (fuel left k : Nat) (s v : State), 0 < left →
    let a := dst + BitVec.ofNat 64 k
    let n := unitUp a.toNat left
    s.writeUnit w a ((List.range n).map fun i => pattern.extractLsb' (8 * ((a + BitVec.ofNat 64 i).toNat % 8)) 8) = .ok v →
    fillBytes w pattern dst (fuel + 1) s left k = fillBytes w pattern dst fuel v (left - n) (k + n)) ∧
  (∀ (s : State) (n : Nat) (c : List Word), Stands s n 3 c → opOf c = 0x10 → (s.hart n).trc.drained = 0 → (s.hart n).trc.lost = 0 →
    ((s.hart n).trc.recs = [] → exec (.drain n) s = .next s) ∧
    (∀ r rest, (s.hart n).trc.recs = r :: rest → lowOf c < 32 → (s.hart n).q.status ≠ .free →
      ((s.hart n).engine 3).cmd.length = 2 → ((s.hart n).engine 3).res.length < 16 →
      ∃ t, exec (.drain n) s = .next t ∧ s.Same t n ∧ Posted (s.hart n) (t.hart n) 3 2 [resultOf 0 (tagOf c) 0] ∧
        (t.hart n).trc.recs = [] ∧ (t.hart n).trc.lost = rest.length + 1) ∧
    (∀ r u, (s.hart n).trc.recs = [r] → 32 ≤ lowOf c → u.hart n = s.hart n →
      s.putBytes { (s.who n) with tcm := false } (entryAt c 1)
        (toBytes 8 r.w0.toNat ++ toBytes 8 r.w1.toNat ++ toBytes 8 r.w2.toNat ++ toBytes 8 r.w3.toNat) = (u, 32, none) →
      ∃ t, exec (.drain n) s = .next t ∧ t.sto = u.sto ∧ (t.hart n).trc.recs = [] ∧ (t.hart n).trc.drained = 32)) ∧
  ∀ (s : State) (n : Nat) (eng : BitVec 2) (c : List Word), Stands s n eng.toNat c → cmdKnown eng.toNat (opOf c) = false →
    (s.hart n).q.status ≠ .free → ((s.hart n).engine eng.toNat).res.length + 2 ≤ 16 →
    ∃ t, exec (.engineReservedOp n eng) s = .next t ∧ s.Same t n ∧
      Posted (s.hart n) (t.hart n) eng.toNat 1
        (resultOf 4 (tagOf c) 0 :: if eng = 1#2 ∨ eng = 2#2 then [0x0500000000000000#64] else [])

/-! ### Links (25_network_and_links.md, 34) -/

/-- The command that starts: who pushed it, its context and its entries. -/
def pendingOf (s : State) (n eng : Nat) (c : List Word) : Pending :=
  let h := s.hart n
  ⟨h.shape.launch, h.shape.hartid, h.shape.asid.toNat, decide (h.sc.mode = .user), h.shape.part, eng, c⟩

/-- R286, R287, R288, R291 and R292, the commands of engine 2: each leaves its queue and ends with outcome 5 when it is
malformed, and with 4 when it names no session of its partition; otherwise OPEN begins a handshake under a fresh number,
CLOSE ends the session, REKEY begins a handshake once none runs and no frame is unacknowledged, SEND queues the message that
it read, and RECV takes the next message, or waits for it. A command that ends posts two entries. Outcome 5 of an OPEN while 1,024
sessions stand, and the wait of a REKEY for the acknowledgement of every frame, are the model's choices (log 13). -/
def Obligations.LinkCommands : Prop :=
  (∀ (s : State) (p : Pending) (status outcome mask done n : Nat), s.memberAt p.launch p.member = some n →
    (s.hart n).q.status ≠ .free → ((s.hart n).engine p.eng).fin = [] → ((s.hart n).engine p.eng).res.length ≤ 14 →
    status < 256 → outcome < 256 → mask < 2 ^ 48 → done < 2 ^ 48 →
    ∃ t, s.endPending p status outcome mask done = t ∧ s.Same t n ∧
      Posted (s.hart n) (t.hart n) p.eng 0 [resultOf status (tagOf p.entries) done, BitVec.ofNat 64 (outcome * 2 ^ 56 + mask)]) ∧
  ∀ (s : State) (n : Nat) (c : List Word), Stands s n 2 c →
    let p := pendingOf s n 2 c
    let s1 := s.updHart n fun h => h.popCmd 2
    let e := lowOf c
    let ends (outcome : Nat) : Out := .next (s1.endPending p 0 outcome 0 0)
    let owned (sid : Nat) : Prop := s1.hasSession sid = true ∧ (s1.session sid).part = p.part
    (opOf c = 0x30 →
      let port := e / 2 ^ 44
      let bad : Prop := e % 2 ^ 32 ≠ 0 ∨ e / 2 ^ 42 % 4 ≠ 0 ∨ s1.portPart port ≠ some p.part ∨ 1024 ≤ s1.links.sessions.length
      (bad → exec (.linkOpen n) s = ends 5) ∧
      (¬ bad → ∃ t, exec (.linkOpen n) s = .next t ∧
        let x := t.session s1.freshSid.1
        x.port = port ∧ x.peer = e / 2 ^ 32 % 1024 ∧ x.part = p.part ∧ x.initiator = true ∧ x.opened = false ∧ x.opener = some p ∧
          ∃ h, x.hs = some h ∧ h.initiator = true ∧ ((s1.port port).up = true → ∃ f, t.links.sent = s1.links.sent ++ [f] ∧ f.port = port ∧ f.via = s1.carriage x))) ∧
    (opOf c = 0x31 →
      let sid := e % 65536
      (65536 ≤ e → exec (.linkClose n) s = ends 5) ∧
      (e < 65536 → ¬ owned sid → exec (.linkClose n) s = ends 4) ∧
      (e < 65536 → owned sid →
        let s2 := if (s1.session sid).opened then (s1.protect sid 3 0 []).1 else s1
        exec (.linkClose n) s = .next ((s2.endSession sid 4).endPending p 0 0 0 0))) ∧
    (opOf c = 0x32 →
      let sid := e % 65536
      let x := s.session sid
      (x.opened = true → x.part = p.part → (x.hs ≠ none ∨ x.unacked ≠ []) → exec (.rekey n) s = .next s) ∧
      (x.opened = false → exec (.rekey n) s = ends (if 65536 ≤ e then 5 else 4)) ∧
      (owned sid → x.opened = true → x.hs = none → x.unacked = [] → e < 65536 →
        ∃ t h, exec (.rekey n) s = .next t ∧ (t.session sid).hs = some h ∧ h.initiator = true ∧ h.cmd = some p ∧
          (t.session sid).opened = true ∧ (t.session sid).keys = x.keys)) ∧
    (opOf c = 0x33 →
      let sid := e / 2 ^ 32
      let len := e % 2 ^ 32
      let w := entryAt c 2
      (s1.sendBad p.part w len = true → exec (.send n) s = ends 5) ∧
      (s1.sendBad p.part w len = false → ¬ owned sid → exec (.send n) s = ends 4) ∧
      (∀ u bs, s1.sendBad p.part w len = false → owned sid → s1.getBytes (s1.pendWho p) (entryAt c 1) len = .ok (u, bs) →
        let m := messageBytes (wireFmt w) ⟨wireRnd w == 5, 0, 0⟩ bs
        let q : Sending := ⟨some p, runsOf (chunkSize (wireZc w)) m.length m, wireZc w⟩
        exec (.send n) s = .next ((u.updSession sid fun x => { x with sends := x.sends ++ [q] }).pumpAll sid)) ∧
      (∀ u er, s1.sendBad p.part w len = false → owned sid → s1.getBytes (s1.pendWho p) (entryAt c 1) len = .error (u, er) →
        exec (.send n) s = .next (u.failPending p er 0 0))) ∧
    (opOf c = 0x34 →
      let sid := e / 2 ^ 32
      (entryAt c 2 ≠ 0 → exec (.recv n) s = ends 5) ∧
      (entryAt c 2 = 0 → ¬ owned sid → exec (.recv n) s = ends 4) ∧
      (entryAt c 2 = 0 → owned sid →
        let s2 := s1.updSession sid fun x => { x with recvs := x.recvs ++ [p] }
        ((s1.session sid).inbox = [] → exec (.recv n) s = .next s2) ∧
        ∀ m ms, (s1.session sid).recvs = [] → (s1.session sid).inbox = m :: ms →
          let top := e % 2 ^ 32
          let s3 := s2.updSession sid fun x => { x with recvs := [], inbox := ms }
          ∀ u k, s3.putBytes (s3.pendWho p) (entryAt c 1) (m.take top) = (u, k, none) →
            exec (.recv n) s = .next (u.endPending p 0 (if top < m.length then 8 else 0) 0 k)))

/-- R373, R374, R284: a lane's loss takes the spare and begins a retraining; with the spare spent the port goes down. -/
def LaneLost (i : Instr) (port : Nat) : Prop :=
  ∀ s : State,
    ((s.port port).up = false → exec i s = .next s) ∧
    ((s.port port).up = true → (s.port port).spareUsed = false →
      ∃ t, exec i s = .next t ∧ t.port port = ⟨true, true, true⟩ ∧ ∀ q, q ≠ port → t.port q = s.port q) ∧
    ((s.port port).up = true → (s.port port).spareUsed = true → exec i s = .next (s.portDown port))

/-- R284 to R288, R290, R292, R373 and R374: a frame that its checks do not accept is dropped; an accepted data frame is marked,
acknowledged and delivered; an acknowledgement frees what it covers; handshake messages give keys, after which SEQ restarts at
1; a signature that fails ends an OPEN with outcome 6, and a REKEY with 6, its session failing with reason 4; a close frame ends
the session, with reason 5 where commands wait on it; the timers resend, or end sessions with the reasons of R374. The model's
choices (log 13): the payload of an acknowledgement, which tells its sender's floor too; that a frame which came before is
acknowledged again, and that an acknowledgement follows each resent frame; SEQ of a handshake frame as the session number; what the
handshake's signatures cover; 16 resends, and 1,024 sessions. -/
def Obligations.LinkEvents : Prop :=
  (∀ (s : State) (port : Nat) (f : List Byte),
    exec (.reservedKindFrame port f) s = .next s ∧
    (s.accept port 0 f = none → exec (.dataFrame port f) s = .next s) ∧
    (s.accept port 1 f = none → exec (.acknowledgement port f) s = .next s) ∧
    (s.accept port 3 f = none → exec (.closeFrame port f) s = .next s) ∧
    (∀ sid x p, s.accept port 0 f = some (sid, x, true, p) → (s.session sid).recvs = [] → (s.session sid).came = [] →
      let y := (s.session sid).mark sid (s.session sid).rxNext ⟨x.seq, x.tg, p⟩
      y.came = [] → ∃ t g, exec (.dataFrame port f) s = .next t ∧ t.session sid = { y with txSeq := y.txSeq + 1 } ∧
        t.links.sent = s.links.sent ++ [g] ∧ g.port = port) ∧
    (∀ sid x p, s.accept port 0 f = some (sid, x, false, p) → (s.session sid).came = [] →
      ∃ t g, exec (.dataFrame port f) s = .next t ∧ t.session sid = { s.session sid with txSeq := (s.session sid).txSeq + 1 } ∧
        t.links.sent = s.links.sent ++ [g] ∧ g.port = port) ∧
    (∀ sid x p, s.accept port 1 f = some (sid, x, false, p) → exec (.acknowledgement port f) s = .next s) ∧
    (∀ sid x p, s.accept port 1 f = some (sid, x, true, p) → (s.session sid).sends = [] → (s.session sid).hs = none →
      ∃ t, exec (.acknowledgement port f) s = .next t ∧
        let y := (s.session sid).mark sid (ofBytes ((p.drop 6).take 6)) ⟨x.seq, 0, []⟩
        (t.session sid).unacked = (s.session sid).unacked.filter (fun u => decide (ofBytes (p.take 6) < u.seq)) ∧
        (t.session sid).rxNext = y.rxNext ∧ (t.session sid).rxSeen = y.rxSeen) ∧
    (∀ sid x p, s.accept port 3 f = some (sid, x, false, p) → exec (.closeFrame port f) s = .next s) ∧
    (∀ sid x p, s.accept port 3 f = some (sid, x, true, p) →
      exec (.closeFrame port f) s =
        .next (if (s.session sid).commands = [] then s.endSession sid 4 else s.failSession sid 5))) ∧
  (∀ (x : Session) (sid fl : Nat) (e : Early), x.early = [] → e.seq = x.rxNext → fl ≤ x.rxNext →
    (x.mark sid fl e).rxNext = x.rxNext + 1 ∧ (x.mark sid fl e).early = [] ∧ (x.mark sid fl e).rxHigh = max x.rxHigh e.seq) ∧
  (∀ (s : State) (port : Nat) (f : List Byte) (x : FrameHdr), (s.port port).up = true →
    (∀ p peer, handshakeFrame f 145 = some x → s.portPart port = some p → s.peerOf p (itemKey (framePayload f)) = some peer →
      x.sid = 0 → s.links.sessions.length < 1024 →
      ∃ t h, exec (.handshakeMessage1 port f) s = .next t ∧
        let y := t.session s.freshSid.1
        y.port = port ∧ y.peer = peer ∧ y.part = p ∧ y.remote = x.seq ∧ y.opened = false ∧ y.hs = some h ∧
          h.initiator = false ∧ h.answered = true ∧ h.msg1 = framePayload f) ∧
    (∀ h, handshakeFrame f 259 = some x → s.hasSession x.sid = true → (s.session x.sid).port = port →
      s.portPart port = some (s.session x.sid).part → (s.session x.sid).hs = some h → h.initiator = true →
      let m := framePayload f
      let sound : Prop := itemKey m = s.peerKey (s.session x.sid).part (s.session x.sid).peer ∧
        ed448Verify (itemKey m) (h.msg1 ++ m.take 145) (m.drop 145) = true
      (¬ sound → exec (.handshakeMessage2 port f) s = .next (s.failHandshake x.sid)) ∧
      (sound → (s.session x.sid).sends = [] →
        ∃ t, exec (.handshakeMessage2 port f) s = .next t ∧
          let y := t.session x.sid
          y.opened = true ∧ y.hs = none ∧ y.opener = none ∧ y.initiator = true ∧ y.keys = keyMaterial h.priv (itemPub m) h.msg1 m ∧
            y.txSeq = 1 ∧ y.rxNext = 1 ∧ y.rxSeen = [])) ∧
    (∀ h, handshakeFrame f 114 = some x → s.hasSession x.sid = true → (s.session x.sid).port = port →
      s.portPart port = some (s.session x.sid).part → (s.session x.sid).hs = some h → h.initiator = false → h.answered = true →
      let sound : Prop := ed448Verify (itemKey h.msg1) (h.msg1 ++ h.msg2) (framePayload f) = true
      (¬ sound → exec (.handshakeMessage3 port f) s = .next (s.failHandshake x.sid)) ∧
      (sound → (s.session x.sid).sends = [] →
        ∃ t, exec (.handshakeMessage3 port f) s = .next t ∧
          let y := t.session x.sid
          y.opened = true ∧ y.hs = none ∧ y.initiator = false ∧ y.keys = keyMaterial h.priv (itemPub h.msg1) h.msg1 h.msg2 ∧
            y.txSeq = 1 ∧ y.rxNext = 1 ∧ y.rxSeen = []))) ∧
  (∀ (s : State) (sid : Nat), let x := s.session sid
    exec (.noFrameTimeout sid) s = .next (if x.unacked = [] then s else s.failSession sid 2) ∧
    (∀ seq, (∀ u ∈ x.unacked, u.seq ≠ seq) → exec (.resendTimer sid seq) s = .next s) ∧
    (∀ l u r, x.unacked = l ++ u :: r → (∀ v ∈ l ++ r, v.seq ≠ u.seq) →
      (16 ≤ u.resends → exec (.resendTimer sid u.seq) s = .next (s.failSession sid 1)) ∧
      (u.resends < 16 → ∃ t, exec (.resendTimer sid u.seq) s = .next t ∧ t.harts = s.harts ∧
        t.session sid = { x with unacked := l ++ { u with resends := u.resends + 1 } :: r, txSeq := x.txSeq + 1 } ∧
        ((s.port x.port).up = true → s.portPart x.port = some x.part →
          ∃ g, t.links.sent = s.links.sent ++ [⟨x.port, s.carriage x, u.bytes⟩, g] ∧ g.port = x.port))) ∧
    (x.opened = true → x.hs ≠ none → exec (.rekeyTimeout sid) s = .next (s.failSession sid 4)) ∧
    (x.opened = false ∨ x.hs = none → exec (.rekeyTimeout sid) s = .next s) ∧
    (x.opened = false → s.hasSession sid = true → exec (.openTimeout sid) s = .next (s.endSession sid 7)) ∧
    (x.opened = true → exec (.openTimeout sid) s = .next s) ∧
    (x.mayRekey = true → 2 ^ 32 < x.txSeq ∨ 2 ^ 32 ≤ x.rxHigh →
      ∃ t h, exec (.frameCountRekey sid) s = .next t ∧ (t.session sid).hs = some h ∧ h.initiator = true ∧ h.cmd = none) ∧
    (x.txSeq ≤ 2 ^ 32 → x.rxHigh < 2 ^ 32 → exec (.frameCountRekey sid) s = .next s) ∧
    (x.opened = false → s.failHandshake sid = s.endSession sid 6) ∧
    (∀ h p, x.opened = true → x.hs = some h → h.cmd = some p →
      s.failHandshake sid = ((s.setSession sid { x with hs := none }).endPending p 0 6 0 0).failSession sid 4) ∧
    (∀ reason, s.hasSession sid = true → x.part < 32 →
      s.failSession sid reason = (s.endSession sid 4).addEvt x.part 3 (reason * 2 ^ 32 + sid))) ∧
  ∀ port lane : Nat,
    LaneLost (.laneFailure port lane) port ∧ LaneLost (.laneErrorRateWindow port lane true) port ∧
    (∀ s, exec (.laneErrorRateWindow port lane false) s = .next s) ∧
    ∀ s : State,
      ((s.port port).retraining = true → ∃ t, exec (.portRetrainComplete port) s = .next t ∧ t.harts = s.harts ∧
        t.port port = { s.port port with retraining := false }) ∧
      ((s.port port).retraining = false → exec (.portRetrainComplete port) s = .next s)

/-! ### Collectives (R291 to R295, R375) -/

/-- R292, R293, R294 and R375: a collective that is malformed ends with outcome 5; a member sends its contribution once to the
coordinator, the lowest member index, and ends with outcome 3 when it cannot be reached; the coordinator drops a contribution
whose session is over, includes one that matches, once, holds one that comes early, and forms the result when every member is included or DEADLINE
comes; fewer than QUORUM members give outcome 2, all of them outcome 0, others outcome 1 with the mask of those included; the result
of ALLREDUCE is the sum of the members included in ascending order of index, each addition rounded to nearest even, and that of
BCAST what ROOT sent; a collective uses the sessions of its own partition alone (log 13); a member that hears nothing ends with outcome 3. A command whose access failed after bytes were written has no outcome that
leaves its buffer as it was (the value is free, log 13). -/
def Obligations.CollectiveEvents : Prop :=
  (∀ (s : State) (n : Nat) (c : List Word) (bcast : Bool), Stands s n 1 c → opOf c = (if bcast then 0x21 else 0x20) →
    let i : Instr := if bcast then .bcast n else .allreduce n
    let p := pendingOf s n 1 c
    let s1 := s.updHart n fun h => h.popCmd 1
    let group := lowOf c / 2 ^ 32
    let count := lowOf c % 2 ^ 32
    let m : BitVec 48 := (entryAt c 2).extractLsb' 0 48
    let w := entryAt c 3
    let self := (s1.group group).self
    let root : Option Nat := if bcast then some ((entryAt c 2).extractLsb' 48 6).toNat else none
    (s1.collBad p bcast = true → exec i s = .next (s1.endPending p 0 5 0 0)) ∧
    let gives : Prop := root = none ∨ root = some self
    (∀ u er, s1.collBad p bcast = false → gives → s1.getBytes (s1.pendWho p) (entryAt c 1) (4 * count) = .error (u, er) →
      exec i s = .next (u.failPending p er 0 0)) ∧
    (∀ u bs, s1.collBad p bcast = false → (gives → s1.getBytes (s1.pendWho p) (entryAt c 1) (4 * count) = .ok (u, bs)) →
      (¬ gives → u = s1 ∧ bs = []) →
      let enc := encodeElems (wireFmt w) ⟨wireRnd w == 5, wireEpoch w, BitVec.ofNat 32 self⟩ (elemsOf bs)
      let own := decodeElems (wireFmt w) enc
      let x : Collective := ⟨p, group, m, w, count, root, own, []⟩
      (coordinatorOf m = self → exec i s = .next (u.startClock { x with parts := [(self, own)] })) ∧
      (coordinatorOf m ≠ self → u.reach p.part group (coordinatorOf m) = none → exec i s = .next (u.endPending p 0 3 0 0)) ∧
      (∀ sid, coordinatorOf m ≠ self → u.reach p.part group (coordinatorOf m) = some sid →
        exec i s = .next ({ u with links := { u.links with colls := u.links.colls ++ [x] } }.sendMessage sid none (wireZc w)
          (contributionMessage ⟨sid, group, wireEpoch w, self, m, w, own⟩ own.length enc))))) ∧
  (∀ (s : State) (x : Contribution),
    let part := (s.session x.sid).part
    (s.reach part x.group x.member ≠ some x.sid → exec (.collectiveContribution x) s = .next s) ∧
    (s.reach part x.group x.member = some x.sid → s.collective x.group x.epoch = none →
      ∃ t, exec (.collectiveContribution x) s = .next t ∧ t.harts = s.harts ∧ t.links.held.getLast? = some x ∧
        t.links.colls = s.links.colls) ∧
    (∀ c, s.collective x.group x.epoch = some c → (s.coordinates c = false ∨ c.cmd.part ≠ part ∨ c.includes x = false) →
      exec (.collectiveContribution x) s = .next s) ∧
    (∀ c, s.reach part x.group x.member = some x.sid → s.collective x.group x.epoch = some c → s.coordinates c = true →
      c.cmd.part = part → c.includes x = true →
      let c' := { c with parts := c.parts ++ [(x.member, x.elems)] }
      (c'.includes x = false) ∧
      ((∀ k, k < 48 → c.members.getLsbD k = true → ∃ v, (k, v) ∈ c'.parts) →
        exec (.collectiveContribution x) s = .next ((s.setCollective c').formResult c')) ∧
      ((∃ k, k < 48 ∧ c.members.getLsbD k = true ∧ ∀ v, (k, v) ∉ c'.parts) →
        exec (.collectiveContribution x) s = .next (s.setCollective c')))) ∧
  (∀ (s : State) (group epoch : Nat) (c : Collective), s.collective group epoch = some c →
    (s.coordinates c = true →
      exec (.collectiveDeadline group epoch) s = .next (s.formResult c) ∧
      exec (.coordinatorLostTimeout group epoch) s = .next s ∧
      ∀ r : CollectiveAnswer, r.group = group → r.epoch = epoch → exec (.collectiveResult r) s = .next s) ∧
    (s.coordinates c = false →
      exec (.collectiveDeadline group epoch) s = .next s ∧
      exec (.coordinatorLostTimeout group epoch) s = .next ((s.dropCollective c).endPending c.cmd 0 3 0 0) ∧
      ∀ r : CollectiveAnswer, r.group = group → r.epoch = epoch →
        let s1 := s.dropCollective c
        (2 ≤ r.outcome.toNat →
          exec (.collectiveResult r) s = .next (s1.endPending c.cmd 0 r.outcome.toNat r.mask.toNat 0)) ∧
        (∀ u k er, r.outcome.toNat < 2 →
          s1.putBytes (s1.pendWho c.cmd) (entryAt c.cmd.entries 1) (r.elems.flatMap fun x => toBytes 4 x.toNat) = (u, k, er) →
          exec (.collectiveResult r) s = .next (match er with
            | none => u.endPending c.cmd 0 r.outcome.toNat r.mask.toNat k
            | some e => u.failPending c.cmd e r.mask.toNat k)))) ∧
  (∀ (s : State) (p : Pending) (e : AErr) (mask done : Nat),
    ∃ o, s.failPending p e mask done = s.draw.2.endPending p (engineStatus e) o mask done ∧ (done ≠ 0 → o < 2 ∨ o = 8)) ∧
  (∀ (c : Collective),
    let inc (k : Nat) : Bool := decide (k < 48) && c.members.getLsbD k && c.parts.any fun p => p.1 == k
    let n := ((List.range 48).filter inc).length
    (∀ k, k < 48 → c.answer.mask.getLsbD k = inc k) ∧
    (n < wireQuorum c.wire → c.answer.outcome = 2#8 ∧ c.answer.elems = []) ∧
    (wireQuorum c.wire ≤ n → c.root = none → c.answer.outcome = if c.answer.mask = c.members then 0#8 else 1#8) ∧
    -- the result itself: what the members decode from its one encoding (R289, R294)
    let values (k : Nat) : List (BitVec 32) := ((c.parts.find? fun p => p.1 == k).map (·.2)).getD []
    let sent (l : List (BitVec 32)) : List (BitVec 32) :=
      decodeElems (wireFmt c.wire) (encodeElems (wireFmt c.wire) ⟨wireRnd c.wire == 5, wireEpoch c.wire, 0xFFFFFFFF#32⟩ l)
    wireQuorum c.wire ≤ n → (∀ k, inc k = true → c.count ≤ (values k).length) →
      (∀ a r, c.root = none → (List.range 48).filter inc = a :: r →
        c.answer.elems = sent ((List.range c.count).map fun j =>
          r.foldl (fun v k => BitVec.ofNat 32 (fmtF32.fadd Rnd.rne v.toNat ((((values k)[j]?).getD 0).toNat)).1) (((values a)[j]?).getD 0))) ∧
      ∀ k, c.root = some k → inc k = true → c.answer.elems = sent ((values k).take c.count)) ∧
  ∀ (s : State) (group epoch member : Nat),
    ∃ t, exec (.contributionHoldExpiry group epoch member) s = .next t ∧ t.harts = s.harts ∧ t.links.colls = s.links.colls ∧
      ∀ x, x ∈ t.links.held ↔ x ∈ s.links.held ∧ ¬ (x.group = group ∧ x.epoch = epoch ∧ x.member = member)

/-! ### Debug (R297 to R305, R328) -/

/-- The debug port's answer (R297; the codes are the model's, log 16). -/
def Replied (t : State) (code value : Nat) : Prop := t.mgmt.answer = (code, value)

/-- R297 to R301, R303 to R305, R321: every command of the debug port is refused to an agent that is not the owner; HALT stops a
running hart before its oldest uncommitted issue unit, unless a breakpoint, a fault or an EXIT comes first there, and HALT-GANG does
so for every live member; RESUME lets it run on; a step lets it
run until the step ends; READ of a hart that runs, or whose matrix commands have not ended, is BUSY, and of a stopped one gives the item; WRITE takes effect on a stopped
hart alone; SETBP sets a breakpoint; SAMPLE records stand in the trace, or are counted as lost; CLR zeroes the dailies. -/
def Obligations.DebugEvents : Prop :=
  (∀ (s : State) (a : HostAgent) (n : Nat) (item : DbgItem) (v : Nat) (b : BitVec 2) (x y : Word) (o : Bool), s.mgmt.owner ≠ some a →
    let refused (i : Instr) : Prop := exec i s = .next { s with mgmt := { s.mgmt with answer := (2, 0) } }
    refused (.halt a n) ∧ refused (.haltGang a n) ∧ refused (.resume a n) ∧ refused (.stepUnit a n) ∧ refused (.stepGroup a n) ∧
    refused (.dbgRead a n item) ∧ refused (.dbgWrite a n item v) ∧ refused (.setbp a n b x y) ∧ refused (.debuggerAttach a o)) ∧
  (∀ (s : State) (a : HostAgent) (n : Nat), s.mgmt.owner = some a →
    let h := s.hart n
    let answered (t : State) (code : Nat) : Out := .next { t with mgmt := { t.mgmt with answer := (code, 0) } }
    -- HALT, after a breakpoint, a fault or an EXIT that comes first
    (let u := s.first n
     let g := u.hart n
     let t := s.haltHart n
     (g.q.status ≠ .running → t = u) ∧
     (g.q.status = .running → (t.hart n).q.status = .stopped ∧ (t.hart n).q.run = none ∧
        (u.performBoth n = u → (t.hart n).sc = { g.sc with pc := g.resumePoint } ∧ (t.hart n).vec = g.vec ∧
          (∀ r, g.q.run = some r → ∃ e, (t.hart n).q.queue = [e] ∧ e.addr = r.e.addr ∧ e.vl = r.e.vl ∧ e.resumed = true))) ∧
     exec (.halt a n) s = answered t (match (t.hart n).q.status with | .stopped => 0 | .exiting => 1 | _ => 2)) ∧
    (h.q.status = .free → exec (.haltGang a n) s = answered s 2) ∧
    (h.q.status ≠ .free →
      let x := s.gang h.shape.launch
      let t := (x.liveMembers.map x.memberHart).foldl State.haltHart s
      exec (.haltGang a n) s = answered t (if ∀ m ∈ x.liveMembers, (t.hart (x.memberHart m)).q.status = .stopped then 0 else 1)) ∧
    (h.q.status = .running →
      (∀ item, ∃ t, exec (.dbgRead a n item) s = .next t ∧ Replied t 1 0 ∧ t.harts = s.harts) ∧
      (∀ item v, ∃ t, exec (.dbgWrite a n item v) s = .next t ∧ Replied t 2 0 ∧ t.harts = s.harts)) ∧
    (h.q.status = .stopped →
      (∃ t, exec (.resume a n) s = .next t ∧ t.hart n = { h with q := { h.q with status := .running, step := none } } ∧ Replied t 0 0) ∧
      (∃ t, exec (.stepUnit a n) s = .next t ∧ (t.hart n).q.status = .running ∧ (t.hart n).q.step = some .unit ∧ Replied t 1 0) ∧
      (∃ t, exec (.stepGroup a n) s = .next t ∧ (t.hart n).q.status = .running ∧ (t.hart n).q.step = some .group ∧ Replied t 1 0) ∧
      ((s.matrixBusy n = true ∨ h.q.mheld ≠ []) →
        (∀ item, ∃ t, exec (.dbgRead a n item) s = .next t ∧ Replied t 1 0 ∧ t.harts = s.harts) ∧
        (∀ item v, dbgReadOnly item = false → ∃ t, exec (.dbgWrite a n item v) s = .next t ∧ Replied t 1 0 ∧ t.harts = s.harts)) ∧
      (s.matrixBusy n = false → h.q.mheld = [] →
        (∀ r, ∃ t, exec (.dbgRead a n (.s r)) s = .next t ∧ Replied t 0 (h.rdS r).toNat ∧ t.harts = s.harts) ∧
        (∃ t, exec (.dbgRead a n .pc) s = .next t ∧ Replied t 0 h.stopPc.toNat ∧ t.harts = s.harts) ∧
        (∀ k : BitVec 12, csrExists k.toNat = false →
          ∃ t, exec (.dbgRead a n (.csr k)) s = .next t ∧ Replied t 3 0 ∧ t.harts = s.harts) ∧
        (∀ r v, ∃ t, exec (.dbgWrite a n (.s r) v) s = .next t ∧ Replied t 0 0 ∧ t.hart n = h.wrS r (BitVec.ofNat 64 v)) ∧
        (∀ q v, ∃ t, exec (.dbgWrite a n (.q q) v) s = .next t ∧ Replied t 0 0 ∧ t.hart n = h.wrQ q (BitVec.ofNat 128 v)))) ∧
    (∀ (b : BitVec 2) (x y : Word), ∃ t, exec (.setbp a n b x y) s = .next t ∧ Replied t 0 0 ∧
      Table.get 0 (t.hart n).q.bkpa b.toNat = x &&& 0x007FFFFFFFFFFFF8#64 ∧
      Table.get 0 (t.hart n).q.bkpc b.toNat = y &&& 0x8000000000078FFF#64 ∧ (t.hart n).sc = h.sc ∧ (t.hart n).vec = h.vec) ∧
    ∀ o, ∃ t, exec (.debuggerAttach a o) s = .next t ∧ Replied t 0 0 ∧ t.mgmt.attached = o ∧ t.harts = s.harts) ∧
  ∀ (s : State) (n : Nat), let h := s.hart n
    (∃ t, exec (.dlyCtlClr n) s = .next t ∧ s.Same t n ∧ (∀ k, Table.get 0 (t.hart n).trc.dly k = 0) ∧
      (t.hart n).sc = h.sc ∧ (t.hart n).vec = h.vec ∧ (t.hart n).trc.recs = h.trc.recs) ∧
    ((h.q.status = .free ∨ h.trc.trcCtl.getLsbD 2 = false) → exec (.traceSample n) s = .next s) ∧
    (h.q.status ≠ .free → h.trc.trcCtl.getLsbD 2 = true → 10 ≤ (h.trc.trcCtl.extractLsb' 16 8).toNat →
      (h.trc.trcCtl.extractLsb' 16 8).toNat ≤ 40 →
      ∃ t, exec (.traceSample n) s = .next t ∧ s.Same t n ∧
        (h.draining = false → (t.hart n).trc.lost = h.trc.lost + 1 ∧ (t.hart n).trc.recs = h.trc.recs) ∧
        (h.draining = true → (t.hart n).trc.lost = h.trc.lost ∧
          ∃ r, (t.hart n).trc.recs = h.trc.recs ++ [r] ∧ (n < 640 → r.w0.extractLsb' 56 8 = 3#8) ∧ r.w2 = BitVec.ofNat 64 h.vec.vl ∧
            r.w3 = Table.get 0 h.trc.dly 1))

/-! ### Burxus calls (R255, R307 to R312, R274, R293, R315 to R317) -/

/-- A call of a host agent comes to the state `u` with a status and results: its frame holds the function, the arguments with
the results over them, and the status (R307). -/
def Served (i : Instr) (fn : Nat) (a : HostAgent) (f : CallFrame) (s u : State) (status : Nat) (outs : List (Nat × Word)) : Prop :=
  exec i s = .next { u with mgmt := { u.mgmt with
    mailbox := Table.set (List.replicate 8 0) u.mgmt.mailbox (agentClass a) (BitVec.ofNat 64 fn :: frameWords f outs ++ [BitVec.ofNat 64 status]) } }

/-- R307, R308, R309, R310, R311, R312, R274 and R293, calls of a host agent: until bring-up has ended, and of an agent that is
not the owner for functions of the modes S and O, a call ends with DENIED; otherwise each function has its effect and ends with
OK, or ends with the status that R310 gives and changes nothing. A HELD module does not hear the driver, and hears network
management in a session of the protected port alone (R284, R378). The model's choices: that a host's CACHE.LOCK ends with status 3, the
decoded record of PART.SET and what counts as busy, and the physical addresses of a host's records (log 11); that a session of the
protected port is in no group (log 13). -/
def Obligations.BurxusCalls : Prop :=
  ∀ (s : State) (a : HostAgent) (f : CallFrame) (r : PartRecord) (sids : List Nat), f.caller = .host a →
    (s.heard a = false → exec (.version f) s = .next s ∧ exec (.claim f) s = .next s ∧ exec (.slatePost f) s = .next s) ∧
    (s.heard .board = true ∧ (s.heard .driver = true ↔ s.mgmt.held = false) ∧
      (s.heard .network = true ↔ s.links.protectedPort ≠ none ∧ ∃ x ∈ s.links.sessions, x.2.part = 32 ∧ x.2.opened = true)) ∧
    (s.heard a = true →
    let fails (i : Instr) (fn status : Nat) : Prop := Served i fn a f s s status []
    let p0 := f.a0.toNat
    ((s.mgmt.held = true ∨ s.mgmt.stage < 7) →
      fails (.version f) 0 2 ∧ fails (.slatePost f) 0x20 2 ∧ fails (.partSet f r) 0x30 2 ∧ fails (.claim f) 0x50 2) ∧
    (s.mgmt.held = false → 7 ≤ s.mgmt.stage →
      -- functions of mode U
      (f.a0 = 0 → fails (.version f) 0 3) ∧
      (f.a0 ≠ 0 → let v := min f.a0.toNat 2
        Served (.version f) 0 a f s { s with mgmt := { s.mgmt with versions := Table.set 0 s.mgmt.versions (agentClass a) v } } 0
          [(10, BitVec.ofNat 64 v), (11, Config.buildNumber)]) ∧
      (p0 ≤ 3 → f.a1.toNat ≤ 31 →
        Served (.features f) 1 a f s s 0
          [(10, if p0 = 0 then 0x3F#64 else 0), (11, if p0 = 0 then (s.part f.a1.toNat).accepted else 0)]) ∧
      ((s.part p0).exists_ = true → let w := (s.part p0).power
        Served (.powerRead f) 0x31 a f s s 0 [(10, BitVec.ofNat 64 w.step), (11, BitVec.ofNat 64 w.measured), (12, BitVec.ofNat 64 w.steps)]) ∧
      ((s.part p0).exists_ = false → fails (.powerRead f) 0x31 3) ∧
      -- the owner (R312)
      (let owned (x : Option HostAgent) : State := { s with mgmt := { s.mgmt with owner := x, handover := none, attached := false } }
       (s.mgmt.owner = none → Served (.claim f) 0x50 a f s (owned (some a)) 0 []) ∧
       (∀ b, s.mgmt.owner = some b → s.mgmt.handover = some a → Served (.claim f) 0x50 a f s (owned (some a)) 0 []) ∧
       (∀ b, s.mgmt.owner = some b → s.mgmt.handover ≠ some a →
         Served (.claim f) 0x50 a f s s 5 [(10, BitVec.ofNat 64 (agentClass b))]) ∧
       (s.mgmt.owner ≠ some a → fails (.handover f) 0x51 2 ∧ fails (.release f) 0x52 2) ∧
       (s.mgmt.owner = some a → Served (.release f) 0x52 a f s (owned none) 0 [] ∧
         (∀ b, agentOf p0 = some b →
           Served (.handover f) 0x51 a f s { s with mgmt := { s.mgmt with handover := some b } } 0 []) ∧
         (agentOf p0 = none → fails (.handover f) 0x51 3)) ∧
       (∃ t, exec .ownershipLapse s = .next t ∧ t.mgmt.owner = none ∧ t.harts = s.harts) ∧
       (∃ t, exec (.hostAgentReset a) s = .next t ∧ t.agreed (.host a) = 1 ∧ t.harts = s.harts ∧ t.mgmt.owner = s.mgmt.owner)) ∧
      -- functions of the modes S and O
      (s.mgmt.owner ≠ some a →
        fails (.accept f) 2 2 ∧ fails (.asidRoot f) 0x10 2 ∧ fails (.cacheSet f) 0x11 2 ∧ fails (.slatePost f) 0x20 2 ∧
        fails (.slateWithdraw f) 0x21 2 ∧ fails (.partSet f r) 0x30 2) ∧
      (s.mgmt.owner = some a →
        (let p := f.a2.toNat
         let bits := f.a1 &&& 0x3F#64
         (f.a0 = 0 → (s.part p).exists_ = true → (s.part p).posted = true → fails (.accept f) 2 4) ∧
         (f.a0 = 0 → (s.part p).exists_ = true → (s.part p).posted = false →
           Served (.accept f) 2 a f s (s.updPart p fun x => { x with accepted := bits }) 0 [(11, bits)])) ∧
        (s.mayName (.host a) p0 = true → s.rootBad p0 f.a1 = false → f.a2.extractLsb' 0 3 = 0 →
          Served (.asidRoot f) 0x10 a f s (s.updAsid p0 fun x => { x with root := some f.a1.toNat, vector := f.a2 }) 0 []) ∧
        (s.mayName (.host a) p0 = false → fails (.asidRoot f) 0x10 3) ∧
        (∀ u bs, (s.part p0).exists_ = true → f.a1.toNat ≤ 3 → s.physBytes f.a2 136 = (u, some bs) →
          let new := shareOf (BitVec.ofNat 64 (ofBytes (bs.take 8))) ((bs.drop 8).map fun b => b.toNat)
          (u.shareBad p0 f.a1.toNat new = true → Served (.cacheSet f) 0x11 a f s u 3 []) ∧
          (u.shareBad p0 f.a1.toNat new = false → ((u.part p0).share f.a1.toNat).busy new = true →
            Served (.cacheSet f) 0x11 a f s u 4 []) ∧
          (u.shareBad p0 f.a1.toNat new = false → ((u.part p0).share f.a1.toNat).busy new = false →
            Served (.cacheSet f) 0x11 a f s (u.setShare p0 f.a1.toNat new) 0 [])) ∧
        (s.mayName (.host a) f.a1.toNat = false → Served (.slatePost f) 0x20 a f s s 0 [(10, 3#64)]) ∧
        (∀ u bs, s.mayName (.host a) f.a1.toNat = true → f.a0.toNat % 64 = 0 →
          s.mgmtLoad (mgmtWho f.a1.toNat false (s.partsList.find? fun p => (s.part p).asids.contains f.a1.toNat)) f.a0 64 = (u, some bs) →
          let w := slateOf bs
          u.slateBad w = false → u.queueFull w = false →
          ∃ t q, Served (.slatePost f) 0x20 a f s t 0 [(10, BitVec.ofNat 64 (u.nextLaunch * 2 ^ 32))] ∧
            (t.part (slatePart w)).queue = (u.part (slatePart w)).queue ++ [q] ∧ q.launch = u.nextLaunch ∧ q.words = w ∧ q.addr = f.a0 ∧
            (t.part (slatePart w)).posted = true) ∧
        (∀ p, s.partsList = [p] →
          let waits := (s.part p).queue.any fun q => q.launch == p0 && q.image.isNone
          (waits = false → Served (.slateWithdraw f) 0x21 a f s s 0 [(10, 0)]) ∧
          (waits = true → ∃ t, Served (.slateWithdraw f) 0x21 a f s t 0 [(10, 1)] ∧
            (t.part p).queue = (s.part p).queue.filter fun q => q.launch != p0)) ∧
        ((31 < p0 ∨ s.recordBad p0 r = true) → fails (.partSet f r) 0x30 3) ∧
        (p0 ≤ 31 → s.recordBad p0 r = false → s.recordBusy p0 r = true → fails (.partSet f r) 0x30 4) ∧
        (p0 ≤ 31 → s.recordBad p0 r = false → s.recordBusy p0 r = false → s.sto.lines = [] →
          ∃ t, Served (.partSet f r) 0x30 a f s t 0 [] ∧ (t.part p0).exists_ = true ∧ (t.part p0).cores = r.cores ∧
            (t.part p0).asids = r.asids ∧ (t.part p0).pages = r.pages ∧ (t.part p0).reserve = r.reserve ∧
            (t.part p0).ports = r.ports ∧ (t.part p0).units = r.units ∧ (t.part p0).power.budget = r.budget ∧ (t.part p0).power.sprio = r.sprio) ∧
        -- version 2
        (2 ≤ s.agreed (.host a) →
          fails (.cacheLock f) 0x12 3 ∧
          (p0 ≤ 65535 → sids.length ≤ 48 → f.a2.toNat < sids.length → (∀ x ∈ sids, x ≤ 65535) →
            ((∀ x ∈ sids, s.hasSession x = true → (s.session x).part ≠ 32) →
              ∃ t, Served (.groupSet f sids) 0x40 a f s t 0 [] ∧ t.group p0 = ⟨sids, f.a2.toNat⟩) ∧
            ((∃ x ∈ sids, s.hasSession x = true ∧ (s.session x).part = 32) → fails (.groupSet f sids) 0x40 3))) ∧
        (s.agreed (.host a) < 2 → fails (.cacheLock f) 0x12 1 ∧ fails (.groupSet f sids) 0x40 1 ∧ fails (.mboluxLoad f) 0x60 1))))

/-- R255, R307, R308, R275 and R315: BCALL is a FENCE.ALL, then its call, whose results go to s10 to s15 and whose status goes to sd
after them, and moves on; the rows of the functions stand for that BCALL; CACHE.LOCK is a call of a hart, and MBOLUX.LOAD one of a hart or of the owner.
The model's readings: the status comes last where sd is one of s10 to s15 (log 46); CACHE.LOCK acts on the caller's own partition
(log 11); MBOLUX.LOAD of a host agent takes its ASID and partition from the destination (log 12). -/
def Obligations.BurxusCallsOfHarts : Prop :=
  (∀ g sd (k : BitVec 16) (s : State), s.Commits g (sd :: [10, 11, 12, 13, 14, 15]) → s.Drained →
    let s0 := fenced s
    let h := s.me
    let r := s0.callFn k.toNat ⟨.hart s.cur sd, h.rdS 10, h.rdS 11, h.rdS 12, h.rdS 13, h.rdS 14, h.rdS 15⟩
    ∃ t, exec (.bcall g sd k) s = .next t ∧ { t with harts := r.s.harts } = r.s ∧
      (t.hart s.cur).sc.pc = (r.s.hart s.cur).sc.pc + 8 ∧
      (sd ≠ 0#5 → (t.hart s.cur).rdS sd = BitVec.ofNat 64 r.status) ∧
      (∀ q, q ≠ sd → (∀ o ∈ r.outs, BitVec.ofNat 5 o.1 ≠ q) → (t.hart s.cur).rdS q = (r.s.hart s.cur).rdS q) ∧
      (∀ m, m ≠ s.cur → t.hart m = r.s.hart m)) ∧
  (∀ g sd (k : BitVec 16) (s : State) (n : Nat) (f : CallFrame) (i : Instr) (x : SReg) (r : PartRecord) (sids : List Nat) (fn : Nat),
    s.peek n = some (.bcall g sd k) → s.paused n = false → f.caller = .hart n x →
    (i, fn) ∈ [(.version f, 0), (.features f, 1), (.accept f, 2), (.asidRoot f, 0x10), (.cacheSet f, 0x11), (.cacheLock f, 0x12),
      (.slatePost f, 0x20), (.slateWithdraw f, 0x21), (.partSet f r, 0x30), (.powerRead f, 0x31), (.groupSet f sids, 0x40),
      (.claim f, 0x50), (.handover f, 0x51), (.release f, 0x52), (.mboluxLoad f, 0x60)] →
    (k.toNat ≠ fn → exec i s = .next s) ∧
    (k.toNat = fn → State.Commits { s with cur := n } g (sd :: [10, 11, 12, 13, 14, 15]) → State.Drained { s with cur := n } →
      ∃ t, exec (.bcall g sd k) { s with cur := n } = .next t ∧ exec i s = .next { t with cur := s.cur })) ∧
  (∀ (s : State) (n : Nat) (x : SReg) (a0 a1 a2 a3 a4 a5 : Word),
    let f : CallFrame := ⟨.hart n x, a0, a1, a2, a3, a4, a5⟩
    let p := (s.hart n).shape.part
    s.mgmt.held = false → 7 ≤ s.mgmt.stage → 2 ≤ (s.asid (s.hart n).shape.asid.toNat).version → (s.hart n).sc.mode ≠ .user →
    (s.accepts p 3 = false → s.callFn 0x12 f = ⟨s, 1, []⟩) ∧
    (s.accepts p 3 = true →
      let y := (s.part p).share a0.toNat
      ((3 < a0.toNat ∨ 65535 < a1.toNat ∨ a1.toNat &&& y.ways ≠ a1.toNat) → s.callFn 0x12 f = ⟨s, 3, []⟩) ∧
      (a0.toNat ≤ 3 → a1.toNat ≤ 65535 → a1.toNat &&& y.ways = a1.toNat →
        s.callFn 0x12 f =
          ⟨s.setShare p a0.toNat { y with pcache := (y.pcache &&& 0xFFFFFFFF0000FFFF#64) ||| (a1 <<< 16) }, 0, []⟩)) ∧
    s.mboluxHome (.hart n x) a1 = some ((s.hart n).shape.asid.toNat, p)) ∧
  (∀ (s : State) (b : HostAgent) (a : Word) (p : Nat), s.pageOwner a.toNat = some p →
    s.mboluxHome (.host b) a = ((s.part p).asids.head?).map fun asid => (asid, p)) ∧
  (∀ (s : State) (c : Caller) (a0 a1 a2 a3 a4 a5 : Word) (asid p : Nat),
    let f : CallFrame := ⟨c, a0, a1, a2, a3, a4, a5⟩
    s.mgmt.held = false → 7 ≤ s.mgmt.stage → 2 ≤ s.agreed c → s.mayCall c .s = true →
    (∀ q, s.callPart c = some q → s.accepts q 0 = true) → s.mboluxHome c a1 = some (asid, p) →
    (2 < a3.toNat ∨ 3 < a4.toNat ∨ a1.toNat % 64 ≠ 0 ∨ a0.toNat % 8 ≠ 0 → s.callFn 0x60 f = ⟨s, 3, []⟩) ∧
    (∀ u hd, a3.toNat ≤ 2 → a4.toNat ≤ 3 → a1.toNat % 64 = 0 → a0.toNat % 8 = 0 → s.callBytes c a0 64 = (u, some hd) →
      let w := slateOf hd
      let at_ (k : Nat) : Nat := (slateWord w k).toNat
      (mboluxBad w = true → s.callFn 0x60 f = ⟨u, 3, []⟩) ∧
      ∀ v img, mboluxBad w = false →
        u.callBytes c a0 (max (at_ 2 + at_ 3) (max (at_ 4 + at_ 5) 64)) = (v, some img) →
        let text := (img.drop (at_ 2)).take (at_ 3)
        let words := (List.range (text.length / 8)).map fun k => BitVec.ofNat 64 (ofBytes ((text.drop (8 * k)).take 8))
        (shapeChanges words.length words = true → s.callFn 0x60 f = ⟨v, 3, []⟩) ∧
        (shapeChanges words.length words = false → slateWord w 1 &&& ~~~(v.part p).accepted ≠ 0 →
          s.callFn 0x60 f = ⟨v, 5, []⟩) ∧
        (shapeChanges words.length words = false → slateWord w 1 &&& ~~~(v.part p).accepted = 0 →
          -- the physical VLEN is that of the image, or the image is translated: how much code and TCM that adds is open (log 12)
          let same : Prop := vlenOf (2 ^ a3.toNat) (BitVec.ofNat 2 a4.toNat) = 16384
          let tcm := if same then 0 else Config.mboluxTcm img a3.toNat a4.toNat
          let native := mboluxSlate (a1 + (slateWord w 2 + slateWord w 6)) asid p a3.toNat a4.toNat tcm ++
            (img.drop 64 ++ if same then [] else Config.mboluxRest img a3.toNat a4.toNat)
          let noted (z : State) : State :=
            let other := z.mgmt.images.filter fun x =>
              x.1 != asid || decide (x.2.1 + x.2.2 ≤ a1.toNat ∨ a1.toNat + native.length ≤ x.2.1)
            { z with mgmt := { z.mgmt with images := if same then other else (asid, a1.toNat, native.length) :: other } }
          (a2.toNat < native.length → s.callFn 0x60 f = ⟨v, 5, []⟩) ∧
          ∀ z, native.length ≤ a2.toNat → v.callPut c a1 native = (z, true) →
            s.callFn 0x60 f = ⟨noted z, 0, [(10, BitVec.ofNat 64 native.length), (11, BitVec.ofNat 64 tcm)]⟩))) ∧
  ∀ (s : State) (n : Nat) (k : Nat) (f : CallFrame) (x : SReg), f.caller = .hart n x → s.mgmt.held = false → 7 ≤ s.mgmt.stage →
    1 ≤ s.agreed f.caller → (s.hart n).sc.mode = .user →
    (k ∈ [2, 0x10, 0x11, 0x20, 0x21, 0x30, 0x50, 0x51, 0x52] → s.callFn k f = ⟨s, 2, []⟩) ∧
    (k ∉ [0, 1, 2, 0x10, 0x11, 0x12, 0x20, 0x21, 0x30, 0x31, 0x40, 0x50, 0x51, 0x52, 0x60] → s.callFn k f = ⟨s, 1, []⟩)

/-! ### Power, errors, service and reset (R11, R274, R280, R281, R352 to R359, R366, R371, R376 to R379) -/

/-- The power record of partition `p` becomes `f` of it, and nothing else of the module changes. -/
def PowerSet (i : Instr) (s : State) (p : Nat) (f : Power → Power) : Prop :=
  exec i s = .next (s.updPart p fun x => { x with power := f x.power })

/-- R280, R281, R372 and R376: a measurement of a partition, or of the module (32, log 26), is recorded; a step rises by one, to at most 6, while the partition exceeds its
budget, or what the lowered limit leaves, which is then reported with its cause; it falls by one below 95 % of the budget once
no cause forces it; the board's limit is at most 3,200 W; above the temperature each tick takes 10 % of the limit; a loss of
coolant flow takes every partition to step 6; module power removed stops everything; a change of the limit is reported to
every partition. That recovery restores the board's limit is the model's reading (log 26). -/
def Obligations.PowerEvents : Prop :=
  (∀ (s : State) (p mw : Nat),
    exec (.powerMeasurement 32 mw) s = .next { s with mgmt := { s.mgmt with drawn := mw } } ∧
    (p ≠ 32 → (s.part p).exists_ = true → PowerSet (.powerMeasurement p mw) s p fun w => { w with measured := mw }) ∧
    (p ≠ 32 → (s.part p).exists_ = false → exec (.powerMeasurement p mw) s = .next s) ∧
    ((s.part p).exists_ = false → exec (.shedStepRise p) s = .next s ∧
      exec (.shedStepFall p) s = .next s) ∧
    ((s.part p).exists_ = true → let w := (s.part p).power
      (w.step < 6 → 1000 * w.budget < w.measured →
        s.forcing p ∉ [1, 2] →
        PowerSet (.shedStepRise p) s p fun w => { w with step := w.step + 1, steps := w.steps + 1 }) ∧
      (w.step < 6 → s.forcing p = 3 →  -- the module exceeds its limit, and no partition its budget
        PowerSet (.shedStepRise p) s p fun w => { w with step := w.step + 1, steps := w.steps + 1 }) ∧
      (w.measured ≤ 1000 * w.budget → s.forcing p = 0 → exec (.shedStepRise p) s = .next s) ∧
      (∀ cause, w.step < 6 → s.forcing p = cause → cause ∈ [1, 2] →
        exec (.shedStepRise p) s =
          .next ((s.updPart p fun x => { x with power := { x.power with
            step := x.power.step + 1, steps := x.power.steps + 1,
            forced := cause :: x.power.forced.filter (· != cause) } }).addEvt p 8 (w.step + 1 + 256 * cause))) ∧
      (6 ≤ w.step → exec (.shedStepRise p) s = .next s) ∧
      (w.step ≠ 0 → 100 * w.measured < 95 * (1000 * w.budget) → w.forced = [] →
        PowerSet (.shedStepFall p) s p fun w => { w with step := w.step - 1, steps := w.steps + 1 }) ∧
      ((w.step = 0 ∨ 95 * (1000 * w.budget) ≤ 100 * w.measured ∨ w.forced ≠ []) → exec (.shedStepFall p) s = .next s))) ∧
  (∀ (s : State) (watts : Nat),
    let b := min 3200 watts
    ∃ t, exec (.moduleLimitChange watts) s = .next t ∧ t.mgmt.boardLimit = b ∧
      t.mgmt.limit = (if s.mgmt.hot then min s.mgmt.limit b else b)) ∧
  (∀ s : State,
    exec .coolantTemperatureHigh s = .next { s with mgmt := { s.mgmt with hot := true } } ∧
    (∃ t, exec .limitReductionTick s = .next t ∧ t.mgmt.limit = if s.mgmt.hot then s.mgmt.limit * 9 / 10 else s.mgmt.limit) ∧
    (∃ t, exec .coolantTemperatureRecovery s = .next t ∧ t.mgmt.hot = false ∧ t.mgmt.limit = s.mgmt.boardLimit) ∧
    (∃ t, exec .coolantFlowLoss s = .next t ∧ t.mgmt.noFlow = true ∧
      ∀ p ∈ s.partsList, (t.part p).power.step = 6 ∧ 3 ∈ (t.part p).power.forced ∧ (t.part p).power.budget = (s.part p).power.budget) ∧
    (∃ t, exec .coolantFlowRestore s = .next t ∧ t.mgmt.noFlow = false ∧ t.harts = s.harts ∧ t.sto = s.sto ∧
      ∀ p ∈ s.partsList, (t.part p).power = { (s.part p).power with forced := (s.part p).power.forced.filter (· != 3) }) ∧
    (∃ t, exec .modulePowerRemoval s = .next t ∧ t = { s with mgmt := { s.mgmt with powered := false } } ∧
      (t.inputs = [] → step t = .next t))) ∧
  ∀ (s : State) (w p : Nat), p < 32 → s.mgmt.limit ≠ w → s.partsList = [p] → (s.part p).pq.evt = [] → (s.part p).pq.evtIen = false →
    ∃ r, ((s.setLimit w).part p).pq.evt = [r] ∧ r.w0.extractLsb' 56 7 = 9#7 ∧ r.w1 = BitVec.ofNat 64 w

/-- R11, R93, R352, R353, R354, R357, R358, R366, R371, R377, R378 and R379: a patrol read that finds nothing changes nothing, a corrected
error is counted, an uncorrectable one in a line of memory poisons its words and retires its frame, and one in a
hart's storage ends the hart, or the gang's members on the core that share the B-store; a pop removes the oldest
record; a host write stores its bytes and nothing else, and a host read answers the bytes, zero in a poisoned word, and whether one is poisoned, but a HELD
module answers neither; a spare takes over a failed core once nothing runs there; bring-up goes
on stage by stage, or holds, and each stage leaves its report. The model's choices: module reset returns memory to the reset
state too, while the model's own inputs and draws go on (log 52); an error in a hart's storage that ends harts comes as a patrol read
(log 53); the masks and the build number of the report stand once their stages have ended (log 71). -/
def Obligations.ServiceEvents : Prop :=
  (∀ (s : State) (line : Nat),
    (s.sto.latent = [] → exec (.patrolRead line .clean) s = .next s) ∧
    (∀ p, line * 128 < 2 ^ 39 → s.sto.latent = [] → s.pageOwner (line * 128) = some p →
      ∃ t, exec (.patrolRead line .corrected) s = .next t ∧ t.sto.mem = s.sto.mem ∧ t.harts = s.harts ∧
        (t.part p).pq.rasCnt = (s.part p).pq.rasCnt + 1) ∧
    (∀ k, line * 128 < 2 ^ 39 → k < 16 → s.sto.latent = [] → s.pageOwner (line * 128) = none → s.line? line = none →
      ∃ t, exec (.patrolRead line (.uncorrectable [k])) s = .next t ∧ t.poisoned (line * 128 + 8 * k) = true ∧
        Memory.read t.sto.mem (line * 128 + 8 * k) 8 = 0 ∧ t.isRetired (line * 128) = true) ∧
    (∀ n store, (s.hart n).q.status ≠ .free →
      (∃ t, exec (.patrolRead line (.storage n store false)) s = .next t ∧ t.harts = s.harts ∧ t.sto = s.sto ∧
        (t.part (s.hart n).shape.part).pq.rasCnt = (s.part (s.hart n).shape.part).pq.rasCnt + 1) ∧
      ∃ t, exec (.patrolRead line (.storage n store true)) s = .next t ∧
        (store ≠ .bStore → (t.hart n).q.status = .free) ∧
        (store = .bStore → ∀ m ∈ (s.gang (s.hart n).shape.launch).members, coreOf m = coreOf n →
          (t.hart m).q.status = .free))) ∧
  (∀ (s : State) (p : Nat) (v : Word),
    ((s.part p).exists_ = true → exec (.rasInjWrite p v) s = .next (s.rasInject p v)) ∧
    ((s.part p).exists_ = false → exec (.rasInjWrite p v) s = .next s) ∧
    (v.extractLsb' 60 2 ≠ 3#2 → v.getLsbD 63 = false →
      ((s.rasInject p v).part p).pq.rasInj =
        (v &&& 0x300FFFFFFFFFFF80#64) ||| ((s.part p).pq.rasInj &&& 0x4000000000000000#64)) ∧
    (v.extractLsb' 60 2 = 3#2 → s.rasInject p v = s) ∧
    (∃ t, exec (.rasCtlPop p) s = .next t ∧ t.harts = s.harts ∧ (t.part p).pq.ras = (s.part p).pq.ras.tail ∧
      (t.part p).pq.rasIen = (s.part p).pq.rasIen) ∧
    (∃ t, exec (.evtCtlPop p) s = .next t ∧ t.harts = s.harts ∧ (t.part p).pq.evt = (s.part p).pq.evt.tail ∧
      (t.part p).pq.evtIen = (s.part p).pq.evtIen)) ∧
  (∀ (s : State) (write : Bool) (addr : Nat) (bytes : List Byte), s.mgmt.held = true → exec (.hostMemoryAccess write addr bytes) s = .next s) ∧
  (∀ (s : State) (addr : Nat) (bytes : List Byte),
    placeOf addr ∈ [.hbm, .lpddr, .host] → s.Clean → s.mgmt.held = false →
    exec (.hostMemoryAccess false addr bytes) s =
      .next { s with sto := { s.sto with hostRead := (
        (upTo addr (addr + bytes.length)).map fun a => if s.poisoned a = true then 0 else Memory.byte s.sto.mem a,
        (upTo (addr / 8) ((addr + bytes.length + 7) / 8)).any fun k => s.poisoned (8 * k)) } } ∧
    (s.isRetired addr = false → addr % 128 + bytes.length ≤ 128 →
      ∃ t, exec (.hostMemoryAccess true addr bytes) s = .next t ∧ t.harts = s.harts ∧
        (∀ k, k < bytes.length → Memory.byte t.sto.mem (addr + k) = (bytes[k]?).getD 0) ∧
        ∀ x, x < addr ∨ addr + bytes.length ≤ x → Memory.byte t.sto.mem x = Memory.byte s.sto.mem x)) ∧
  (∀ (s : State) (c : Nat), s.gangs = [] → s.orphanRun c = true → exec (.spareCoreSubstitution c) s = .next s) ∧
  (∀ (s : State) (c : Nat), s.gangs = [] → s.orphanRun c = false → s.coreOwner c = none →
    (Table.get false s.mgmt.spares (clusterOf c) = false →
      ∃ t, exec (.spareCoreSubstitution c) s = .next t ∧ (t.core c).enabled = true ∧ (t.core c).tile = [] ∧ (t.core c).tlb = [] ∧
        Table.get false t.mgmt.spares (clusterOf c) = true) ∧
    (Table.get false s.mgmt.spares (clusterOf c) = true →
      ∃ t, exec (.spareCoreSubstitution c) s = .next t ∧ (t.core c).enabled = false)) ∧
  (∀ s : State,
    (s.mgmt.mgmtSpare = true → ∃ t, exec .managementCoreSpareTakeover s = .next t ∧ t.mgmt.mgmtSpare = false ∧ t.sto = s.sto) ∧
    (s.mgmt.mgmtSpare = false → exec .managementCoreSpareTakeover s = .next s) ∧
    exec .moduleReset s = .next { State.reset with inputs := s.inputs, holding := s.holding, free := s.free }) ∧
  ∀ (s : State) (r : StageReport),
    ((7 ≤ s.mgmt.stage ∨ s.mgmt.held = true) → exec (.bringupStageComplete r) s = .next s) ∧
    (s.mgmt.stage < 7 → s.mgmt.held = false →
      let bad : Prop := (s.mgmt.stage ∈ [1, 3] ∧ r.held = true) ∨ (s.mgmt.stage = 2 ∧ 2 ≤ r.mgmtFailed)
      ∃ t, exec (.bringupStageComplete r) s = .next t ∧
        (bad → t.mgmt.held = true ∧ t.mgmt.failed = s.mgmt.stage ∧ t.mgmt.stage = s.mgmt.stage) ∧
        (¬ bad → t.mgmt.held = false ∧ t.mgmt.failed = 0 ∧ t.mgmt.stage = s.mgmt.stage + 1) ∧
        (s.mgmt.stage = 2 → (t.mgmt.mgmtSpare = true ↔ s.mgmt.mgmtSpare = true ∧ r.mgmtFailed = 0)) ∧
        (∀ c, s.mgmt.stage = 5 → r.sparesBad = [] → r.coresFailed = [c] →
          Table.get false t.mgmt.spares (clusterOf c) = true ∧
          (t.core c).enabled = ((s.core c).enabled && !Table.get false s.mgmt.spares (clusterOf c))) ∧
        (s.mgmt.stage = 6 → ∀ p, p < 16 → p ∉ r.portsDown →
          t.port p = ⟨true, decide (p ∈ r.lanesSpared), false⟩ ∧ ∃ q, q ≤ p ∧ t.links.protectedPort = some q ∧ q ∉ r.portsDown) ∧
        -- the report
        (let w (k : Nat) : Nat := (t.mgmt.report[k]?).getD 0
         let degraded : Prop := (∃ k, k < 160 ∧ (t.core k).enabled = false) ∨ (∃ p, p < 16 ∧ (t.port p).up = false) ∨ t.sto.quar ≠ []
         t.mgmt.report.length = 8 ∧ w 0 / 2 ^ 59 % 8 = t.mgmt.stage ∧ w 0 / 2 ^ 56 % 8 = t.mgmt.failed ∧
         (t.mgmt.held = true → w 0 / 2 ^ 62 = 3) ∧ (t.mgmt.held = false → t.mgmt.stage < 7 → w 0 / 2 ^ 62 = 0) ∧
         (t.mgmt.held = false → t.mgmt.stage = 7 → (degraded → w 0 / 2 ^ 62 = 2) ∧ (¬ degraded → w 0 / 2 ^ 62 = 1)) ∧
         (∀ k, k < 80 → (w 1).testBit k = (decide (5 < t.mgmt.stage) && (t.core k).enabled) ∧
           (w 2).testBit k = (decide (5 < t.mgmt.stage) && (t.core (80 + k)).enabled)) ∧
         w 4 = (if 1 < t.mgmt.stage then Config.buildNumber.toNat else 0) ∧ w 5 = 0 ∧ w 6 = 0 ∧ w 7 = 0))

/-! ### Completion of vector memory words and of stops -/

/-- The places of element x under a unit form, and the tags that a form with .tag asks for (R60, R71, R96). -/
def unitPlaces (e : QEntry) (base : Word) (code x : Nat) : List (Word × Nat) :=
  match storedOf e.sew code with
  | .plain sz => [(base + BitVec.ofNat 64 (x * sz), sz)]
  | .packed w => (packedAt base w x).1.map fun va => (va, 1)
  | .bpn _ => (upTo 0 e.planes).map fun j => (bpnAddr base x j, 1)
  | .reserved => []
def tagsHold (c : Ctx) (m : MemForm) (l : List (Word × Nat)) (s : State) : Prop :=
  m.tag = true → ∀ p ∈ l, ∀ k, (s.hart c.n).tile c.n p.1 = some k → Table.get 0#16 s.sto.tags k = c.e.imm

/-- An element of a unit load that is legal and lies in the hart's own windows, and one of a unit store: a format that is not
reserved, a BPN base on 256 bytes, and a rounding where one is needed (R71, R177, R179). -/
def unitLoadOk (c : Ctx) (m : MemForm) (x : Nat) (s : State) : Prop :=
  let code := (c.e.mfc.extractLsb' 5 5).toNat
  storedOf c.e.sew code ≠ .reserved ∧ (∀ b, storedOf c.e.sew code = .bpn b → (baseOf c m).toNat % 256 = 0) ∧
  (∀ p ∈ unitPlaces c.e (baseOf c m) code x, Local s c.n p.1 p.2) ∧ tagsHold c m (unitPlaces c.e (baseOf c m) code x) s
def unitStoreOk (c : Ctx) (m : MemForm) (x : Nat) (s : State) : Prop :=
  let code := (c.e.mfc.extractLsb' 10 5).toNat
  storedOf c.e.sew code ≠ .reserved ∧ code ≠ 22 ∧ roundOk c x s ∧
  (∀ b, storedOf c.e.sew code = .bpn b → (baseOf c m).toNat % 256 = 0) ∧
  ∀ p ∈ unitPlaces c.e (baseOf c m) code x, Local s c.n p.1 p.2

/-- The same of a plain store at an address of its own, strided or indexed. -/
def plainStoreOk (c : Ctx) (va : Word) (x : Nat) (s : State) : Prop :=
  ∃ sz, storedOf c.e.sew (c.e.mfc.extractLsb' 10 5).toNat = .plain sz ∧ Local s c.n va sz ∧ roundOk c x s

/-- A vector memory word whose elements are all legal and reach the hart's own windows completes, and takes no trap: its hart runs
on at the same place, with its trap registers as they were. -/
def Completes (i : Instr) (l : QEntry → Nat → Nat → List Nat) (legal : Ctx → Nat → State → Prop) : Prop :=
  ∀ s : State, VReady s i → Quiet s →
    let c : Ctx := ⟨s.cur, (s.me.entryFor i).2, s.entry i⟩
    (∀ x ∈ l c.e s.me.vec.vstart (s.groupTop i), legal c x s) →
    ∃ t, exec i s = .next t ∧ t.me.q.status = .running ∧ t.me.sc.pc = s.me.sc.pc ∧ t.me.vec.vstart = s.me.vec.vstart ∧
      t.me.trap = s.me.trap

/-- Where vector stores, VLDK, and the words on predicates and scales in memory complete (R177, R184, R185, R187, R188): with legal
formats, alignment and rounding, on the hart's own TCM and scratchpad, while no error waits. Where the stops of R318, R326 and R327 and the quantum
of R262 complete: an interrupt becomes pending and sets the latch; a termination frees its hart slot, unless an EXIT comes first; a
gang that may be pre-empted, with nothing that comes first since its partition is paused, leaves its cores for the front of its
queue; and a quantum is counted, also with nothing to place. -/
def Obligations.StoresAndStopsComplete : Prop :=
  (∀ g vd vs2 ks m,
    let store (i : Instr) (at_ : Ctx → Nat → State → Word) : Prop :=
      Completes i everyElem fun c x s => (s.hart c.n).vguard g x = true → plainStoreOk c (at_ c x s) x s
    Completes (.vst g vd m) everyElem (fun c x s => (s.hart c.n).vguard g x = true → unitStoreOk c m x s) ∧
    store (.vsts g vd m) (fun c x _ => stridedAt c m x) ∧ store (.vstx g vd vs2 m) (fun c x s => indexedAt c m vs2 x s) ∧
    Completes (.vstk g vd ks m) everyElem (fun c x s => (s.hart c.n).vguard g x = true →
      unitStoreOk c m x s ∧ Local s c.n (scaleAt c x) 1 ∧ (roundsCode (c.e.mfc.extractLsb' 10 5).toNat = true → c.e.scfmt < 2)) ∧
    Completes (.vldk g vd ks m) everyElem (fun c x s => (s.hart c.n).vguard g x = true →
      unitLoadOk c m x s ∧ Local s c.n (scaleAt c x) 1)) ∧
  (∀ g (p : PReg) (k : KReg) m,
    let bits (c : Ctx) (x : Nat) (s : State) : Prop := Local s c.n (baseOf c m + BitVec.ofNat 64 (x / 8)) 1
    let entries (c : Ctx) (x : Nat) (s : State) : Prop := Local s c.n (stridedAt c m (x / 2 ^ c.e.shift)) 1
    Completes (.pld g p m) everyElem bits ∧ Completes (.pst g p m) everyElem bits ∧
    Completes (.kld g k m) blockStarts entries ∧ Completes (.kst g k m) blockStarts entries) ∧
  (∀ (s : State) (n : Nat) (src : Word), (s.hart n).q.status ≠ .free →
    (∃ t, exec (.interrupt n src) s = .next t ∧ (t.hart n).q.irq = (s.hart n).q.irq ++ [src] ∧ (t.hart n).sc.latch = true) ∧
    (∃ t, exec (.termination (.hart n)) s = .next t ∧ ((t.hart n).q.status = .free ∨ (t.hart n).q.status = .exiting)) ∧
    ((s.hart n).q.status = .stopped ∨ ((s.hart n).q.status = .running ∧ s.paused n = true) →
      ∃ t, exec (.termination (.hart n)) s = .next t ∧ (t.hart n).q.status = .free)) ∧
  (∀ (s : State) (l : Nat), let x := s.gang l
    s.mayPreempt x = true → (∀ m ∈ x.liveMembers, s.paused (x.memberHart m) = true) → x.stopReq = none → x.cores ≠ [] →
    ∃ t q, exec (.preemption l) s = .next t ∧ t.gang l = Gang.none_ ∧ q.image.isSome = true ∧
      (t.part (slatePart q.words)).queue.head? = some q) ∧
  ∀ s : State, (∃ t, exec .schedulingQuantum s = .next t) ∧
    (s.gangs = [] → s.parts = [] → exec .schedulingQuantum s = .next { s with quanta := s.quanta + 1 })
end

