-- ==== Sys2Proof/Laws/Crypto.lean ====
section
/-!
SUPPORT. The laws of protected frames (R285, R287): an AES-256 block has 16 bytes, the counter mode of GCM undoes itself, and the
frame that one side seals is the frame that the other opens.
-/
namespace Sys2Proof.Machine
set_option Elab.async false

/-! ### Bytes -/

theorem length_xorBytes (a b : List Byte) : (xorBytes a b).length = min a.length b.length := by simp [xorBytes]

theorem xorBytes_twice : ∀ a b : List Byte, a.length ≤ b.length → xorBytes (xorBytes a b) b = a
  | [], _, _ => rfl
  | x :: a, y :: b, h => by
    have ih := xorBytes_twice a b (by simpa using h)
    simp only [xorBytes, List.zipWith_cons_cons] at ih ⊢
    rw [ih, BitVec.xor_assoc, BitVec.xor_self, BitVec.xor_zero]
  | _ :: _, [], h => by simp at h

theorem length_toBytes : ∀ n v : Nat, (toBytes n v).length = n
  | 0, _ => rfl
  | n + 1, v => by simp [toBytes, length_toBytes n]

theorem drop_toBytes : ∀ k n v : Nat, (toBytes (k + n) v).drop k = toBytes n (v / 256 ^ k)
  | 0, n, v => by simp
  | k + 1, n, v => by
    rw [show k + 1 + n = (k + n) + 1 by omega, toBytes, List.drop_succ_cons, drop_toBytes k n, Nat.div_div_eq_div_mul, Nat.pow_succ,
      Nat.mul_comm]

theorem take_toBytes : ∀ k n v : Nat, (toBytes (k + n) v).take k = toBytes k v
  | 0, _, _ => rfl
  | k + 1, n, v => by
    rw [show k + 1 + n = (k + n) + 1 by omega, toBytes, List.take_succ_cons, take_toBytes k n, toBytes]

theorem toBytes_congr : ∀ {n a b : Nat}, a % 256 ^ n = b % 256 ^ n → toBytes n a = toBytes n b
  | 0, _, _, _ => rfl
  | n + 1, a, b, h => by
    rw [Nat.pow_succ, Nat.mul_comm, Nat.mod_mul, Nat.mod_mul] at h
    have h1 : a % 256 = b % 256 := by omega
    have h2 : a / 256 % 256 ^ n = b / 256 % 256 ^ n := by omega
    rw [toBytes, toBytes, toBytes_congr h2]
    congr 1
    exact BitVec.eq_of_toNat_eq (by simpa using h1)

theorem ofBytes_toBytes : ∀ n v : Nat, ofBytes (toBytes n v) = v % 256 ^ n
  | 0, v => by simp [toBytes, ofBytes, Nat.mod_one]
  | n + 1, v => by
    rw [toBytes, ofBytes, ofBytes_toBytes n, Nat.pow_succ, Nat.mul_comm (256 ^ n) 256, Nat.mod_mul]
    simp

/-- All the lists of a list have `n` entries. -/
def AllLen (n : Nat) (l : List (List Byte)) : Prop := ∀ x ∈ l, x.length = n

theorem length_flatten_of_allLen {n : Nat} : ∀ {l : List (List Byte)}, AllLen n l → l.flatten.length = n * l.length
  | [], _ => rfl
  | x :: l, h => by
    have ih := length_flatten_of_allLen (l := l) fun y hy => h y (List.mem_cons_of_mem _ hy)
    have hx := h x (List.mem_cons_self ..)
    simp only [List.flatten_cons, List.length_append, List.length_cons, ih, hx]
    rw [Nat.mul_succ, Nat.add_comm]

theorem byteBlocks_full {n : Nat} (hn : 0 < n) : ∀ (m fuel : Nat) (l : List Byte), l.length = n * m → m ≤ fuel →
    AllLen n (byteBlocks n fuel l) ∧ (byteBlocks n fuel l).length = m
  | 0, fuel, l, h, _ => by
    have : l = [] := List.eq_nil_of_length_eq_zero (by simpa using h)
    subst this
    cases fuel <;> exact ⟨fun _ hx => absurd hx (List.not_mem_nil), rfl⟩
  | m + 1, 0, _, _, h => by omega
  | m + 1, fuel + 1, l, h, hf => by
    have hl : n ≤ l.length := by rw [h, Nat.mul_succ]; omega
    have hne : l.isEmpty = false := by cases l with
      | nil => simp at hl; omega
      | cons => rfl
    have ih := byteBlocks_full hn m fuel (l.drop n) (by rw [List.length_drop, h, Nat.mul_succ]; omega) (by omega)
    simp only [byteBlocks, hne, Bool.false_eq_true, if_false]
    refine ⟨fun x hx => ?_, by simp [ih.2]⟩
    rcases List.mem_cons.mp hx with rfl | hx
    · simp [hl]
    · exact ih.1 x hx

/-! ### AES-256 -/

theorem aesExpand_full : ∀ (k i : Nat) (w : List (List Byte)), AllLen 4 w → 8 ≤ w.length →
    AllLen 4 (aesExpand k i w) ∧ (aesExpand k i w).length = k + w.length
  | 0, _, w, h, _ => ⟨h, by simp [aesExpand]⟩
  | k + 1, i, w, h, hw => by
    obtain ⟨t, r, rfl⟩ : ∃ t r, w = t :: r := by
      cases w with
      | nil => simp at hw
      | cons t r => exact ⟨t, r, rfl⟩
    have ht : t.length = 4 := h t (List.mem_cons_self ..)
    have h7 : (((t :: r)[7]?).getD []).length = 4 := by
      rw [List.getElem?_eq_getElem (by omega)]
      exact h _ (List.getElem_mem _)
    have key : ∀ x : List Byte, x.length = 4 → AllLen 4 (aesExpand k (i + 1) (xorBytes x (((t :: r)[7]?).getD []) :: t :: r)) ∧
        (aesExpand k (i + 1) (xorBytes x (((t :: r)[7]?).getD []) :: t :: r)).length = k + 1 + (t :: r).length := by
      intro x hx
      have ih := aesExpand_full k (i + 1) (xorBytes x (((t :: r)[7]?).getD []) :: t :: r) (fun y hy => by
        rcases List.mem_cons.mp hy with rfl | hy
        · rw [length_xorBytes, hx, h7]; rfl
        · exact h y hy) (by simp at hw ⊢; omega)
      refine ⟨ih.1, ih.2.trans ?_⟩
      simp only [List.length_cons]; omega
    refine key _ ?_
    simp only [List.headD_cons]
    split
    · rw [length_xorBytes]; simp [ht]
    · split
      · simp [ht]
      · exact ht

theorem aesKeys_full {key : List Byte} (h : key.length = 32) : AllLen 16 (aesKeys key) ∧ (aesKeys key).length = 15 := by
  have h8 := byteBlocks_full (n := 4) (by omega) 8 8 key (by omega) (by omega)
  have hx := aesExpand_full 52 8 (byteBlocks 4 8 key).reverse (fun y hy => h8.1 y (List.mem_reverse.mp hy)) (by simp [h8.2])
  refine byteBlocks_full (by omega) 15 16 _ ?_ (by omega)
  rw [length_flatten_of_allLen (n := 4) fun y hy => hx.1 y (List.mem_reverse.mp hy), List.length_reverse, hx.2, List.length_reverse, h8.2]

theorem length_aesRounds : ∀ (ks : List (List Byte)) (s : List Byte), ks ≠ [] → AllLen 16 ks → (aesRounds s ks).length = 16
  | [k], s, _, h => by
    rw [aesRounds, length_xorBytes, h k (List.mem_cons_self ..)]
    simp [aesShift]
  | k :: k' :: ks, s, _, h => by
    rw [aesRounds]
    · exact length_aesRounds (k' :: ks) _ (by simp) fun y hy => h y (List.mem_cons_of_mem _ hy)
    · simp

/-- A block under a key of 32 bytes has 16 bytes. -/
theorem length_aes256 {key : List Byte} (block : List Byte) (h : key.length = 32) : (aes256 key block).length = 16 := by
  have hk := aesKeys_full h
  unfold aes256
  generalize aesKeys key = l at hk
  match l, hk with
  | k :: k' :: ks, hk => exact length_aesRounds (k' :: ks) _ (by simp) fun y hy => hk.1 y (List.mem_cons_of_mem _ hy)
  | [_], hk => simp at hk
  | [], hk => simp at hk

/-! ### GCM -/

theorem length_gcmStream {key : List Byte} (nonce : List Byte) (h : key.length = 32) : ∀ k c : Nat, (gcmStream key nonce k c).length = 16 * k
  | 0, _ => rfl
  | k + 1, c => by rw [gcmStream, List.length_append, length_aes256 _ h, length_gcmStream nonce h k]; omega

theorem length_gcmCrypt {key : List Byte} (nonce p : List Byte) (h : key.length = 32) : (gcmCrypt key nonce p).length = p.length := by
  rw [gcmCrypt, length_xorBytes, length_gcmStream nonce h]; omega

/-- The counter mode undoes itself. -/
theorem gcmCrypt_twice {key : List Byte} (nonce p : List Byte) (h : key.length = 32) : gcmCrypt key nonce (gcmCrypt key nonce p) = p := by
  have hl := length_gcmCrypt nonce p h
  unfold gcmCrypt at hl ⊢
  rw [hl]
  exact xorBytes_twice _ _ (by rw [length_gcmStream nonce h]; omega)

/-- A tag has 16 bytes. -/
theorem length_gcmTag {key : List Byte} (nonce aad c : List Byte) (h : key.length = 32) : (gcmTag key nonce aad c).length = 16 := by
  unfold gcmTag
  simp only
  rw [length_xorBytes, length_aes256 _ h, beBytes, List.length_reverse, length_toBytes]
  rfl

/-- What is sealed opens, under the same key, nonce and header. -/
theorem gcmOpen_seal {key : List Byte} (nonce aad p : List Byte) (h : key.length = 32) :
    gcmOpen key nonce aad (gcmSeal key nonce aad p).1 (gcmSeal key nonce aad p).2 = some p := by
  unfold gcmOpen gcmSeal
  simp only [if_true]
  rw [gcmCrypt_twice nonce p h]

/-! ### Ed448 -/

/-- The neutral point. -/
def edZero : EdPoint := ⟨0, 1, 1⟩

theorem EdPoint.mul_zero : ∀ (n : Nat) (p : EdPoint), p.mul n 0 = edZero
  | 0, _ => rfl
  | n + 1, p => by rw [EdPoint.mul, EdPoint.mul_zero n]; rfl

theorem edZero_add : edZero.add edZero = edZero := by decide +kernel

theorem edZero_mul : ∀ n k : Nat, edZero.mul n k = edZero
  | 0, _ => rfl
  | n + 1, k => by rw [EdPoint.mul, edZero_add, edZero_mul n]; simp [edZero_add]

/-- Under the neutral point as a key, which a sound peer never has, a signature of two neutral parts verifies for every message. So
the premise that a signature verifies can be met. -/
theorem ed448Verify_neutral (m : List Byte) : ed448Verify (toBytes 57 1) m (toBytes 57 1 ++ toBytes 57 0) = true := by
  have h1 : edPoint (toBytes 57 1) = some edZero := by decide +kernel
  have h2 : (toBytes 57 1 ++ toBytes 57 0).take 57 = toBytes 57 1 := by decide
  have h3 : ofBytes ((toBytes 57 1 ++ toBytes 57 0).drop 57) = 0 := by decide
  have h4 : (toBytes 57 1 ++ toBytes 57 0).length = 114 ∧ 0 < edOrder := by decide +kernel
  unfold ed448Verify
  simp only [h2, h1, h3, EdPoint.mul_zero, edZero_mul, edZero_add, h4]
  decide +kernel

/-! ### Frames -/

theorem length_dirKey {keys : List Byte} (d : Bool) (h : keys.length = 88) : (dirKey keys d).length = 32 := by
  unfold dirKey; split <;> simp [h]

/-- A protected frame: its header, its payload under the cipher, and its tag. -/
theorem sealFrame_parts {keys : List Byte} (d : Bool) (x : FrameHdr) (p : List Byte) (h : keys.length = 88) :
    ∃ c t, sealFrame keys d x p = ({ x with len := p.length } : FrameHdr).bytes ++ c ++ t ∧ c.length = p.length ∧ t.length = 16 ∧
      gcmOpen (dirKey keys d) (nonceOf (dirSalt keys d) x.seq) ({ x with len := p.length } : FrameHdr).bytes c t = some p := by
  have hk := length_dirKey d h
  exact ⟨_, _, rfl, length_gcmCrypt _ _ hk, length_gcmTag _ _ _ hk, gcmOpen_seal _ _ _ hk⟩

theorem FrameHdr.length_bytes (x : FrameHdr) : x.bytes.length = 16 := length_toBytes _ _

/-- The header of a sealed frame reads as it was written (R285). -/
theorem frameHdr_sealFrame {keys : List Byte} (d : Bool) (x : FrameHdr) (p : List Byte) (h : keys.length = 88)
    (hs : x.sid < 65536) (hk : x.kind < 4) (h2 : x.kind ≠ 2) (ht : x.tg < 256) (hq : x.seq < 2 ^ 48) (hp : p.length ≤ maxPayload) :
    frameHdr (sealFrame keys d x p) = some { x with len := p.length } := by
  obtain ⟨c, t, e, hc, htl, -⟩ := sealFrame_parts d x p h
  have hb := FrameHdr.length_bytes ({ x with len := p.length } : FrameHdr)
  have hlen : (sealFrame keys d x p).length = 32 + p.length := by simp only [e, List.length_append, hb, hc, htl]; omega
  have htake : (sealFrame keys d x p).take 16 = ({ x with len := p.length } : FrameHdr).bytes := by
    rw [e, List.append_assoc, List.take_append_of_le_length (by omega), List.take_of_length_le (by omega)]
  have hm : maxPayload = 8968 := rfl
  unfold frameHdr
  rw [htake, hlen]
  simp only [FrameHdr.bytes, ofBytes_toBytes, imgGet, FrameHdr.tagBytes, Nat.shiftRight_eq_div_pow]
  rw [if_neg]
  · congr 1
    cases x
    simp only [FrameHdr.mk.injEq] at *
    refine ⟨?_, ?_, ?_, ?_, ?_⟩ <;> omega
  · simp only [not_or]
    refine ⟨by omega, by omega, by omega, by omega, ?_⟩
    have : (x.sid % 65536 + x.kind % 256 * 2 ^ 16 + x.tg % 256 * 2 ^ 24 + x.seq % 2 ^ 48 * 2 ^ 32 + p.length % 65536 * 2 ^ 80) %
        256 ^ 16 / 2 ^ 16 % 2 ^ 8 ≠ 2 := by omega
    rw [if_neg this]; omega

/-- A frame that one side seals is opened by the other (R287). -/
theorem openFrame_sealFrame {keys : List Byte} (d : Bool) (x : FrameHdr) (p : List Byte) (h : keys.length = 88) (hp : p.length < 65536) :
    openFrame keys d { x with len := p.length } (sealFrame keys d x p) = some p := by
  obtain ⟨c, t, e, hc, -, ho⟩ := sealFrame_parts d x p h
  have hb := FrameHdr.length_bytes ({ x with len := p.length } : FrameHdr)
  have h1 : (sealFrame keys d x p).take 16 = ({ x with len := p.length } : FrameHdr).bytes := by
    rw [e, List.append_assoc, List.take_append_of_le_length (by omega), List.take_of_length_le (by omega)]
  have h3 : (sealFrame keys d x p).drop 16 = c ++ t := by
    rw [e, List.append_assoc, List.drop_append_of_le_length (by omega), List.drop_of_length_le (by omega), List.nil_append]
  have h2 : ((sealFrame keys d x p).drop 10).take 2 = toBytes 2 p.length := by
    rw [e, List.append_assoc, List.drop_append_of_le_length (by omega), List.take_append_of_le_length (by
      rw [List.length_drop]; omega)]
    simp only [FrameHdr.bytes]
    rw [show (16 : Nat) = 10 + 6 by rfl, drop_toBytes, show (6 : Nat) = 2 + 4 by rfl, take_toBytes]
    exact toBytes_congr (by omega)
  unfold openFrame framePayload
  rw [h1, h2, h3, ofBytes_toBytes, show p.length % 256 ^ 2 = p.length by omega, List.take_append_of_le_length (by omega),
    List.take_of_length_le (by omega)]
  rw [show List.drop (16 + p.length) (sealFrame keys d x p) = t from ?_]
  · exact ho
  · rw [← List.drop_drop, h3, List.drop_append_of_le_length (by omega), List.drop_of_length_le (by omega), List.nil_append]

/-- A frame that the peer of an open session sealed is accepted, once as new (R287). -/
theorem State.accept_sealFrame {s : State} {port : Nat} {x : FrameHdr} {p : List Byte} (hk : (s.session x.sid).keys.length = 88)
    (hh : s.hasSession x.sid = true) (hp : (s.session x.sid).port = port) (hpart : s.portPart port = some (s.session x.sid).part)
    (ho : (s.session x.sid).opened = true) (hu : (s.port port).up = true) (hs : x.sid < 65536) (h4 : x.kind < 4) (h2 : x.kind ≠ 2)
    (ht : x.tg < 256) (hq : x.seq < 2 ^ 48) (h0 : x.seq ≠ 0) (hm : p.length ≤ maxPayload) :
    s.accept port x.kind (sealFrame (s.session x.sid).keys (!(s.session x.sid).initiator) x p) = some (x.sid, { x with len := p.length },
      !((s.session x.sid).rxSeen.contains x.seq || decide (x.seq + 4096 ≤ (s.session x.sid).rxHigh)), p) := by
  have hmax : maxPayload = 8968 := rfl
  unfold State.accept
  rw [frameHdr_sealFrame _ x p hk hs h4 h2 ht hq hm]
  simp only [hh, hp, hpart, ho, hu, h0, openFrame_sealFrame _ x p hk (by omega)]
  simp

end Sys2Proof.Machine
end

