-- ==== Sys2Proof/Laws/Encode.lean ====
section
/-!
SUPPORT. The laws of the encoder's pieces: splitting a packed word gives its fields back, and each selector's code reads as
the selector. The round trip of every instruction (Sys2Proof/Laws/PerInstr.lean) rests on them.
-/
namespace Sys2Proof
set_option Elab.async false

theorem splitSc_packSc (f : ScF) : splitSc (packSc f) = f := by
  rcases f with ⟨opc, ⟨tt, ca, cb, cc⟩, sd, sa, sb, fn⟩
  unfold splitSc packSc
  congr 1
  all_goals (try congr 1)
  all_goals repeat (first | rw [BitVec.extractLsb'_append_eq_of_add_le (by decide)] | rw [BitVec.extractLsb'_append_eq_of_le (by decide)])
  all_goals simp

theorem splitV_packV (f : VF) : splitV (packV f) = f := by
  rcases f with ⟨opc, ⟨tt, pa, pb, pc⟩, vd, vs1, vs2, osel, md⟩
  unfold splitV splitG packV
  congr 1
  all_goals (try congr 1)
  all_goals repeat (first | rw [BitVec.extractLsb'_append_eq_of_add_le (by decide)] | rw [BitVec.extractLsb'_append_eq_of_le (by decide)])
  all_goals simp

theorem splitP_packP (f : PF) : splitP (packP f) = f := by
  rcases f with ⟨opc, ⟨tt, pa, pb, pc⟩, pd, ps1, ps2, md⟩
  unfold splitP splitG packP
  congr 1
  all_goals (try congr 1)
  all_goals repeat (first | rw [BitVec.extractLsb'_append_eq_of_add_le (by decide)] | rw [BitVec.extractLsb'_append_eq_of_le (by decide)])
  all_goals simp

theorem splitB_packB (f : BF) : splitB (packB f) = f := by
  rcases f with ⟨opc, ⟨tt, pa, pb, pc⟩, vd, vs, o, q, vc, sw, rsv⟩
  unfold splitB splitG packB
  congr 1
  all_goals (try congr 1)
  all_goals repeat (first | rw [BitVec.extractLsb'_append_eq_of_add_le (by decide)] | rw [BitVec.extractLsb'_append_eq_of_le (by decide)])
  all_goals simp

/-- A part of a field of a packed word, for the opcode. -/
theorem packV_top (f : VF) (k n : Nat) (_ : k + n ≤ 8) : (packV f).extractLsb' (56 + k) n = f.opc.extractLsb' k n := by
  unfold packV
  repeat (first | rw [BitVec.extractLsb'_append_eq_of_le (by omega)])
  congr 1; omega

theorem packP_top (f : PF) (k n : Nat) (_ : k + n ≤ 8) : (packP f).extractLsb' (56 + k) n = f.opc.extractLsb' k n := by
  unfold packP
  repeat (first | rw [BitVec.extractLsb'_append_eq_of_le (by omega)])
  congr 1; omega

theorem code_sc (f : ScF) : decodeCode ⟨.sc, packSc f⟩ = (decodeSc f).toOption := by
  have h : (packSc f).extractLsb' 62 2 = 0#2 := by
    unfold packSc
    repeat (first | rw [BitVec.extractLsb'_append_eq_of_add_le (by decide)] | rw [BitVec.extractLsb'_append_eq_of_le (by decide)])
    simp
  simp only [decodeCode, decodeIn, h, if_true, splitSc_packSc]

theorem code_vmV (f : VF) (o : BitVec 8) (ho : f.opc = o) (h : o.extractLsb' 1 7 ≠ 0x0C#7) :
    decodeCode ⟨.vm, packV f⟩ = (decodeVmV f).toOption := by
  subst ho
  have h1 : (packV f).extractLsb' 57 7 = f.opc.extractLsb' 1 7 := packV_top f 1 7 (by decide)
  simp only [decodeCode, decodeIn, decodeVm, h1, h, if_false, splitV_packV]

theorem code_vmP (f : PF) (o : BitVec 8) (ho : f.opc = o) (h : o.extractLsb' 1 7 = 0x0C#7) :
    decodeCode ⟨.vm, packP f⟩ = (decodeVmP f).toOption := by
  subst ho
  have h1 : (packP f).extractLsb' 57 7 = f.opc.extractLsb' 1 7 := packP_top f 1 7 (by decide)
  simp only [decodeCode, decodeIn, decodeVm, h1, h, if_true, splitP_packP]

theorem code_bf (f : BF) : decodeCode ⟨.bf, packB f⟩ = (decodeBf f).toOption := by
  simp only [decodeCode, decodeIn, splitB_packB]

theorem code_md (f : VF) : decodeCode ⟨.md, packV f⟩ = (decodeMd f).toOption := by
  simp only [decodeCode, decodeIn, splitV_packV]

theorem code_vaInt (f : VF) (o : BitVec 8) (ho : f.opc = o) (h : o.extractLsb' 4 4 = 0#4 ∨ o.extractLsb' 4 4 = 1#4) :
    decodeCode ⟨.va, packV f⟩ = (decodeVaInt f).toOption := by
  subst ho
  have h1 : (packV f).extractLsb' 60 4 = f.opc.extractLsb' 4 4 := packV_top f 4 4 (by decide)
  rcases h with h | h <;> simp only [decodeCode, decodeIn, decodeVa, h1, h, splitV_packV] <;> rfl

theorem code_vaFp (f : VF) (o : BitVec 8) (ho : f.opc = o) (h : o.extractLsb' 4 4 = 2#4 ∨ o.extractLsb' 4 4 = 3#4) :
    decodeCode ⟨.va, packV f⟩ = (decodeVaFp f).toOption := by
  subst ho
  have h1 : (packV f).extractLsb' 60 4 = f.opc.extractLsb' 4 4 := packV_top f 4 4 (by decide)
  rcases h with h | h <;> simp only [decodeCode, decodeIn, decodeVa, h1, h, splitV_packV] <;> rfl

theorem code_vaMove (f : VF) (o : BitVec 8) (ho : f.opc = o) (h : o.extractLsb' 4 4 = 4#4) :
    decodeCode ⟨.va, packV f⟩ = (decodeVaMove f).toOption := by
  subst ho
  have h1 : (packV f).extractLsb' 60 4 = f.opc.extractLsb' 4 4 := packV_top f 4 4 (by decide)
  simp only [decodeCode, decodeIn, decodeVa, h1, h, splitV_packV]; rfl

theorem code_vaScale (f : VF) (o : BitVec 8) (ho : f.opc = o) (h : o.extractLsb' 4 4 = 6#4) :
    decodeCode ⟨.va, packV f⟩ = (decodeVaScale f).toOption := by
  subst ho
  have h1 : (packV f).extractLsb' 60 4 = f.opc.extractLsb' 4 4 := packV_top f 4 4 (by decide)
  simp only [decodeCode, decodeIn, decodeVa, h1, h, splitV_packV]; rfl

theorem code_vaBfop (f : VF) (o : BitVec 8) (ho : f.opc = o) (h : o = 0x71#8) :
    decodeCode ⟨.va, packV f⟩ = (decodeVaScale f).toOption := by
  subst ho
  have h1 : (packV f).extractLsb' 60 4 = f.opc.extractLsb' 4 4 := packV_top f 4 4 (by decide)
  have h2 : (packV f).extractLsb' 56 8 = f.opc.extractLsb' 0 8 := packV_top f 0 8 (by decide)
  simp only [decodeCode, decodeIn, decodeVa, h1, h2, h, splitV_packV]; rfl

theorem code_vaPred (f : PF) (o : BitVec 8) (ho : f.opc = o) (h : o.extractLsb' 4 4 = 5#4) :
    decodeCode ⟨.va, packP f⟩ = (decodeVaPred f).toOption := by
  subst ho
  have h1 : (packP f).extractLsb' 60 4 = f.opc.extractLsb' 4 4 := packP_top f 4 4 (by decide)
  simp only [decodeCode, decodeIn, decodeVa, h1, h, splitP_packP]; rfl

theorem code_vaSkip (f : PF) (o : BitVec 8) (ho : f.opc = o) (h : o = 0x70#8) :
    decodeCode ⟨.va, packP f⟩ = (decodeVaPred f).toOption := by
  subst ho
  have h1 : (packP f).extractLsb' 60 4 = f.opc.extractLsb' 4 4 := packP_top f 4 4 (by decide)
  have h2 : (packP f).extractLsb' 56 8 = f.opc.extractLsb' 0 8 := packP_top f 0 8 (by decide)
  simp only [decodeCode, decodeIn, decodeVa, h1, h2, h, splitP_packP]; rfl

/-! ### Selectors -/

@[simp] theorem condOf_code (c : Cond) : condOf (condCode c) = some c := by cases c <;> rfl
@[simp] theorem rmodeOf_code (m : RMode) : rmodeOf (rmodeCode m) = some m := by cases m <;> rfl
@[simp] theorem scopeOf_code (x : Scope) : scopeOf (scopeCode x) = some x := by cases x <;> rfl
@[simp] theorem amoOf_code (x : AmoOp) : amoOf (amoCode x) = some x := by cases x <;> rfl
@[simp] theorem fpOf_code (x : FP) : fpOf (fpCode x) = some x := by cases x <;> rfl
@[simp] theorem kindOf_code (x : FenceKind) : kindOf (kindCode x) = some x := by cases x <;> rfl
@[simp] theorem sel3Of_code (x : Sel3) : sel3Of (sel3Code x) = some x := by cases x <;> rfl
@[simp] theorem srmOf_code (x : SRm) : srmOf (srmCode x) = some x := by
  cases x with
  | dyn => rfl
  | mode m => cases m <;> rfl
@[simp] theorem bit1_eq (b : Bool) : (bit1 b = 1#1) = (b = true) := by cases b <;> simp [bit1]
@[simp] theorem bit1_zero (b : Bool) : (bit1 b = 0#1) = (b = false) := by cases b <;> simp [bit1]
@[simp] theorem oper_some {α : Type} (a : α) (k : α → Except Reject Instr) : oper (some a) k = k a := rfl
@[simp] theorem need_true (i : Instr) : need true i = .ok i := rfl
@[simp] theorem legal_true (k : Except Reject Instr) : legal true k = k := rfl
@[simp] theorem ok_toOption (i : Instr) : (Except.ok i : Except Reject Instr).toOption = some i := rfl

@[simp] theorem op2Of_code (w : Bool) (o : Op2) (k : Op2 → Except Reject Instr) (h : w = true ∨ o.narrow = true) :
    op2Of w (op2Osel o) (op2Vs2 o) k = k o := by
  cases o <;> simp_all [op2Of, op2Osel, op2Vs2, Op2.narrow]

@[simp] theorem kop2Of_code (o : KOp2) (k : KOp2 → Except Reject Instr) : kop2Of (kop2Osel o) (kop2Vs2 o) k = k o := by
  cases o with
  | ks r =>
    have h1 : (0#1 ++ r : BitVec 6).extractLsb' 5 1 = 0#1 := by
      rw [BitVec.extractLsb'_append_eq_of_le (by decide)]; rfl
    have h2 : (0#1 ++ r : BitVec 6).extractLsb' 0 5 = r := by
      rw [BitVec.extractLsb'_append_eq_of_add_le (by decide)]; simp
    simp only [kop2Of, kop2Osel, kop2Vs2, h1, h2, if_true]
  | sel x => cases x <;> rfl

theorem low6_hi (k : BitVec 5) : (low6 k).extractLsb' 5 1 = 0#1 := by
  unfold low6; rw [BitVec.extractLsb'_append_eq_of_le (by decide)]; rfl
theorem low6_lo (k : BitVec 5) : (low6 k).extractLsb' 0 5 = k := by
  unfold low6; rw [BitVec.extractLsb'_append_eq_of_add_le (by decide)]; simp
@[simp] theorem lowOf_code (r : BitVec 5) (k : BitVec 5 → Except Reject Instr) : lowOf (low6 r) k = k r := by
  simp only [lowOf, low6_hi, low6_lo, if_true]

theorem tri6_hi (k : BitVec 3) : (tri6 k).extractLsb' 3 3 = 0#3 := by
  unfold tri6; rw [BitVec.extractLsb'_append_eq_of_le (by decide)]; rfl
theorem tri6_lo (k : BitVec 3) : (tri6 k).extractLsb' 0 3 = k := by
  unfold tri6; rw [BitVec.extractLsb'_append_eq_of_add_le (by decide)]; simp
@[simp] theorem triOf_code (r : BitVec 3) (k : BitVec 3 → Except Reject Instr) : triOf (tri6 r) k = k r := by
  simp only [triOf, tri6_hi, tri6_lo, if_true]

theorem tri5_hi (k : BitVec 3) : (tri5 k).extractLsb' 3 2 = 0#2 := by
  unfold tri5; rw [BitVec.extractLsb'_append_eq_of_le (by decide)]; rfl
theorem tri5_lo (k : BitVec 3) : (tri5 k).extractLsb' 0 3 = k := by
  unfold tri5; rw [BitVec.extractLsb'_append_eq_of_add_le (by decide)]; simp
@[simp] theorem tri5Of_code (r : BitVec 3) (k : BitVec 3 → Except Reject Instr) : tri5Of (tri5 r) k = k r := by
  simp only [tri5Of, tri5_hi, tri5_lo, if_true]

@[simp] theorem pairOf_code (c : CReg) (k : CReg → Except Reject Instr) (h : c.extractLsb' 0 1 = 0#1) :
    pairOf (pair5 c) k = k c := by
  have h1 : (pair5 c).extractLsb' 4 1 = 0#1 := by
    unfold pair5; rw [BitVec.extractLsb'_append_eq_of_le (by decide)]; rfl
  have h2 : (pair5 c).extractLsb' 0 1 = 0#1 := by
    unfold pair5; rw [BitVec.extractLsb'_append_eq_of_add_le (by decide)]; exact h
  have h3 : (pair5 c).extractLsb' 0 4 = c := by
    unfold pair5; rw [BitVec.extractLsb'_append_eq_of_add_le (by decide)]; simp
  simp only [pairOf, h1, h2, h3, and_self, if_true]

/-! ### Modifier fields -/

@[simp] theorem satMod_sat (a b : Bool) : (satMod a b).extractLsb' 5 1 = bit1 a := by cases a <;> cases b <;> rfl
@[simp] theorem satMod_u (a b : Bool) : (satMod a b).extractLsb' 4 1 = bit1 b := by cases a <;> cases b <;> rfl
@[simp] theorem satMod_low (a b : Bool) : (satMod a b).extractLsb' 0 4 = 0#4 := by cases a <;> cases b <;> rfl
@[simp] theorem satMod_none : (satMod false false).extractLsb' 4 2 = 0#2 := rfl
@[simp] theorem satMod_five (a : Bool) : (satMod a false).extractLsb' 0 5 = 0#5 := by cases a <;> rfl
@[simp] theorem rmMod_rm (m : RMode) (b : Bool) : (rmMod (rmodeCode m) b).extractLsb' 3 3 = rmodeCode m := by
  cases m <;> cases b <;> rfl
@[simp] theorem rmMod_sat (m : RMode) (b : Bool) : (rmMod (rmodeCode m) b).extractLsb' 2 1 = bit1 b := by
  cases m <;> cases b <;> rfl
@[simp] theorem rmMod_low2 (m : RMode) (b : Bool) : (rmMod (rmodeCode m) b).extractLsb' 0 2 = 0#2 := by
  cases m <;> cases b <;> rfl
@[simp] theorem rmMod_low3 (m : RMode) : (rmMod (rmodeCode m) false).extractLsb' 0 3 = 0#3 := by cases m <;> rfl
@[simp] theorem memOf_mod (m : MemForm) : memOf (memMod m) = m := by
  rcases m with ⟨a, b, c⟩; cases a <;> cases b <;> cases c <;> rfl
@[simp] theorem memMod_tag (m : MemForm) : (memMod m).extractLsb' 5 1 = bit1 m.tag := by
  rcases m with ⟨a, b, c⟩; cases a <;> cases b <;> cases c <;> rfl
@[simp] theorem memMod_off (m : MemForm) : (memMod m).extractLsb' 3 1 = bit1 m.off := by
  rcases m with ⟨a, b, c⟩; cases a <;> cases b <;> cases c <;> rfl
@[simp] theorem memMod_low (m : MemForm) : (memMod m).extractLsb' 0 3 = 0#3 := by
  rcases m with ⟨a, b, c⟩; cases a <;> cases b <;> cases c <;> rfl
@[simp] theorem memMod_hi (m : MemForm) : ((memMod m).extractLsb' 4 2 = 0#2) = (m.tag = false ∧ m.base = false) := by
  rcases m with ⟨a, b, c⟩; cases a <;> cases b <;> cases c <;> exact propext (by decide)

@[simp] theorem fpFn_rm (m : SRm) (f : FP) (c : BitVec 5) (s : BitVec 4) : (fpFn (srmCode m) f c s).extractLsb' 16 3 = srmCode m := by
  unfold fpFn
  repeat (first | rw [BitVec.extractLsb'_append_eq_of_add_le (by decide)] | rw [BitVec.extractLsb'_append_eq_of_le (by decide)])
  simp
@[simp] theorem fpFn_zero (f : FP) (c : BitVec 5) (s : BitVec 4) : (fpFn 0#3 f c s).extractLsb' 16 3 = 0#3 := by
  unfold fpFn
  repeat (first | rw [BitVec.extractLsb'_append_eq_of_add_le (by decide)] | rw [BitVec.extractLsb'_append_eq_of_le (by decide)])
  simp
@[simp] theorem fpFn_fmt (m : BitVec 3) (f : FP) (c : BitVec 5) (s : BitVec 4) : (fpFn m f c s).extractLsb' 14 2 = fpCode f := by
  unfold fpFn
  repeat (first | rw [BitVec.extractLsb'_append_eq_of_add_le (by decide)] | rw [BitVec.extractLsb'_append_eq_of_le (by decide)])
  simp
@[simp] theorem fpFn_sc (m : BitVec 3) (f : FP) (c : BitVec 5) (s : BitVec 4) : (fpFn m f c s).extractLsb' 9 5 = c := by
  unfold fpFn
  repeat (first | rw [BitVec.extractLsb'_append_eq_of_add_le (by decide)] | rw [BitVec.extractLsb'_append_eq_of_le (by decide)])
  simp
@[simp] theorem fpFn_sub (m : BitVec 3) (f : FP) (c : BitVec 5) (s : BitVec 4) : (fpFn m f c s).extractLsb' 5 4 = s := by
  unfold fpFn
  repeat (first | rw [BitVec.extractLsb'_append_eq_of_add_le (by decide)] | rw [BitVec.extractLsb'_append_eq_of_le (by decide)])
  simp
@[simp] theorem fpFn_low (m : BitVec 3) (f : FP) (c : BitVec 5) (s : BitVec 4) : (fpFn m f c s).extractLsb' 0 5 = 0#5 := by
  unfold fpFn
  repeat (first | rw [BitVec.extractLsb'_append_eq_of_add_le (by decide)] | rw [BitVec.extractLsb'_append_eq_of_le (by decide)])
  simp

@[simp] theorem imm24 (x : BitVec 24) : (x.extractLsb' 19 5 ++ x.extractLsb' 0 19 : BitVec 24) = x := by
  apply BitVec.eq_of_getLsbD_eq
  intro i hi
  simp only [BitVec.getLsbD_append, BitVec.getLsbD_extractLsb']
  by_cases h : i < 19
  · simp [h]
  · have h5 : i - 19 < 5 := by omega
    simp only [h, h5, decide_false, decide_true, Bool.true_and, if_false]
    congr 1; omega
@[simp] theorem imm29 (x : BitVec 29) : (x.extractLsb' 24 5 ++ x.extractLsb' 19 5 ++ x.extractLsb' 0 19 : BitVec 29) = x := by
  apply BitVec.eq_of_getLsbD_eq
  intro i hi
  simp only [BitVec.getLsbD_append, BitVec.getLsbD_extractLsb']
  by_cases h : i < 19
  · simp [h]
  · by_cases h2 : i < 24
    · have h5 : i - 19 < 5 := by omega
      simp only [h, h5, decide_false, decide_true, Bool.true_and, if_false, if_true]
      congr 1; omega
    · have h5 : ¬ i - 19 < 5 := by omega
      have h6 : i - 19 - 5 < 5 := by omega
      simp only [h, h5, h6, decide_false, decide_true, Bool.true_and, if_false]
      congr 1; omega

/-! ### Fields of FUNC and of wider fields -/

theorem app_lo {m n : Nat} (x : BitVec m) (y : BitVec n) : (x ++ y).extractLsb' 0 n = y := by
  rw [BitVec.extractLsb'_append_eq_of_add_le (by omega)]; simp
theorem app_hi {m n : Nat} (x : BitVec m) (y : BitVec n) : (x ++ y).extractLsb' n m = x := by
  rw [BitVec.extractLsb'_append_eq_of_le (by omega)]; simp
@[simp] theorem lo_13_6 (x : BitVec 13) (y : BitVec 6) : (x ++ y : BitVec 19).extractLsb' 0 6 = y := app_lo x y
@[simp] theorem hi_13_6 (x : BitVec 13) (y : BitVec 6) : (x ++ y : BitVec 19).extractLsb' 6 13 = x := app_hi x y
@[simp] theorem lo_15_4 (x : BitVec 15) (y : BitVec 4) : (x ++ y : BitVec 19).extractLsb' 0 4 = y := app_lo x y
@[simp] theorem hi_15_4 (x : BitVec 15) (y : BitVec 4) : (x ++ y : BitVec 19).extractLsb' 4 15 = x := app_hi x y
@[simp] theorem lo_7_12 (x : BitVec 7) (y : BitVec 12) : (x ++ y : BitVec 19).extractLsb' 0 12 = y := app_lo x y
@[simp] theorem hi_7_12 (x : BitVec 7) (y : BitVec 12) : (x ++ y : BitVec 19).extractLsb' 12 7 = x := app_hi x y
@[simp] theorem lo_3_16 (x : BitVec 3) (y : BitVec 16) : (x ++ y : BitVec 19).extractLsb' 0 16 = y := app_lo x y
@[simp] theorem hi_3_16 (x : BitVec 3) (y : BitVec 16) : (x ++ y : BitVec 19).extractLsb' 16 3 = x := app_hi x y
@[simp] theorem lo_17_2 (x : BitVec 17) (y : BitVec 2) : (x ++ y : BitVec 19).extractLsb' 0 2 = y := app_lo x y
@[simp] theorem hi_17_2 (x : BitVec 17) (y : BitVec 2) : (x ++ y : BitVec 19).extractLsb' 2 17 = x := app_hi x y
@[simp] theorem lo_18_1 (x : BitVec 18) (y : BitVec 1) : (x ++ y : BitVec 19).extractLsb' 0 1 = y := app_lo x y
@[simp] theorem hi_18_1 (x : BitVec 18) (y : BitVec 1) : (x ++ y : BitVec 19).extractLsb' 1 18 = x := app_hi x y
@[simp] theorem lo_6_13 (x : BitVec 6) (y : BitVec 13) : (x ++ y : BitVec 19).extractLsb' 0 13 = y := app_lo x y
@[simp] theorem hi_6_13 (x : BitVec 6) (y : BitVec 13) : (x ++ y : BitVec 19).extractLsb' 13 6 = x := app_hi x y
@[simp] theorem lo_5_1 (x : BitVec 5) (y : BitVec 1) : (x ++ y : BitVec 6).extractLsb' 0 1 = y := app_lo x y
@[simp] theorem hi_5_1 (x : BitVec 5) (y : BitVec 1) : (x ++ y : BitVec 6).extractLsb' 1 5 = x := app_hi x y
@[simp] theorem lo_2_4 (x : BitVec 2) (y : BitVec 4) : (x ++ y : BitVec 6).extractLsb' 0 4 = y := app_lo x y
@[simp] theorem hi_2_4 (x : BitVec 2) (y : BitVec 4) : (x ++ y : BitVec 6).extractLsb' 4 2 = x := app_hi x y
@[simp] theorem lo_2_5 (x : BitVec 2) (y : BitVec 5) : (x ++ y : BitVec 7).extractLsb' 0 5 = y := app_lo x y
@[simp] theorem hi_2_5 (x : BitVec 2) (y : BitVec 5) : (x ++ y : BitVec 7).extractLsb' 5 2 = x := app_hi x y
@[simp] theorem lo_1_6 (x : BitVec 1) (y : BitVec 6) : (x ++ y : BitVec 7).extractLsb' 0 6 = y := app_lo x y
@[simp] theorem hi_1_6 (x : BitVec 1) (y : BitVec 6) : (x ++ y : BitVec 7).extractLsb' 6 1 = x := app_hi x y
@[simp] theorem strmFn_kb (a b : BitVec 5) (c : BitVec 1) (d : BitVec 5) : (a ++ b ++ 0#3 ++ c ++ d : BitVec 19).extractLsb' 14 5 = a := by
  repeat (first | rw [BitVec.extractLsb'_append_eq_of_add_le (by decide)] | rw [BitVec.extractLsb'_append_eq_of_le (by decide)])
  simp
@[simp] theorem strmFn_st (a b : BitVec 5) (c : BitVec 1) (d : BitVec 5) : (a ++ b ++ 0#3 ++ c ++ d : BitVec 19).extractLsb' 9 5 = b := by
  repeat (first | rw [BitVec.extractLsb'_append_eq_of_add_le (by decide)] | rw [BitVec.extractLsb'_append_eq_of_le (by decide)])
  simp
@[simp] theorem strmFn_z (a b : BitVec 5) (c : BitVec 1) (d : BitVec 5) : (a ++ b ++ 0#3 ++ c ++ d : BitVec 19).extractLsb' 6 3 = 0#3 := by
  repeat (first | rw [BitVec.extractLsb'_append_eq_of_add_le (by decide)] | rw [BitVec.extractLsb'_append_eq_of_le (by decide)])
  simp
@[simp] theorem strmFn_zc (a b : BitVec 5) (c : BitVec 1) (d : BitVec 5) : (a ++ b ++ 0#3 ++ c ++ d : BitVec 19).extractLsb' 5 1 = c := by
  repeat (first | rw [BitVec.extractLsb'_append_eq_of_add_le (by decide)] | rw [BitVec.extractLsb'_append_eq_of_le (by decide)])
  simp
@[simp] theorem strmFn_gap (a b : BitVec 5) (c : BitVec 1) (d : BitVec 5) : (a ++ b ++ 0#3 ++ c ++ d : BitVec 19).extractLsb' 0 5 = d := by
  repeat (first | rw [BitVec.extractLsb'_append_eq_of_add_le (by decide)] | rw [BitVec.extractLsb'_append_eq_of_le (by decide)])
  simp
@[simp] theorem mbldFn_sk (a b c : BitVec 5) : (a ++ b ++ c ++ 0#4 : BitVec 19).extractLsb' 14 5 = a := by
  repeat (first | rw [BitVec.extractLsb'_append_eq_of_add_le (by decide)] | rw [BitVec.extractLsb'_append_eq_of_le (by decide)])
  simp
@[simp] theorem mbldFn_sn (a b c : BitVec 5) : (a ++ b ++ c ++ 0#4 : BitVec 19).extractLsb' 9 5 = b := by
  repeat (first | rw [BitVec.extractLsb'_append_eq_of_add_le (by decide)] | rw [BitVec.extractLsb'_append_eq_of_le (by decide)])
  simp
@[simp] theorem mbldFn_sc (a b c : BitVec 5) : (a ++ b ++ c ++ 0#4 : BitVec 19).extractLsb' 4 5 = c := by
  repeat (first | rw [BitVec.extractLsb'_append_eq_of_add_le (by decide)] | rw [BitVec.extractLsb'_append_eq_of_le (by decide)])
  simp
@[simp] theorem mbldFn_z (a b c : BitVec 5) : (a ++ b ++ c ++ 0#4 : BitVec 19).extractLsb' 0 4 = 0#4 := by
  repeat (first | rw [BitVec.extractLsb'_append_eq_of_add_le (by decide)] | rw [BitVec.extractLsb'_append_eq_of_le (by decide)])
  simp
@[simp] theorem amoFn_scope (sc : Scope) (a r : Bool) (z : BitVec 2) (op : BitVec 4) (k : BitVec 2) : (amoFn sc a r z op k).extractLsb' 16 3 = scopeCode sc := by
  unfold amoFn
  repeat (first | rw [BitVec.extractLsb'_append_eq_of_add_le (by decide)] | rw [BitVec.extractLsb'_append_eq_of_le (by decide)])
  simp
@[simp] theorem amoFn_acq (sc : Scope) (a r : Bool) (z : BitVec 2) (op : BitVec 4) (k : BitVec 2) : (amoFn sc a r z op k).extractLsb' 15 1 = bit1 a := by
  unfold amoFn
  repeat (first | rw [BitVec.extractLsb'_append_eq_of_add_le (by decide)] | rw [BitVec.extractLsb'_append_eq_of_le (by decide)])
  simp
@[simp] theorem amoFn_rel (sc : Scope) (a r : Bool) (z : BitVec 2) (op : BitVec 4) (k : BitVec 2) : (amoFn sc a r z op k).extractLsb' 14 1 = bit1 r := by
  unfold amoFn
  repeat (first | rw [BitVec.extractLsb'_append_eq_of_add_le (by decide)] | rw [BitVec.extractLsb'_append_eq_of_le (by decide)])
  simp
@[simp] theorem amoFn_op (sc : Scope) (a r : Bool) (z : BitVec 2) (op : BitVec 4) (k : BitVec 2) : (amoFn sc a r z op k).extractLsb' 8 4 = op := by
  unfold amoFn
  repeat (first | rw [BitVec.extractLsb'_append_eq_of_add_le (by decide)] | rw [BitVec.extractLsb'_append_eq_of_le (by decide)])
  simp
@[simp] theorem amoFn_kind (sc : Scope) (a r : Bool) (z : BitVec 2) (op : BitVec 4) (k : BitVec 2) : (amoFn sc a r z op k).extractLsb' 0 2 = k := by
  unfold amoFn
  repeat (first | rw [BitVec.extractLsb'_append_eq_of_add_le (by decide)] | rw [BitVec.extractLsb'_append_eq_of_le (by decide)])
  simp
@[simp] theorem amoFn_one (sc : Scope) (a r : Bool) (x y : BitVec 1) (op : BitVec 4) (k : BitVec 2) : (amoFn sc a r (x ++ y : BitVec 2) op k).extractLsb' 13 1 = x := by
  unfold amoFn
  repeat (first | rw [BitVec.extractLsb'_append_eq_of_add_le (by decide)] | rw [BitVec.extractLsb'_append_eq_of_le (by decide)])
  simp
@[simp] theorem amoFn_dbl (sc : Scope) (a r : Bool) (x y : BitVec 1) (op : BitVec 4) (k : BitVec 2) : (amoFn sc a r (x ++ y : BitVec 2) op k).extractLsb' 12 1 = y := by
  unfold amoFn
  repeat (first | rw [BitVec.extractLsb'_append_eq_of_add_le (by decide)] | rw [BitVec.extractLsb'_append_eq_of_le (by decide)])
  simp
@[simp] theorem amoFn_low (sc : Scope) (a r : Bool) (z : BitVec 2) (op : BitVec 4) : (amoFn sc a r z op 0#2).extractLsb' 0 8 = 0#8 := by
  apply BitVec.eq_of_getLsbD_eq
  intro i hi
  simp only [amoFn, BitVec.getLsbD_append, BitVec.getLsbD_extractLsb', BitVec.getLsbD_zero]
  by_cases h : i < 2
  · simp [h]
  · have h6 : i - 2 < 6 := by omega
    simp [h, h6]
@[simp] theorem fenceFn_low (sc : Scope) (k : FenceKind) : (amoFn sc false false 0#2 0#4 (kindCode k)).extractLsb' 2 14 = 0#14 := by
  cases sc <;> cases k <;> rfl
@[simp] theorem tlbFn_op (sc : Scope) (n : BitVec 16) : (scopeCode sc ++ n : BitVec 19).extractLsb' 0 4 = n.extractLsb' 0 4 := by
  rw [BitVec.extractLsb'_append_eq_of_add_le (by decide)]
@[simp] theorem tlbFn_z (sc : Scope) (n : BitVec 16) : (scopeCode sc ++ n : BitVec 19).extractLsb' 4 12 = n.extractLsb' 4 12 := by
  rw [BitVec.extractLsb'_append_eq_of_add_le (by decide)]
/-- The predicate of a vector branch lies across SA and SB (R126). -/
@[simp] theorem predField (p : PReg) (x : BitVec 3) :
    (p.extractLsb' 2 5 ++ (p.extractLsb' 0 2 ++ x : BitVec 5).extractLsb' 3 2 : BitVec 7) = p := by
  have h : (p.extractLsb' 0 2 ++ x : BitVec 5).extractLsb' 3 2 = p.extractLsb' 0 2 := app_hi _ _
  rw [h]
  apply BitVec.eq_of_getLsbD_eq
  intro i hi
  simp only [BitVec.getLsbD_append, BitVec.getLsbD_extractLsb']
  by_cases h : i < 2
  · simp [h]
  · have h5 : i - 2 < 5 := by omega
    simp only [h, h5, decide_false, decide_true, Bool.true_and, if_false]
    congr 1; omega
@[simp] theorem offField (p : BitVec 2) (off : BitVec 22) :
    ((p ++ off.extractLsb' 19 3 : BitVec 5).extractLsb' 0 3 ++ off.extractLsb' 0 19 : BitVec 22) = off := by
  have h : (p ++ off.extractLsb' 19 3 : BitVec 5).extractLsb' 0 3 = off.extractLsb' 19 3 := app_lo _ _
  rw [h]
  apply BitVec.eq_of_getLsbD_eq
  intro i hi
  simp only [BitVec.getLsbD_append, BitVec.getLsbD_extractLsb']
  by_cases h : i < 19
  · simp [h]
  · have h5 : i - 19 < 3 := by omega
    simp only [h, h5, decide_false, decide_true, Bool.true_and, if_false]
    congr 1; omega

end Sys2Proof
end

