-- ==== Sys2Proof/Laws/Table.lean ====
section
/-!
SUPPORT. Laws of sparse tables and of byte memory: reading after writing, and that every operation keeps the canonical form.
-/
namespace Sys2Proof.Machine
set_option Elab.async false

/-! ### Tables -/

section
variable {α : Type} (d : α)

@[simp] theorem Table.get_nil (k : Nat) : Table.get d ([] : Table α) k = d := rfl

theorem Table.get_dropTo (t : Table α) (k : Nat) : Table.get d (Table.dropTo t k) k = d := by
  induction t with
  | nil => rfl
  | cons e r ih =>
    obtain ⟨a, b⟩ := e
    by_cases h : a ≤ k
    · simpa [Table.dropTo, h] using ih
    · simp [Table.dropTo, h, Table.get, Nat.lt_of_not_le h]

theorem Table.get_dropTo_gt (t : Table α) {k j : Nat} (h : k < j) : Table.get d (Table.dropTo t k) j = Table.get d t j := by
  induction t with
  | nil => rfl
  | cons e r ih =>
    obtain ⟨a, b⟩ := e
    by_cases ha : a ≤ k
    · have h1 : ¬ j < a := by omega
      have h2 : ¬ j = a := by omega
      simpa [Table.dropTo, ha, Table.get, h1, h2] using ih
    · simp [Table.dropTo, ha]

theorem Table.get_dropTo_le (t : Table α) {k j : Nat} (h : j ≤ k) : Table.get d (Table.dropTo t k) j = d := by
  induction t with
  | nil => rfl
  | cons e r ih =>
    obtain ⟨a, b⟩ := e
    by_cases ha : a ≤ k
    · simpa [Table.dropTo, ha] using ih
    · have : j < a := by omega
      simp [Table.dropTo, ha, Table.get, this]

variable [DecidableEq α]

/-- A read at the key just written gives the value. -/
@[simp] theorem Table.get_set_same (t : Table α) (k : Nat) (v : α) : Table.get d (Table.set d t k v) k = v := by
  induction t with
  | nil => by_cases h : v = d <;> simp [Table.set, Table.get, h]
  | cons e r ih =>
    obtain ⟨a, b⟩ := e
    by_cases h1 : k < a
    · by_cases h : v = d <;> simp [Table.set, Table.get, h, h1]
    · by_cases h2 : k = a
      · by_cases h : v = d
        · subst h2; simp [Table.set, h, Table.get_dropTo]
        · simp [Table.set, h, h2, Table.get]
      · simpa [Table.set, Table.get, h1, h2] using ih

/-- A read at another key is unchanged. -/
theorem Table.get_set_other (t : Table α) {k j : Nat} (v : α) (h : j ≠ k) :
    Table.get d (Table.set d t k v) j = Table.get d t j := by
  induction t with
  | nil =>
    by_cases hv : v = d
    · simp [Table.set, hv]
    · rcases Nat.lt_or_gt_of_ne h with h1 | h1 <;> simp [Table.set, Table.get, hv, h]
  | cons e r ih =>
    obtain ⟨a, b⟩ := e
    by_cases h1 : k < a
    · by_cases hv : v = d
      · simp [Table.set, hv, h1]
      · by_cases h3 : j < k
        · have h4 : j < a := by omega
          simp [Table.set, Table.get, hv, h1, h3, h4]
        · simp [Table.set, Table.get, hv, h1, h3, h]
    · by_cases h2 : k = a
      · subst h2
        by_cases hv : v = d
        · by_cases h3 : j < k
          · simp [Table.set, hv, Table.get, h3, Table.get_dropTo_le d r (Nat.le_of_lt h3)]
          · have h4 : k < j := by omega
            simp [Table.set, hv, Table.get, h3, h, Table.get_dropTo_gt d r h4]
        · simp [Table.set, hv, Table.get, h]
      · by_cases h3 : j < a
        · simp [Table.set, h1, h2, Table.get, h3]
        · by_cases h4 : j = a
          · simp [Table.set, h1, h2, Table.get, h4]
          · simpa [Table.set, h1, h2, Table.get, h3, h4] using ih

theorem Table.get_set (t : Table α) (k j : Nat) (v : α) :
    Table.get d (Table.set d t k v) j = if j = k then v else Table.get d t j := by
  by_cases h : j = k
  · subst h; simp
  · simp [h, Table.get_set_other d t v h]

/-! ### The canonical form -/

theorem Table.wfFrom_mono {t : Table α} {lo hi : Nat} (h : lo ≤ hi) (w : Table.wfFrom d hi t = true) :
    Table.wfFrom d lo t = true := by
  cases t with
  | nil => rfl
  | cons e r =>
    obtain ⟨a, b⟩ := e
    simp only [Table.wfFrom, Bool.and_eq_true, decide_eq_true_eq] at w ⊢
    exact ⟨⟨Nat.le_trans h w.1.1, w.1.2⟩, w.2⟩

theorem Table.wfFrom_dropTo {t : Table α} {lo k : Nat} (w : Table.wfFrom d lo t = true) :
    Table.wfFrom d (max lo (k + 1)) (Table.dropTo t k) = true := by
  induction t generalizing lo with
  | nil => rfl
  | cons e r ih =>
    obtain ⟨a, b⟩ := e
    simp only [Table.wfFrom, Bool.and_eq_true, decide_eq_true_eq] at w
    by_cases ha : a ≤ k
    · have := ih w.2
      simp only [Table.dropTo, ha, if_true]
      exact Table.wfFrom_mono d (by omega) this
    · simp only [Table.dropTo, ha, if_false, Table.wfFrom, Bool.and_eq_true, decide_eq_true_eq]
      exact ⟨⟨by omega, w.1.2⟩, w.2⟩

theorem Table.wfFrom_set {t : Table α} {lo k : Nat} (v : α) (h : lo ≤ k) (w : Table.wfFrom d lo t = true) :
    Table.wfFrom d lo (Table.set d t k v) = true := by
  induction t generalizing lo with
  | nil => by_cases hv : v = d <;> simp [Table.set, hv, Table.wfFrom, h]
  | cons e r ih =>
    obtain ⟨a, b⟩ := e
    have w' := w
    simp only [Table.wfFrom, Bool.and_eq_true, decide_eq_true_eq] at w
    by_cases h1 : k < a
    · by_cases hv : v = d
      · simpa [Table.set, hv, h1] using w'
      · simp only [Table.set, h1, hv, if_true, if_false, Table.wfFrom, Bool.and_eq_true, decide_eq_true_eq]
        exact ⟨⟨h, hv⟩, ⟨by omega, w.1.2⟩, w.2⟩
    · by_cases h2 : k = a
      · subst h2
        by_cases hv : v = d
        · have := Table.wfFrom_dropTo (k := k) d w.2
          simp only [Table.set, hv, Nat.lt_irrefl, if_true, if_false]
          exact Table.wfFrom_mono d (by omega) this
        · simp only [Table.set, hv, Nat.lt_irrefl, if_true, if_false, Table.wfFrom, Bool.and_eq_true, decide_eq_true_eq]
          exact ⟨⟨h, hv⟩, w.2⟩
      · have := ih (lo := a + 1) (by omega) w.2
        simp only [Table.set, h1, h2, if_false, Table.wfFrom, Bool.and_eq_true, decide_eq_true_eq]
        exact ⟨w.1, this⟩

theorem Table.wf_set {t : Table α} (k : Nat) (v : α) (w : Table.wf d t = true) : Table.wf d (Table.set d t k v) = true :=
  Table.wfFrom_set d v (Nat.zero_le k) w

theorem Table.wfFrom_erase {t : Table α} {lo : Nat} (p : Nat → Bool) (w : Table.wfFrom d lo t = true) :
    Table.wfFrom d lo (Table.erase p t) = true := by
  induction t generalizing lo with
  | nil => rfl
  | cons e r ih =>
    obtain ⟨a, b⟩ := e
    simp only [Table.wfFrom, Bool.and_eq_true, decide_eq_true_eq] at w
    have := ih w.2
    by_cases hp : p a
    · simp only [Table.erase, List.filter_cons, hp]
      exact Table.wfFrom_mono d (by omega) this
    · simp only [Bool.not_eq_true] at hp
      simp only [Table.erase, List.filter_cons, hp, Bool.not_false, if_true, Table.wfFrom, Bool.and_eq_true, decide_eq_true_eq]
      exact ⟨w.1, this⟩

theorem Table.wf_erase {t : Table α} (p : Nat → Bool) (w : Table.wf d t = true) : Table.wf d (Table.erase p t) = true :=
  Table.wfFrom_erase d p w

/-- A table built by insertions is canonical. -/
theorem Table.wf_foldr_set (l : List (Nat × α)) : Table.wf d (l.foldr (fun e u => Table.set d u e.1 e.2) []) = true := by
  induction l with
  | nil => rfl
  | cons e r ih => exact Table.wf_set d e.1 e.2 ih

end

/-! ### Memory -/

@[simp] theorem Memory.byte_setByte_same (m : Memory) (a : Nat) (b : Byte) : (m.setByte a b).byte a = b :=
  Table.get_set_same _ m a b

theorem Memory.byte_setByte_other (m : Memory) {a x : Nat} (b : Byte) (h : x ≠ a) : (m.setByte a b).byte x = m.byte x :=
  Table.get_set_other _ m b h

theorem Memory.wf_setByte {m : Memory} (a : Nat) (b : Byte) (w : m.wf = true) : (m.setByte a b).wf = true :=
  Table.wf_set _ a b w

theorem Memory.wf_write {m : Memory} (a n v : Nat) (w : m.wf = true) : (m.write a n v).wf = true := by
  induction n generalizing m a v with
  | zero => exact w
  | succ n ih => exact ih (a + 1) (v / 256) (Memory.wf_setByte a _ w)

theorem Memory.wf_writeBytes {m : Memory} (a : Nat) (bs : List Byte) (w : m.wf = true) : (m.writeBytes a bs).wf = true := by
  induction bs generalizing m a with
  | nil => exact w
  | cons b r ih => exact ih (a + 1) (Memory.wf_setByte a b w)

theorem Memory.wf_moveTable (old new : Share) (b u : Nat) (m : Memory) : Memory.wf (moveTable Memory.unlisted old new b u m) = true :=
  Table.wf_foldr_set _ _

/-- A byte outside a write is unchanged. -/
theorem Memory.byte_writeBytes_other {m : Memory} {a x : Nat} (bs : List Byte) (h : x < a ∨ a + bs.length ≤ x) :
    (m.writeBytes a bs).byte x = m.byte x := by
  induction bs generalizing m a with
  | nil => rfl
  | cons b r ih =>
    have h1 : x < a + 1 ∨ a + 1 + r.length ≤ x := by simp only [List.length_cons] at h; omega
    have h2 : x ≠ a := by simp only [List.length_cons] at h; omega
    simp only [Memory.writeBytes]
    rw [ih h1, Memory.byte_setByte_other m b h2]

theorem Memory.byte_write_other {m : Memory} {a x : Nat} (n v : Nat) (h : x < a ∨ a + n ≤ x) :
    (m.write a n v).byte x = m.byte x := by
  induction n generalizing m a v with
  | zero => rfl
  | succ n ih =>
    have h1 : x < a + 1 ∨ a + 1 + n ≤ x := by omega
    have h2 : x ≠ a := by omega
    simp only [Memory.write]
    rw [ih (v / 256) h1, Memory.byte_setByte_other m _ h2]

/-- A byte inside a write is the byte written there. -/
theorem Memory.byte_writeBytes_same {m : Memory} {a i : Nat} (bs : List Byte) (h : i < bs.length) :
    (m.writeBytes a bs).byte (a + i) = bs[i] := by
  induction bs generalizing m a i with
  | nil => simp at h
  | cons b r ih =>
    cases i with
    | zero =>
      simp only [Memory.writeBytes, Nat.add_zero, List.getElem_cons_zero]
      rw [Memory.byte_writeBytes_other r (by omega), Memory.byte_setByte_same]
    | succ i =>
      simp only [List.length_cons] at h
      have := ih (m := m.setByte a b) (a := a + 1) (i := i) (by omega)
      simp only [Memory.writeBytes, List.getElem_cons_succ]
      rw [← this]
      congr 1
      omega

/-- A read after a write of the same bytes gives the value modulo their width. -/
theorem Memory.read_write_same (m : Memory) (a n v : Nat) : (m.write a n v).read a n = v % 2 ^ (8 * n) := by
  induction n generalizing m a v with
  | zero => simp [Memory.read, Nat.mod_one]
  | succ n ih =>
    simp only [Memory.write, Memory.read]
    rw [Memory.byte_write_other n (v / 256) (by omega), Memory.byte_setByte_same, ih]
    have e : 2 ^ (8 * (n + 1)) = 256 * 2 ^ (8 * n) := by
      rw [Nat.mul_add, Nat.pow_add, Nat.mul_comm]
    rw [BitVec.toNat_ofNat, e, Nat.mod_mul]

end Sys2Proof.Machine
end

