-- ==== Sys2Proof/Laws/State.lean ====
section
/-!
SUPPORT. The laws of the state: what each accessor reads after each update, field by field.
-/
namespace Sys2Proof.Machine
set_option Elab.async false

/-! ### Records by number -/

@[simp] theorem State.hart_setHart (s : State) (n : Nat) (h : Hart) : (s.setHart n h).hart n = h := Table.get_set_same _ _ _ _
theorem State.hart_setHart_ne (s : State) {n m : Nat} (h : Hart) (hm : m ≠ n) : (s.setHart n h).hart m = s.hart m :=
  Table.get_set_other _ _ _ hm
@[simp] theorem State.hart_updHart (s : State) (n : Nat) (f : Hart → Hart) : (s.updHart n f).hart n = f (s.hart n) :=
  State.hart_setHart s n _
theorem State.hart_updHart_ne (s : State) {n m : Nat} (f : Hart → Hart) (hm : m ≠ n) : (s.updHart n f).hart m = s.hart m :=
  State.hart_setHart_ne s _ hm
@[simp] theorem State.core_setCore (s : State) (n : Nat) (c : Core) : (s.setCore n c).core n = c := Table.get_set_same _ _ _ _
theorem State.core_setCore_ne (s : State) {n m : Nat} (c : Core) (hm : m ≠ n) : (s.setCore n c).core m = s.core m :=
  Table.get_set_other _ _ _ hm
@[simp] theorem State.core_updCore (s : State) (n : Nat) (f : Core → Core) : (s.updCore n f).core n = f (s.core n) :=
  State.core_setCore s n _
theorem State.core_updCore_ne (s : State) {n m : Nat} (f : Core → Core) (hm : m ≠ n) : (s.updCore n f).core m = s.core m :=
  State.core_setCore_ne s _ hm
@[simp] theorem State.part_updPart (s : State) (n : Nat) (f : Partition → Partition) : (s.updPart n f).part n = f (s.part n) :=
  Table.get_set_same _ _ _ _
theorem State.part_updPart_ne (s : State) {n m : Nat} (f : Partition → Partition) (hm : m ≠ n) :
    (s.updPart n f).part m = s.part m := Table.get_set_other _ _ _ hm
@[simp] theorem State.asid_updAsid (s : State) (n : Nat) (f : Asid → Asid) : (s.updAsid n f).asid n = f (s.asid n) :=
  Table.get_set_same _ _ _ _
theorem State.asid_updAsid_ne (s : State) {n m : Nat} (f : Asid → Asid) (hm : m ≠ n) : (s.updAsid n f).asid m = s.asid m :=
  Table.get_set_other _ _ _ hm
@[simp] theorem State.aheadOf_setAhead (s : State) (n : Nat) (a : Option Hart) : (s.setAhead n a).aheadOf n = a := Table.get_set_same _ _ _ _
theorem State.aheadOf_setAhead_ne (s : State) {n m : Nat} (a : Option Hart) (hm : m ≠ n) : (s.setAhead n a).aheadOf m = s.aheadOf m :=
  Table.get_set_other _ _ _ hm
@[simp] theorem State.gang_updGang (s : State) (n : Nat) (f : Gang → Gang) : (s.updGang n f).gang n = f (s.gang n) :=
  Table.get_set_same _ _ _ _
theorem State.gang_updGang_ne (s : State) {n m : Nat} (f : Gang → Gang) (hm : m ≠ n) : (s.updGang n f).gang m = s.gang m :=
  Table.get_set_other _ _ _ hm
@[simp] theorem State.gang_dropGang (s : State) (n : Nat) : (s.dropGang n).gang n = Gang.none_ := Table.get_set_same _ _ _ _
@[simp] theorem State.session_setSession (s : State) (n : Nat) (x : Session) : (s.setSession n x).session n = x :=
  Table.get_set_same _ _ _ _
theorem State.session_setSession_ne (s : State) {n m : Nat} (x : Session) (hm : m ≠ n) :
    (s.setSession n x).session m = s.session m := Table.get_set_other _ _ _ hm
@[simp] theorem State.port_setPort (s : State) (n : Nat) (x : Port) : (s.setPort n x).port n = x := Table.get_set_same _ _ _ _
theorem State.port_setPort_ne (s : State) {n m : Nat} (x : Port) (hm : m ≠ n) : (s.setPort n x).port m = s.port m :=
  Table.get_set_other _ _ _ hm

/-! ### What an update leaves alone -/

@[simp] theorem State.cores_setHart (s : State) (n : Nat) (h : Hart) : (s.setHart n h).cores = s.cores := rfl
@[simp] theorem State.sto_setHart (s : State) (n : Nat) (h : Hart) : (s.setHart n h).sto = s.sto := rfl
@[simp] theorem State.parts_setHart (s : State) (n : Nat) (h : Hart) : (s.setHart n h).parts = s.parts := rfl
@[simp] theorem State.asids_setHart (s : State) (n : Nat) (h : Hart) : (s.setHart n h).asids = s.asids := rfl
@[simp] theorem State.gangs_setHart (s : State) (n : Nat) (h : Hart) : (s.setHart n h).gangs = s.gangs := rfl
@[simp] theorem State.links_setHart (s : State) (n : Nat) (h : Hart) : (s.setHart n h).links = s.links := rfl
@[simp] theorem State.mgmt_setHart (s : State) (n : Nat) (h : Hart) : (s.setHart n h).mgmt = s.mgmt := rfl
@[simp] theorem State.ahead_setHart (s : State) (n : Nat) (h : Hart) : (s.setHart n h).ahead = s.ahead := rfl
@[simp] theorem State.nextLaunch_setHart (s : State) (n : Nat) (h : Hart) : (s.setHart n h).nextLaunch = s.nextLaunch := rfl
@[simp] theorem State.order_setHart (s : State) (n : Nat) (h : Hart) : (s.setHart n h).order = s.order := rfl
@[simp] theorem State.clock_setHart (s : State) (n : Nat) (h : Hart) : (s.setHart n h).clock = s.clock := rfl
@[simp] theorem State.quanta_setHart (s : State) (n : Nat) (h : Hart) : (s.setHart n h).quanta = s.quanta := rfl
@[simp] theorem State.cur_setHart (s : State) (n : Nat) (h : Hart) : (s.setHart n h).cur = s.cur := rfl
@[simp] theorem State.turn_setHart (s : State) (n : Nat) (h : Hart) : (s.setHart n h).turn = s.turn := rfl
@[simp] theorem State.inputs_setHart (s : State) (n : Nat) (h : Hart) : (s.setHart n h).inputs = s.inputs := rfl
@[simp] theorem State.holding_setHart (s : State) (n : Nat) (h : Hart) : (s.setHart n h).holding = s.holding := rfl
@[simp] theorem State.free_setHart (s : State) (n : Nat) (h : Hart) : (s.setHart n h).free = s.free := rfl
@[simp] theorem State.core_setHart (s : State) (n : Nat) (h : Hart) (k : Nat) : (s.setHart n h).core k = s.core k := rfl
@[simp] theorem State.part_setHart (s : State) (n : Nat) (h : Hart) (k : Nat) : (s.setHart n h).part k = s.part k := rfl
@[simp] theorem State.asid_setHart (s : State) (n : Nat) (h : Hart) (k : Nat) : (s.setHart n h).asid k = s.asid k := rfl
@[simp] theorem State.gang_setHart (s : State) (n : Nat) (h : Hart) (k : Nat) : (s.setHart n h).gang k = s.gang k := rfl
@[simp] theorem State.port_setHart (s : State) (n : Nat) (h : Hart) (k : Nat) : (s.setHart n h).port k = s.port k := rfl
@[simp] theorem State.session_setHart (s : State) (n : Nat) (h : Hart) (k : Nat) : (s.setHart n h).session k = s.session k := rfl

@[simp] theorem State.cores_updHart (s : State) (n : Nat) (f : Hart → Hart) : (s.updHart n f).cores = s.cores := rfl
@[simp] theorem State.sto_updHart (s : State) (n : Nat) (f : Hart → Hart) : (s.updHart n f).sto = s.sto := rfl
@[simp] theorem State.parts_updHart (s : State) (n : Nat) (f : Hart → Hart) : (s.updHart n f).parts = s.parts := rfl
@[simp] theorem State.asids_updHart (s : State) (n : Nat) (f : Hart → Hart) : (s.updHart n f).asids = s.asids := rfl
@[simp] theorem State.gangs_updHart (s : State) (n : Nat) (f : Hart → Hart) : (s.updHart n f).gangs = s.gangs := rfl
@[simp] theorem State.links_updHart (s : State) (n : Nat) (f : Hart → Hart) : (s.updHart n f).links = s.links := rfl
@[simp] theorem State.mgmt_updHart (s : State) (n : Nat) (f : Hart → Hart) : (s.updHart n f).mgmt = s.mgmt := rfl
@[simp] theorem State.ahead_updHart (s : State) (n : Nat) (f : Hart → Hart) : (s.updHart n f).ahead = s.ahead := rfl
@[simp] theorem State.nextLaunch_updHart (s : State) (n : Nat) (f : Hart → Hart) : (s.updHart n f).nextLaunch = s.nextLaunch := rfl
@[simp] theorem State.order_updHart (s : State) (n : Nat) (f : Hart → Hart) : (s.updHart n f).order = s.order := rfl
@[simp] theorem State.clock_updHart (s : State) (n : Nat) (f : Hart → Hart) : (s.updHart n f).clock = s.clock := rfl
@[simp] theorem State.quanta_updHart (s : State) (n : Nat) (f : Hart → Hart) : (s.updHart n f).quanta = s.quanta := rfl
@[simp] theorem State.cur_updHart (s : State) (n : Nat) (f : Hart → Hart) : (s.updHart n f).cur = s.cur := rfl
@[simp] theorem State.turn_updHart (s : State) (n : Nat) (f : Hart → Hart) : (s.updHart n f).turn = s.turn := rfl
@[simp] theorem State.inputs_updHart (s : State) (n : Nat) (f : Hart → Hart) : (s.updHart n f).inputs = s.inputs := rfl
@[simp] theorem State.holding_updHart (s : State) (n : Nat) (f : Hart → Hart) : (s.updHart n f).holding = s.holding := rfl
@[simp] theorem State.free_updHart (s : State) (n : Nat) (f : Hart → Hart) : (s.updHart n f).free = s.free := rfl
@[simp] theorem State.core_updHart (s : State) (n : Nat) (f : Hart → Hart) (k : Nat) : (s.updHart n f).core k = s.core k := rfl
@[simp] theorem State.part_updHart (s : State) (n : Nat) (f : Hart → Hart) (k : Nat) : (s.updHart n f).part k = s.part k := rfl
@[simp] theorem State.asid_updHart (s : State) (n : Nat) (f : Hart → Hart) (k : Nat) : (s.updHart n f).asid k = s.asid k := rfl
@[simp] theorem State.gang_updHart (s : State) (n : Nat) (f : Hart → Hart) (k : Nat) : (s.updHart n f).gang k = s.gang k := rfl
@[simp] theorem State.port_updHart (s : State) (n : Nat) (f : Hart → Hart) (k : Nat) : (s.updHart n f).port k = s.port k := rfl
@[simp] theorem State.session_updHart (s : State) (n : Nat) (f : Hart → Hart) (k : Nat) : (s.updHart n f).session k = s.session k := rfl

@[simp] theorem State.harts_setCore (s : State) (n : Nat) (c : Core) : (s.setCore n c).harts = s.harts := rfl
@[simp] theorem State.sto_setCore (s : State) (n : Nat) (c : Core) : (s.setCore n c).sto = s.sto := rfl
@[simp] theorem State.parts_setCore (s : State) (n : Nat) (c : Core) : (s.setCore n c).parts = s.parts := rfl
@[simp] theorem State.asids_setCore (s : State) (n : Nat) (c : Core) : (s.setCore n c).asids = s.asids := rfl
@[simp] theorem State.gangs_setCore (s : State) (n : Nat) (c : Core) : (s.setCore n c).gangs = s.gangs := rfl
@[simp] theorem State.links_setCore (s : State) (n : Nat) (c : Core) : (s.setCore n c).links = s.links := rfl
@[simp] theorem State.mgmt_setCore (s : State) (n : Nat) (c : Core) : (s.setCore n c).mgmt = s.mgmt := rfl
@[simp] theorem State.ahead_setCore (s : State) (n : Nat) (c : Core) : (s.setCore n c).ahead = s.ahead := rfl
@[simp] theorem State.nextLaunch_setCore (s : State) (n : Nat) (c : Core) : (s.setCore n c).nextLaunch = s.nextLaunch := rfl
@[simp] theorem State.order_setCore (s : State) (n : Nat) (c : Core) : (s.setCore n c).order = s.order := rfl
@[simp] theorem State.clock_setCore (s : State) (n : Nat) (c : Core) : (s.setCore n c).clock = s.clock := rfl
@[simp] theorem State.quanta_setCore (s : State) (n : Nat) (c : Core) : (s.setCore n c).quanta = s.quanta := rfl
@[simp] theorem State.cur_setCore (s : State) (n : Nat) (c : Core) : (s.setCore n c).cur = s.cur := rfl
@[simp] theorem State.turn_setCore (s : State) (n : Nat) (c : Core) : (s.setCore n c).turn = s.turn := rfl
@[simp] theorem State.inputs_setCore (s : State) (n : Nat) (c : Core) : (s.setCore n c).inputs = s.inputs := rfl
@[simp] theorem State.holding_setCore (s : State) (n : Nat) (c : Core) : (s.setCore n c).holding = s.holding := rfl
@[simp] theorem State.free_setCore (s : State) (n : Nat) (c : Core) : (s.setCore n c).free = s.free := rfl
@[simp] theorem State.hart_setCore (s : State) (n : Nat) (c : Core) (k : Nat) : (s.setCore n c).hart k = s.hart k := rfl
@[simp] theorem State.part_setCore (s : State) (n : Nat) (c : Core) (k : Nat) : (s.setCore n c).part k = s.part k := rfl
@[simp] theorem State.asid_setCore (s : State) (n : Nat) (c : Core) (k : Nat) : (s.setCore n c).asid k = s.asid k := rfl
@[simp] theorem State.gang_setCore (s : State) (n : Nat) (c : Core) (k : Nat) : (s.setCore n c).gang k = s.gang k := rfl
@[simp] theorem State.port_setCore (s : State) (n : Nat) (c : Core) (k : Nat) : (s.setCore n c).port k = s.port k := rfl
@[simp] theorem State.session_setCore (s : State) (n : Nat) (c : Core) (k : Nat) : (s.setCore n c).session k = s.session k := rfl

@[simp] theorem State.harts_updCore (s : State) (n : Nat) (f : Core → Core) : (s.updCore n f).harts = s.harts := rfl
@[simp] theorem State.sto_updCore (s : State) (n : Nat) (f : Core → Core) : (s.updCore n f).sto = s.sto := rfl
@[simp] theorem State.parts_updCore (s : State) (n : Nat) (f : Core → Core) : (s.updCore n f).parts = s.parts := rfl
@[simp] theorem State.asids_updCore (s : State) (n : Nat) (f : Core → Core) : (s.updCore n f).asids = s.asids := rfl
@[simp] theorem State.gangs_updCore (s : State) (n : Nat) (f : Core → Core) : (s.updCore n f).gangs = s.gangs := rfl
@[simp] theorem State.links_updCore (s : State) (n : Nat) (f : Core → Core) : (s.updCore n f).links = s.links := rfl
@[simp] theorem State.mgmt_updCore (s : State) (n : Nat) (f : Core → Core) : (s.updCore n f).mgmt = s.mgmt := rfl
@[simp] theorem State.ahead_updCore (s : State) (n : Nat) (f : Core → Core) : (s.updCore n f).ahead = s.ahead := rfl
@[simp] theorem State.nextLaunch_updCore (s : State) (n : Nat) (f : Core → Core) : (s.updCore n f).nextLaunch = s.nextLaunch := rfl
@[simp] theorem State.order_updCore (s : State) (n : Nat) (f : Core → Core) : (s.updCore n f).order = s.order := rfl
@[simp] theorem State.clock_updCore (s : State) (n : Nat) (f : Core → Core) : (s.updCore n f).clock = s.clock := rfl
@[simp] theorem State.quanta_updCore (s : State) (n : Nat) (f : Core → Core) : (s.updCore n f).quanta = s.quanta := rfl
@[simp] theorem State.cur_updCore (s : State) (n : Nat) (f : Core → Core) : (s.updCore n f).cur = s.cur := rfl
@[simp] theorem State.turn_updCore (s : State) (n : Nat) (f : Core → Core) : (s.updCore n f).turn = s.turn := rfl
@[simp] theorem State.inputs_updCore (s : State) (n : Nat) (f : Core → Core) : (s.updCore n f).inputs = s.inputs := rfl
@[simp] theorem State.holding_updCore (s : State) (n : Nat) (f : Core → Core) : (s.updCore n f).holding = s.holding := rfl
@[simp] theorem State.free_updCore (s : State) (n : Nat) (f : Core → Core) : (s.updCore n f).free = s.free := rfl
@[simp] theorem State.hart_updCore (s : State) (n : Nat) (f : Core → Core) (k : Nat) : (s.updCore n f).hart k = s.hart k := rfl
@[simp] theorem State.part_updCore (s : State) (n : Nat) (f : Core → Core) (k : Nat) : (s.updCore n f).part k = s.part k := rfl
@[simp] theorem State.asid_updCore (s : State) (n : Nat) (f : Core → Core) (k : Nat) : (s.updCore n f).asid k = s.asid k := rfl
@[simp] theorem State.gang_updCore (s : State) (n : Nat) (f : Core → Core) (k : Nat) : (s.updCore n f).gang k = s.gang k := rfl
@[simp] theorem State.port_updCore (s : State) (n : Nat) (f : Core → Core) (k : Nat) : (s.updCore n f).port k = s.port k := rfl
@[simp] theorem State.session_updCore (s : State) (n : Nat) (f : Core → Core) (k : Nat) : (s.updCore n f).session k = s.session k := rfl

@[simp] theorem State.harts_updPart (s : State) (n : Nat) (f : Partition → Partition) : (s.updPart n f).harts = s.harts := rfl
@[simp] theorem State.cores_updPart (s : State) (n : Nat) (f : Partition → Partition) : (s.updPart n f).cores = s.cores := rfl
@[simp] theorem State.sto_updPart (s : State) (n : Nat) (f : Partition → Partition) : (s.updPart n f).sto = s.sto := rfl
@[simp] theorem State.asids_updPart (s : State) (n : Nat) (f : Partition → Partition) : (s.updPart n f).asids = s.asids := rfl
@[simp] theorem State.gangs_updPart (s : State) (n : Nat) (f : Partition → Partition) : (s.updPart n f).gangs = s.gangs := rfl
@[simp] theorem State.links_updPart (s : State) (n : Nat) (f : Partition → Partition) : (s.updPart n f).links = s.links := rfl
@[simp] theorem State.mgmt_updPart (s : State) (n : Nat) (f : Partition → Partition) : (s.updPart n f).mgmt = s.mgmt := rfl
@[simp] theorem State.ahead_updPart (s : State) (n : Nat) (f : Partition → Partition) : (s.updPart n f).ahead = s.ahead := rfl
@[simp] theorem State.nextLaunch_updPart (s : State) (n : Nat) (f : Partition → Partition) : (s.updPart n f).nextLaunch = s.nextLaunch := rfl
@[simp] theorem State.order_updPart (s : State) (n : Nat) (f : Partition → Partition) : (s.updPart n f).order = s.order := rfl
@[simp] theorem State.clock_updPart (s : State) (n : Nat) (f : Partition → Partition) : (s.updPart n f).clock = s.clock := rfl
@[simp] theorem State.quanta_updPart (s : State) (n : Nat) (f : Partition → Partition) : (s.updPart n f).quanta = s.quanta := rfl
@[simp] theorem State.cur_updPart (s : State) (n : Nat) (f : Partition → Partition) : (s.updPart n f).cur = s.cur := rfl
@[simp] theorem State.turn_updPart (s : State) (n : Nat) (f : Partition → Partition) : (s.updPart n f).turn = s.turn := rfl
@[simp] theorem State.inputs_updPart (s : State) (n : Nat) (f : Partition → Partition) : (s.updPart n f).inputs = s.inputs := rfl
@[simp] theorem State.holding_updPart (s : State) (n : Nat) (f : Partition → Partition) : (s.updPart n f).holding = s.holding := rfl
@[simp] theorem State.free_updPart (s : State) (n : Nat) (f : Partition → Partition) : (s.updPart n f).free = s.free := rfl
@[simp] theorem State.hart_updPart (s : State) (n : Nat) (f : Partition → Partition) (k : Nat) : (s.updPart n f).hart k = s.hart k := rfl
@[simp] theorem State.core_updPart (s : State) (n : Nat) (f : Partition → Partition) (k : Nat) : (s.updPart n f).core k = s.core k := rfl
@[simp] theorem State.asid_updPart (s : State) (n : Nat) (f : Partition → Partition) (k : Nat) : (s.updPart n f).asid k = s.asid k := rfl
@[simp] theorem State.gang_updPart (s : State) (n : Nat) (f : Partition → Partition) (k : Nat) : (s.updPart n f).gang k = s.gang k := rfl
@[simp] theorem State.port_updPart (s : State) (n : Nat) (f : Partition → Partition) (k : Nat) : (s.updPart n f).port k = s.port k := rfl
@[simp] theorem State.session_updPart (s : State) (n : Nat) (f : Partition → Partition) (k : Nat) : (s.updPart n f).session k = s.session k := rfl

@[simp] theorem State.harts_updAsid (s : State) (n : Nat) (f : Asid → Asid) : (s.updAsid n f).harts = s.harts := rfl
@[simp] theorem State.cores_updAsid (s : State) (n : Nat) (f : Asid → Asid) : (s.updAsid n f).cores = s.cores := rfl
@[simp] theorem State.sto_updAsid (s : State) (n : Nat) (f : Asid → Asid) : (s.updAsid n f).sto = s.sto := rfl
@[simp] theorem State.parts_updAsid (s : State) (n : Nat) (f : Asid → Asid) : (s.updAsid n f).parts = s.parts := rfl
@[simp] theorem State.gangs_updAsid (s : State) (n : Nat) (f : Asid → Asid) : (s.updAsid n f).gangs = s.gangs := rfl
@[simp] theorem State.links_updAsid (s : State) (n : Nat) (f : Asid → Asid) : (s.updAsid n f).links = s.links := rfl
@[simp] theorem State.mgmt_updAsid (s : State) (n : Nat) (f : Asid → Asid) : (s.updAsid n f).mgmt = s.mgmt := rfl
@[simp] theorem State.ahead_updAsid (s : State) (n : Nat) (f : Asid → Asid) : (s.updAsid n f).ahead = s.ahead := rfl
@[simp] theorem State.nextLaunch_updAsid (s : State) (n : Nat) (f : Asid → Asid) : (s.updAsid n f).nextLaunch = s.nextLaunch := rfl
@[simp] theorem State.order_updAsid (s : State) (n : Nat) (f : Asid → Asid) : (s.updAsid n f).order = s.order := rfl
@[simp] theorem State.clock_updAsid (s : State) (n : Nat) (f : Asid → Asid) : (s.updAsid n f).clock = s.clock := rfl
@[simp] theorem State.quanta_updAsid (s : State) (n : Nat) (f : Asid → Asid) : (s.updAsid n f).quanta = s.quanta := rfl
@[simp] theorem State.cur_updAsid (s : State) (n : Nat) (f : Asid → Asid) : (s.updAsid n f).cur = s.cur := rfl
@[simp] theorem State.turn_updAsid (s : State) (n : Nat) (f : Asid → Asid) : (s.updAsid n f).turn = s.turn := rfl
@[simp] theorem State.inputs_updAsid (s : State) (n : Nat) (f : Asid → Asid) : (s.updAsid n f).inputs = s.inputs := rfl
@[simp] theorem State.holding_updAsid (s : State) (n : Nat) (f : Asid → Asid) : (s.updAsid n f).holding = s.holding := rfl
@[simp] theorem State.free_updAsid (s : State) (n : Nat) (f : Asid → Asid) : (s.updAsid n f).free = s.free := rfl
@[simp] theorem State.hart_updAsid (s : State) (n : Nat) (f : Asid → Asid) (k : Nat) : (s.updAsid n f).hart k = s.hart k := rfl
@[simp] theorem State.core_updAsid (s : State) (n : Nat) (f : Asid → Asid) (k : Nat) : (s.updAsid n f).core k = s.core k := rfl
@[simp] theorem State.part_updAsid (s : State) (n : Nat) (f : Asid → Asid) (k : Nat) : (s.updAsid n f).part k = s.part k := rfl
@[simp] theorem State.gang_updAsid (s : State) (n : Nat) (f : Asid → Asid) (k : Nat) : (s.updAsid n f).gang k = s.gang k := rfl
@[simp] theorem State.port_updAsid (s : State) (n : Nat) (f : Asid → Asid) (k : Nat) : (s.updAsid n f).port k = s.port k := rfl
@[simp] theorem State.session_updAsid (s : State) (n : Nat) (f : Asid → Asid) (k : Nat) : (s.updAsid n f).session k = s.session k := rfl

@[simp] theorem State.harts_updGang (s : State) (n : Nat) (f : Gang → Gang) : (s.updGang n f).harts = s.harts := rfl
@[simp] theorem State.cores_updGang (s : State) (n : Nat) (f : Gang → Gang) : (s.updGang n f).cores = s.cores := rfl
@[simp] theorem State.sto_updGang (s : State) (n : Nat) (f : Gang → Gang) : (s.updGang n f).sto = s.sto := rfl
@[simp] theorem State.parts_updGang (s : State) (n : Nat) (f : Gang → Gang) : (s.updGang n f).parts = s.parts := rfl
@[simp] theorem State.asids_updGang (s : State) (n : Nat) (f : Gang → Gang) : (s.updGang n f).asids = s.asids := rfl
@[simp] theorem State.links_updGang (s : State) (n : Nat) (f : Gang → Gang) : (s.updGang n f).links = s.links := rfl
@[simp] theorem State.mgmt_updGang (s : State) (n : Nat) (f : Gang → Gang) : (s.updGang n f).mgmt = s.mgmt := rfl
@[simp] theorem State.ahead_updGang (s : State) (n : Nat) (f : Gang → Gang) : (s.updGang n f).ahead = s.ahead := rfl
@[simp] theorem State.nextLaunch_updGang (s : State) (n : Nat) (f : Gang → Gang) : (s.updGang n f).nextLaunch = s.nextLaunch := rfl
@[simp] theorem State.order_updGang (s : State) (n : Nat) (f : Gang → Gang) : (s.updGang n f).order = s.order := rfl
@[simp] theorem State.clock_updGang (s : State) (n : Nat) (f : Gang → Gang) : (s.updGang n f).clock = s.clock := rfl
@[simp] theorem State.quanta_updGang (s : State) (n : Nat) (f : Gang → Gang) : (s.updGang n f).quanta = s.quanta := rfl
@[simp] theorem State.cur_updGang (s : State) (n : Nat) (f : Gang → Gang) : (s.updGang n f).cur = s.cur := rfl
@[simp] theorem State.turn_updGang (s : State) (n : Nat) (f : Gang → Gang) : (s.updGang n f).turn = s.turn := rfl
@[simp] theorem State.inputs_updGang (s : State) (n : Nat) (f : Gang → Gang) : (s.updGang n f).inputs = s.inputs := rfl
@[simp] theorem State.holding_updGang (s : State) (n : Nat) (f : Gang → Gang) : (s.updGang n f).holding = s.holding := rfl
@[simp] theorem State.free_updGang (s : State) (n : Nat) (f : Gang → Gang) : (s.updGang n f).free = s.free := rfl
@[simp] theorem State.hart_updGang (s : State) (n : Nat) (f : Gang → Gang) (k : Nat) : (s.updGang n f).hart k = s.hart k := rfl
@[simp] theorem State.core_updGang (s : State) (n : Nat) (f : Gang → Gang) (k : Nat) : (s.updGang n f).core k = s.core k := rfl
@[simp] theorem State.part_updGang (s : State) (n : Nat) (f : Gang → Gang) (k : Nat) : (s.updGang n f).part k = s.part k := rfl
@[simp] theorem State.asid_updGang (s : State) (n : Nat) (f : Gang → Gang) (k : Nat) : (s.updGang n f).asid k = s.asid k := rfl
@[simp] theorem State.port_updGang (s : State) (n : Nat) (f : Gang → Gang) (k : Nat) : (s.updGang n f).port k = s.port k := rfl
@[simp] theorem State.session_updGang (s : State) (n : Nat) (f : Gang → Gang) (k : Nat) : (s.updGang n f).session k = s.session k := rfl

@[simp] theorem State.harts_dropGang (s : State) (n : Nat) : (s.dropGang n).harts = s.harts := rfl
@[simp] theorem State.cores_dropGang (s : State) (n : Nat) : (s.dropGang n).cores = s.cores := rfl
@[simp] theorem State.sto_dropGang (s : State) (n : Nat) : (s.dropGang n).sto = s.sto := rfl
@[simp] theorem State.parts_dropGang (s : State) (n : Nat) : (s.dropGang n).parts = s.parts := rfl
@[simp] theorem State.asids_dropGang (s : State) (n : Nat) : (s.dropGang n).asids = s.asids := rfl
@[simp] theorem State.links_dropGang (s : State) (n : Nat) : (s.dropGang n).links = s.links := rfl
@[simp] theorem State.mgmt_dropGang (s : State) (n : Nat) : (s.dropGang n).mgmt = s.mgmt := rfl
@[simp] theorem State.ahead_dropGang (s : State) (n : Nat) : (s.dropGang n).ahead = s.ahead := rfl
@[simp] theorem State.nextLaunch_dropGang (s : State) (n : Nat) : (s.dropGang n).nextLaunch = s.nextLaunch := rfl
@[simp] theorem State.order_dropGang (s : State) (n : Nat) : (s.dropGang n).order = s.order := rfl
@[simp] theorem State.clock_dropGang (s : State) (n : Nat) : (s.dropGang n).clock = s.clock := rfl
@[simp] theorem State.quanta_dropGang (s : State) (n : Nat) : (s.dropGang n).quanta = s.quanta := rfl
@[simp] theorem State.cur_dropGang (s : State) (n : Nat) : (s.dropGang n).cur = s.cur := rfl
@[simp] theorem State.turn_dropGang (s : State) (n : Nat) : (s.dropGang n).turn = s.turn := rfl
@[simp] theorem State.inputs_dropGang (s : State) (n : Nat) : (s.dropGang n).inputs = s.inputs := rfl
@[simp] theorem State.holding_dropGang (s : State) (n : Nat) : (s.dropGang n).holding = s.holding := rfl
@[simp] theorem State.free_dropGang (s : State) (n : Nat) : (s.dropGang n).free = s.free := rfl
@[simp] theorem State.hart_dropGang (s : State) (n : Nat) (k : Nat) : (s.dropGang n).hart k = s.hart k := rfl
@[simp] theorem State.core_dropGang (s : State) (n : Nat) (k : Nat) : (s.dropGang n).core k = s.core k := rfl
@[simp] theorem State.part_dropGang (s : State) (n : Nat) (k : Nat) : (s.dropGang n).part k = s.part k := rfl
@[simp] theorem State.asid_dropGang (s : State) (n : Nat) (k : Nat) : (s.dropGang n).asid k = s.asid k := rfl
@[simp] theorem State.port_dropGang (s : State) (n : Nat) (k : Nat) : (s.dropGang n).port k = s.port k := rfl
@[simp] theorem State.session_dropGang (s : State) (n : Nat) (k : Nat) : (s.dropGang n).session k = s.session k := rfl

@[simp] theorem State.harts_setAhead (s : State) (n : Nat) (a : Option Hart) : (s.setAhead n a).harts = s.harts := rfl
@[simp] theorem State.cores_setAhead (s : State) (n : Nat) (a : Option Hart) : (s.setAhead n a).cores = s.cores := rfl
@[simp] theorem State.sto_setAhead (s : State) (n : Nat) (a : Option Hart) : (s.setAhead n a).sto = s.sto := rfl
@[simp] theorem State.parts_setAhead (s : State) (n : Nat) (a : Option Hart) : (s.setAhead n a).parts = s.parts := rfl
@[simp] theorem State.asids_setAhead (s : State) (n : Nat) (a : Option Hart) : (s.setAhead n a).asids = s.asids := rfl
@[simp] theorem State.links_setAhead (s : State) (n : Nat) (a : Option Hart) : (s.setAhead n a).links = s.links := rfl
@[simp] theorem State.mgmt_setAhead (s : State) (n : Nat) (a : Option Hart) : (s.setAhead n a).mgmt = s.mgmt := rfl
@[simp] theorem State.gangs_setAhead (s : State) (n : Nat) (a : Option Hart) : (s.setAhead n a).gangs = s.gangs := rfl
@[simp] theorem State.nextLaunch_setAhead (s : State) (n : Nat) (a : Option Hart) : (s.setAhead n a).nextLaunch = s.nextLaunch := rfl
@[simp] theorem State.order_setAhead (s : State) (n : Nat) (a : Option Hart) : (s.setAhead n a).order = s.order := rfl
@[simp] theorem State.clock_setAhead (s : State) (n : Nat) (a : Option Hart) : (s.setAhead n a).clock = s.clock := rfl
@[simp] theorem State.quanta_setAhead (s : State) (n : Nat) (a : Option Hart) : (s.setAhead n a).quanta = s.quanta := rfl
@[simp] theorem State.cur_setAhead (s : State) (n : Nat) (a : Option Hart) : (s.setAhead n a).cur = s.cur := rfl
@[simp] theorem State.turn_setAhead (s : State) (n : Nat) (a : Option Hart) : (s.setAhead n a).turn = s.turn := rfl
@[simp] theorem State.inputs_setAhead (s : State) (n : Nat) (a : Option Hart) : (s.setAhead n a).inputs = s.inputs := rfl
@[simp] theorem State.holding_setAhead (s : State) (n : Nat) (a : Option Hart) : (s.setAhead n a).holding = s.holding := rfl
@[simp] theorem State.free_setAhead (s : State) (n : Nat) (a : Option Hart) : (s.setAhead n a).free = s.free := rfl
@[simp] theorem State.hart_setAhead (s : State) (n : Nat) (a : Option Hart) (k : Nat) : (s.setAhead n a).hart k = s.hart k := rfl
@[simp] theorem State.core_setAhead (s : State) (n : Nat) (a : Option Hart) (k : Nat) : (s.setAhead n a).core k = s.core k := rfl
@[simp] theorem State.part_setAhead (s : State) (n : Nat) (a : Option Hart) (k : Nat) : (s.setAhead n a).part k = s.part k := rfl
@[simp] theorem State.asid_setAhead (s : State) (n : Nat) (a : Option Hart) (k : Nat) : (s.setAhead n a).asid k = s.asid k := rfl
@[simp] theorem State.port_setAhead (s : State) (n : Nat) (a : Option Hart) (k : Nat) : (s.setAhead n a).port k = s.port k := rfl
@[simp] theorem State.session_setAhead (s : State) (n : Nat) (a : Option Hart) (k : Nat) : (s.setAhead n a).session k = s.session k := rfl
@[simp] theorem State.gang_setAhead (s : State) (n : Nat) (a : Option Hart) (k : Nat) : (s.setAhead n a).gang k = s.gang k := rfl

/-! ### The fields of a hart -/

@[simp] theorem Hart.vec_setPc (h : Hart) (pc : Word) : (h.setPc pc).vec = h.vec := rfl
@[simp] theorem Hart.shape_setPc (h : Hart) (pc : Word) : (h.setPc pc).shape = h.shape := rfl
@[simp] theorem Hart.trap_setPc (h : Hart) (pc : Word) : (h.setPc pc).trap = h.trap := rfl
@[simp] theorem Hart.trc_setPc (h : Hart) (pc : Word) : (h.setPc pc).trc = h.trc := rfl
@[simp] theorem Hart.str_setPc (h : Hart) (pc : Word) : (h.setPc pc).str = h.str := rfl
@[simp] theorem Hart.eng_setPc (h : Hart) (pc : Word) : (h.setPc pc).eng = h.eng := rfl

@[simp] theorem Hart.vec_nextPc (h : Hart) : (h.nextPc).vec = h.vec := rfl
@[simp] theorem Hart.shape_nextPc (h : Hart) : (h.nextPc).shape = h.shape := rfl
@[simp] theorem Hart.trap_nextPc (h : Hart) : (h.nextPc).trap = h.trap := rfl
@[simp] theorem Hart.trc_nextPc (h : Hart) : (h.nextPc).trc = h.trc := rfl
@[simp] theorem Hart.str_nextPc (h : Hart) : (h.nextPc).str = h.str := rfl
@[simp] theorem Hart.eng_nextPc (h : Hart) : (h.nextPc).eng = h.eng := rfl

@[simp] theorem Hart.vec_flags (h : Hart) (f : BitVec 6) : (h.flags f).vec = h.vec := rfl
@[simp] theorem Hart.shape_flags (h : Hart) (f : BitVec 6) : (h.flags f).shape = h.shape := rfl
@[simp] theorem Hart.trap_flags (h : Hart) (f : BitVec 6) : (h.flags f).trap = h.trap := rfl
@[simp] theorem Hart.q_flags (h : Hart) (f : BitVec 6) : (h.flags f).q = h.q := rfl
@[simp] theorem Hart.trc_flags (h : Hart) (f : BitVec 6) : (h.flags f).trc = h.trc := rfl
@[simp] theorem Hart.str_flags (h : Hart) (f : BitVec 6) : (h.flags f).str = h.str := rfl
@[simp] theorem Hart.eng_flags (h : Hart) (f : BitVec 6) : (h.flags f).eng = h.eng := rfl

@[simp] theorem Hart.vec_setLatch (h : Hart) : (h.setLatch).vec = h.vec := rfl
@[simp] theorem Hart.shape_setLatch (h : Hart) : (h.setLatch).shape = h.shape := rfl
@[simp] theorem Hart.trap_setLatch (h : Hart) : (h.setLatch).trap = h.trap := rfl
@[simp] theorem Hart.q_setLatch (h : Hart) : (h.setLatch).q = h.q := rfl
@[simp] theorem Hart.trc_setLatch (h : Hart) : (h.setLatch).trc = h.trc := rfl
@[simp] theorem Hart.str_setLatch (h : Hart) : (h.setLatch).str = h.str := rfl
@[simp] theorem Hart.eng_setLatch (h : Hart) : (h.setLatch).eng = h.eng := rfl

@[simp] theorem Hart.sc_setStream (h : Hart) (m : Nat) (x : Stream) : (h.setStream m x).sc = h.sc := rfl
@[simp] theorem Hart.vec_setStream (h : Hart) (m : Nat) (x : Stream) : (h.setStream m x).vec = h.vec := rfl
@[simp] theorem Hart.shape_setStream (h : Hart) (m : Nat) (x : Stream) : (h.setStream m x).shape = h.shape := rfl
@[simp] theorem Hart.trap_setStream (h : Hart) (m : Nat) (x : Stream) : (h.setStream m x).trap = h.trap := rfl
@[simp] theorem Hart.q_setStream (h : Hart) (m : Nat) (x : Stream) : (h.setStream m x).q = h.q := rfl
@[simp] theorem Hart.trc_setStream (h : Hart) (m : Nat) (x : Stream) : (h.setStream m x).trc = h.trc := rfl
@[simp] theorem Hart.eng_setStream (h : Hart) (m : Nat) (x : Stream) : (h.setStream m x).eng = h.eng := rfl

@[simp] theorem Hart.sc_setEngine (h : Hart) (e : Nat) (x : Engine) : (h.setEngine e x).sc = h.sc := rfl
@[simp] theorem Hart.vec_setEngine (h : Hart) (e : Nat) (x : Engine) : (h.setEngine e x).vec = h.vec := rfl
@[simp] theorem Hart.shape_setEngine (h : Hart) (e : Nat) (x : Engine) : (h.setEngine e x).shape = h.shape := rfl
@[simp] theorem Hart.trap_setEngine (h : Hart) (e : Nat) (x : Engine) : (h.setEngine e x).trap = h.trap := rfl
@[simp] theorem Hart.q_setEngine (h : Hart) (e : Nat) (x : Engine) : (h.setEngine e x).q = h.q := rfl
@[simp] theorem Hart.trc_setEngine (h : Hart) (e : Nat) (x : Engine) : (h.setEngine e x).trc = h.trc := rfl
@[simp] theorem Hart.str_setEngine (h : Hart) (e : Nat) (x : Engine) : (h.setEngine e x).str = h.str := rfl

@[simp] theorem Hart.sc_wrV (h : Hart) (n x : Nat) : (h.wrV n x).sc = h.sc := rfl
@[simp] theorem Hart.shape_wrV (h : Hart) (n x : Nat) : (h.wrV n x).shape = h.shape := rfl
@[simp] theorem Hart.trap_wrV (h : Hart) (n x : Nat) : (h.wrV n x).trap = h.trap := rfl
@[simp] theorem Hart.q_wrV (h : Hart) (n x : Nat) : (h.wrV n x).q = h.q := rfl
@[simp] theorem Hart.trc_wrV (h : Hart) (n x : Nat) : (h.wrV n x).trc = h.trc := rfl
@[simp] theorem Hart.str_wrV (h : Hart) (n x : Nat) : (h.wrV n x).str = h.str := rfl
@[simp] theorem Hart.eng_wrV (h : Hart) (n x : Nat) : (h.wrV n x).eng = h.eng := rfl

@[simp] theorem Hart.sc_raiseHwb (h : Hart) (n : Nat) : (h.raiseHwb n).sc = h.sc := rfl
@[simp] theorem Hart.shape_raiseHwb (h : Hart) (n : Nat) : (h.raiseHwb n).shape = h.shape := rfl
@[simp] theorem Hart.trap_raiseHwb (h : Hart) (n : Nat) : (h.raiseHwb n).trap = h.trap := rfl
@[simp] theorem Hart.q_raiseHwb (h : Hart) (n : Nat) : (h.raiseHwb n).q = h.q := rfl
@[simp] theorem Hart.trc_raiseHwb (h : Hart) (n : Nat) : (h.raiseHwb n).trc = h.trc := rfl
@[simp] theorem Hart.str_raiseHwb (h : Hart) (n : Nat) : (h.raiseHwb n).str = h.str := rfl
@[simp] theorem Hart.eng_raiseHwb (h : Hart) (n : Nat) : (h.raiseHwb n).eng = h.eng := rfl

@[simp] theorem Hart.sc_setBinding (h : Hart) (n : Nat) (b : Binding) : (h.setBinding n b).sc = h.sc := rfl
@[simp] theorem Hart.shape_setBinding (h : Hart) (n : Nat) (b : Binding) : (h.setBinding n b).shape = h.shape := rfl
@[simp] theorem Hart.trap_setBinding (h : Hart) (n : Nat) (b : Binding) : (h.setBinding n b).trap = h.trap := rfl
@[simp] theorem Hart.q_setBinding (h : Hart) (n : Nat) (b : Binding) : (h.setBinding n b).q = h.q := rfl
@[simp] theorem Hart.trc_setBinding (h : Hart) (n : Nat) (b : Binding) : (h.setBinding n b).trc = h.trc := rfl
@[simp] theorem Hart.str_setBinding (h : Hart) (n : Nat) (b : Binding) : (h.setBinding n b).str = h.str := rfl
@[simp] theorem Hart.eng_setBinding (h : Hart) (n : Nat) (b : Binding) : (h.setBinding n b).eng = h.eng := rfl

@[simp] theorem Hart.sc_wrO (h : Hart) (r : OReg) (v : BitVec 32) : (h.wrO r v).sc = h.sc := rfl
@[simp] theorem Hart.shape_wrO (h : Hart) (r : OReg) (v : BitVec 32) : (h.wrO r v).shape = h.shape := rfl
@[simp] theorem Hart.trap_wrO (h : Hart) (r : OReg) (v : BitVec 32) : (h.wrO r v).trap = h.trap := rfl
@[simp] theorem Hart.q_wrO (h : Hart) (r : OReg) (v : BitVec 32) : (h.wrO r v).q = h.q := rfl
@[simp] theorem Hart.trc_wrO (h : Hart) (r : OReg) (v : BitVec 32) : (h.wrO r v).trc = h.trc := rfl
@[simp] theorem Hart.str_wrO (h : Hart) (r : OReg) (v : BitVec 32) : (h.wrO r v).str = h.str := rfl
@[simp] theorem Hart.eng_wrO (h : Hart) (r : OReg) (v : BitVec 32) : (h.wrO r v).eng = h.eng := rfl

@[simp] theorem Hart.sc_wrQ (h : Hart) (r : QReg) (v : BitVec 128) : (h.wrQ r v).sc = h.sc := rfl
@[simp] theorem Hart.shape_wrQ (h : Hart) (r : QReg) (v : BitVec 128) : (h.wrQ r v).shape = h.shape := rfl
@[simp] theorem Hart.trap_wrQ (h : Hart) (r : QReg) (v : BitVec 128) : (h.wrQ r v).trap = h.trap := rfl
@[simp] theorem Hart.q_wrQ (h : Hart) (r : QReg) (v : BitVec 128) : (h.wrQ r v).q = h.q := rfl
@[simp] theorem Hart.trc_wrQ (h : Hart) (r : QReg) (v : BitVec 128) : (h.wrQ r v).trc = h.trc := rfl
@[simp] theorem Hart.str_wrQ (h : Hart) (r : QReg) (v : BitVec 128) : (h.wrQ r v).str = h.str := rfl
@[simp] theorem Hart.eng_wrQ (h : Hart) (r : QReg) (v : BitVec 128) : (h.wrQ r v).eng = h.eng := rfl

@[simp] theorem Hart.sc_setKEnt (h : Hart) (k : KReg) (j v : Nat) : (h.setKEnt k j v).sc = h.sc := rfl
@[simp] theorem Hart.shape_setKEnt (h : Hart) (k : KReg) (j v : Nat) : (h.setKEnt k j v).shape = h.shape := rfl
@[simp] theorem Hart.trap_setKEnt (h : Hart) (k : KReg) (j v : Nat) : (h.setKEnt k j v).trap = h.trap := rfl
@[simp] theorem Hart.q_setKEnt (h : Hart) (k : KReg) (j v : Nat) : (h.setKEnt k j v).q = h.q := rfl
@[simp] theorem Hart.trc_setKEnt (h : Hart) (k : KReg) (j v : Nat) : (h.setKEnt k j v).trc = h.trc := rfl
@[simp] theorem Hart.str_setKEnt (h : Hart) (k : KReg) (j v : Nat) : (h.setKEnt k j v).str = h.str := rfl
@[simp] theorem Hart.eng_setKEnt (h : Hart) (k : KReg) (j v : Nat) : (h.setKEnt k j v).eng = h.eng := rfl

@[simp] theorem Hart.sc_kill (h : Hart) (n : Nat) : (h.kill n).sc = h.sc := rfl
@[simp] theorem Hart.shape_kill (h : Hart) (n : Nat) : (h.kill n).shape = h.shape := rfl
@[simp] theorem Hart.trap_kill (h : Hart) (n : Nat) : (h.kill n).trap = h.trap := rfl
@[simp] theorem Hart.q_kill (h : Hart) (n : Nat) : (h.kill n).q = h.q := rfl
@[simp] theorem Hart.trc_kill (h : Hart) (n : Nat) : (h.kill n).trc = h.trc := rfl
@[simp] theorem Hart.str_kill (h : Hart) (n : Nat) : (h.kill n).str = h.str := rfl
@[simp] theorem Hart.eng_kill (h : Hart) (n : Nat) : (h.kill n).eng = h.eng := rfl

@[simp] theorem Hart.vec_wrS (h : Hart) (r : SReg) (v : Word) : (h.wrS r v).vec = h.vec := by
  unfold Hart.wrS; split <;> rfl
@[simp] theorem Hart.shape_wrS (h : Hart) (r : SReg) (v : Word) : (h.wrS r v).shape = h.shape := by
  unfold Hart.wrS; split <;> rfl
@[simp] theorem Hart.trap_wrS (h : Hart) (r : SReg) (v : Word) : (h.wrS r v).trap = h.trap := by
  unfold Hart.wrS; split <;> rfl
@[simp] theorem Hart.q_wrS (h : Hart) (r : SReg) (v : Word) : (h.wrS r v).q = h.q := by
  unfold Hart.wrS; split <;> rfl
@[simp] theorem Hart.trc_wrS (h : Hart) (r : SReg) (v : Word) : (h.wrS r v).trc = h.trc := by
  unfold Hart.wrS; split <;> rfl
@[simp] theorem Hart.str_wrS (h : Hart) (r : SReg) (v : Word) : (h.wrS r v).str = h.str := by
  unfold Hart.wrS; split <;> rfl
@[simp] theorem Hart.eng_wrS (h : Hart) (r : SReg) (v : Word) : (h.wrS r v).eng = h.eng := by
  unfold Hart.wrS; split <;> rfl

@[simp] theorem Hart.vec_wrC (h : Hart) (r : CReg) (b : Bool) : (h.wrC r b).vec = h.vec := by
  unfold Hart.wrC; split <;> rfl
@[simp] theorem Hart.shape_wrC (h : Hart) (r : CReg) (b : Bool) : (h.wrC r b).shape = h.shape := by
  unfold Hart.wrC; split <;> rfl
@[simp] theorem Hart.trap_wrC (h : Hart) (r : CReg) (b : Bool) : (h.wrC r b).trap = h.trap := by
  unfold Hart.wrC; split <;> rfl
@[simp] theorem Hart.q_wrC (h : Hart) (r : CReg) (b : Bool) : (h.wrC r b).q = h.q := by
  unfold Hart.wrC; split <;> rfl
@[simp] theorem Hart.trc_wrC (h : Hart) (r : CReg) (b : Bool) : (h.wrC r b).trc = h.trc := by
  unfold Hart.wrC; split <;> rfl
@[simp] theorem Hart.str_wrC (h : Hart) (r : CReg) (b : Bool) : (h.wrC r b).str = h.str := by
  unfold Hart.wrC; split <;> rfl
@[simp] theorem Hart.eng_wrC (h : Hart) (r : CReg) (b : Bool) : (h.wrC r b).eng = h.eng := by
  unfold Hart.wrC; split <;> rfl

@[simp] theorem Hart.setPc_pc (h : Hart) (pc : Word) : (h.setPc pc).sc.pc = pc := rfl
@[simp] theorem Hart.nextPc_pc (h : Hart) : h.nextPc.sc.pc = h.sc.pc + 8 := rfl
@[simp] theorem Hart.rdS_zero (h : Hart) : h.rdS 0 = 0 := rfl
@[simp] theorem Hart.rdS_setPc (h : Hart) (pc : Word) (r : SReg) : (h.setPc pc).rdS r = h.rdS r := rfl
@[simp] theorem Hart.rdS_nextPc (h : Hart) (r : SReg) : h.nextPc.rdS r = h.rdS r := rfl
@[simp] theorem Hart.rdS_flags (h : Hart) (f : BitVec 6) (r : SReg) : (h.flags f).rdS r = h.rdS r := rfl
@[simp] theorem Hart.rdC_setPc (h : Hart) (pc : Word) (r : CReg) : (h.setPc pc).rdC r = h.rdC r := rfl
@[simp] theorem Hart.rdC_nextPc (h : Hart) (r : CReg) : h.nextPc.rdC r = h.rdC r := rfl
@[simp] theorem Hart.wrS_zero (h : Hart) (v : Word) : h.wrS 0 v = h := rfl
theorem Hart.rdS_wrS_same (h : Hart) {r : SReg} (v : Word) (hr : r ≠ 0#5) : (h.wrS r v).rdS r = v := by
  simp [Hart.rdS, Hart.wrS, hr]
theorem Hart.rdS_wrS_other (h : Hart) {r q : SReg} (v : Word) (hq : q ≠ r) : (h.wrS r v).rdS q = h.rdS q := by
  unfold Hart.wrS
  split
  · rfl
  · simp [Hart.rdS, Table.get_set_other _ _ _ (fun e => hq (BitVec.eq_of_toNat_eq e))]
@[simp] theorem Hart.wrS_pc (h : Hart) (r : SReg) (v : Word) : (h.wrS r v).sc.pc = h.sc.pc := by unfold Hart.wrS; split <;> rfl
@[simp] theorem Hart.wrS_mode (h : Hart) (r : SReg) (v : Word) : (h.wrS r v).sc.mode = h.sc.mode := by unfold Hart.wrS; split <;> rfl
@[simp] theorem Hart.wrS_c (h : Hart) (r : SReg) (v : Word) : (h.wrS r v).sc.c = h.sc.c := by unfold Hart.wrS; split <;> rfl
@[simp] theorem Hart.stream_setStream (h : Hart) (m : Nat) (x : Stream) : (h.setStream m x).stream m = x := Table.get_set_same _ _ _ _
@[simp] theorem Hart.engine_setEngine (h : Hart) (e : Nat) (x : Engine) : (h.setEngine e x).engine e = x := Table.get_set_same _ _ _ _
@[simp] theorem Hart.binding_setBinding (h : Hart) (n : Nat) (b : Binding) : (h.setBinding n b).binding n = b :=
  Table.get_set_same _ _ _ _

/-! ### The hart that acts -/

@[simp] theorem State.me_setHart (s : State) (h : Hart) : (s.setHart s.cur h).me = h := State.hart_setHart s s.cur h
theorem State.same_setHart (s : State) (n : Nat) (h : Hart) : s.Same (s.setHart n h) n :=
  ⟨fun _ hm => State.hart_setHart_ne s h hm, rfl⟩
theorem State.same_updHart (s : State) (n : Nat) (f : Hart → Hart) : s.Same (s.updHart n f) n := State.same_setHart s n _
theorem State.same_refl (s : State) (n : Nat) : s.Same s n := ⟨fun _ _ => rfl, rfl⟩
theorem acts_setHart {i : Instr} {s : State} {h : Hart} (e : exec i s = .next (s.setHart s.cur h)) : Acts i s h :=
  ⟨_, e, State.me_setHart s h, State.same_setHart s _ h⟩

/-! ### Held writes, latent errors, sessions -/

@[simp] theorem Hart.heldOf_setHeld (h : Hart) (ag : Agent) (l : List Held) : (h.setHeld ag l).heldOf ag = l := by cases ag <;> rfl
theorem Hart.heldOf_setHeld_ne (h : Hart) {ag b : Agent} (l : List Held) (hb : b ≠ ag) : (h.setHeld ag l).heldOf b = h.heldOf b := by
  cases ag <;> cases b <;> first | rfl | exact absurd rfl hb
@[simp] theorem Hart.sc_setHeld (h : Hart) (ag : Agent) (l : List Held) : (h.setHeld ag l).sc = h.sc := by cases ag <;> rfl
@[simp] theorem Hart.vec_setHeld (h : Hart) (ag : Agent) (l : List Held) : (h.setHeld ag l).vec = h.vec := by cases ag <;> rfl
@[simp] theorem Hart.shape_setHeld (h : Hart) (ag : Agent) (l : List Held) : (h.setHeld ag l).shape = h.shape := by cases ag <;> rfl
@[simp] theorem Hart.trap_setHeld (h : Hart) (ag : Agent) (l : List Held) : (h.setHeld ag l).trap = h.trap := by cases ag <;> rfl
@[simp] theorem Hart.trc_setHeld (h : Hart) (ag : Agent) (l : List Held) : (h.setHeld ag l).trc = h.trc := by cases ag <;> rfl
@[simp] theorem Hart.str_setHeld (h : Hart) (ag : Agent) (l : List Held) : (h.setHeld ag l).str = h.str := by cases ag <;> rfl
@[simp] theorem Hart.eng_setHeld (h : Hart) (ag : Agent) (l : List Held) : (h.setHeld ag l).eng = h.eng := by cases ag <;> rfl
@[simp] theorem Hart.run_setHeld (h : Hart) (ag : Agent) (l : List Held) : (h.setHeld ag l).q.run = h.q.run := by cases ag <;> rfl
@[simp] theorem Hart.queue_setHeld (h : Hart) (ag : Agent) (l : List Held) : (h.setHeld ag l).q.queue = h.q.queue := by cases ag <;> rfl
@[simp] theorem Hart.status_setHeld (h : Hart) (ag : Agent) (l : List Held) : (h.setHeld ag l).q.status = h.q.status := by cases ag <;> rfl

/-! ### Packed words that have been read, and loads ahead of the commit point -/

@[simp] theorem Hart.sc_keepWord (h : Hart) (x : PackedWord) : (h.keepWord x).sc = h.sc := rfl
@[simp] theorem Hart.vec_keepWord (h : Hart) (x : PackedWord) : (h.keepWord x).vec = h.vec := rfl
@[simp] theorem Hart.shape_keepWord (h : Hart) (x : PackedWord) : (h.keepWord x).shape = h.shape := rfl
@[simp] theorem Hart.trap_keepWord (h : Hart) (x : PackedWord) : (h.keepWord x).trap = h.trap := rfl
@[simp] theorem Hart.trc_keepWord (h : Hart) (x : PackedWord) : (h.keepWord x).trc = h.trc := rfl
@[simp] theorem Hart.str_keepWord (h : Hart) (x : PackedWord) : (h.keepWord x).str = h.str := rfl
@[simp] theorem Hart.eng_keepWord (h : Hart) (x : PackedWord) : (h.keepWord x).eng = h.eng := rfl
@[simp] theorem Hart.heldOf_keepWord (h : Hart) (x : PackedWord) (ag : Agent) : (h.keepWord x).heldOf ag = h.heldOf ag := by cases ag <;> rfl
/-- A write changes nothing of a hart but the words that its started convoy has at hand. -/
theorem Hart.patchWords_eq (h : Hart) (w : Held) : h.patchWords w = { h with q := { h.q with run := (h.patchWords w).q.run } } := by
  unfold Hart.patchWords
  split
  · rfl
  · split <;> rfl
@[simp] theorem Hart.sc_patchWords (h : Hart) (w : Held) : (h.patchWords w).sc = h.sc := (congrArg Hart.sc (h.patchWords_eq w)).trans rfl
@[simp] theorem Hart.vec_patchWords (h : Hart) (w : Held) : (h.patchWords w).vec = h.vec := (congrArg Hart.vec (h.patchWords_eq w)).trans rfl
@[simp] theorem Hart.shape_patchWords (h : Hart) (w : Held) : (h.patchWords w).shape = h.shape := (congrArg Hart.shape (h.patchWords_eq w)).trans rfl
@[simp] theorem Hart.trap_patchWords (h : Hart) (w : Held) : (h.patchWords w).trap = h.trap := (congrArg Hart.trap (h.patchWords_eq w)).trans rfl
@[simp] theorem Hart.trc_patchWords (h : Hart) (w : Held) : (h.patchWords w).trc = h.trc := (congrArg Hart.trc (h.patchWords_eq w)).trans rfl
@[simp] theorem Hart.str_patchWords (h : Hart) (w : Held) : (h.patchWords w).str = h.str := (congrArg Hart.str (h.patchWords_eq w)).trans rfl
@[simp] theorem Hart.eng_patchWords (h : Hart) (w : Held) : (h.patchWords w).eng = h.eng := (congrArg Hart.eng (h.patchWords_eq w)).trans rfl
/-- A load that commits changes nothing of a hart but its region. -/
theorem Hart.takeEarly_eq (h : Hart) (va : Word) (bs : List Byte) :
    (h.takeEarly va bs).1 = { h with q := { h.q with region := (h.takeEarly va bs).1.q.region } } := by
  unfold Hart.takeEarly
  split
  · rfl
  · split <;> rfl
@[simp] theorem Hart.sc_takeEarly (h : Hart) (va : Word) (bs : List Byte) : (h.takeEarly va bs).1.sc = h.sc :=
  (congrArg Hart.sc (h.takeEarly_eq va bs)).trans rfl
@[simp] theorem Hart.vec_takeEarly (h : Hart) (va : Word) (bs : List Byte) : (h.takeEarly va bs).1.vec = h.vec :=
  (congrArg Hart.vec (h.takeEarly_eq va bs)).trans rfl
@[simp] theorem Hart.shape_takeEarly (h : Hart) (va : Word) (bs : List Byte) : (h.takeEarly va bs).1.shape = h.shape :=
  (congrArg Hart.shape (h.takeEarly_eq va bs)).trans rfl
@[simp] theorem Hart.trap_takeEarly (h : Hart) (va : Word) (bs : List Byte) : (h.takeEarly va bs).1.trap = h.trap :=
  (congrArg Hart.trap (h.takeEarly_eq va bs)).trans rfl
@[simp] theorem Hart.trc_takeEarly (h : Hart) (va : Word) (bs : List Byte) : (h.takeEarly va bs).1.trc = h.trc :=
  (congrArg Hart.trc (h.takeEarly_eq va bs)).trans rfl
@[simp] theorem Hart.str_takeEarly (h : Hart) (va : Word) (bs : List Byte) : (h.takeEarly va bs).1.str = h.str :=
  (congrArg Hart.str (h.takeEarly_eq va bs)).trans rfl
@[simp] theorem Hart.eng_takeEarly (h : Hart) (va : Word) (bs : List Byte) : (h.takeEarly va bs).1.eng = h.eng :=
  (congrArg Hart.eng (h.takeEarly_eq va bs)).trans rfl
theorem Hart.takeEarly_nil (h : Hart) (va : Word) (bs : List Byte) (hr : h.q.region = []) : h.takeEarly va bs = (h, bs) := by
  simp [Hart.takeEarly, hr]
/-- A load that commits has as many bytes as it asked for, whichever it takes. -/
theorem Hart.length_takeEarly (h : Hart) (va : Word) (bs : List Byte) : (h.takeEarly va bs).2.length = bs.length := by
  unfold Hart.takeEarly
  split
  · rfl
  · split <;> simp_all

@[simp] theorem State.latent_setLatent (s : State) (line : Nat) (x : Latent) : (s.setLatent line x).latent line = x := Table.get_set_same _ _ _ _
theorem State.latent_setLatent_ne (s : State) {line l : Nat} (x : Latent) (hl : l ≠ line) : (s.setLatent line x).latent l = s.latent l :=
  Table.get_set_other _ _ _ hl
@[simp] theorem State.mem_setLatent (s : State) (line : Nat) (x : Latent) : (s.setLatent line x).sto.mem = s.sto.mem := rfl
@[simp] theorem State.mem_setErr (s : State) (line : Nat) (e : Err) : (s.setErr line e).sto.mem = s.sto.mem := rfl
@[simp] theorem State.mem_setLine (s : State) (line : Nat) (x : Line) : (s.setLine line x).sto.mem = s.sto.mem := rfl
@[simp] theorem State.mem_dropLine (s : State) (line : Nat) : (s.dropLine line).sto.mem = s.sto.mem := rfl
@[simp] theorem State.harts_setLatent (s : State) (line : Nat) (x : Latent) : (s.setLatent line x).harts = s.harts := rfl
@[simp] theorem State.harts_setLine (s : State) (line : Nat) (x : Line) : (s.setLine line x).harts = s.harts := rfl
@[simp] theorem State.session_updSession (s : State) (n : Nat) (f : Session → Session) : (s.updSession n f).session n = f (s.session n) :=
  State.session_setSession s n _
@[simp] theorem State.harts_setSession (s : State) (n : Nat) (x : Session) : (s.setSession n x).harts = s.harts := rfl
@[simp] theorem State.sto_setSession (s : State) (n : Nat) (x : Session) : (s.setSession n x).sto = s.sto := rfl
@[simp] theorem State.part_setSession (s : State) (n : Nat) (x : Session) (k : Nat) : (s.setSession n x).part k = s.part k := rfl
@[simp] theorem State.port_setSession (s : State) (n : Nat) (x : Session) (k : Nat) : (s.setSession n x).port k = s.port k := rfl

end Sys2Proof.Machine
end

