-- ==== Sys2Proof/Laws/Ops.lean ====
section
/-!
SUPPORT. The laws of the shared operations: everything that the frame of a scalar word, an exception, and a guard can do, and
that every operation which stores to memory keeps its canonical form.
-/
namespace Sys2Proof.Machine
set_option Elab.async false

/-! ### The frame of a scalar word -/

theorem State.scalar_waits {s : State} {g : SG} {rs : List SReg} (f : Nat → Hart → Out) (h : s.me.atCommit = false) :
    s.scalar g rs f = .next s := by
  simp only [State.me] at h
  simp [State.scalar, h]

theorem State.scalar_false {s : State} {g : SG} {rs : List SReg} (f : Nat → Hart → Out) (h : s.me.atCommit = true)
    (hg : s.me.guard g = false) : s.scalar g rs f = .next (s.setHart s.cur s.me.nextPc) := by
  simp only [State.me] at h hg
  simp [State.scalar, h, hg, State.me]

theorem State.scalar_pending {s : State} {g : SG} {rs : List SReg} (f : Nat → Hart → Out) (h : s.me.atCommit = true)
    (hg : s.me.guard g = true) (hp : s.me.pending rs = true) : s.scalar g rs f = .next s := by
  simp only [State.me] at h hg hp
  simp [State.scalar, h, hg, hp]

theorem State.scalar_commits {s : State} {g : SG} {rs : List SReg} (f : Nat → Hart → Out) (h : s.Commits g rs) :
    s.scalar g rs f = f s.cur s.me := by
  obtain ⟨h1, h2, h3⟩ := h
  simp only [State.me] at h1 h2 h3
  simp [State.scalar, h1, h2, h3, State.me]

/-- Everything the frame of a scalar word can do. -/
theorem State.scalar_cases (s : State) (g : SG) (rs : List SReg) (f : Nat → Hart → Out) :
    (s.scalar g rs f = .next s ∧ (s.me.atCommit = false ∨ s.me.guard g = true ∧ s.me.pending rs = true)) ∨
    (s.scalar g rs f = .next (s.setHart s.cur s.me.nextPc) ∧ s.me.atCommit = true ∧ s.me.guard g = false) ∨
    (s.scalar g rs f = f s.cur s.me ∧ s.Commits g rs) := by
  cases hc : s.me.atCommit with
  | false => exact .inl ⟨State.scalar_waits f hc, .inl rfl⟩
  | true =>
    cases hg : s.me.guard g with
    | false => exact .inr (.inl ⟨State.scalar_false f hc hg, rfl, rfl⟩)
    | true =>
      cases hp : s.me.pending rs with
      | true => exact .inl ⟨State.scalar_pending f hc hg hp, .inr ⟨rfl, rfl⟩⟩
      | false => exact .inr (.inr ⟨State.scalar_commits f ⟨hc, hg, hp⟩, ⟨hc, hg, hp⟩⟩)

theorem State.regOp_commits {s : State} {g : SG} {rs : List SReg} (f : Hart → Hart) (h : s.Commits g rs) :
    s.regOp g rs f = .next (s.setHart s.cur (f s.me).nextPc) := by rw [State.regOp, State.scalar_commits _ h]

/-- A register operation ends in a next state, in which no other hart and nothing beside the harts differs. -/
theorem State.regOp_next (s : State) (g : SG) (rs : List SReg) (f : Hart → Hart) :
    ∃ t, s.regOp g rs f = .next t ∧ s.Same t s.cur := by
  rcases State.scalar_cases s g rs (fun n h => .next (s.setHart n (f h).nextPc)) with h | h | h
  · exact ⟨s, h.1, State.same_refl s _⟩
  · exact ⟨_, h.1, State.same_setHart s _ _⟩
  · exact ⟨_, h.1, State.same_setHart s _ _⟩

theorem State.drained_idle {s : State} {h : Hart} (k : Out) (hr : h.q.run = none) : s.drained h k = k := by
  simp [State.drained, hr]

theorem State.drained_busy {s : State} {h : Hart} (k : Out) (hr : h.q.run.isSome = true) : s.drained h k = .next s := by
  simp [State.drained, hr]

/-! ### Guards -/

/-- The guard that names c0 three times reads bit 7 of its table. -/
theorem Hart.guard_const (h : Hart) (tt : BitVec 8) : h.guard ⟨tt, 0, 0, 0⟩ = tt.getLsbD 7 := rfl

theorem Hart.vguard_const (h : Hart) (tt : BitVec 8) (e : Nat) : h.vguard ⟨tt, 0, 0, 0⟩ e = tt.getLsbD 7 := rfl

/-! ### Exceptions -/

/-- Trap entry in firmware mode stops. -/
theorem State.takeTrap_firmware {s : State} {n : Nat} {t : Trap} {tpc resume : Word} {conv : Option (QEntry × Nat)} {bf : Bool}
    (h : (s.hart n).sc.mode = .fw) : s.takeTrap n t tpc conv resume bf = .fault .firmwareTrap := by
  simp [State.takeTrap, h]

/-- A trap that ends the member (R325). -/
theorem State.takeTrap_ends {s : State} {n : Nat} {t : Trap} {tpc resume : Word} {conv : Option (QEntry × Nat)} {bf : Bool}
    (hm : (s.hart n).sc.mode ≠ .fw)
    (h : (s.hart n).trap.tvec = 0 ∨ (t.cause ≠ 0x1C#8 ∧ tstatIE (s.hart n).trap.tstat = false ∧ (s.hart n).sc.mode = .sup)) :
    s.takeTrap n t tpc conv resume bf = .next (s.terminate n t.cause) := by
  simp only [State.takeTrap, hm, if_false, h, if_true]

/-- Outside firmware mode every trap gives a next state. -/
theorem State.takeTrap_next {s : State} {n : Nat} {t : Trap} {tpc resume : Word} {conv : Option (QEntry × Nat)} {bf : Bool}
    (hm : (s.hart n).sc.mode ≠ .fw) : ∃ t', s.takeTrap n t tpc conv resume bf = .next t' := by
  simp only [State.takeTrap, hm, if_false]
  split <;> exact ⟨_, rfl⟩

theorem State.scalarTrap_busy {s : State} {n : Nat} (t : Trap) (h : (s.hart n).q.run.isSome = true) :
    s.scalarTrap n t = .next s := by simp [State.scalarTrap, h]

theorem State.scalarTrap_drained {s : State} {n : Nat} (t : Trap) (h : (s.hart n).q.run = none) :
    s.scalarTrap n t = s.takeTrap n t (s.hart n).sc.pc none (s.hart n).sc.pc false := by simp [State.scalarTrap, h]

theorem State.scalarTrap_next {s : State} {n : Nat} (t : Trap) (hm : (s.hart n).sc.mode ≠ .fw) :
    ∃ t', s.scalarTrap n t = .next t' := by
  unfold State.scalarTrap
  split
  · exact ⟨_, rfl⟩
  · exact State.takeTrap_next hm

theorem State.accessTrap_next {s : State} {n : Nat} (e : AErr) (hm : (s.hart n).sc.mode ≠ .fw) :
    ∃ t', s.accessTrap n e = .next t' := by
  unfold State.accessTrap
  split
  · exact ⟨_, rfl⟩
  · obtain ⟨t', h⟩ := State.scalarTrap_next (e.trap 0 0) hm
    rw [h]; exact ⟨_, rfl⟩

/-! ### The memory invariant -/

theorem State.memInv_congr {s t : State} (h : t.sto.mem = s.sto.mem) (hs : s.MemInv) : t.MemInv := by
  unfold State.MemInv; rw [h]; exact hs

theorem memInv_foldl {α : Type} (l : List α) (f : State → α → State) (hf : ∀ s a, s.MemInv → (f s a).MemInv) {s : State}
    (hs : s.MemInv) : (l.foldl f s).MemInv := by
  induction l generalizing s with
  | nil => exact hs
  | cons a r ih => exact ih (hf s a hs)

theorem State.memInv_ite {c : Prop} [Decidable c] {a b : State} (ha : a.MemInv) (hb : b.MemInv) : (if c then a else b).MemInv := by
  split
  · exact ha
  · exact hb

theorem State.memInv_setHart {s : State} (n : Nat) (h : Hart) (hs : s.MemInv) : (s.setHart n h).MemInv := hs
theorem State.memInv_updHart {s : State} (n : Nat) (f : Hart → Hart) (hs : s.MemInv) : (s.updHart n f).MemInv := hs
theorem State.memInv_updCore {s : State} (n : Nat) (f : Core → Core) (hs : s.MemInv) : (s.updCore n f).MemInv := hs
theorem State.memInv_updPart {s : State} (n : Nat) (f : Partition → Partition) (hs : s.MemInv) : (s.updPart n f).MemInv := hs
theorem State.memInv_updGang {s : State} (n : Nat) (f : Gang → Gang) (hs : s.MemInv) : (s.updGang n f).MemInv := hs
theorem State.memInv_setLatent {s : State} (n : Nat) (x : Latent) (hs : s.MemInv) : (s.setLatent n x).MemInv := hs
theorem State.memInv_setPoison {s : State} (n : Nat) (b : Bool) (hs : s.MemInv) : (s.setPoison n b).MemInv := hs
theorem State.memInv_setLine {s : State} (n : Nat) (x : Line) (hs : s.MemInv) : (s.setLine n x).MemInv := hs
theorem State.memInv_dropLine {s : State} (n : Nat) (hs : s.MemInv) : (s.dropLine n).MemInv := hs

theorem State.memInv_poisonWord {s : State} (loc : Nat) (hs : s.MemInv) : (s.poisonWord loc).MemInv :=
  Memory.wf_write _ _ _ hs

theorem State.memInv_setBytes {s : State} (loc : Nat) (bs : List Byte) (hs : s.MemInv) :
    ({ s with sto := { s.sto with mem := Memory.writeBytes s.sto.mem loc bs } } : State).MemInv :=
  Memory.wf_writeBytes (m := s.sto.mem) _ _ hs

theorem State.memInv_retired {s : State} (l : List (Nat × Option Nat)) (hs : s.MemInv) :
    ({ s with sto := { s.sto with retired := l } } : State).MemInv := hs

theorem State.memInv_setErr {s : State} (line : Nat) (e : Err) (hs : s.MemInv) : (s.setErr line e).MemInv := hs

theorem State.mem_countCorrected (s : State) (p : Option Nat) : (s.countCorrected p).sto = s.sto := by
  unfold State.countCorrected; split <;> rfl

theorem State.memInv_correct {s : State} (line mask : Nat) (hs : s.MemInv) : (s.correct line mask).MemInv := by
  unfold State.correct
  exact State.memInv_ite hs (State.memInv_congr (by rw [State.mem_countCorrected]) (State.memInv_setErr (s := s) line _ hs))

theorem State.mem_dropCopies (s : State) (line : Nat) : (s.dropCopies line).sto = s.sto := by
  unfold State.dropCopies
  split
  · split <;> rfl
  · rfl

theorem State.memInv_dropCopies {s : State} (line : Nat) (hs : s.MemInv) : (s.dropCopies line).MemInv :=
  State.memInv_congr (by rw [State.mem_dropCopies]) hs

theorem State.memInv_copyFrame {s : State} (a b : Nat) (hs : s.MemInv) : (s.copyFrame a b).MemInv := by
  unfold State.copyFrame
  generalize upTo 0 8192 = l
  refine memInv_foldl l _ (fun _ _ ht => State.memInv_setPoison _ _ ht) (State.memInv_setBytes _ _ ?_)
  refine memInv_foldl _ _ (fun _ _ ht => State.memInv_setLine _ _ (State.memInv_dropCopies _ ht)) ?_
  refine memInv_foldl _ _ (fun _ _ ht => State.memInv_setErr _ _ ht) ?_
  exact memInv_foldl _ _ (fun _ _ ht => State.memInv_correct _ _ ht) hs

theorem State.memInv_retire {s : State} (loc : Nat) (hs : s.MemInv) : (s.retire loc).1.MemInv := by
  unfold State.retire
  simp only
  split
  · exact hs
  · split
    · exact hs
    · split
      · exact hs
      · exact State.memInv_retired _ (State.memInv_updPart _ _ hs)

theorem State.memInv_present {s : State} (line c : Nat) (hs : s.MemInv) : (s.present line c).MemInv := by
  unfold State.present
  split
  · exact State.memInv_setLine _ _ (State.memInv_ite hs (State.memInv_dropCopies _ hs))
  · exact hs

theorem State.memInv_fillL1 {s : State} (line c : Nat) (hs : s.MemInv) : (s.fillL1 line c).MemInv := by
  unfold State.fillL1
  have h := State.memInv_present line c hs
  exact State.memInv_ite hs (State.memInv_ite h (State.memInv_updCore _ _ (State.memInv_ite h h)))

theorem State.memInv_uncover {s : State} (line : Nat) (l : List (Nat × Nat × Bool)) (hs : s.MemInv) : (s.uncover line l).MemInv := by
  refine memInv_foldl _ _ (fun t x ht => ?_) hs
  simp only
  split
  · exact State.memInv_poisonWord _ ht
  · exact Memory.wf_write _ _ _ ht

theorem State.memInv_evict {s : State} (line : Nat) (hs : s.MemInv) : (s.evict line).MemInv := by
  unfold State.evict
  split
  · exact hs
  · exact State.memInv_ite
      (State.memInv_setLatent _ _ (State.memInv_dropLine _ (State.memInv_dropCopies _ (State.memInv_correct _ _ hs))))
      (State.memInv_uncover _ _ (State.memInv_setLatent _ _ (State.memInv_dropLine _ (State.memInv_dropCopies _ hs))))

theorem State.mem_raiseIrq (s : State) (n : Nat) (w : Word) : (s.raiseIrq n w).sto = s.sto := rfl

theorem State.mem_raisePart (s : State) (n : Nat) (w : Word) : (s.raisePart n w).sto = s.sto := by
  unfold State.raisePart; split <;> rfl

theorem State.mem_addRas (s : State) (part : Option Nat) (kind place : Nat) (owner : BitVec 9) (term ret quar : Bool)
    (addr repl die bank way : Nat) : (s.addRas part kind place owner term ret quar addr repl die bank way).sto = s.sto := by
  unfold State.addRas
  split
  · rfl
  · simp only
    split
    · rfl
    · split
      · rw [State.mem_raisePart]; rfl
      · rfl

theorem State.mem_addEvt (s : State) (p kind data : Nat) : (s.addEvt p kind data).sto = s.sto := by
  unfold State.addEvt
  simp only
  split
  · rfl
  · split
    · rw [State.mem_raisePart]; rfl
    · rfl

theorem State.memInv_addRas {s : State} (part : Option Nat) (kind place : Nat) (owner : BitVec 9) (term ret quar : Bool)
    (addr repl die bank way : Nat) (hs : s.MemInv) :
    (s.addRas part kind place owner term ret quar addr repl die bank way).MemInv :=
  State.memInv_congr (by rw [State.mem_addRas]) hs

theorem State.memInv_addEvt {s : State} (p kind data : Nat) (hs : s.MemInv) : (s.addEvt p kind data).MemInv :=
  State.memInv_congr (by rw [State.mem_addEvt]) hs

theorem State.memInv_condemn {s : State} (asid : Nat) (cause : BitVec 8) (hs : s.MemInv) : (s.condemn asid cause).MemInv := hs

theorem State.memInv_losePart {s : State} (line : Nat) (hs : s.MemInv) : (s.losePart line).1.MemInv := by
  have h1 : ∀ (l : List Nat) (x : Latent),
      (l.foldl (fun t i => t.poisonWord (line * 128 + 8 * i)) ((s.dropCopies line).setLatent line x)).MemInv := fun l _ =>
    memInv_foldl l _ (fun _ _ ht => State.memInv_poisonWord _ ht) (State.memInv_setLatent _ _ (State.memInv_dropCopies _ hs))
  unfold State.losePart
  generalize upTo 0 16 = l
  simp only
  generalize hu : List.foldl _ _ l = u
  have hu' : u.MemInv := hu ▸ h1 l _
  clear hu h1
  have h2 : ∀ (c d : Prop) [Decidable c] [Decidable d] (b : BitVec 9),
      (if c then (if d then u else u.dropLine line) else (if d then u else u.dropLine line).condemn (b.toNat % 256) 0x23#8).MemInv :=
    fun c d _ _ b =>
      have h := State.memInv_ite hu' (State.memInv_dropLine line hu')
      State.memInv_ite h (State.memInv_condemn _ _ h)
  split
  · exact State.memInv_retire _ (h2 _ _ _)
  · exact h2 _ _ _

theorem State.memInv_leaveWay {s : State} (line : Nat) (hs : s.MemInv) : (s.leaveWay line).MemInv := by
  unfold State.leaveWay
  split
  · exact State.memInv_addRas _ _ _ _ _ _ _ _ _ _ _ _ (State.memInv_losePart line hs)
  · exact State.memInv_evict line hs

theorem State.memInv_quarantine {s : State} (die bank way : Nat) (locked : Bool) (hs : s.MemInv) :
    (s.quarantine die bank way locked).MemInv := by
  unfold State.quarantine
  split
  · exact hs
  · split
    · exact hs
    · have h1 : ∀ l : List (Nat × Line), (l.foldl (fun t e => t.leaveWay e.1) s).MemInv := fun l =>
        memInv_foldl _ _ (fun _ _ ht => State.memInv_leaveWay _ ht) hs
      simp only
      split
      · refine memInv_foldl _ _ (fun t p ht => ?_) (h1 _)
        split
        · exact State.memInv_addEvt _ _ _ ht
        · exact ht
      · exact h1 _

theorem State.memInv_loseOne {s : State} (line kind place addr : Nat) (hs : s.MemInv) :
    (s.loseOne line kind place addr).MemInv :=
  State.memInv_addRas _ _ _ _ _ _ _ _ _ _ _ _ (State.memInv_quarantine _ _ _ _ (State.memInv_losePart line hs))

theorem State.memInv_hide {s : State} (line m : Nat) (l : Line) (hs : s.MemInv) : (s.hide line m l).MemInv := hs

theorem State.memInv_poisonWords {s : State} (line m : Nat) (hs : s.MemInv) : (s.poisonWords line m).MemInv :=
  memInv_foldl _ _ (fun _ _ ht => State.memInv_ite (State.memInv_poisonWord _ ht) ht) hs

theorem State.memInv_poisonRecord {s : State} (line kind : Nat) (ret : Bool) (place addr : Nat) (hs : s.MemInv) :
    (s.poisonRecord line kind ret place addr).MemInv := by
  have h : ∀ b : Bool, (if b then s.retire (line * 128) else (s, false, 0)).1.MemInv := fun b => by
    cases b
    · exact hs
    · exact State.memInv_retire _ hs
  exact State.memInv_addRas _ _ _ _ _ _ _ _ _ _ _ _ (h _)

theorem State.memInv_detectOne {s : State} (line mask : Nat) (walk : Option Nat) (hs : s.MemInv) :
    (s.detectOne line mask walk).MemInv := by
  have hc := State.memInv_correct line mask hs
  unfold State.detectOne
  generalize s.correct line mask = u at hc ⊢
  simp only
  split
  · split
    · exact State.memInv_ite (State.memInv_poisonRecord _ _ _ _ _ hc) hc
    · exact hc
  · exact State.memInv_addRas _ _ _ _ _ _ _ _ _ _ _ _ (State.memInv_quarantine _ _ _ _ (State.memInv_evict _ hc))
  · exact State.memInv_loseOne _ _ _ _ hc
  · have h := fun m e => State.memInv_poisonWords line m (State.memInv_setErr line e hc)
    exact State.memInv_ite (h _ _) (State.memInv_poisonRecord _ _ _ _ _ (h _ _))
  · exact State.memInv_ite (State.memInv_loseOne _ _ _ _ hc) (State.memInv_poisonRecord _ _ _ _ _
      (State.memInv_poisonWords _ _ (State.memInv_ite (State.memInv_hide _ _ _ hc) hc)))

theorem State.memInv_copyReads (k fuel : Nat) {s : State} (hs : s.MemInv) : (State.copyReads k fuel s).MemInv := by
  induction fuel generalizing s with
  | zero => exact hs
  | succ n ih =>
    unfold State.copyReads
    split
    · exact ih (State.memInv_detectOne _ _ _ hs)
    · exact hs

theorem State.memInv_settle {s : State} (k : Nat) (hs : s.MemInv) : (s.settle k).MemInv :=
  memInv_foldl _ _ (fun _ _ ht => State.memInv_copyFrame _ _ ht) (State.memInv_copyReads _ _ hs)

theorem State.memInv_settling {s : State} {f : State → State} (h : (f s).MemInv) : (s.settling f).MemInv := State.memInv_settle _ h

theorem State.memInv_detectIn {s : State} (line mask : Nat) (walk : Option Nat) (hs : s.MemInv) :
    (s.detectIn line mask walk).MemInv := State.memInv_settling (State.memInv_detectOne _ _ _ hs)

theorem State.memInv_detectBehind {s : State} (line : Nat) (hs : s.MemInv) : (s.detectBehind line).MemInv := by
  unfold State.detectBehind
  split
  · exact hs
  · rename_i l _
    have h : (if (s.latent line).back.corr = 0 then s else s.countCorrected (s.locOwner (line * 128))).MemInv :=
      State.memInv_ite hs (State.memInv_congr (by rw [State.mem_countCorrected]) hs)
    simp only
    exact State.memInv_ite (State.memInv_setLatent _ _ h)
      (State.memInv_settling (State.memInv_poisonRecord _ _ _ _ _ (State.memInv_setLine _ _ (State.memInv_setLatent _ _ h))))

theorem State.memInv_writeBack {s : State} (line : Nat) (hs : s.MemInv) : (s.writeBack line).MemInv :=
  State.memInv_ite (State.memInv_settling (State.memInv_loseOne _ _ _ _ hs)) (State.memInv_evict _ hs)

theorem State.memInv_enter {s : State} (line : Nat) (x : Line) (hs : s.MemInv) : (s.enter line x).MemInv := hs

theorem State.memInv_allocLine {s : State} (line : Nat) (hs : s.MemInv) : (s.allocLine line).MemInv := by
  unfold State.allocLine
  split
  · exact hs
  · split
    · exact hs
    · simp only
      split
      · exact hs
      · split
        · exact hs
        · exact State.memInv_enter (s := s.draw.2) _ _ hs
        · have h : ∀ o : Option (Nat × Line), (match o with | some e => s.draw.2.writeBack e.1 | none => s.draw.2).MemInv := by
            intro o
            split
            · exact State.memInv_writeBack _ hs
            · exact hs
          exact State.memInv_ite (State.memInv_enter _ _ (h _)) (h _)

theorem State.memInv_fill {s : State} (line skip : Nat) (hs : s.MemInv) : (s.fill line skip).MemInv :=
  State.memInv_ite hs (State.memInv_allocLine _ (State.memInv_detectIn _ _ _ hs))

/-- Finding an error keeps the canonical form. -/
theorem State.memInv_detect {s : State} (line mask : Nat) (walk : Option Nat) (hs : s.MemInv) :
    (s.detect line mask walk).MemInv := by
  unfold State.detect
  split
  · exact State.memInv_fill _ _ (State.memInv_detectIn _ _ _ (State.memInv_detectIn _ _ _ hs))
  · exact State.memInv_detectIn _ _ _ hs

theorem State.memInv_setAD {s : State} (t : Trans) (d : Bool) (hs : s.MemInv) : (s.setAD t d).MemInv := by
  unfold State.setAD
  split
  · exact hs
  · exact State.memInv_ite (Memory.wf_write (m := s.sto.mem) _ _ _ hs) hs

theorem State.memInv_stored {s : State} (line : Nat) (by_ : Option Nat) (hs : s.MemInv) : (s.stored line by_).MemInv := by
  unfold State.stored
  split
  · split
    · exact State.memInv_ite (State.memInv_updCore _ _ hs) (State.memInv_setLine _ _ (State.memInv_dropCopies _ hs))
    · exact hs
  · exact hs

theorem State.memInv_putRaw {s : State} (loc : Nat) (bs : List Byte) (m : Nat) (hs : s.MemInv) : (s.putRaw loc bs m).MemInv :=
  State.memInv_setBytes _ _
    (memInv_foldl _ _ (fun _ _ hu => State.memInv_ite (State.memInv_setPoison _ _ hu) hu) (State.memInv_setErr _ _ hs))

/-- A write keeps the canonical form. -/
theorem State.memInv_land {s : State} (loc : Nat) (bs : List Byte) (keep : Nat) (tag : BitVec 9) (by_ : Option Nat)
    (hs : s.MemInv) : (s.land loc bs keep tag by_).MemInv := by
  have h := fun l b w => State.memInv_putRaw l b w (State.memInv_stored (l / 128) by_ hs)
  unfold State.land
  simp only
  split
  · exact State.memInv_setLine _ _ (h _ _ _)
  · exact h _ _ _
  · exact h _ _ _
  · split
    · exact State.memInv_setLine _ _ (h _ _ _)
    · exact h _ _ _

theorem State.memInv_merge {s : State} (loc : Nat) (bs : List Byte) (keep : Nat) (tag : BitVec 9) (cached : Bool)
    (by_ : Option Nat) (hs : s.MemInv) : (s.merge loc bs keep tag cached by_).MemInv := by
  unfold State.merge
  have h := fun k => State.memInv_ite (c := cached = true) (State.memInv_fill (loc / 128) k hs) hs
  exact State.memInv_land _ _ _ _ _ (State.memInv_ite (h _) (State.memInv_detect _ _ _ (h _)))

theorem State.memInv_put {s : State} (loc : Nat) (bs : List Byte) (tag : BitVec 9) (cached : Bool) (by_ : Option Nat)
    (hs : s.MemInv) : (s.put loc bs tag cached by_).MemInv := State.memInv_merge _ _ _ _ _ _ hs

theorem State.memInv_readOk {s : State} (t : Trans) (n : Nat) (l1 : Option Nat) (hs : s.MemInv) : (s.readOk t n l1).1.MemInv := by
  have h := State.memInv_detect (t.loc / 128) (wordMask t.loc n) none hs
  unfold State.readOk
  refine State.memInv_setAD _ _ (State.memInv_ite ?_ h)
  have h' := State.memInv_fill (t.loc / 128) 0 h
  simp only
  split
  · exact State.memInv_fillL1 _ _ h'
  · exact h'

theorem State.memInv_request {s : State} (n : Nat) (ag : Agent) (loc : Nat) (hs : s.MemInv) : (s.request n ag loc).MemInv := by
  unfold State.request
  refine State.memInv_ite ?_ hs
  simp only
  refine State.memInv_ite hs ?_
  exact State.memInv_updCore _ _ (by cases ag <;> exact hs)

theorem State.memInv_clearAsked {s : State} (n : Nat) (hs : s.MemInv) : (s.clearAsked n).MemInv := State.memInv_ite hs hs

theorem State.memInv_putAll {s : State} (by_ : Option Nat) (l : List Held) (hs : s.MemInv) : (s.putAll by_ l).MemInv :=
  memInv_foldl _ _ (fun _ _ ht => State.memInv_merge _ _ _ _ _ _ ht) hs

theorem State.memInv_performOver {s : State} (n : Nat) (ag : Agent) (loc k : Nat) (hs : s.MemInv) :
    (s.performOver n ag loc k).MemInv := by
  unfold State.performOver
  exact State.memInv_ite hs (State.memInv_putAll _ _ hs)

theorem State.memInv_performAll {s : State} (n : Nat) (ag : Agent) (hs : s.MemInv) : (s.performAll n ag).MemInv := by
  unfold State.performAll
  simp only
  exact State.memInv_ite hs (State.memInv_putAll _ _ hs)

theorem State.memInv_performBoth {s : State} (n : Nat) (hs : s.MemInv) : (s.performBoth n).MemInv :=
  State.memInv_performAll _ _ (State.memInv_performAll _ _ (State.memInv_performAll _ _ hs))

theorem State.memInv_closeHeld {s : State} (n : Nat) (p : Held → Bool) (hs : s.MemInv) : (s.closeHeld n p).MemInv := by
  unfold State.closeHeld
  exact State.memInv_ite hs (State.memInv_ite hs (State.memInv_putAll _ _ hs))

theorem State.memInv_patch {s : State} (n : Nat) (ag : Agent) (w : Held) (hs : s.MemInv) : (s.patch n ag w).MemInv :=
  State.memInv_ite hs hs

theorem State.memInv_seen {s : State} (l : List Seen) (hs : s.MemInv) : (s.seen l).MemInv :=
  memInv_foldl _ _ (fun _ _ ht => State.memInv_detect _ _ _ ht) hs

theorem State.memInv_applyFound {s : State} (e : AErr) (hs : s.MemInv) : (s.applyFound e).MemInv := State.memInv_seen _ hs

theorem State.memInv_tlbFill {s : State} (w : Who) (e : TlbEntry) (hs : s.MemInv) : (s.tlbFill w e).MemInv :=
  State.memInv_updCore _ _ (State.memInv_ite hs hs)

theorem State.memInv_useEntry {s : State} {w : Who} {va : Nat} {a : Acc} {pte : Word} {x l : Nat} {sn : List Seen} {r : State × Trans} (hs : s.MemInv)
    (h : s.useEntry w va a pte x l sn = .ok r) : r.1.MemInv := by
  unfold State.useEntry at h
  simp only at h
  split at h
  · cases h
  · cases h; exact hs

theorem State.memInv_walkUse {s : State} {w : Who} {va : Nat} {a : Acc} {r : State × Trans} (hs : s.MemInv)
    (h : s.walkUse w va a = .ok r) : r.1.MemInv := by
  unfold State.walkUse at h
  split at h
  · cases h
  · exact State.memInv_useEntry (State.memInv_tlbFill _ _ (State.memInv_seen _ hs)) h

theorem State.memInv_translate {s : State} {w : Who} {va : Nat} {a : Acc} {r : State × Trans} (hs : s.MemInv)
    (h : s.translate w va a = .ok r) : r.1.MemInv := by
  have held : ∀ (b : Bool) (e : TlbEntry),
      (if b = true then s.useEntry w va a e.pte e.at_ e.level []
      else if Config.useHeldEntry s.draw.1 = true then s.draw.2.useEntry w va a e.pte e.at_ e.level []
      else s.draw.2.walkUse w va a) = .ok r → r.1.MemInv := by
    intro b e k
    split at k
    · exact State.memInv_useEntry hs k
    · split at k
      · exact State.memInv_useEntry (s := s.draw.2) hs k
      · exact State.memInv_walkUse (s := s.draw.2) hs k
  unfold State.translate at h
  split at h
  · exact State.memInv_walkUse hs h
  · exact held _ _ h

theorem State.memInv_locate {s : State} {w : Who} {va : Word} {a : Acc} {r : State × Trans} (hs : s.MemInv)
    (h : s.locate w va a = .ok r) : r.1.MemInv := by
  unfold State.locate at h
  split at h
  · cases h
  · split at h
    · split at h
      · split at h
        · cases h
        · cases h; exact hs
      · cases h
    · split at h
      · cases h
      · rename_i e
        have := State.memInv_translate hs e
        split at h
        · cases h; exact this
        · cases h

theorem State.memInv_loadAt {s : State} {n : Nat} {ag : Agent} {va : Word} {k : Nat} {a : Acc} {r : State × Nat × List Byte}
    (hs : s.MemInv) (h : s.loadAt n ag va k a = .ok r) : r.1.MemInv := by
  unfold State.loadAt at h
  split at h
  · cases h
  · rename_i e
    have := State.memInv_locate hs e
    simp only at h
    split at h
    · cases h
      have k := State.memInv_request n ag (‹Trans›).loc (State.memInv_setAD ‹Trans› false this)
      exact State.memInv_ite (State.memInv_updHart _ _ k) k
    · split at h
      · cases h
      · cases h
        have k := fun l => State.memInv_request n ag (‹Trans›).loc (State.memInv_readOk ‹Trans› k l this)
        exact State.memInv_ite (State.memInv_updHart _ _ (k _)) (k _)

/-- A load keeps the canonical form. -/
theorem State.memInv_load {s : State} {n : Nat} {ag : Agent} {va : Word} {k : Nat} {a : Acc} {r : State × List Byte}
    (hs : s.MemInv) (h : s.load n ag va k a = .ok r) : r.1.MemInv := by
  unfold State.load at h
  cases e : s.loadAt n ag va k a with
  | error _ => rw [e] at h; cases h
  | ok x => rw [e] at h; cases h; exact State.memInv_loadAt hs e

/-- A store keeps the canonical form. -/
theorem State.memInv_store {s t : State} {n : Nat} {ag : Agent} {va : Word} {bs : List Byte} (hs : s.MemInv)
    (h : s.store n ag va bs = .ok t) : t.MemInv := by
  unfold State.store at h
  split at h
  · cases h
  · rename_i e
    have := State.memInv_locate hs e
    split at h
    · cases h
    · have h' := fun w => State.memInv_patch n ag w (State.memInv_request n ag (‹Trans›).loc (State.memInv_setAD ‹Trans› true this))
      simp only at h
      split at h
      · cases h; exact h' _
      · cases h; exact State.memInv_put _ _ _ _ _ (State.memInv_performOver _ _ _ _ (h' _))

/-- A part of a packed store keeps the canonical form. -/
theorem State.memInv_mergeWord {s : State} {n slot : Nat} {va : Word} {mask val : Nat} {r : State × Nat} (hs : s.MemInv)
    (h : s.mergeWord n slot va mask val = .ok r) : r.1.MemInv := by
  unfold State.mergeWord at h
  split at h
  · cases h
  · rename_i e
    have := State.memInv_locate hs e
    split at h
    · cases h
    · have h' := State.memInv_request n .vector (‹Trans›).loc (State.memInv_setAD ‹Trans› true this)
      cases h; exact State.memInv_patch _ _ _ h'

/-- An atomic keeps the canonical form. -/
theorem State.memInv_rmw {s : State} {n : Nat} {ag : Agent} {va : Word} {k : Nat} {f : List Byte → Option (List Byte)}
    {r : State × List Byte} (hs : s.MemInv) (h : s.rmw n ag va k f = .ok r) : r.1.MemInv := by
  unfold State.rmw at h
  split at h
  · cases h
  · rename_i e
    have := State.memInv_performOver n ag (‹Trans›).loc k (State.memInv_locate hs e)
    simp only at h
    split at h
    · cases h
    · have h' := fun t l => State.memInv_request n ag t.loc (State.memInv_readOk t k l this)
      split at h
      · cases h; exact h' _ _
      · cases h; exact State.memInv_put _ _ _ _ _ (State.memInv_patch _ _ _ (State.memInv_setAD _ _ (h' _ _)))

/-- The engines' accesses keep the canonical form. -/
theorem State.memInv_readUnit {s : State} {w : Who} {va : Word} {n : Nat} {r : State × List Byte} (hs : s.MemInv)
    (h : s.readUnit w va n = .ok r) : r.1.MemInv := by
  unfold State.readUnit at h
  split at h
  · cases h
  · rename_i e
    have := State.memInv_locate hs e
    split at h
    · cases h
    · cases h; exact State.memInv_readOk _ _ _ this

theorem State.memInv_writeUnit {s t : State} {w : Who} {va : Word} {bs : List Byte} (hs : s.MemInv)
    (h : s.writeUnit w va bs = .ok t) : t.MemInv := by
  unfold State.writeUnit at h
  split at h
  · cases h
  · rename_i e
    have := State.memInv_locate hs e
    split at h
    · cases h
    · cases h; exact State.memInv_put _ _ _ _ _ (State.memInv_setAD _ _ this)

theorem State.memInv_putUp (w : Who) (fuel : Nat) {s : State} (va : Word) (bs : List Byte) (k : Nat) (hs : s.MemInv) :
    (State.putUp w fuel s va bs k).1.MemInv := by
  induction fuel generalizing s va bs k with
  | zero => exact hs
  | succ n ih =>
    unfold State.putUp
    simp only
    split
    · exact hs
    · split
      · exact State.memInv_applyFound _ hs
      · rename_i e; exact ih _ _ _ (State.memInv_writeUnit hs e)

theorem State.memInv_putDown (w : Who) (fuel : Nat) {s : State} (va : Word) (bs : List Byte) (k : Nat) (hs : s.MemInv) :
    (State.putDown w fuel s va bs k).1.MemInv := by
  induction fuel generalizing s va bs k with
  | zero => exact hs
  | succ n ih =>
    unfold State.putDown
    simp only
    split
    · exact hs
    · split
      · exact State.memInv_applyFound _ hs
      · rename_i e; exact ih _ _ _ (State.memInv_writeUnit hs e)

theorem State.memInv_getUp (w : Who) (fuel : Nat) {s : State} (va : Word) (n : Nat) (hs : s.MemInv) :
    (State.getUp w fuel s va n).1.MemInv := by
  induction fuel generalizing s va n with
  | zero => exact hs
  | succ m ih =>
    unfold State.getUp
    simp only
    split
    · exact hs
    · split
      · exact State.memInv_applyFound _ hs
      · rename_i e; exact ih _ _ (State.memInv_readUnit hs e)

theorem State.memInv_getDown (w : Who) (fuel : Nat) {s : State} (va : Word) (n : Nat) (hs : s.MemInv) :
    (State.getDown w fuel s va n).1.MemInv := by
  induction fuel generalizing s va n with
  | zero => exact hs
  | succ m ih =>
    unfold State.getDown
    simp only
    split
    · exact hs
    · split
      · exact State.memInv_applyFound _ hs
      · rename_i e; exact ih _ _ (State.memInv_readUnit hs e)

theorem State.memInv_putBytes {s : State} (w : Who) (va : Word) (bs : List Byte) (hs : s.MemInv) : (s.putBytes w va bs).1.MemInv :=
  State.memInv_putUp _ _ _ _ _ hs

theorem State.memInv_write {s : State} (loc n v : Nat) (hs : s.MemInv) :
    ({ s with sto := { s.sto with mem := Memory.write s.sto.mem loc n v } } : State).MemInv :=
  Memory.wf_write (m := s.sto.mem) _ _ _ hs

theorem State.memInv_placeWord {s : State} (nbits w : Nat) (hs : s.MemInv) : (s.placeWord nbits w).MemInv := by
  have h : ∀ loc k v, (s.sto.mem.write loc k v).wf = true := fun _ _ _ => Memory.wf_write _ _ _ hs
  simp only [State.placeWord, State.MemInv, State.setStep, State.sto_updPart, State.sto_updCore, State.sto_setHart]
  exact h _ _ _

theorem State.memInv_moveWindow {s : State} (p die : Nat) (old new : Share) : (s.moveWindow p die old new).MemInv :=
  Memory.wf_moveTable _ _ _ _ _

end Sys2Proof.Machine
end

