-- ==== Sys2Proof/Laws/PerInstr.lean ====
section
/-!
SUPPORT. The family Encoding: for each instruction, decoding its encoded word gives it back, with every operand at every
value that the encoding admits. Steps that the opcode table calls events have no word.
-/
namespace Sys2Proof.Laws
set_option Elab.async false

/-- Decoding the word of a well-formed instruction gives the instruction back. -/
def Encoding.Statement (i : Instr) : Prop := i.wf = true → ∀ c, encode i = some c → decodeCode c = some i

/-- An instruction with a known code. -/
theorem Encoding.of_code {i : Instr} {d : Code} (he : encode i = some d) (hd : i.wf = true → decodeCode d = some i) :
    Encoding.Statement i := fun hw c hc => by rw [he] at hc; cases hc; exact hd hw

/-- An instruction without a word. -/
theorem Encoding.of_none {i : Instr} (he : encode i = none) : Encoding.Statement i := fun _ c hc => by
  rw [he] at hc; cases hc

theorem Encoding.add (g : SG) (sd sa sb : SReg) : Encoding.Statement (.add g sd sa sb) := Encoding.of_code rfl fun _ =>
  (code_sc _).trans (by simp [decodeSc, decodeScInt, need])
theorem Encoding.sub (g : SG) (sd sa sb : SReg) : Encoding.Statement (.sub g sd sa sb) := Encoding.of_code rfl fun _ =>
  (code_sc _).trans (by simp [decodeSc, decodeScInt, need])
theorem Encoding.and (g : SG) (sd sa sb : SReg) : Encoding.Statement (.and g sd sa sb) := Encoding.of_code rfl fun _ =>
  (code_sc _).trans (by simp [decodeSc, decodeScInt, need])
theorem Encoding.or (g : SG) (sd sa sb : SReg) : Encoding.Statement (.or g sd sa sb) := Encoding.of_code rfl fun _ =>
  (code_sc _).trans (by simp [decodeSc, decodeScInt, need])
theorem Encoding.xor (g : SG) (sd sa sb : SReg) : Encoding.Statement (.xor g sd sa sb) := Encoding.of_code rfl fun _ =>
  (code_sc _).trans (by simp [decodeSc, decodeScInt, need])
theorem Encoding.sll (g : SG) (sd sa sb : SReg) : Encoding.Statement (.sll g sd sa sb) := Encoding.of_code rfl fun _ =>
  (code_sc _).trans (by simp [decodeSc, decodeScInt, need])
theorem Encoding.srl (g : SG) (sd sa sb : SReg) : Encoding.Statement (.srl g sd sa sb) := Encoding.of_code rfl fun _ =>
  (code_sc _).trans (by simp [decodeSc, decodeScInt, need])
theorem Encoding.sra (g : SG) (sd sa sb : SReg) : Encoding.Statement (.sra g sd sa sb) := Encoding.of_code rfl fun _ =>
  (code_sc _).trans (by simp [decodeSc, decodeScInt, need])
theorem Encoding.mul (g : SG) (sd sa sb : SReg) : Encoding.Statement (.mul g sd sa sb) := Encoding.of_code rfl fun _ =>
  (code_sc _).trans (by simp [decodeSc, decodeScInt, need])
theorem Encoding.mulh (g : SG) (sd sa sb : SReg) : Encoding.Statement (.mulh g sd sa sb) := Encoding.of_code rfl fun _ =>
  (code_sc _).trans (by simp [decodeSc, decodeScInt, need])
theorem Encoding.mulhu (g : SG) (sd sa sb : SReg) : Encoding.Statement (.mulhu g sd sa sb) := Encoding.of_code rfl fun _ =>
  (code_sc _).trans (by simp [decodeSc, decodeScInt, need])
theorem Encoding.div (g : SG) (sd sa sb : SReg) : Encoding.Statement (.div g sd sa sb) := Encoding.of_code rfl fun _ =>
  (code_sc _).trans (by simp [decodeSc, decodeScInt, need])
theorem Encoding.divu (g : SG) (sd sa sb : SReg) : Encoding.Statement (.divu g sd sa sb) := Encoding.of_code rfl fun _ =>
  (code_sc _).trans (by simp [decodeSc, decodeScInt, need])
theorem Encoding.rem (g : SG) (sd sa sb : SReg) : Encoding.Statement (.rem g sd sa sb) := Encoding.of_code rfl fun _ =>
  (code_sc _).trans (by simp [decodeSc, decodeScInt, need])
theorem Encoding.remu (g : SG) (sd sa sb : SReg) : Encoding.Statement (.remu g sd sa sb) := Encoding.of_code rfl fun _ =>
  (code_sc _).trans (by simp [decodeSc, decodeScInt, need])
theorem Encoding.min (g : SG) (sd sa sb : SReg) : Encoding.Statement (.min g sd sa sb) := Encoding.of_code rfl fun _ =>
  (code_sc _).trans (by simp [decodeSc, decodeScInt1, need])
theorem Encoding.max (g : SG) (sd sa sb : SReg) : Encoding.Statement (.max g sd sa sb) := Encoding.of_code rfl fun _ =>
  (code_sc _).trans (by simp [decodeSc, decodeScInt1, need])
theorem Encoding.minu (g : SG) (sd sa sb : SReg) : Encoding.Statement (.minu g sd sa sb) := Encoding.of_code rfl fun _ =>
  (code_sc _).trans (by simp [decodeSc, decodeScInt1, need])
theorem Encoding.maxu (g : SG) (sd sa sb : SReg) : Encoding.Statement (.maxu g sd sa sb) := Encoding.of_code rfl fun _ =>
  (code_sc _).trans (by simp [decodeSc, decodeScInt1, need])
theorem Encoding.addImm (g : SG) (sd sa : SReg) (imm : BitVec 24) : Encoding.Statement (.addImm g sd sa imm) := Encoding.of_code rfl fun _ =>
  (code_sc _).trans (by simp [decodeSc, decodeScImm])
theorem Encoding.andImm (g : SG) (sd sa : SReg) (imm : BitVec 24) : Encoding.Statement (.andImm g sd sa imm) := Encoding.of_code rfl fun _ =>
  (code_sc _).trans (by simp [decodeSc, decodeScImm])
theorem Encoding.orImm (g : SG) (sd sa : SReg) (imm : BitVec 24) : Encoding.Statement (.orImm g sd sa imm) := Encoding.of_code rfl fun _ =>
  (code_sc _).trans (by simp [decodeSc, decodeScImm])
theorem Encoding.xorImm (g : SG) (sd sa : SReg) (imm : BitVec 24) : Encoding.Statement (.xorImm g sd sa imm) := Encoding.of_code rfl fun _ =>
  (code_sc _).trans (by simp [decodeSc, decodeScImm])
theorem Encoding.sllImm (g : SG) (sd sa : SReg) (sh : BitVec 6) : Encoding.Statement (.sllImm g sd sa sh) := Encoding.of_code rfl fun _ =>
  (code_sc _).trans (by simp [decodeSc, decodeScImm, need])
theorem Encoding.srlImm (g : SG) (sd sa : SReg) (sh : BitVec 6) : Encoding.Statement (.srlImm g sd sa sh) := Encoding.of_code rfl fun _ =>
  (code_sc _).trans (by simp [decodeSc, decodeScImm, need])
theorem Encoding.sraImm (g : SG) (sd sa : SReg) (sh : BitVec 6) : Encoding.Statement (.sraImm g sd sa sh) := Encoding.of_code rfl fun _ =>
  (code_sc _).trans (by simp [decodeSc, decodeScImm, need])
theorem Encoding.lih (g : SG) (sd : SReg) (imm : BitVec 29) : Encoding.Statement (.lih g sd imm) := Encoding.of_code rfl fun _ =>
  (code_sc _).trans (by simp [decodeSc, decodeScImm])
theorem Encoding.ldB (g : SG) (sd sa : SReg) (imm : BitVec 24) : Encoding.Statement (.ldB g sd sa imm) := Encoding.of_code rfl fun _ =>
  (code_sc _).trans (by simp [decodeSc, decodeScMem])
theorem Encoding.ldH (g : SG) (sd sa : SReg) (imm : BitVec 24) : Encoding.Statement (.ldH g sd sa imm) := Encoding.of_code rfl fun _ =>
  (code_sc _).trans (by simp [decodeSc, decodeScMem])
theorem Encoding.ldW (g : SG) (sd sa : SReg) (imm : BitVec 24) : Encoding.Statement (.ldW g sd sa imm) := Encoding.of_code rfl fun _ =>
  (code_sc _).trans (by simp [decodeSc, decodeScMem])
theorem Encoding.ldD (g : SG) (sd sa : SReg) (imm : BitVec 24) : Encoding.Statement (.ldD g sd sa imm) := Encoding.of_code rfl fun _ =>
  (code_sc _).trans (by simp [decodeSc, decodeScMem])
theorem Encoding.ldBu (g : SG) (sd sa : SReg) (imm : BitVec 24) : Encoding.Statement (.ldBu g sd sa imm) := Encoding.of_code rfl fun _ =>
  (code_sc _).trans (by simp [decodeSc, decodeScMem])
theorem Encoding.ldHu (g : SG) (sd sa : SReg) (imm : BitVec 24) : Encoding.Statement (.ldHu g sd sa imm) := Encoding.of_code rfl fun _ =>
  (code_sc _).trans (by simp [decodeSc, decodeScMem])
theorem Encoding.ldWu (g : SG) (sd sa : SReg) (imm : BitVec 24) : Encoding.Statement (.ldWu g sd sa imm) := Encoding.of_code rfl fun _ =>
  (code_sc _).trans (by simp [decodeSc, decodeScMem])
theorem Encoding.stB (g : SG) (sd sa : SReg) (imm : BitVec 24) : Encoding.Statement (.stB g sd sa imm) := Encoding.of_code rfl fun _ =>
  (code_sc _).trans (by simp [decodeSc, decodeScMem])
theorem Encoding.stH (g : SG) (sd sa : SReg) (imm : BitVec 24) : Encoding.Statement (.stH g sd sa imm) := Encoding.of_code rfl fun _ =>
  (code_sc _).trans (by simp [decodeSc, decodeScMem])
theorem Encoding.stW (g : SG) (sd sa : SReg) (imm : BitVec 24) : Encoding.Statement (.stW g sd sa imm) := Encoding.of_code rfl fun _ =>
  (code_sc _).trans (by simp [decodeSc, decodeScMem])
theorem Encoding.stD (g : SG) (sd sa : SReg) (imm : BitVec 24) : Encoding.Statement (.stD g sd sa imm) := Encoding.of_code rfl fun _ =>
  (code_sc _).trans (by simp [decodeSc, decodeScMem])
theorem Encoding.cmp (g : SG) (cd : CReg) (sa sb : SReg) (cc : Cond) : Encoding.Statement (.cmp g cd sa sb cc) := Encoding.of_code rfl fun hw =>
  (code_sc _).trans (by simp [Instr.wf, wfScalar, wfVector, wfEvent] at hw; simp [decodeSc, decodeScBranch, need, hw])
theorem Encoding.b (g : SG) (off : BitVec 29) : Encoding.Statement (.b g off) := Encoding.of_code rfl fun _ =>
  (code_sc _).trans (by simp [decodeSc, decodeScBranch, need])
theorem Encoding.bc (g : SG) (sd : SReg) (off : BitVec 29) : Encoding.Statement (.bc g sd off) := Encoding.of_code rfl fun hw =>
  (code_sc _).trans (by simp [Instr.wf, wfScalar, wfVector, wfEvent] at hw; simp [decodeSc, decodeScBranch, legal, hw])
theorem Encoding.call (g : SG) (sd : SReg) (off : BitVec 29) : Encoding.Statement (.call g sd off) := Encoding.of_code rfl fun _ =>
  (code_sc _).trans (by simp [decodeSc, decodeScBranch])
theorem Encoding.jr (g : SG) (sd sa : SReg) : Encoding.Statement (.jr g sd sa) := Encoding.of_code rfl fun _ =>
  (code_sc _).trans (by simp [decodeSc, decodeScBranch, need])
theorem Encoding.ret (g : SG) (sa : SReg) : Encoding.Statement (.ret g sa) := Encoding.of_code rfl fun _ =>
  (code_sc _).trans (by simp [decodeSc, decodeScBranch, need])
theorem Encoding.bany (g : SG) (p : PReg) (off : BitVec 22) : Encoding.Statement (.bany g p off) := Encoding.of_code rfl fun _ =>
  (code_sc _).trans (by simp [decodeSc, decodeScBranch, need])
theorem Encoding.ball (g : SG) (p : PReg) (off : BitVec 22) : Encoding.Statement (.ball g p off) := Encoding.of_code rfl fun _ =>
  (code_sc _).trans (by simp [decodeSc, decodeScBranch, need])
theorem Encoding.bnone (g : SG) (p : PReg) (off : BitVec 22) : Encoding.Statement (.bnone g p off) := Encoding.of_code rfl fun _ =>
  (code_sc _).trans (by simp [decodeSc, decodeScBranch, need])
theorem Encoding.fadd (g : SG) (sd sa sb : SReg) (rm : SRm) (f : FP) : Encoding.Statement (.fadd g sd sa sb rm f) := Encoding.of_code rfl fun _ =>
  (code_sc _).trans (by simp [decodeSc, decodeScFp, need])
theorem Encoding.fsub (g : SG) (sd sa sb : SReg) (rm : SRm) (f : FP) : Encoding.Statement (.fsub g sd sa sb rm f) := Encoding.of_code rfl fun _ =>
  (code_sc _).trans (by simp [decodeSc, decodeScFp, need])
theorem Encoding.fmul (g : SG) (sd sa sb : SReg) (rm : SRm) (f : FP) : Encoding.Statement (.fmul g sd sa sb rm f) := Encoding.of_code rfl fun _ =>
  (code_sc _).trans (by simp [decodeSc, decodeScFp, need])
theorem Encoding.fma (g : SG) (sd sa sb sc : SReg) (rm : SRm) (f : FP) : Encoding.Statement (.fma g sd sa sb sc rm f) := Encoding.of_code rfl fun _ =>
  (code_sc _).trans (by simp [decodeSc, decodeScFp, need])
theorem Encoding.fdiv (g : SG) (sd sa sb : SReg) (rm : SRm) (f : FP) : Encoding.Statement (.fdiv g sd sa sb rm f) := Encoding.of_code rfl fun _ =>
  (code_sc _).trans (by simp [decodeSc, decodeScFp, need])
theorem Encoding.fsqrt (g : SG) (sd sa : SReg) (rm : SRm) (f : FP) : Encoding.Statement (.fsqrt g sd sa rm f) := Encoding.of_code rfl fun _ =>
  (code_sc _).trans (by simp [decodeSc, decodeScFp, need])
theorem Encoding.fmin (g : SG) (sd sa sb : SReg) (f : FP) : Encoding.Statement (.fmin g sd sa sb f) := Encoding.of_code rfl fun _ =>
  (code_sc _).trans (by simp [decodeSc, decodeScFp, need, legal])
theorem Encoding.fmax (g : SG) (sd sa sb : SReg) (f : FP) : Encoding.Statement (.fmax g sd sa sb f) := Encoding.of_code rfl fun _ =>
  (code_sc _).trans (by simp [decodeSc, decodeScFp, need, legal])
theorem Encoding.fcvt (g : SG) (sd sa : SReg) (rm : SRm) (f : FP) (sub : BitVec 4) : Encoding.Statement (.fcvt g sd sa rm f sub) := Encoding.of_code rfl fun _ =>
  (code_sc _).trans (by simp [decodeSc, decodeScFp, need])
theorem Encoding.fcmp (g : SG) (cd : CReg) (sa sb : SReg) (cc : Cond) (f : FP) : Encoding.Statement (.fcmp g cd sa sb cc f) := Encoding.of_code rfl fun hw =>
  (code_sc _).trans (by simp [Instr.wf, wfScalar, wfVector, wfEvent] at hw; simp [decodeSc, decodeScFp, need, legal, hw])
theorem Encoding.fclass (g : SG) (sd sa : SReg) (f : FP) : Encoding.Statement (.fclass g sd sa f) := Encoding.of_code rfl fun _ =>
  (code_sc _).trans (by simp [decodeSc, decodeScFp, need, legal])
theorem Encoding.csrr (g : SG) (sd : SReg) (n : BitVec 12) : Encoding.Statement (.csrr g sd n) := Encoding.of_code rfl fun _ =>
  (code_sc _).trans (by simp [decodeSc, decodeScCsr, need])
theorem Encoding.csrw (g : SG) (sa : SReg) (n : BitVec 12) : Encoding.Statement (.csrw g sa n) := Encoding.of_code rfl fun _ =>
  (code_sc _).trans (by simp [decodeSc, decodeScCsr, need])
theorem Encoding.csrs (g : SG) (sa : SReg) (n : BitVec 12) : Encoding.Statement (.csrs g sa n) := Encoding.of_code rfl fun _ =>
  (code_sc _).trans (by simp [decodeSc, decodeScCsr, need])
theorem Encoding.csrc (g : SG) (sa : SReg) (n : BitVec 12) : Encoding.Statement (.csrc g sa n) := Encoding.of_code rfl fun _ =>
  (code_sc _).trans (by simp [decodeSc, decodeScCsr, need])
theorem Encoding.csrrC (g : SG) (sd : SReg) : Encoding.Statement (.csrrC g sd) := Encoding.of_code rfl fun _ =>
  (code_sc _).trans (by simp [decodeSc, decodeScCsr, need])
theorem Encoding.csrwC (g : SG) (sa : SReg) : Encoding.Statement (.csrwC g sa) := Encoding.of_code rfl fun _ =>
  (code_sc _).trans (by simp [decodeSc, decodeScCsr, need])
theorem Encoding.setvl (g : SG) (sd sa sb : SReg) (vt : BitVec 16) : Encoding.Statement (.setvl g sd sa sb vt) := Encoding.of_code rfl fun _ =>
  (code_sc _).trans (by simp [decodeSc, decodeScCsr, need])
theorem Encoding.setvlN (g : SG) (sd sa sb : SReg) (vt : BitVec 16) : Encoding.Statement (.setvlN g sd sa sb vt) := Encoding.of_code rfl fun _ =>
  (code_sc _).trans (by simp [decodeSc, decodeScCsr, need])
theorem Encoding.vconf (g : SG) (n : BitVec 2) : Encoding.Statement (.vconf g n) := Encoding.of_code rfl fun _ =>
  (code_sc _).trans (by simp [decodeSc, decodeScCsr, need])
theorem Encoding.amo (g : SG) (sd sa sb : SReg) (sc : Scope) (acq rel dbl : Bool) (op : AmoOp) : Encoding.Statement (.amo g sd sa sb sc acq rel dbl op) := Encoding.of_code rfl fun _ =>
  (code_sc _).trans (by simp [decodeSc, decodeScSync, need, legal])
theorem Encoding.cas (g : SG) (sd sa sb : SReg) (sc : Scope) (acq rel dbl : Bool) : Encoding.Statement (.cas g sd sa sb sc acq rel dbl) := Encoding.of_code rfl fun _ =>
  (code_sc _).trans (by simp [decodeSc, decodeScSync, need, legal])
theorem Encoding.fence (g : SG) (kind : FenceKind) (sc : Scope) : Encoding.Statement (.fence g kind sc) := Encoding.of_code rfl fun _ =>
  (code_sc _).trans (by simp [decodeSc, decodeScSync, need])
theorem Encoding.bararv (g : SG) (sd : SReg) : Encoding.Statement (.bararv g sd) := Encoding.of_code rfl fun _ =>
  (code_sc _).trans (by simp [decodeSc, decodeScSync, need])
theorem Encoding.barwait (g : SG) (sd : SReg) : Encoding.Statement (.barwait g sd) := Encoding.of_code rfl fun _ =>
  (code_sc _).trans (by simp [decodeSc, decodeScSync, need])
theorem Encoding.barset (g : SG) (sd sa : SReg) : Encoding.Statement (.barset g sd sa) := Encoding.of_code rfl fun _ =>
  (code_sc _).trans (by simp [decodeSc, decodeScSync, need])
theorem Encoding.epush (g : SG) (eng : BitVec 2) (sa : SReg) : Encoding.Statement (.epush g eng sa) := Encoding.of_code rfl fun _ =>
  (code_sc _).trans (by simp [decodeSc, decodeScSync, need])
theorem Encoding.epop (g : SG) (sd : SReg) (eng : BitVec 2) : Encoding.Statement (.epop g sd eng) := Encoding.of_code rfl fun _ =>
  (code_sc _).trans (by simp [decodeSc, decodeScSync, need])
theorem Encoding.tstamp (g : SG) (sa sb : SReg) : Encoding.Statement (.tstamp g sa sb) := Encoding.of_code rfl fun _ =>
  (code_sc _).trans (by simp [decodeSc, decodeScSync, need])
theorem Encoding.strmcfg (g : SG) (m : MSlot) (sa sb kbase stride : SReg) (zc : Bool) (gap : SReg) : Encoding.Statement (.strmcfg g m sa sb kbase stride zc gap) := Encoding.of_code rfl fun hw =>
  (code_sc _).trans (by simp [Instr.wf, wfScalar, wfVector, wfEvent] at hw; simp [decodeSc, decodeScUnit, need, legal, hw])
theorem Encoding.strmend (g : SG) (m : MSlot) : Encoding.Statement (.strmend g m) := Encoding.of_code rfl fun _ =>
  (code_sc _).trans (by simp [decodeSc, decodeScUnit, need])
theorem Encoding.strmwait (g : SG) (m : MSlot) (sa : SReg) : Encoding.Statement (.strmwait g m sa) := Encoding.of_code rfl fun _ =>
  (code_sc _).trans (by simp [decodeSc, decodeScUnit, need])
theorem Encoding.strmavail (g : SG) (sd : SReg) (m : MSlot) : Encoding.Statement (.strmavail g sd m) := Encoding.of_code rfl fun _ =>
  (code_sc _).trans (by simp [decodeSc, decodeScUnit, need])
theorem Encoding.mshape (g : SG) (sd sa : SReg) (r : Bool) : Encoding.Statement (.mshape g sd sa r) := Encoding.of_code rfl fun hw =>
  (code_sc _).trans (by simp [Instr.wf, wfScalar, wfVector, wfEvent] at hw; simp [decodeSc, decodeScUnit, need, legal, hw])
theorem Encoding.mbld (g : SG) (sa sb sk sn sc : SReg) : Encoding.Statement (.mbld g sa sb sk sn sc) := Encoding.of_code rfl fun _ =>
  (code_sc _).trans (by simp [decodeSc, decodeScUnit, need])
theorem Encoding.mma (g : SG) (t : TReg) (v : VReg) (sa : SReg) : Encoding.Statement (.mma g t v sa) := Encoding.of_code rfl fun _ =>
  (code_sc _).trans (by simp [decodeSc, decodeScUnit, need])
theorem Encoding.mmas (g : SG) (t : TReg) (v : VReg) (sa : SReg) : Encoding.Statement (.mmas g t v sa) := Encoding.of_code rfl fun _ =>
  (code_sc _).trans (by simp [decodeSc, decodeScUnit, need])
theorem Encoding.mzero (g : SG) (t : TReg) : Encoding.Statement (.mzero g t) := Encoding.of_code rfl fun _ =>
  (code_sc _).trans (by simp [decodeSc, decodeScUnit, need])
theorem Encoding.maccld (g : SG) (t : TReg) (sa : SReg) : Encoding.Statement (.maccld g t sa) := Encoding.of_code rfl fun _ =>
  (code_sc _).trans (by simp [decodeSc, decodeScUnit, need])
theorem Encoding.maccst (g : SG) (t : TReg) (sa : SReg) : Encoding.Statement (.maccst g t sa) := Encoding.of_code rfl fun _ =>
  (code_sc _).trans (by simp [decodeSc, decodeScUnit, need])
theorem Encoding.mwait (g : SG) : Encoding.Statement (.mwait g) := Encoding.of_code rfl fun _ =>
  (code_sc _).trans (by simp [decodeSc, decodeScUnit, need])
theorem Encoding.launch (g : SG) (sd sa : SReg) : Encoding.Statement (.launch g sd sa) := Encoding.of_code rfl fun _ =>
  (code_sc _).trans (by simp [decodeSc, decodeScSys, need])
theorem Encoding.exit (g : SG) (sa : SReg) : Encoding.Statement (.exit g sa) := Encoding.of_code rfl fun _ =>
  (code_sc _).trans (by simp [decodeSc, decodeScSys, need])
theorem Encoding.exitComplete (hart : Nat) : Encoding.Statement (.exitComplete hart) := Encoding.of_none rfl
theorem Encoding.cacheIinv (g : SG) (sa : SReg) : Encoding.Statement (.cacheIinv g sa) := Encoding.of_code rfl fun _ =>
  (code_sc _).trans (by simp [decodeSc, decodeScSys, decodeCache, need, legal])
theorem Encoding.cacheIall (g : SG) (sa : SReg) : Encoding.Statement (.cacheIall g sa) := Encoding.of_code rfl fun _ =>
  (code_sc _).trans (by simp [decodeSc, decodeScSys, decodeCache, need, legal])
theorem Encoding.cacheDinv (g : SG) (sa : SReg) : Encoding.Statement (.cacheDinv g sa) := Encoding.of_code rfl fun _ =>
  (code_sc _).trans (by simp [decodeSc, decodeScSys, decodeCache, need, legal])
theorem Encoding.cacheClean (g : SG) (sa : SReg) : Encoding.Statement (.cacheClean g sa) := Encoding.of_code rfl fun _ =>
  (code_sc _).trans (by simp [decodeSc, decodeScSys, decodeCache, need, legal])
theorem Encoding.cacheFlush (g : SG) (sa : SReg) : Encoding.Statement (.cacheFlush g sa) := Encoding.of_code rfl fun _ =>
  (code_sc _).trans (by simp [decodeSc, decodeScSys, decodeCache, need, legal])
theorem Encoding.cacheTlbiva (g : SG) (sa sb : SReg) (sc : Scope) : Encoding.Statement (.cacheTlbiva g sa sb sc) := Encoding.of_code rfl fun _ =>
  (code_sc _).trans (by simp [decodeSc, decodeScSys, decodeCache, need])
theorem Encoding.cacheTlbiasid (g : SG) (sa sb : SReg) (sc : Scope) : Encoding.Statement (.cacheTlbiasid g sa sb sc) := Encoding.of_code rfl fun _ =>
  (code_sc _).trans (by simp [decodeSc, decodeScSys, decodeCache, need])
theorem Encoding.cacheTlbiall (g : SG) (sa sb : SReg) (sc : Scope) : Encoding.Statement (.cacheTlbiall g sa sb sc) := Encoding.of_code rfl fun _ =>
  (code_sc _).trans (by simp [decodeSc, decodeScSys, decodeCache, need])
theorem Encoding.svc (g : SG) (n : BitVec 16) : Encoding.Statement (.svc g n) := Encoding.of_code rfl fun _ =>
  (code_sc _).trans (by simp [decodeSc, decodeScSys, need])
theorem Encoding.brk (g : SG) (n : BitVec 16) : Encoding.Statement (.brk g n) := Encoding.of_code rfl fun _ =>
  (code_sc _).trans (by simp [decodeSc, decodeScSys, need])
theorem Encoding.bcall (g : SG) (sd : SReg) (n : BitVec 16) : Encoding.Statement (.bcall g sd n) := Encoding.of_code rfl fun _ =>
  (code_sc _).trans (by simp [decodeSc, decodeScSys, need])
theorem Encoding.eret (g : SG) : Encoding.Statement (.eret g) := Encoding.of_code rfl fun _ =>
  (code_sc _).trans (by simp [decodeSc, decodeScSys, need])
theorem Encoding.wfe (g : SG) : Encoding.Statement (.wfe g) := Encoding.of_code rfl fun _ =>
  (code_sc _).trans (by simp [decodeSc, decodeScSys, need])
theorem Encoding.wfeTimeout (hart : Nat) : Encoding.Statement (.wfeTimeout hart) := Encoding.of_none rfl
theorem Encoding.scalarCommit (hart : Nat) : Encoding.Statement (.scalarCommit hart) := Encoding.of_none rfl
theorem Encoding.convoyHandoff (hart : Nat) : Encoding.Statement (.convoyHandoff hart) := Encoding.of_none rfl
theorem Encoding.convoyStart (hart : Nat) : Encoding.Statement (.convoyStart hart) := Encoding.of_none rfl
theorem Encoding.sequencerDecision (core : Nat) : Encoding.Statement (.sequencerDecision core) := Encoding.of_none rfl
theorem Encoding.vadd (g : VG) (vd vs1 : VReg) (o : Op2) (sat u : Bool) : Encoding.Statement (.vadd g vd vs1 o sat u) := Encoding.of_code rfl fun hw =>
  (code_vaInt _ 0x01#8 rfl (by decide)).trans (by simp [Instr.wf, wfScalar, wfVector, wfEvent, satU] at hw; simp [decodeVaInt, need, legal, hw])
theorem Encoding.vsub (g : VG) (vd vs1 : VReg) (o : Op2) (sat u : Bool) : Encoding.Statement (.vsub g vd vs1 o sat u) := Encoding.of_code rfl fun hw =>
  (code_vaInt _ 0x02#8 rfl (by decide)).trans (by simp [Instr.wf, wfScalar, wfVector, wfEvent, satU] at hw; simp [decodeVaInt, need, legal, hw])
theorem Encoding.vrsub (g : VG) (vd vs1 : VReg) (o : Op2) (sat u : Bool) : Encoding.Statement (.vrsub g vd vs1 o sat u) := Encoding.of_code rfl fun hw =>
  (code_vaInt _ 0x03#8 rfl (by decide)).trans (by simp [Instr.wf, wfScalar, wfVector, wfEvent, satU] at hw; simp [decodeVaInt, need, legal, hw])
theorem Encoding.vmul (g : VG) (vd vs1 : VReg) (o : Op2) (sat u : Bool) : Encoding.Statement (.vmul g vd vs1 o sat u) := Encoding.of_code rfl fun hw =>
  (code_vaInt _ 0x04#8 rfl (by decide)).trans (by simp [Instr.wf, wfScalar, wfVector, wfEvent, satU] at hw; simp [decodeVaInt, need, legal, hw])
theorem Encoding.vmulh (g : VG) (vd vs1 : VReg) (o : Op2) (sat u : Bool) : Encoding.Statement (.vmulh g vd vs1 o sat u) := Encoding.of_code rfl fun hw =>
  (code_vaInt _ 0x05#8 rfl (by decide)).trans (by simp [Instr.wf, wfScalar, wfVector, wfEvent] at hw; simp [decodeVaInt, need, legal, hw])
theorem Encoding.vdiv (g : VG) (vd vs1 : VReg) (o : Op2) (sat u : Bool) : Encoding.Statement (.vdiv g vd vs1 o sat u) := Encoding.of_code rfl fun hw =>
  (code_vaInt _ 0x06#8 rfl (by decide)).trans (by simp [Instr.wf, wfScalar, wfVector, wfEvent] at hw; simp [decodeVaInt, need, legal, hw])
theorem Encoding.vrem (g : VG) (vd vs1 : VReg) (o : Op2) (sat u : Bool) : Encoding.Statement (.vrem g vd vs1 o sat u) := Encoding.of_code rfl fun hw =>
  (code_vaInt _ 0x07#8 rfl (by decide)).trans (by simp [Instr.wf, wfScalar, wfVector, wfEvent] at hw; simp [decodeVaInt, need, legal, hw])
theorem Encoding.vmin (g : VG) (vd vs1 : VReg) (o : Op2) (sat u : Bool) : Encoding.Statement (.vmin g vd vs1 o sat u) := Encoding.of_code rfl fun hw =>
  (code_vaInt _ 0x08#8 rfl (by decide)).trans (by simp [Instr.wf, wfScalar, wfVector, wfEvent] at hw; simp [decodeVaInt, need, legal, hw])
theorem Encoding.vmax (g : VG) (vd vs1 : VReg) (o : Op2) (sat u : Bool) : Encoding.Statement (.vmax g vd vs1 o sat u) := Encoding.of_code rfl fun hw =>
  (code_vaInt _ 0x09#8 rfl (by decide)).trans (by simp [Instr.wf, wfScalar, wfVector, wfEvent] at hw; simp [decodeVaInt, need, legal, hw])
theorem Encoding.vand (g : VG) (vd vs1 : VReg) (o : Op2) (sat u : Bool) : Encoding.Statement (.vand g vd vs1 o sat u) := Encoding.of_code rfl fun hw =>
  (code_vaInt _ 0x0A#8 rfl (by decide)).trans (by simp [Instr.wf, wfScalar, wfVector, wfEvent] at hw; simp [decodeVaInt, need, legal, hw])
theorem Encoding.vor (g : VG) (vd vs1 : VReg) (o : Op2) (sat u : Bool) : Encoding.Statement (.vor g vd vs1 o sat u) := Encoding.of_code rfl fun hw =>
  (code_vaInt _ 0x0B#8 rfl (by decide)).trans (by simp [Instr.wf, wfScalar, wfVector, wfEvent] at hw; simp [decodeVaInt, need, legal, hw])
theorem Encoding.vxor (g : VG) (vd vs1 : VReg) (o : Op2) (sat u : Bool) : Encoding.Statement (.vxor g vd vs1 o sat u) := Encoding.of_code rfl fun hw =>
  (code_vaInt _ 0x0C#8 rfl (by decide)).trans (by simp [Instr.wf, wfScalar, wfVector, wfEvent] at hw; simp [decodeVaInt, need, legal, hw])
theorem Encoding.vsll (g : VG) (vd vs1 : VReg) (o : Op2) (sat u : Bool) : Encoding.Statement (.vsll g vd vs1 o sat u) := Encoding.of_code rfl fun hw =>
  (code_vaInt _ 0x0D#8 rfl (by decide)).trans (by simp [Instr.wf, wfScalar, wfVector, wfEvent] at hw; simp [decodeVaInt, need, legal, hw])
theorem Encoding.vsrl (g : VG) (vd vs1 : VReg) (o : Op2) (sat u : Bool) : Encoding.Statement (.vsrl g vd vs1 o sat u) := Encoding.of_code rfl fun hw =>
  (code_vaInt _ 0x0E#8 rfl (by decide)).trans (by simp [Instr.wf, wfScalar, wfVector, wfEvent] at hw; simp [decodeVaInt, need, legal, hw])
theorem Encoding.vsra (g : VG) (vd vs1 : VReg) (o : Op2) (sat u : Bool) : Encoding.Statement (.vsra g vd vs1 o sat u) := Encoding.of_code rfl fun hw =>
  (code_vaInt _ 0x0F#8 rfl (by decide)).trans (by simp [Instr.wf, wfScalar, wfVector, wfEvent] at hw; simp [decodeVaInt, need, legal, hw])
theorem Encoding.vaddw (g : VG) (vd vs1 : VReg) (o : Op2) (sat u : Bool) : Encoding.Statement (.vaddw g vd vs1 o sat u) := Encoding.of_code rfl fun _ =>
  (code_vaInt _ 0x10#8 rfl (by decide)).trans (by simp [decodeVaInt, need, legal])
theorem Encoding.vsubw (g : VG) (vd vs1 : VReg) (o : Op2) (sat u : Bool) : Encoding.Statement (.vsubw g vd vs1 o sat u) := Encoding.of_code rfl fun _ =>
  (code_vaInt _ 0x11#8 rfl (by decide)).trans (by simp [decodeVaInt, need, legal])
theorem Encoding.vmulw (g : VG) (vd vs1 : VReg) (o : Op2) (sat u : Bool) : Encoding.Statement (.vmulw g vd vs1 o sat u) := Encoding.of_code rfl fun hw =>
  (code_vaInt _ 0x12#8 rfl (by decide)).trans (by simp [Instr.wf, wfScalar, wfVector, wfEvent] at hw; simp [decodeVaInt, need, legal, hw])
theorem Encoding.vmacc (g : VG) (vd vs1 : VReg) (o : Op2) (sat u : Bool) : Encoding.Statement (.vmacc g vd vs1 o sat u) := Encoding.of_code rfl fun hw =>
  (code_vaInt _ 0x13#8 rfl (by decide)).trans (by simp [Instr.wf, wfScalar, wfVector, wfEvent, satU] at hw; simp [decodeVaInt, need, legal, hw])
theorem Encoding.vnsrl (g : VG) (vd vs1 : VReg) (o : Op2) (sat u : Bool) : Encoding.Statement (.vnsrl g vd vs1 o sat u) := Encoding.of_code rfl fun hw =>
  (code_vaInt _ 0x14#8 rfl (by decide)).trans (by simp [Instr.wf, wfScalar, wfVector, wfEvent] at hw; simp [decodeVaInt, need, legal, hw])
theorem Encoding.vnclip (g : VG) (vd vs1 : VReg) (o : Op2) (sat u : Bool) : Encoding.Statement (.vnclip g vd vs1 o sat u) := Encoding.of_code rfl fun hw =>
  (code_vaInt _ 0x15#8 rfl (by decide)).trans (by simp [Instr.wf, wfScalar, wfVector, wfEvent] at hw; simp [decodeVaInt, need, legal, hw])
theorem Encoding.vabs (g : VG) (vd vs1 : VReg) (sat : Bool) : Encoding.Statement (.vabs g vd vs1 sat) := Encoding.of_code rfl fun _ =>
  (code_vaInt _ 0x16#8 rfl (by decide)).trans (by simp [decodeVaInt, need, legal])
theorem Encoding.vavg (g : VG) (vd vs1 : VReg) (o : Op2) (sat u : Bool) : Encoding.Statement (.vavg g vd vs1 o sat u) := Encoding.of_code rfl fun hw =>
  (code_vaInt _ 0x17#8 rfl (by decide)).trans (by simp [Instr.wf, wfScalar, wfVector, wfEvent] at hw; simp [decodeVaInt, need, legal, hw])
theorem Encoding.vfadd (g : VG) (vd vs1 : VReg) (o : Op2) (rm : RMode) : Encoding.Statement (.vfadd g vd vs1 o rm) := Encoding.of_code rfl fun hw =>
  (code_vaFp _ 0x20#8 rfl (by decide)).trans (by simp [Instr.wf, wfScalar, wfVector, wfEvent] at hw; simp [decodeVaFp, need, hw])
theorem Encoding.vfsub (g : VG) (vd vs1 : VReg) (o : Op2) (rm : RMode) : Encoding.Statement (.vfsub g vd vs1 o rm) := Encoding.of_code rfl fun hw =>
  (code_vaFp _ 0x21#8 rfl (by decide)).trans (by simp [Instr.wf, wfScalar, wfVector, wfEvent] at hw; simp [decodeVaFp, need, hw])
theorem Encoding.vfmul (g : VG) (vd vs1 : VReg) (o : Op2) (rm : RMode) : Encoding.Statement (.vfmul g vd vs1 o rm) := Encoding.of_code rfl fun hw =>
  (code_vaFp _ 0x22#8 rfl (by decide)).trans (by simp [Instr.wf, wfScalar, wfVector, wfEvent] at hw; simp [decodeVaFp, need, hw])
theorem Encoding.vfdiv (g : VG) (vd vs1 : VReg) (o : Op2) (rm : RMode) : Encoding.Statement (.vfdiv g vd vs1 o rm) := Encoding.of_code rfl fun hw =>
  (code_vaFp _ 0x23#8 rfl (by decide)).trans (by simp [Instr.wf, wfScalar, wfVector, wfEvent] at hw; simp [decodeVaFp, need, hw])
theorem Encoding.vfsqrt (g : VG) (vd vs1 : VReg) (rm : RMode) : Encoding.Statement (.vfsqrt g vd vs1 rm) := Encoding.of_code rfl fun _ =>
  (code_vaFp _ 0x24#8 rfl (by decide)).trans (by simp [decodeVaFp, need, legal])
theorem Encoding.vfmin (g : VG) (vd vs1 : VReg) (o : Op2) : Encoding.Statement (.vfmin g vd vs1 o) := Encoding.of_code rfl fun hw =>
  (code_vaFp _ 0x25#8 rfl (by decide)).trans (by simp [Instr.wf, wfScalar, wfVector, wfEvent] at hw; simp [decodeVaFp, need, hw])
theorem Encoding.vfmax (g : VG) (vd vs1 : VReg) (o : Op2) : Encoding.Statement (.vfmax g vd vs1 o) := Encoding.of_code rfl fun hw =>
  (code_vaFp _ 0x26#8 rfl (by decide)).trans (by simp [Instr.wf, wfScalar, wfVector, wfEvent] at hw; simp [decodeVaFp, need, hw])
theorem Encoding.vfma (g : VG) (vd vs1 : VReg) (o : Op2) (rm : RMode) : Encoding.Statement (.vfma g vd vs1 o rm) := Encoding.of_code rfl fun hw =>
  (code_vaFp _ 0x27#8 rfl (by decide)).trans (by simp [Instr.wf, wfScalar, wfVector, wfEvent] at hw; simp [decodeVaFp, need, hw])
theorem Encoding.vfms (g : VG) (vd vs1 : VReg) (o : Op2) (rm : RMode) : Encoding.Statement (.vfms g vd vs1 o rm) := Encoding.of_code rfl fun hw =>
  (code_vaFp _ 0x28#8 rfl (by decide)).trans (by simp [Instr.wf, wfScalar, wfVector, wfEvent] at hw; simp [decodeVaFp, need, hw])
theorem Encoding.vfnma (g : VG) (vd vs1 : VReg) (o : Op2) (rm : RMode) : Encoding.Statement (.vfnma g vd vs1 o rm) := Encoding.of_code rfl fun hw =>
  (code_vaFp _ 0x29#8 rfl (by decide)).trans (by simp [Instr.wf, wfScalar, wfVector, wfEvent] at hw; simp [decodeVaFp, need, hw])
theorem Encoding.vfnms (g : VG) (vd vs1 : VReg) (o : Op2) (rm : RMode) : Encoding.Statement (.vfnms g vd vs1 o rm) := Encoding.of_code rfl fun hw =>
  (code_vaFp _ 0x2A#8 rfl (by decide)).trans (by simp [Instr.wf, wfScalar, wfVector, wfEvent] at hw; simp [decodeVaFp, need, hw])
theorem Encoding.vfclamp (g : VG) (vd vs1 : VReg) (o : Op2) : Encoding.Statement (.vfclamp g vd vs1 o) := Encoding.of_code rfl fun hw =>
  (code_vaFp _ 0x2B#8 rfl (by decide)).trans (by simp [Instr.wf, wfScalar, wfVector, wfEvent] at hw; simp [decodeVaFp, need, hw])
theorem Encoding.vfabs (g : VG) (vd vs1 : VReg) : Encoding.Statement (.vfabs g vd vs1) := Encoding.of_code rfl fun _ =>
  (code_vaFp _ 0x2C#8 rfl (by decide)).trans (by simp [decodeVaFp, need, legal])
theorem Encoding.vfneg (g : VG) (vd vs1 : VReg) : Encoding.Statement (.vfneg g vd vs1) := Encoding.of_code rfl fun _ =>
  (code_vaFp _ 0x2D#8 rfl (by decide)).trans (by simp [decodeVaFp, need, legal])
theorem Encoding.vfsgnj (g : VG) (vd vs1 : VReg) (o : Op2) : Encoding.Statement (.vfsgnj g vd vs1 o) := Encoding.of_code rfl fun hw =>
  (code_vaFp _ 0x2E#8 rfl (by decide)).trans (by simp [Instr.wf, wfScalar, wfVector, wfEvent] at hw; simp [decodeVaFp, need, hw])
theorem Encoding.vfwadd (g : VG) (vd vs1 : VReg) (o : Op2) (rm : RMode) : Encoding.Statement (.vfwadd g vd vs1 o rm) := Encoding.of_code rfl fun _ =>
  (code_vaFp _ 0x2F#8 rfl (by decide)).trans (by simp [decodeVaFp, need])
theorem Encoding.vfwmul (g : VG) (vd vs1 : VReg) (o : Op2) (rm : RMode) : Encoding.Statement (.vfwmul g vd vs1 o rm) := Encoding.of_code rfl fun hw =>
  (code_vaFp _ 0x30#8 rfl (by decide)).trans (by simp [Instr.wf, wfScalar, wfVector, wfEvent] at hw; simp [decodeVaFp, need, hw])
theorem Encoding.vfwma (g : VG) (vd vs1 : VReg) (o : Op2) (rm : RMode) : Encoding.Statement (.vfwma g vd vs1 o rm) := Encoding.of_code rfl fun _ =>
  (code_vaFp _ 0x31#8 rfl (by decide)).trans (by simp [decodeVaFp, need])
theorem Encoding.vfcvt (g : VG) (vd vs1 : VReg) (rm : RMode) : Encoding.Statement (.vfcvt g vd vs1 rm) := Encoding.of_code rfl fun _ =>
  (code_vaFp _ 0x32#8 rfl (by decide)).trans (by simp [decodeVaFp, need, legal])
theorem Encoding.vfcvti (g : VG) (vd vs1 : VReg) (u : Bool) (rm : RMode) (sat : Bool) : Encoding.Statement (.vfcvti g vd vs1 u rm sat) := Encoding.of_code rfl fun _ =>
  (code_vaFp _ 0x33#8 rfl (by decide)).trans (by simp [decodeVaFp, need, legal])
theorem Encoding.vicvtf (g : VG) (vd vs1 : VReg) (u : Bool) (rm : RMode) : Encoding.Statement (.vicvtf g vd vs1 u rm) := Encoding.of_code rfl fun _ =>
  (code_vaFp _ 0x34#8 rfl (by decide)).trans (by simp [decodeVaFp, need, legal])
theorem Encoding.vfncvt (g : VG) (vd vs1 : VReg) (rm : RMode) (sat : Bool) : Encoding.Statement (.vfncvt g vd vs1 rm sat) := Encoding.of_code rfl fun _ =>
  (code_vaFp _ 0x35#8 rfl (by decide)).trans (by simp [decodeVaFp, need, legal])
theorem Encoding.vfwcvt (g : VG) (vd vs1 : VReg) : Encoding.Statement (.vfwcvt g vd vs1) := Encoding.of_code rfl fun _ =>
  (code_vaFp _ 0x36#8 rfl (by decide)).trans (by simp [decodeVaFp, need, legal])
theorem Encoding.vcmp (g : VG) (pair : BitVec 6) (vs1 : VReg) (o : Op2) (cc : Cond) : Encoding.Statement (.vcmp g pair vs1 o cc) := Encoding.of_code rfl fun hw =>
  (code_vaMove _ 0x40#8 rfl (by decide)).trans (by simp [Instr.wf, wfScalar, wfVector, wfEvent] at hw; simp [decodeVaMove, need, hw])
theorem Encoding.vfcmp (g : VG) (pair : BitVec 6) (vs1 : VReg) (o : Op2) (cc : Cond) : Encoding.Statement (.vfcmp g pair vs1 o cc) := Encoding.of_code rfl fun hw =>
  (code_vaMove _ 0x41#8 rfl (by decide)).trans (by simp [Instr.wf, wfScalar, wfVector, wfEvent] at hw; simp [decodeVaMove, need, legal, hw])
theorem Encoding.vmv (g : VG) (vd : VReg) (o : Op2) : Encoding.Statement (.vmv g vd o) := Encoding.of_code rfl fun hw =>
  (code_vaMove _ 0x44#8 rfl (by decide)).trans (by simp [Instr.wf, wfScalar, wfVector, wfEvent] at hw; simp [decodeVaMove, need, hw])
theorem Encoding.vmerge (g : VG) (vd vs1 : VReg) (o : Op2) : Encoding.Statement (.vmerge g vd vs1 o) := Encoding.of_code rfl fun hw =>
  (code_vaMove _ 0x45#8 rfl (by decide)).trans (by simp [Instr.wf, wfScalar, wfVector, wfEvent] at hw; simp [decodeVaMove, need, hw])
theorem Encoding.vext (g : VG) (sd : SReg) (vs1 : VReg) (i : Sel3) : Encoding.Statement (.vext g sd vs1 i) := Encoding.of_code rfl fun _ =>
  (code_vaMove _ 0x46#8 rfl (by decide)).trans (by simp [decodeVaMove, need])
theorem Encoding.vins (g : VG) (vd : VReg) (v : Sel3) : Encoding.Statement (.vins g vd v) := Encoding.of_code rfl fun _ =>
  (code_vaMove _ 0x47#8 rfl (by decide)).trans (by simp [decodeVaMove, need])
theorem Encoding.vid (g : VG) (vd : VReg) : Encoding.Statement (.vid g vd) := Encoding.of_code rfl fun _ =>
  (code_vaMove _ 0x48#8 rfl (by decide)).trans (by simp [decodeVaMove, need, legal])
theorem Encoding.plogic (g : VG) (pd : PReg) : Encoding.Statement (.plogic g pd) := Encoding.of_code rfl fun _ =>
  (code_vaPred _ 0x50#8 rfl (by decide)).trans (by simp [decodeVaPred, need])
theorem Encoding.pset (g : VG) (pd : PReg) : Encoding.Statement (.pset g pd) := Encoding.of_code rfl fun _ =>
  (code_vaPred _ 0x51#8 rfl (by decide)).trans (by simp [decodeVaPred, need])
theorem Encoding.psets (g : VG) (pd : PReg) (useB : Bool) : Encoding.Statement (.psets g pd useB) := Encoding.of_code rfl fun _ =>
  (code_vaPred _ 0x52#8 rfl (by decide)).trans (by cases useB <;> simp [decodeVaPred, need, legal, bit1])
theorem Encoding.pclr (g : VG) (pd : PReg) : Encoding.Statement (.pclr g pd) := Encoding.of_code rfl fun _ =>
  (code_vaPred _ 0x53#8 rfl (by decide)).trans (by simp [decodeVaPred, need])
theorem Encoding.psbf (g : VG) (pd ps : PReg) : Encoding.Statement (.psbf g pd ps) := Encoding.of_code rfl fun _ =>
  (code_vaPred _ 0x54#8 rfl (by decide)).trans (by simp [decodeVaPred, need])
theorem Encoding.psif (g : VG) (pd ps : PReg) : Encoding.Statement (.psif g pd ps) := Encoding.of_code rfl fun _ =>
  (code_vaPred _ 0x55#8 rfl (by decide)).trans (by simp [decodeVaPred, need])
theorem Encoding.psof (g : VG) (pd ps : PReg) : Encoding.Statement (.psof g pd ps) := Encoding.of_code rfl fun _ =>
  (code_vaPred _ 0x56#8 rfl (by decide)).trans (by simp [decodeVaPred, need])
theorem Encoding.pcount (g : VG) (sd : SReg) (ps : PReg) : Encoding.Statement (.pcount g sd ps) := Encoding.of_code rfl fun _ =>
  (code_vaPred _ 0x57#8 rfl (by decide)).trans (by simp [decodeVaPred, need, legal])
theorem Encoding.pffs (g : VG) (sd : SReg) (ps : PReg) : Encoding.Statement (.pffs g sd ps) := Encoding.of_code rfl fun _ =>
  (code_vaPred _ 0x58#8 rfl (by decide)).trans (by simp [decodeVaPred, need, legal])
theorem Encoding.pkill (pd plast : PReg) : Encoding.Statement (.pkill pd plast) := Encoding.of_code rfl fun hw =>
  (code_vaPred _ 0x59#8 rfl (by decide)).trans (by simp [Instr.wf, wfScalar, wfVector, wfEvent] at hw; simp [decodeVaPred, need, legal, hw])
theorem Encoding.pfromv (g : VG) (pd : PReg) (vs : VReg) : Encoding.Statement (.pfromv g pd vs) := Encoding.of_code rfl fun _ =>
  (code_vaPred _ 0x5A#8 rfl (by decide)).trans (by simp [decodeVaPred, need, legal])
theorem Encoding.ptov (g : VG) (vd : VReg) (ps : PReg) : Encoding.Statement (.ptov g vd ps) := Encoding.of_code rfl fun _ =>
  (code_vaPred _ 0x5B#8 rfl (by decide)).trans (by simp [decodeVaPred, need, legal])
theorem Encoding.kadd (g : VG) (kd ks1 : KReg) (o : KOp2) : Encoding.Statement (.kadd g kd ks1 o) := Encoding.of_code rfl fun _ =>
  (code_vaScale _ 0x60#8 rfl (by decide)).trans (by simp [decodeVaScale, need])
theorem Encoding.ksub (g : VG) (kd ks1 : KReg) (o : KOp2) : Encoding.Statement (.ksub g kd ks1 o) := Encoding.of_code rfl fun _ =>
  (code_vaScale _ 0x61#8 rfl (by decide)).trans (by simp [decodeVaScale, need])
theorem Encoding.kmax (g : VG) (kd ks1 : KReg) (o : KOp2) : Encoding.Statement (.kmax g kd ks1 o) := Encoding.of_code rfl fun _ =>
  (code_vaScale _ 0x62#8 rfl (by decide)).trans (by simp [decodeVaScale, need])
theorem Encoding.kmin (g : VG) (kd ks1 : KReg) (o : KOp2) : Encoding.Statement (.kmin g kd ks1 o) := Encoding.of_code rfl fun _ =>
  (code_vaScale _ 0x63#8 rfl (by decide)).trans (by simp [decodeVaScale, need])
theorem Encoding.kmov (g : VG) (kd ks : KReg) : Encoding.Statement (.kmov g kd ks) := Encoding.of_code rfl fun _ =>
  (code_vaScale _ 0x64#8 rfl (by decide)).trans (by simp [decodeVaScale, need, legal])
theorem Encoding.kset (g : VG) (kd : KReg) (v : Sel3) : Encoding.Statement (.kset g kd v) := Encoding.of_code rfl fun _ =>
  (code_vaScale _ 0x65#8 rfl (by decide)).trans (by simp [decodeVaScale, need])
theorem Encoding.kfromv (g : VG) (kd : KReg) (vs : VReg) (v : Sel3) : Encoding.Statement (.kfromv g kd vs v) := Encoding.of_code rfl fun _ =>
  (code_vaScale _ 0x66#8 rfl (by decide)).trans (by simp [decodeVaScale, need])
theorem Encoding.vbind (g : VG) (vd : VReg) (kd : KReg) : Encoding.Statement (.vbind g vd kd) := Encoding.of_code rfl fun _ =>
  (code_vaScale _ 0x67#8 rfl (by decide)).trans (by simp [decodeVaScale, need, legal])
theorem Encoding.vunbind (g : VG) (vd : VReg) : Encoding.Statement (.vunbind g vd) := Encoding.of_code rfl fun _ =>
  (code_vaScale _ 0x68#8 rfl (by decide)).trans (by simp [decodeVaScale, need, legal])
theorem Encoding.vskip (g : VG) (ps : PReg) (n : BitVec 6) : Encoding.Statement (.vskip g ps n) := Encoding.of_code rfl fun hw =>
  (code_vaSkip _ 0x70#8 rfl (by decide)).trans (by simp [Instr.wf, wfScalar, wfVector, wfEvent] at hw; simp [decodeVaPred, need, legal, hw])
theorem Encoding.bfop (g : VG) (od : OReg) (v : Sel3) : Encoding.Statement (.bfop g od v) := Encoding.of_code rfl fun _ =>
  (code_vaBfop _ 0x71#8 rfl (by decide)).trans (by simp [decodeVaScale, need])
theorem Encoding.vld (g : VG) (vd : VReg) (m : MemForm) : Encoding.Statement (.vld g vd m) := Encoding.of_code rfl fun hw =>
  (code_vmV _ 0x01#8 rfl (by decide)).trans (by simp [Instr.wf, wfScalar, wfVector, wfEvent, MemForm.tagged] at hw; simp [decodeVmV, need, legal, hw])
theorem Encoding.vlds (g : VG) (vd : VReg) (m : MemForm) : Encoding.Statement (.vlds g vd m) := Encoding.of_code rfl fun hw =>
  (code_vmV _ 0x02#8 rfl (by decide)).trans (by simp [Instr.wf, wfScalar, wfVector, wfEvent, MemForm.tagged] at hw; simp [decodeVmV, need, legal, hw])
theorem Encoding.vldx (g : VG) (vd vs2 : VReg) (m : MemForm) : Encoding.Statement (.vldx g vd vs2 m) := Encoding.of_code rfl fun hw =>
  (code_vmV _ 0x03#8 rfl (by decide)).trans (by simp [Instr.wf, wfScalar, wfVector, wfEvent, MemForm.tagged] at hw; simp [decodeVmV, need, legal, hw])
theorem Encoding.vldff (g : VG) (vd : VReg) (m : MemForm) : Encoding.Statement (.vldff g vd m) := Encoding.of_code rfl fun hw =>
  (code_vmV _ 0x04#8 rfl (by decide)).trans (by simp [Instr.wf, wfScalar, wfVector, wfEvent, MemForm.plain] at hw; simp [decodeVmV, need, legal, hw])
theorem Encoding.vldz (vd : VReg) (sd : SReg) : Encoding.Statement (.vldz vd sd) := Encoding.of_code rfl fun _ =>
  (code_vmV _ 0x05#8 rfl (by decide)).trans (by simp [decodeVmV, need, legal])
theorem Encoding.vldk (g : VG) (vd : VReg) (kd : KReg) (m : MemForm) : Encoding.Statement (.vldk g vd kd m) := Encoding.of_code rfl fun hw =>
  (code_vmV _ 0x06#8 rfl (by decide)).trans (by simp [Instr.wf, wfScalar, wfVector, wfEvent, MemForm.plain] at hw; simp [decodeVmV, need, legal, hw])
theorem Encoding.vst (g : VG) (vd : VReg) (m : MemForm) : Encoding.Statement (.vst g vd m) := Encoding.of_code rfl fun hw =>
  (code_vmV _ 0x08#8 rfl (by decide)).trans (by simp [Instr.wf, wfScalar, wfVector, wfEvent, MemForm.plain] at hw; simp [decodeVmV, need, legal, hw])
theorem Encoding.vsts (g : VG) (vd : VReg) (m : MemForm) : Encoding.Statement (.vsts g vd m) := Encoding.of_code rfl fun hw =>
  (code_vmV _ 0x09#8 rfl (by decide)).trans (by simp [Instr.wf, wfScalar, wfVector, wfEvent, MemForm.plain] at hw; simp [decodeVmV, need, legal, hw])
theorem Encoding.vstx (g : VG) (vd vs2 : VReg) (m : MemForm) : Encoding.Statement (.vstx g vd vs2 m) := Encoding.of_code rfl fun hw =>
  (code_vmV _ 0x0A#8 rfl (by decide)).trans (by simp [Instr.wf, wfScalar, wfVector, wfEvent, MemForm.plain] at hw; simp [decodeVmV, need, legal, hw])
theorem Encoding.vstk (g : VG) (vd : VReg) (ks : KReg) (m : MemForm) : Encoding.Statement (.vstk g vd ks m) := Encoding.of_code rfl fun hw =>
  (code_vmV _ 0x0B#8 rfl (by decide)).trans (by simp [Instr.wf, wfScalar, wfVector, wfEvent, MemForm.plain] at hw; simp [decodeVmV, need, legal, hw])
theorem Encoding.vamo (g : VG) (vd vs2 : VReg) (op : AmoOp) (m : MemForm) : Encoding.Statement (.vamo g vd vs2 op m) := Encoding.of_code rfl fun hw =>
  (code_vmV _ 0x10#8 rfl (by decide)).trans (by simp [Instr.wf, wfScalar, wfVector, wfEvent, MemForm.plain] at hw; simp [decodeVmV, need, legal, hw])
theorem Encoding.pld (g : VG) (pd : PReg) (m : MemForm) : Encoding.Statement (.pld g pd m) := Encoding.of_code rfl fun hw =>
  (code_vmP _ 0x18#8 rfl (by decide)).trans (by simp [Instr.wf, wfScalar, wfVector, wfEvent, MemForm.plain] at hw; simp [decodeVmP, need, legal, hw])
theorem Encoding.pst (g : VG) (pd : PReg) (m : MemForm) : Encoding.Statement (.pst g pd m) := Encoding.of_code rfl fun hw =>
  (code_vmP _ 0x19#8 rfl (by decide)).trans (by simp [Instr.wf, wfScalar, wfVector, wfEvent, MemForm.plain] at hw; simp [decodeVmP, need, legal, hw])
theorem Encoding.kld (g : VG) (k : KReg) (m : MemForm) : Encoding.Statement (.kld g k m) := Encoding.of_code rfl fun hw =>
  (code_vmV _ 0x1A#8 rfl (by decide)).trans (by simp [Instr.wf, wfScalar, wfVector, wfEvent, MemForm.plain] at hw; simp [decodeVmV, need, legal, hw])
theorem Encoding.kst (g : VG) (k : KReg) (m : MemForm) : Encoding.Statement (.kst g k m) := Encoding.of_code rfl fun hw =>
  (code_vmV _ 0x1B#8 rfl (by decide)).trans (by simp [Instr.wf, wfScalar, wfVector, wfEvent, MemForm.plain] at hw; simp [decodeVmV, need, legal, hw])
theorem Encoding.strmbind (g : VG) (vd : VReg) (m : MSlot) (kd : KReg) : Encoding.Statement (.strmbind g vd m kd) := Encoding.of_code rfl fun _ =>
  (code_vmV _ 0x20#8 rfl (by decide)).trans (by simp [decodeVmV, need])
theorem Encoding.strmunbind (g : VG) (m : MSlot) : Encoding.Statement (.strmunbind g m) := Encoding.of_code rfl fun _ =>
  (code_vmV _ 0x21#8 rfl (by decide)).trans (by simp [decodeVmV, need])
theorem Encoding.bfseq (g : VG) (q : QReg) (m : MemForm) : Encoding.Statement (.bfseq g q m) := Encoding.of_code rfl fun hw =>
  (code_vmV _ 0x28#8 rfl (by decide)).trans (by simp [Instr.wf, wfScalar, wfVector, wfEvent, MemForm.plain] at hw; simp [decodeVmV, need, legal, hw])
theorem Encoding.bftab (g : VG) (o : OReg) (m : MemForm) : Encoding.Statement (.bftab g o m) := Encoding.of_code rfl fun hw =>
  (code_vmV _ 0x29#8 rfl (by decide)).trans (by simp [Instr.wf, wfScalar, wfVector, wfEvent, MemForm.plain] at hw; simp [decodeVmV, need, legal, hw])
theorem Encoding.vpref (g : VG) (strided : Bool) (m : MemForm) : Encoding.Statement (.vpref g strided m) := Encoding.of_code rfl fun hw =>
  (code_vmV _ 0x30#8 rfl (by decide)).trans (by simp [Instr.wf, wfScalar, wfVector, wfEvent, MemForm.plain] at hw; simp [decodeVmV, need, legal, hw])
theorem Encoding.bfpass (g : VG) (vd vs : VReg) (o : OReg) (q : QReg) (vc : VReg) (sw : BitVec 2) : Encoding.Statement (.bfpass g vd vs o q vc sw) := Encoding.of_code rfl fun hw =>
  (code_bf _).trans (by simp [Instr.wf, wfScalar, wfVector, wfEvent] at hw; simp [decodeBf, need, legal, hw])
theorem Encoding.bfpassKp (g : VG) (vd vs : VReg) (o : OReg) (q : QReg) (vc : VReg) (sw : BitVec 2) : Encoding.Statement (.bfpassKp g vd vs o q vc sw) := Encoding.of_code rfl fun hw =>
  (code_bf _).trans (by simp [Instr.wf, wfScalar, wfVector, wfEvent] at hw; simp [decodeBf, need, legal, hw])
theorem Encoding.mdrn (g : VG) (vd : VReg) (t : TReg) (r : Sel3) : Encoding.Statement (.mdrn g vd t r) := Encoding.of_code rfl fun _ =>
  (code_md _).trans (by simp [decodeMd, need])
theorem Encoding.mdrnt (g : VG) (vd : VReg) (t : TReg) (r : Sel3) : Encoding.Statement (.mdrnt g vd t r) := Encoding.of_code rfl fun _ =>
  (code_md _).trans (by simp [decodeMd, need])
theorem Encoding.mput (g : VG) (vd : VReg) (t : TReg) (r : Sel3) : Encoding.Statement (.mput g vd t r) := Encoding.of_code rfl fun _ =>
  (code_md _).trans (by simp [decodeMd, need])
theorem Encoding.matrixCommandStart (core : Nat) : Encoding.Statement (.matrixCommandStart core) := Encoding.of_none rfl
theorem Encoding.matrixCommandComplete (core : Nat) : Encoding.Statement (.matrixCommandComplete core) := Encoding.of_none rfl
theorem Encoding.matrixAsyncFault (core : Nat) : Encoding.Statement (.matrixAsyncFault core) := Encoding.of_none rfl
theorem Encoding.tableWalk (core asid : Nat) (va : Word) : Encoding.Statement (.tableWalk core asid va) := Encoding.of_none rfl
theorem Encoding.interrupt (hart : Nat) (source : Word) : Encoding.Statement (.interrupt hart source) := Encoding.of_none rfl
theorem Encoding.preemption (gang : Nat) : Encoding.Statement (.preemption gang) := Encoding.of_none rfl
theorem Encoding.termination (who : TermTarget) : Encoding.Statement (.termination who) := Encoding.of_none rfl
theorem Encoding.streamFetch (hart : Nat) (m : MSlot) : Encoding.Statement (.streamFetch hart m) := Encoding.of_none rfl
theorem Encoding.copy (hart : Nat) : Encoding.Statement (.copy hart) := Encoding.of_none rfl
theorem Encoding.fill (hart : Nat) : Encoding.Statement (.fill hart) := Encoding.of_none rfl
theorem Encoding.note (hart : Nat) : Encoding.Statement (.note hart) := Encoding.of_none rfl
theorem Encoding.drain (hart : Nat) : Encoding.Statement (.drain hart) := Encoding.of_none rfl
theorem Encoding.engineReservedOp (hart : Nat) (eng : BitVec 2) : Encoding.Statement (.engineReservedOp hart eng) := Encoding.of_none rfl
theorem Encoding.engineResultPost (hart : Nat) (eng : BitVec 2) : Encoding.Statement (.engineResultPost hart eng) := Encoding.of_none rfl
theorem Encoding.allreduce (hart : Nat) : Encoding.Statement (.allreduce hart) := Encoding.of_none rfl
theorem Encoding.bcast (hart : Nat) : Encoding.Statement (.bcast hart) := Encoding.of_none rfl
theorem Encoding.linkOpen (hart : Nat) : Encoding.Statement (.linkOpen hart) := Encoding.of_none rfl
theorem Encoding.linkClose (hart : Nat) : Encoding.Statement (.linkClose hart) := Encoding.of_none rfl
theorem Encoding.rekey (hart : Nat) : Encoding.Statement (.rekey hart) := Encoding.of_none rfl
theorem Encoding.send (hart : Nat) : Encoding.Statement (.send hart) := Encoding.of_none rfl
theorem Encoding.recv (hart : Nat) : Encoding.Statement (.recv hart) := Encoding.of_none rfl
theorem Encoding.dataFrame (port : Nat) (f : List Byte) : Encoding.Statement (.dataFrame port f) := Encoding.of_none rfl
theorem Encoding.acknowledgement (port : Nat) (f : List Byte) : Encoding.Statement (.acknowledgement port f) := Encoding.of_none rfl
theorem Encoding.handshakeMessage1 (port : Nat) (f : List Byte) : Encoding.Statement (.handshakeMessage1 port f) := Encoding.of_none rfl
theorem Encoding.handshakeMessage2 (port : Nat) (f : List Byte) : Encoding.Statement (.handshakeMessage2 port f) := Encoding.of_none rfl
theorem Encoding.handshakeMessage3 (port : Nat) (f : List Byte) : Encoding.Statement (.handshakeMessage3 port f) := Encoding.of_none rfl
theorem Encoding.closeFrame (port : Nat) (f : List Byte) : Encoding.Statement (.closeFrame port f) := Encoding.of_none rfl
theorem Encoding.resendTimer (sid seq : Nat) : Encoding.Statement (.resendTimer sid seq) := Encoding.of_none rfl
theorem Encoding.noFrameTimeout (sid : Nat) : Encoding.Statement (.noFrameTimeout sid) := Encoding.of_none rfl
theorem Encoding.rekeyTimeout (sid : Nat) : Encoding.Statement (.rekeyTimeout sid) := Encoding.of_none rfl
theorem Encoding.openTimeout (sid : Nat) : Encoding.Statement (.openTimeout sid) := Encoding.of_none rfl
theorem Encoding.frameCountRekey (sid : Nat) : Encoding.Statement (.frameCountRekey sid) := Encoding.of_none rfl
theorem Encoding.collectiveContribution (c : Contribution) : Encoding.Statement (.collectiveContribution c) := Encoding.of_none rfl
theorem Encoding.collectiveDeadline (group epoch : Nat) : Encoding.Statement (.collectiveDeadline group epoch) := Encoding.of_none rfl
theorem Encoding.collectiveResult (r : CollectiveAnswer) : Encoding.Statement (.collectiveResult r) := Encoding.of_none rfl
theorem Encoding.coordinatorLostTimeout (group epoch : Nat) : Encoding.Statement (.coordinatorLostTimeout group epoch) := Encoding.of_none rfl
theorem Encoding.contributionHoldExpiry (group epoch member : Nat) : Encoding.Statement (.contributionHoldExpiry group epoch member) := Encoding.of_none rfl
theorem Encoding.laneFailure (port lane : Nat) : Encoding.Statement (.laneFailure port lane) := Encoding.of_none rfl
theorem Encoding.laneErrorRateWindow (port lane : Nat) (high : Bool) : Encoding.Statement (.laneErrorRateWindow port lane high) := Encoding.of_none rfl
theorem Encoding.portRetrainComplete (port : Nat) : Encoding.Statement (.portRetrainComplete port) := Encoding.of_none rfl
theorem Encoding.schedulingQuantum : Encoding.Statement .schedulingQuantum := Encoding.of_none rfl
theorem Encoding.halt (who : HostAgent) (hart : Nat) : Encoding.Statement (.halt who hart) := Encoding.of_none rfl
theorem Encoding.haltGang (who : HostAgent) (hart : Nat) : Encoding.Statement (.haltGang who hart) := Encoding.of_none rfl
theorem Encoding.resume (who : HostAgent) (hart : Nat) : Encoding.Statement (.resume who hart) := Encoding.of_none rfl
theorem Encoding.stepUnit (who : HostAgent) (hart : Nat) : Encoding.Statement (.stepUnit who hart) := Encoding.of_none rfl
theorem Encoding.stepGroup (who : HostAgent) (hart : Nat) : Encoding.Statement (.stepGroup who hart) := Encoding.of_none rfl
theorem Encoding.dbgRead (who : HostAgent) (hart : Nat) (item : DbgItem) : Encoding.Statement (.dbgRead who hart item) := Encoding.of_none rfl
theorem Encoding.dbgWrite (who : HostAgent) (hart : Nat) (item : DbgItem) (v : Nat) : Encoding.Statement (.dbgWrite who hart item v) := Encoding.of_none rfl
theorem Encoding.setbp (who : HostAgent) (hart : Nat) (n : BitVec 2) (a c : Word) : Encoding.Statement (.setbp who hart n a c) := Encoding.of_none rfl
theorem Encoding.traceSample (hart : Nat) : Encoding.Statement (.traceSample hart) := Encoding.of_none rfl
theorem Encoding.dlyCtlClr (hart : Nat) : Encoding.Statement (.dlyCtlClr hart) := Encoding.of_none rfl
theorem Encoding.version (f : CallFrame) : Encoding.Statement (.version f) := Encoding.of_none rfl
theorem Encoding.features (f : CallFrame) : Encoding.Statement (.features f) := Encoding.of_none rfl
theorem Encoding.accept (f : CallFrame) : Encoding.Statement (.accept f) := Encoding.of_none rfl
theorem Encoding.asidRoot (f : CallFrame) : Encoding.Statement (.asidRoot f) := Encoding.of_none rfl
theorem Encoding.cacheSet (f : CallFrame) : Encoding.Statement (.cacheSet f) := Encoding.of_none rfl
theorem Encoding.cacheLock (f : CallFrame) : Encoding.Statement (.cacheLock f) := Encoding.of_none rfl
theorem Encoding.slatePost (f : CallFrame) : Encoding.Statement (.slatePost f) := Encoding.of_none rfl
theorem Encoding.slateWithdraw (f : CallFrame) : Encoding.Statement (.slateWithdraw f) := Encoding.of_none rfl
theorem Encoding.partSet (f : CallFrame) (r : PartRecord) : Encoding.Statement (.partSet f r) := Encoding.of_none rfl
theorem Encoding.powerRead (f : CallFrame) : Encoding.Statement (.powerRead f) := Encoding.of_none rfl
theorem Encoding.groupSet (f : CallFrame) (sids : List Nat) : Encoding.Statement (.groupSet f sids) := Encoding.of_none rfl
theorem Encoding.claim (f : CallFrame) : Encoding.Statement (.claim f) := Encoding.of_none rfl
theorem Encoding.handover (f : CallFrame) : Encoding.Statement (.handover f) := Encoding.of_none rfl
theorem Encoding.release (f : CallFrame) : Encoding.Statement (.release f) := Encoding.of_none rfl
theorem Encoding.mboluxLoad (f : CallFrame) : Encoding.Statement (.mboluxLoad f) := Encoding.of_none rfl
theorem Encoding.ownershipLapse : Encoding.Statement .ownershipLapse := Encoding.of_none rfl
theorem Encoding.patrolRead (line : Nat) (found : Finding) : Encoding.Statement (.patrolRead line found) := Encoding.of_none rfl
theorem Encoding.spareCoreSubstitution (core : Nat) : Encoding.Statement (.spareCoreSubstitution core) := Encoding.of_none rfl
theorem Encoding.rasInjWrite (part : Nat) (v : Word) : Encoding.Statement (.rasInjWrite part v) := Encoding.of_none rfl
theorem Encoding.rasCtlPop (part : Nat) : Encoding.Statement (.rasCtlPop part) := Encoding.of_none rfl
theorem Encoding.evtCtlPop (part : Nat) : Encoding.Statement (.evtCtlPop part) := Encoding.of_none rfl
theorem Encoding.powerMeasurement (part mw : Nat) : Encoding.Statement (.powerMeasurement part mw) := Encoding.of_none rfl
theorem Encoding.shedStepRise (part : Nat) : Encoding.Statement (.shedStepRise part) := Encoding.of_none rfl
theorem Encoding.shedStepFall (part : Nat) : Encoding.Statement (.shedStepFall part) := Encoding.of_none rfl
theorem Encoding.moduleLimitChange (watts : Nat) : Encoding.Statement (.moduleLimitChange watts) := Encoding.of_none rfl
theorem Encoding.coolantTemperatureHigh : Encoding.Statement .coolantTemperatureHigh := Encoding.of_none rfl
theorem Encoding.limitReductionTick : Encoding.Statement .limitReductionTick := Encoding.of_none rfl
theorem Encoding.coolantFlowLoss : Encoding.Statement .coolantFlowLoss := Encoding.of_none rfl
theorem Encoding.modulePowerRemoval : Encoding.Statement .modulePowerRemoval := Encoding.of_none rfl
theorem Encoding.moduleReset : Encoding.Statement .moduleReset := Encoding.of_none rfl
theorem Encoding.bringupStageComplete (r : StageReport) : Encoding.Statement (.bringupStageComplete r) := Encoding.of_none rfl
theorem Encoding.hostMemoryAccess (write : Bool) (addr : Nat) (bytes : List Byte) : Encoding.Statement (.hostMemoryAccess write addr bytes) := Encoding.of_none rfl
theorem Encoding.coolantFlowRestore : Encoding.Statement .coolantFlowRestore := Encoding.of_none rfl
theorem Encoding.coolantTemperatureRecovery : Encoding.Statement .coolantTemperatureRecovery := Encoding.of_none rfl
theorem Encoding.managementCoreSpareTakeover : Encoding.Statement .managementCoreSpareTakeover := Encoding.of_none rfl
theorem Encoding.hostAgentReset (who : HostAgent) : Encoding.Statement (.hostAgentReset who) := Encoding.of_none rfl
theorem Encoding.reservedKindFrame (port : Nat) (f : List Byte) : Encoding.Statement (.reservedKindFrame port f) := Encoding.of_none rfl
theorem Encoding.debuggerAttach (who : HostAgent) (opened : Bool) : Encoding.Statement (.debuggerAttach who opened) := Encoding.of_none rfl

end Sys2Proof.Laws
end

