-- ==== Sys2Proof/Tests/Slice0.lean ====
section
/-!
SUPPORT. Tests. Words are written out from the spec's encoding tables (R118 to R135); results of single steps come from its
rules by hand; a witness shows a state that meets every hypothesis of a statement of Obligations.lean.
-/
namespace Sys2Proof.Tests
open Sys2Proof Sys2Proof.Machine
set_option Elab.async false

/-! ### Builders -/

/-- Guards that name registers, for the words, and guards that are always true (R127). -/
def g1 : SG := ⟨0xCA#8, 1, 2, 3⟩
def gv : VG := ⟨0xCA#8, 5, 6, 7⟩
def gs : SG := ⟨0xFF#8, 0, 0, 0⟩
def gt : VG := ⟨0xFF#8, 0, 0, 0⟩
/-- Never true. -/
def gn : SG := ⟨0x00#8, 0, 0, 0⟩
def gnv : VG := ⟨0x00#8, 0, 0, 0⟩

/-- Every word decodes to the instruction beside it. -/
def reads (u : WUnit) (l : List (Word × Instr)) : Bool := l.all fun x => decodeCode ⟨u, x.1⟩ == some x.2

/-- The instruction gives a next state that passes the test. -/
def runs (s : State) (i : Instr) (p : State → Bool) : Bool :=
  match exec i s with
  | .next t => p t
  | _ => false

/-- The access succeeds. -/
def ok {α : Type} (x : Except AErr α) : Bool := match x with | .ok _ => true | .error _ => false

/-- An access that succeeds has a result. -/
theorem ok_iff {α : Type} {x : Except AErr α} (h : ok x = true) : ∃ a, x = .ok a := by
  cases x with
  | ok a => exact ⟨a, rfl⟩
  | error e => exact absurd h (by simp [ok])

/-- Hart 0 of core 0 runs from its TCM, which holds `w`; the module has finished bring-up. -/
def at_ (w : Nat) : State :=
  let s := State.reset.withFetchWord 64 w
  { s with mgmt := { s.mgmt with stage := 8 } }

/-- Hart 0 with its record changed. -/
def hartIs (f : Hart → Hart) : State := (at_ 0).updHart 0 f

/-- Scalar registers from s1 on. -/
def regs (l : List Nat) (h : Hart) : Hart :=
  (List.range l.length).foldl (fun h k => h.wrS (BitVec.ofNat 5 (k + 1)) (w64 ((l[k]?).getD 0))) h

/-- Hart 0 with scalar registers from s1 on. -/
def regsAre (l : List Nat) : State := hartIs (regs l)

/-- An address in the TCM window, apart from the program. -/
def tcm : Nat := tcmBase.toNat + 0x1000

theorem test_decode_integer : reads .sc [
    (0x0072848EAA980000#64, .add g1 21 10 19),
    (0x00B2848EAA980000#64, .sub g1 21 10 19),
    (0x00F2848EAA980000#64, .and g1 21 10 19),
    (0x0132848EAA980000#64, .or g1 21 10 19),
    (0x0172848EAA980000#64, .xor g1 21 10 19),
    (0x01B2848EAA980000#64, .sll g1 21 10 19),
    (0x01F2848EAA980000#64, .srl g1 21 10 19),
    (0x0232848EAA980000#64, .sra g1 21 10 19),
    (0x0272848EAA980000#64, .mul g1 21 10 19),
    (0x02B2848EAA980000#64, .mulh g1 21 10 19),
    (0x02F2848EAA980000#64, .mulhu g1 21 10 19),
    (0x0332848EAA980000#64, .div g1 21 10 19),
    (0x0372848EAA980000#64, .divu g1 21 10 19),
    (0x03B2848EAA980000#64, .rem g1 21 10 19),
    (0x03F2848EAA980000#64, .remu g1 21 10 19),
    (0x0432848EAA980000#64, .min g1 21 10 19),
    (0x0472848EAA980000#64, .max g1 21 10 19),
    (0x04B2848EAA980000#64, .minu g1 21 10 19),
    (0x04F2848EAA980000#64, .maxu g1 21 10 19)] = true := by decide +kernel

theorem test_decode_immediate : reads .sc [
    (0x0832848EB0000001#64, .lih g1 21 0x10000001#29),
    (0x0872848EAA800005#64, .addImm g1 21 10 0x800005#24),
    (0x08F2848EAA800005#64, .andImm g1 21 10 0x800005#24),
    (0x0932848EAA800005#64, .orImm g1 21 10 0x800005#24),
    (0x0972848EAA800005#64, .xorImm g1 21 10 0x800005#24),
    (0x09B2848EAA00003F#64, .sllImm g1 21 10 63#6),
    (0x09F2848EAA00003F#64, .srlImm g1 21 10 63#6),
    (0x0A32848EAA00003F#64, .sraImm g1 21 10 63#6)] = true := by decide +kernel

theorem test_decode_load_store : reads .sc [
    (0x0C32848EAAFFFFF8#64, .ldB g1 21 10 0xFFFFF8#24),
    (0x0C72848EAAFFFFF8#64, .ldH g1 21 10 0xFFFFF8#24),
    (0x0CB2848EAAFFFFF8#64, .ldW g1 21 10 0xFFFFF8#24),
    (0x0CF2848EAAFFFFF8#64, .ldD g1 21 10 0xFFFFF8#24),
    (0x0D32848EAAFFFFF8#64, .ldBu g1 21 10 0xFFFFF8#24),
    (0x0D72848EAAFFFFF8#64, .ldHu g1 21 10 0xFFFFF8#24),
    (0x0DB2848EAAFFFFF8#64, .ldWu g1 21 10 0xFFFFF8#24),
    (0x0E32848EAAFFFFF8#64, .stB g1 21 10 0xFFFFF8#24),
    (0x0E72848EAAFFFFF8#64, .stH g1 21 10 0xFFFFF8#24),
    (0x0EB2848EAAFFFFF8#64, .stW g1 21 10 0xFFFFF8#24),
    (0x0EF2848EAAFFFFF8#64, .stD g1 21 10 0xFFFFF8#24)] = true := by decide +kernel

theorem test_decode_branch : reads .sc [
    (0x1032848CCA980009#64, .cmp g1 6 10 19 .leu),
    (0x1232848C1FFFFFFF#64, .b g1 0x1FFFFFFF#29),
    (0x1272848EB0000000#64, .bc g1 21 0x10000000#29),
    (0x12B2848EA0000003#64, .call g1 21 3#29),
    (0x12F2848EAA000000#64, .jr g1 21 10),
    (0x1332848C0A000000#64, .ret g1 10),
    (0x1372848C18E00001#64, .bany g1 99 0x200001#22),
    (0x13B2848C18E00001#64, .ball g1 99 0x200001#22),
    (0x13F2848C18E00001#64, .bnone g1 99 0x200001#22)] = true := by decide +kernel

theorem test_decode_float : reads .sc [
    (0x1432848EAA994000#64, .fadd g1 21 10 19 (.mode .rtz) .f64),
    (0x1472848EAA9A8000#64, .fsub g1 21 10 19 (.mode .rdn) .f16),
    (0x14B2848EAA9BC000#64, .fmul g1 21 10 19 (.mode .rup) .bf16),
    (0x14F2848EAA9C3600#64, .fma g1 21 10 19 27 (.mode .rmm) .f32),
    (0x1532848EAA9D4000#64, .fdiv g1 21 10 19 (.mode .sr) .f64),
    (0x1572848EAA060000#64, .fsqrt g1 21 10 .dyn .f32),
    (0x15B2848EAA98C000#64, .fmin g1 21 10 19 .bf16),
    (0x15F2848EAA988000#64, .fmax g1 21 10 19 .f16),
    (0x1632848EAA0141A0#64, .fcvt g1 21 10 (.mode .rtz) .f64 13#4),
    (0x1672848CCA9840E0#64, .fcmp g1 6 10 19 .le .f64),
    (0x16B2848EAA008000#64, .fclass g1 21 10 .f16)] = true := by decide +kernel

theorem test_decode_control : reads .sc [
    (0x1832848EA0000106#64, .csrr g1 21 0x106#12),
    (0x1872848C0A000105#64, .csrw g1 10 0x105#12),
    (0x18B2848C0A000010#64, .csrs g1 10 0x010#12),
    (0x18F2848C0A000011#64, .csrc g1 10 0x011#12),
    (0x1932848EA0000000#64, .csrrC g1 21),
    (0x1972848C0A000000#64, .csrwC g1 10),
    (0x1A32848EAA98A902#64, .setvl g1 21 10 19 0xA902#16),
    (0x1A72848EAA00A902#64, .setvlN g1 21 10 0 0xA902#16),
    (0x1AB2848C00000002#64, .vconf g1 2#2)] = true := by decide +kernel

theorem test_decode_sync : reads .sc [
    (0x1C32848EAA99B900#64, .amo g1 21 10 19 .cl true false true .fadd),
    (0x1C72848EAA9C6000#64, .cas g1 21 10 19 .sys false true false),
    (0x1CB2848C00020003#64, .fence g1 .all .die),
    (0x1CF2848EA0000000#64, .bararv g1 21),
    (0x1D32848EA0000000#64, .barwait g1 21),
    (0x1D72848EAA000000#64, .barset g1 21 10),
    (0x1DB2848C0A000002#64, .epush g1 2 10),
    (0x1DF2848EA0000003#64, .epop g1 21 3),
    (0x1E32848C0A980000#64, .tstamp g1 10 19)] = true := by decide +kernel

theorem test_decode_stream : reads .sc [
    (0x2032848CAA99D228#64, .strmcfg g1 5 10 19 7 9 true 8),
    (0x2072848CA0000000#64, .strmend g1 5),
    (0x20B2848CAA000000#64, .strmwait g1 5 10),
    (0x20F2848EA5000000#64, .strmavail g1 21 5)] = true := by decide +kernel

theorem test_decode_matrix : reads .sc [
    (0x2232848EA0000001#64, .mshape g1 21 0 true),
    (0x2272848C0A99D280#64, .mbld g1 10 19 7 9 8),
    (0x22B2848CAA042000#64, .mma g1 5 33 10),
    (0x22F2848CCA042000#64, .mmas g1 6 33 10),
    (0x2332848CA0000000#64, .mzero g1 5),
    (0x2372848CAA000000#64, .maccld g1 5 10),
    (0x23B2848CAA000000#64, .maccst g1 5 10),
    (0x23F2848C00000000#64, .mwait g1)] = true := by decide +kernel

theorem test_decode_system : reads .sc [
    (0x2432848EAA000000#64, .launch g1 21 10),
    (0x2472848C0A000000#64, .exit g1 10),
    (0x24B2848C0A000000#64, .cacheIinv g1 10),
    (0x24B2848C0A000002#64, .cacheDinv g1 10),
    (0x24B2848C0A000003#64, .cacheClean g1 10),
    (0x24B2848C0A000004#64, .cacheFlush g1 10),
    (0x24B2848C0A000001#64, .cacheIall g1 10),
    (0x24B2848C0A9B0005#64, .cacheTlbiva g1 10 19 .mod),
    (0x24B2848C00980006#64, .cacheTlbiasid g1 0 19 .core),
    (0x24B2848C00990007#64, .cacheTlbiall g1 0 19 .cl),
    (0x24F2848C0000BEEF#64, .svc g1 0xBEEF#16),
    (0x2532848EA0000060#64, .bcall g1 21 0x60#16),
    (0x2572848C00000000#64, .eret g1),
    (0x25B2848C00000000#64, .wfe g1),
    (0x25F2848C00008001#64, .brk g1 0x8001#16)] = true := by decide +kernel

theorem test_decode_vector_integer : reads .va [
    (0x01CA0A183C314620#64, .vadd gv 33 34 (.vs2 35) true false),
    (0x02CA0A183C310060#64, .vsub gv 33 34 .xa true false),
    (0x03CA0A183C3100B0#64, .vrsub gv 33 34 .xb true true),
    (0x04CA0A183C3100F0#64, .vmul gv 33 34 .ximm true true),
    (0x05CA0A183C314610#64, .vmulh gv 33 34 (.vs2 35) false true),
    (0x06CA0A183C310050#64, .vdiv gv 33 34 .xa false true),
    (0x07CA0A183C310090#64, .vrem gv 33 34 .xb false true),
    (0x08CA0A183C3100D0#64, .vmin gv 33 34 .ximm false true),
    (0x09CA0A183C314610#64, .vmax gv 33 34 (.vs2 35) false true),
    (0x0ACA0A183C310040#64, .vand gv 33 34 .xa false false),
    (0x0BCA0A183C310080#64, .vor gv 33 34 .xb false false),
    (0x0CCA0A183C3100C0#64, .vxor gv 33 34 .ximm false false),
    (0x0DCA0A183C314600#64, .vsll gv 33 34 (.vs2 35) false false),
    (0x0ECA0A183C310040#64, .vsrl gv 33 34 .xa false false),
    (0x0FCA0A183C310080#64, .vsra gv 33 34 .xb false false),
    (0x10CA0A183C314710#64, .vaddw gv 33 34 (.wide 35) false true),
    (0x11CA0A183C314710#64, .vsubw gv 33 34 (.wide 35) false true),
    (0x12CA0A183C310050#64, .vmulw gv 33 34 .xa false true),
    (0x13CA0A183C3100B0#64, .vmacc gv 33 34 .xb true true),
    (0x14CA0A183C3100C0#64, .vnsrl gv 33 34 .ximm false false),
    (0x15CA0A183C314610#64, .vnclip gv 33 34 (.vs2 35) false true),
    (0x16CA0A183C310020#64, .vabs gv 33 34 true),
    (0x17CA0A183C310090#64, .vavg gv 33 34 .xb false true)] = true := by decide +kernel

theorem test_decode_vector_float : reads .va [
    (0x20CA0A183C314600#64, .vfadd gv 33 34 (.vs2 35) .rne),
    (0x21CA0A183C310048#64, .vfsub gv 33 34 .xa .rtz),
    (0x22CA0A183C310090#64, .vfmul gv 33 34 .xb .rdn),
    (0x23CA0A183C3100D8#64, .vfdiv gv 33 34 .ximm .rup),
    (0x24CA0A183C310020#64, .vfsqrt gv 33 34 .rmm),
    (0x25CA0A183C310040#64, .vfmin gv 33 34 .xa),
    (0x26CA0A183C310080#64, .vfmax gv 33 34 .xb),
    (0x27CA0A183C3100C8#64, .vfma gv 33 34 .ximm .rtz),
    (0x28CA0A183C314610#64, .vfms gv 33 34 (.vs2 35) .rdn),
    (0x29CA0A183C310058#64, .vfnma gv 33 34 .xa .rup),
    (0x2ACA0A183C3100A0#64, .vfnms gv 33 34 .xb .rmm),
    (0x2CCA0A183C310000#64, .vfabs gv 33 34),
    (0x2DCA0A183C310000#64, .vfneg gv 33 34),
    (0x2ECA0A183C310080#64, .vfsgnj gv 33 34 .xb),
    (0x2FCA0A183C314718#64, .vfwadd gv 33 34 (.wide 35) .rup),
    (0x30CA0A183C314620#64, .vfwmul gv 33 34 (.vs2 35) .rmm),
    (0x31CA0A183C314728#64, .vfwma gv 33 34 (.wide 35) .sr),
    (0x32CA0A183C310000#64, .vfcvt gv 33 34 .rne),
    (0x36CA0A183C310000#64, .vfwcvt gv 33 34),
    (0x2BCA0A183C3100C0#64, .vfclamp gv 33 34 .ximm),
    (0x33CA0A183C31020C#64, .vfcvti gv 33 34 true .rtz true),
    (0x34CA0A183C310210#64, .vicvtf gv 33 34 true .rdn),
    (0x35CA0A183C31002C#64, .vfncvt gv 33 34 .sr true)] = true := by decide +kernel

theorem test_decode_vector_move : reads .va [
    (0x40CA0A183C314609#64, .vcmp gv 33 34 (.vs2 35) .leu),
    (0x41CA0A183C3100C7#64, .vfcmp gv 33 34 .ximm .le),
    (0x44CA0A183C204600#64, .vmv gv 33 (.vs2 35)),
    (0x45CA0A183C310080#64, .vmerge gv 33 34 .xb),
    (0x46CA0A183AB10040#64, .vext gv 21 34 .xa),
    (0x47CA0A183C2000C0#64, .vins gv 33 .ximm),
    (0x48CA0A183C200000#64, .vid gv 33)] = true := by decide +kernel

theorem test_decode_predicate : reads .va [
    (0x50CA0A183E300000#64, .plogic gv 99),
    (0x51CA0A183E300000#64, .pset gv 99),
    (0x52CA0A183E300002#64, .psets gv 99 true),
    (0x53CA0A183E300000#64, .pclr gv 99),
    (0x54CA0A183E3C8000#64, .psbf gv 99 100),
    (0x55CA0A183E3C8000#64, .psif gv 99 100),
    (0x56CA0A183E3C8000#64, .psof gv 99 100),
    (0x57CA0A18395C8000#64, .pcount gv 21 100),
    (0x58CA0A18395C8000#64, .pffs gv 21 100),
    (0x59FF0000063C8000#64, .pkill 99 100),
    (0x5ACA0A183E342000#64, .pfromv gv 99 33),
    (0x5BCA0A183A1C8000#64, .ptov gv 33 100),
    (0x70CA0A18380C803F#64, .vskip gv 100 63#6)] = true := by decide +kernel

theorem test_decode_scale : reads .va [
    (0x60CA0A183AAB2E00#64, .kadd gv 21 22 (.ks 23)),
    (0x61CA0A183AAB0040#64, .ksub gv 21 22 (.sel .xa)),
    (0x62CA0A183AAB0080#64, .kmax gv 21 22 (.sel .xb)),
    (0x63CA0A183AAB00C0#64, .kmin gv 21 22 (.sel .ximm)),
    (0x64CA0A183AA02E00#64, .kmov gv 21 23),
    (0x65CA0A183AA00040#64, .kset gv 21 .xa),
    (0x66CA0A183AB10080#64, .kfromv gv 21 34 .xb),
    (0x67CA0A183C2A8000#64, .vbind gv 33 21),
    (0x68CA0A183C200000#64, .vunbind gv 33),
    (0x71CA0A1838A00080#64, .bfop gv 5 .xb)] = true := by decide +kernel

theorem test_decode_vector_memory : reads .vm [
    (0x01CA0A183C200030#64, .vld gv 33 ⟨true, true, false⟩),
    (0x02CA0A183C200008#64, .vlds gv 33 ⟨false, false, true⟩),
    (0x03CA0A183C204618#64, .vldx gv 33 35 ⟨false, true, true⟩),
    (0x04CA0A183C200010#64, .vldff gv 33 ⟨false, true, false⟩),
    (0x05FF0000042A8000#64, .vldz 33 21),
    (0x06CA0A183C2B0008#64, .vldk gv 33 22 ⟨false, false, true⟩),
    (0x08CA0A183C200018#64, .vst gv 33 ⟨false, true, true⟩),
    (0x09CA0A183C200010#64, .vsts gv 33 ⟨false, true, false⟩),
    (0x0ACA0A183C204608#64, .vstx gv 33 35 ⟨false, false, true⟩),
    (0x0BCA0A183C2B0008#64, .vstk gv 33 22 ⟨false, false, true⟩),
    (0x10CA0A183C24C610#64, .vamo gv 33 35 .fadd ⟨false, true, false⟩),
    (0x18CA0A183E300018#64, .pld gv 99 ⟨false, true, true⟩),
    (0x19CA0A183E300008#64, .pst gv 99 ⟨false, false, true⟩),
    (0x1ACA0A183AA00010#64, .kld gv 21 ⟨false, true, false⟩),
    (0x1BCA0A183AA00008#64, .kst gv 21 ⟨false, false, true⟩),
    (0x20CA0A183C22AA00#64, .strmbind gv 33 5 21),
    (0x21CA0A1838028000#64, .strmunbind gv 5),
    (0x28CA0A1838A00018#64, .bfseq gv 5 ⟨false, true, true⟩),
    (0x29CA0A1838A00008#64, .bftab gv 5 ⟨false, false, true⟩),
    (0x30CA0A1838008010#64, .vpref gv true ⟨false, true, false⟩)] = true := by decide +kernel

theorem test_decode_pass : reads .bf [
    (0x01CA0A183C315D1C#64, .bfpass gv 33 34 5 6 35 2#2),
    (0x02CA0A183C315D1A#64, .bfpassKp gv 33 34 5 6 35 1#2)] = true := by decide +kernel

theorem test_decode_tile : reads .md [
    (0x01CA0A183C228040#64, .mdrn gv 33 5 .xa),
    (0x02CA0A183C228080#64, .mdrnt gv 33 5 .xb),
    (0x03CA0A183C2280C0#64, .mput gv 33 5 .ximm)] = true := by decide +kernel


/-! ### Ill-formed terms, one for each check, and a well-formed one -/

theorem test_wf_scalar :
    [Instr.cmp gs 3 1 2 .eq, .bc gs 0 1, .fcmp gs 3 1 2 .eq .f32, .fcmp gs 2 1 2 .ltu .f32, .strmcfg gs 0 1 2 3 4 false 5,
      .mshape gs 1 2 true].all (fun i => !i.wf) = true ∧
    [Instr.cmp gs 14 1 2 .eq, .bc gs 31 1, .fcmp gs 2 1 2 .le .f32, .strmcfg gs 0 1 2 3 4 true 5, .strmcfg gs 0 1 2 3 4 false 0,
      .mshape gs 1 0 true, .mshape gs 1 2 false].all Instr.wf = true := by decide +kernel

theorem test_wf_vector :
    [Instr.vadd gt 1 2 (.wide 3) true true, .vadd gt 1 2 .xa false true, .vmulh gt 1 2 .xa true false, .vnclip gt 1 2 .xa true false,
      .vand gt 1 2 .xa false true, .vsll gt 1 2 .xa true false, .vfadd gt 1 2 (.wide 3) .rne, .vfwmul gt 1 2 (.wide 3) .rne,
      .vfmin gt 1 2 (.wide 3), .vcmp gt 1 2 (.wide 3) .eq, .vfcmp gt 1 2 .xa .geu, .vmv gt 1 (.wide 3), .vmerge gt 1 2 (.wide 3),
      .pkill 5 4, .vskip gt 1 0, .vld gt 1 ⟨true, false, true⟩, .vlds gt 1 ⟨true, false, true⟩, .vldx gt 1 2 ⟨true, false, true⟩,
      .vldff gt 1 ⟨true, false, false⟩, .vst gt 1 ⟨true, false, false⟩, .vstx gt 1 2 ⟨true, false, false⟩,
      .vldk gt 1 2 ⟨false, true, false⟩, .pld gt 1 ⟨true, false, false⟩, .kld gt 1 ⟨true, false, false⟩,
      .bfseq gt 1 ⟨true, false, false⟩, .vpref gt false ⟨true, false, false⟩, .bfpass gt 0 8 0 0 0 3].all (fun i => !i.wf) = true ∧
    [Instr.vadd gt 1 2 .ximm true true, .vaddw gt 2 4 (.wide 6) true true, .vfwadd gt 2 4 (.wide 6) .rne, .pkill 5 5, .pkill 5 0,
      .vskip gt 1 63, .vld gt 1 ⟨true, true, false⟩, .vst gt 1 ⟨false, true, true⟩, .bfpassKp gt 0 8 0 0 0 2].all Instr.wf = true := by
  decide +kernel

theorem test_wf_event :
    [Instr.interrupt 640 0, .scalarCommit 640, .copy 640, .halt .driver 640, .sequencerDecision 160, .tableWalk 160 0 0, .dataFrame 16 [],
      .laneFailure 16 0, .portRetrainComplete 16, .rasCtlPop 32, .powerMeasurement 33 0, .shedStepRise 32].all (fun i => !i.wf) = true ∧
    [Instr.interrupt 639 0, .scalarCommit 0, .sequencerDecision 159, .dataFrame 15 [], .rasCtlPop 31, .moduleReset].all Instr.wf = true := by
  decide +kernel

/-! ### One step, by hand from the rules -/

/-- Two operands in s1 and s2, and the result of an R-layout instruction in s3. -/
def alu (mk : SG → SReg → SReg → SReg → Instr) (a b r : Nat) : Bool :=
  runs (regsAre [a, b]) (mk gs 3 1 2) fun t => t.me.rdS 3 == w64 r && t.me.sc.pc == tcmBase + 8 && t.me.sc.fflags == 0

/-- R140. -/
theorem test_integer_register :
    alu .add (2 ^ 64 - 1) 2 1 = true ∧ alu .sub 1 2 (2 ^ 64 - 1) = true ∧ alu .and 12 10 8 = true ∧ alu .or 12 10 14 = true ∧
    alu .xor 12 10 6 = true ∧ alu .sll 3 65 6 = true ∧ alu .srl (2 ^ 63) 63 1 = true ∧ alu .sra (2 ^ 63) 127 (2 ^ 64 - 1) = true ∧
    alu .mul (2 ^ 63) 3 (2 ^ 63) = true ∧ alu .mulh (2 ^ 64 - 1) 5 (2 ^ 64 - 1) = true ∧ alu .mulhu (2 ^ 64 - 1) 5 4 = true ∧
    alu .div (2 ^ 63) (2 ^ 64 - 1) (2 ^ 63) = true ∧ alu .div (2 ^ 64 - 7) 2 (2 ^ 64 - 3) = true ∧ alu .divu 7 0 (2 ^ 64 - 1) = true ∧
    alu .rem (2 ^ 63) (2 ^ 64 - 1) 0 = true ∧ alu .rem (2 ^ 64 - 7) 2 (2 ^ 64 - 1) = true ∧ alu .remu 7 0 7 = true ∧
    alu .min (2 ^ 63) 1 (2 ^ 63) = true ∧ alu .max (2 ^ 63) 1 1 = true ∧ alu .minu (2 ^ 63) 1 1 = true ∧
    alu .maxu (2 ^ 63) 1 (2 ^ 63) = true := by decide +kernel

/-- R141: the immediate of ADD is signed, that of AND is not, LIH fills the upper 40 bits; s0 stays 0. -/
theorem test_integer_immediate :
    runs (regsAre [5]) (.addImm gs 2 1 0xFFFFFF) (fun t => t.me.rdS 2 == 4) = true ∧
    runs (regsAre [2 ^ 64 - 1]) (.andImm gs 2 1 0xFFFFFF) (fun t => t.me.rdS 2 == 0xFFFFFF) = true ∧
    runs (regsAre [1]) (.orImm gs 2 1 0x800000) (fun t => t.me.rdS 2 == 0x800001) = true ∧
    runs (regsAre [0]) (.xorImm gs 2 1 0x800000) (fun t => t.me.rdS 2 == 0x800000) = true ∧
    runs (regsAre [1]) (.sllImm gs 2 1 63) (fun t => t.me.rdS 2 == w64 (2 ^ 63)) = true ∧
    runs (regsAre [2 ^ 63]) (.srlImm gs 2 1 63) (fun t => t.me.rdS 2 == 1) = true ∧
    runs (regsAre [2 ^ 63]) (.sraImm gs 2 1 62) (fun t => t.me.rdS 2 == w64 (2 ^ 64 - 2)) = true ∧
    runs (regsAre []) (.lih gs 2 0x10000001) (fun t => t.me.rdS 2 == w64 (0xFFFFFFFFF0000001 * 2 ^ 24)) = true ∧
    runs (regsAre [5]) (.addImm gs 0 1 1) (fun t => t.me.rdS 0 == 0 && t.me.sc.pc == tcmBase + 8) = true := by decide +kernel

/-- Memory at `tcm` holds the bytes 80 81 82 83 84 85 86 87 (in ascending order). -/
def filled (s : State) : State :=
  { s with sto := { s.sto with mem := Memory.write s.sto.mem (tcmLoc 0 0x1000) 8 0x8786858483828180 } }

/-- R143, R83: little-endian, extended by sign or by zeros. -/
theorem test_load :
    (let s := filled (regsAre [tcm])
     let loads (mk : SG → SReg → SReg → BitVec 24 → Instr) (r : Nat) : Bool := runs s (mk gs 2 1 0) fun t => t.me.rdS 2 == w64 r
     loads .ldB 0xFFFFFFFFFFFFFF80 && loads .ldH 0xFFFFFFFFFFFF8180 && loads .ldW 0xFFFFFFFF83828180 && loads .ldD 0x8786858483828180 &&
     loads .ldBu 0x80 && loads .ldHu 0x8180 && loads .ldWu 0x83828180 &&
     runs s (.ldB gs 2 1 3) (fun t => t.me.rdS 2 == w64 0xFFFFFFFFFFFFFF83)) = true := by decide +kernel

/-- R143: the low bytes of sd, and no others. -/
theorem test_store :
    (let s := filled (regsAre [tcm, 0x1122334455667788])
     let stores (mk : SG → SReg → SReg → BitVec 24 → Instr) (r : Nat) : Bool :=
       runs s (mk gs 2 1 0) fun t => Memory.read t.sto.mem (tcmLoc 0 0x1000) 8 == r
     stores .stB 0x8786858483828188 && stores .stH 0x8786858483827788 && stores .stW 0x8786858455667788 &&
     stores .stD 0x1122334455667788) = true := by decide +kernel

/-- R84, R95, R143, R325: with TVEC at 0x4000, a misaligned load and an address beyond bit 54 are taken there; with TVEC 0 the
member ends. -/
theorem test_access_faults :
    (let s (a v : Nat) := hartIs fun h => let h := regs [a] h; { h with trap := { h.trap with tvec := w64 v } }
     runs (s (tcm + 1) 0x4000) (.ldH gs 2 1 0) (fun t => t.me.trap.tcause == 6 && t.me.trap.tval == w64 (tcm + 1) && t.me.sc.pc == 0x4000 &&
       t.me.trap.tpc == tcmBase && t.me.sc.mode == .sup) &&
     runs (s (2 ^ 55) 0x4000) (.stB gs 2 1 0) (fun t => t.me.trap.tcause == 5 && t.me.trap.tdet == 0x100) &&
     runs (s (tcm + 1) 0) (.ldH gs 2 1 0) (fun t => t.me.q.status == .free)) = true := by decide +kernel

/-- R144 and R145: the pair of a compare; targets; BC counts down to 0. -/
theorem test_compare_branch :
    runs (regsAre [2 ^ 63, 1]) (.cmp gs 2 1 2 .lt) (fun t => t.me.rdC 2 && !t.me.rdC 3) = true ∧
    runs (regsAre [2 ^ 63, 1]) (.cmp gs 2 1 2 .ltu) (fun t => !t.me.rdC 2 && t.me.rdC 3) = true ∧
    runs (regsAre [1, 1]) (.cmp gs 14 1 2 .ge) (fun t => t.me.rdC 14 && !t.me.rdC 15) = true ∧
    runs (regsAre []) (.b gs 0x1FFFFFFF) (fun t => t.me.sc.pc == tcmBase - 8) = true ∧
    runs (regsAre []) (.b gn 4) (fun t => t.me.sc.pc == tcmBase + 8) = true ∧
    runs (regsAre [1]) (.bc gs 1 4) (fun t => t.me.rdS 1 == 0 && t.me.sc.pc == tcmBase + 8) = true ∧
    runs (regsAre [2]) (.bc gs 1 4) (fun t => t.me.rdS 1 == 1 && t.me.sc.pc == tcmBase + 32) = true ∧
    runs (regsAre [2]) (.call gs 1 4) (fun t => t.me.rdS 1 == tcmBase + 8 && t.me.sc.pc == tcmBase + 32) = true ∧
    runs (regsAre [tcm]) (.jr gs 1 1) (fun t => t.me.rdS 1 == tcmBase + 8 && t.me.sc.pc == w64 tcm) = true ∧
    runs (regsAre [tcm]) (.ret gs 1) (fun t => t.me.sc.pc == w64 tcm) = true := by decide +kernel

/-- Elements 0 to 2 of p5 are 1, 0, 1; VL is 3. -/
def preds (vl : Nat) : State :=
  hartIs fun h => { h with vec := { (((h.wrP 5 0 true).wrP 5 1 false).wrP 5 2 true).vec with vl := vl } }

/-- R147: only elements below VL count; none of no element is set. -/
theorem test_vector_branch :
    runs (preds 3) (.bany gs 5 2) (fun t => t.me.sc.pc == tcmBase + 16) = true ∧
    runs (preds 3) (.ball gs 5 2) (fun t => t.me.sc.pc == tcmBase + 8) = true ∧
    runs (preds 1) (.ball gs 5 2) (fun t => t.me.sc.pc == tcmBase + 16) = true ∧
    runs (preds 3) (.bnone gs 5 2) (fun t => t.me.sc.pc == tcmBase + 8) = true ∧
    runs (preds 0) (.bnone gs 5 2) (fun t => t.me.sc.pc == tcmBase + 16) = true := by decide +kernel

/-- R148 to R152 in F32: 1 + 2 = 3; 1/3 by RNE and RUP; 1/0; sqrt 4; 2·3 + 1; an sNaN; −0 below +0; classes. -/
theorem test_float :
    (let f (a b : Nat) (i : Instr) (r : Nat) (fl : Nat) : Bool :=
       runs (regsAre [a, b, 0x3F800000]) i fun t => t.me.rdS 4 == w64 r && t.me.sc.fflags == BitVec.ofNat 6 fl
     f 0x3F800000 0x40000000 (.fadd gs 4 1 2 (.mode .rne) .f32) 0x40400000 0 &&
     f 0x3F800000 0x40000000 (.fsub gs 4 1 2 (.mode .rne) .f32) 0xBF800000 0 &&
     f 0x40000000 0x40400000 (.fmul gs 4 1 2 (.mode .rne) .f32) 0x40C00000 0 &&
     f 0x40000000 0x40400000 (.fma gs 4 1 2 3 (.mode .rne) .f32) 0x40E00000 0 &&
     f 0x3F800000 0x40400000 (.fdiv gs 4 1 2 (.mode .rne) .f32) 0x3EAAAAAB 1 &&
     f 0x3F800000 0x40400000 (.fdiv gs 4 1 2 (.mode .rtz) .f32) 0x3EAAAAAA 1 &&
     f 0xBF800000 0x00000000 (.fdiv gs 4 1 2 (.mode .rne) .f32) 0xFF800000 8 &&
     f 0x40800000 0 (.fsqrt gs 4 1 (.mode .rne) .f32) 0x40000000 0 &&
     f 0x7F800001 0x40400000 (.fmin gs 4 1 2 .f32) 0x40400000 16 &&
     f 0x80000000 0x00000000 (.fmax gs 4 1 2 .f32) 0 0 &&
     f 0x00000001 0 (.fclass gs 4 1 .f32) (2 ^ 5) 0 && f 0xFF800000 0 (.fclass gs 4 1 .f32) 1 0 &&
     f (2 ^ 64 - 1) 0 (.fcvt gs 4 1 (.mode .rne) .f32 4) 0xBF800000 0 &&
     f 0x4F800000 0 (.fcvt gs 4 1 (.mode .rtz) .f32 8) 0x7FFFFFFF 16) = true ∧
    runs (regsAre [0x7FC00000, 0x3F800000]) (.fcmp gs 2 1 2 .lt .f32) (fun t => !t.me.rdC 2 && t.me.rdC 3 && t.me.sc.fflags == 16) = true := by
  decide +kernel

/-- R153 to R157: FFLAGS keeps six bits; the condition word; SETVL takes the least of the request, the limit and VLMAX. -/
theorem test_control :
    runs (regsAre [0xFFF]) (.csrw gs 1 0x010) (fun t => t.me.sc.fflags == 0x3F) = true ∧
    runs (hartIs fun h => { regs [0x0C] h with sc := { (regs [0x0C] h).sc with fflags := 0x03 } }) (.csrs gs 1 0x010)
      (fun t => t.me.sc.fflags == 0x0F && t.me.rdS 1 == 0x0C) = true ∧
    runs (hartIs fun h => { regs [0x02] h with sc := { (regs [0x02] h).sc with fflags := 0x03 } }) (.csrc gs 1 0x010)
      (fun t => t.me.sc.fflags == 0x01) = true ∧
    runs (regsAre []) (.csrr gs 2 0x033) (fun t => t.me.rdS 2 == 0) = true ∧
    runs (regsAre [0xFFFE]) (.csrwC gs 1) (fun t => t.me.rdC 1 && t.me.rdC 15) = true ∧
    runs (hartIs fun h => h.wrC 3 true) (.csrrC gs 2) (fun t => t.me.rdS 2 == 9) = true ∧
    runs (regsAre [100, 64]) (.setvl gs 3 1 2 0x6002) (fun t => t.me.vec.vl == 64 && t.me.rdS 3 == 64 && t.me.vec.stripno == 1) = true ∧
    runs (regsAre [5000]) (.setvl gs 3 1 0 0x6000) (fun t => t.me.vec.vl == 2048) = true ∧
    runs (regsAre [8]) (.setvlN gs 3 1 0 0x6002) (fun t => t.me.vec.vl == 8 && t.me.vec.plive == 0) = true ∧
    runs (regsAre []) (.vconf gs 2) (fun t => t.me.shape.nnext == 2) = true := by decide +kernel

/-- R241, R242, R247, R256: atomics give the old value; a queue takes its entry; the latch lets WFE complete once. -/
theorem test_synchronisation :
    (let s := filled (regsAre [tcm, 1, 0x83828180])
     let mem (t : State) : Nat := Memory.read t.sto.mem (tcmLoc 0 0x1000) 4
     runs s (.amo gs 4 1 2 .die false false false .add) (fun t => t.me.rdS 4 == w64 0xFFFFFFFF83828180 && mem t == 0x83828181) &&
     runs s (.amo gs 4 1 2 .die false false false .maxu) (fun t => mem t == 0x83828180) &&
     runs s (.amo gs 4 1 2 .die false false false .max) (fun t => mem t == 1) &&
     runs s (.cas gs 3 1 2 .die false false false) (fun t => t.me.rdS 3 == w64 0xFFFFFFFF83828180 && mem t == 1) &&
     runs s (.cas gs 4 1 2 .die false false false) (fun t => mem t == 0x83828180) &&
     runs s (.epush gs 0 2) (fun t => (t.me.engine 0).cmd == [1#64]) &&
     runs s (.epop gs 2 0) (fun t => t.me.sc.pc == tcmBase) &&
     runs s (.wfe gs) (fun t => t.me.sc.pc == tcmBase) && runs s (.fence gs .all .die) (fun t => t.me.sc.pc == tcmBase + 8)) = true ∧
    runs (hartIs Hart.setLatch) (.wfe gs) (fun t => t.me.sc.pc == tcmBase + 8 && !t.me.sc.latch) = true := by decide +kernel

/-- R255, R323, R324: SVC goes to TVEC with TPC behind it, and ERET returns there in the mode that it came from. -/
theorem test_trap_and_return :
    runs (hartIs fun h => { h with trap := { h.trap with tvec := 0x4000, tstat := 1 } }) (.svc gs 7)
      (fun t => t.me.trap.tcause == 0x18 && t.me.trap.tval == 7 && t.me.trap.tpc == tcmBase + 8 && t.me.sc.pc == 0x4000 &&
        t.me.trap.tstat == 2 && runs t (.eret gs) fun u => u.me.sc.pc == tcmBase + 8 && u.me.sc.mode == .user && u.me.trap.tstat == 3) = true ∧
    runs (hartIs fun h => { h with trap := { h.trap with tvec := 0x4000, tstat := 1 } }) (.eret gs)
      (fun t => t.me.trap.tcause == 2 && t.me.sc.pc == 0x4000) = true := by decide +kernel

/-- Hart 0 with SEW 32 and VL 2; v1 holds 5 and 2^32 − 1, v2 holds 7 and 2. -/
def vec (f : Hart → Hart) : State :=
  hartIs fun h => f ((((({ h with vec := { h.vec with vl := 2, vtype := 0x6002 } }).wrElem 1 0 32 5).wrElem 1 1 32 (2 ^ 32 - 1)).wrElem 2 0 32 7).wrElem
    2 1 32 2)

/-- The two elements of v3 after a word, of width `w`. -/
def gives (w : Nat) (i : Instr) (x y : Nat) : Bool := runs (vec id) i fun t => t.me.rdE 3 0 w == x && t.me.rdE 3 1 w == y

/-- R163: element results. -/
theorem test_vector_integer :
    gives 32 (.vadd gt 3 1 (.vs2 2) false false) 12 1 = true ∧ gives 32 (.vsub gt 3 1 (.vs2 2) false false) (2 ^ 32 - 2) (2 ^ 32 - 3) = true ∧
    gives 32 (.vadd gt 3 1 (.vs2 2) true true) 12 (2 ^ 32 - 1) = true ∧ gives 32 (.vmul gt 3 1 (.vs2 2) false false) 35 (2 ^ 32 - 2) = true ∧
    gives 32 (.vmulh gt 3 1 (.vs2 2) false true) 0 1 = true ∧ gives 32 (.vdiv gt 3 1 (.vs2 2) false false) 0 0 = true ∧
    gives 32 (.vrem gt 3 1 (.vs2 2) false false) 5 (2 ^ 32 - 1) = true ∧ gives 32 (.vmin gt 3 1 (.vs2 2) false false) 5 (2 ^ 32 - 1) = true ∧
    gives 32 (.vmax gt 3 1 (.vs2 2) false true) 7 (2 ^ 32 - 1) = true ∧ gives 32 (.vsll gt 3 1 (.vs2 2) false false) 640 (2 ^ 32 - 4) = true ∧
    gives 32 (.vsra gt 3 1 (.vs2 2) false false) 0 (2 ^ 32 - 1) = true ∧ gives 32 (.vavg gt 3 1 (.vs2 2) false false) 6 1 = true ∧
    gives 32 (.vabs gt 3 1 false) 5 1 = true ∧ gives 32 (.vid gt 3) 0 1 = true ∧ gives 32 (.vmv gt 3 (.vs2 2)) 7 2 = true ∧
    gives 32 (.vmerge gnv 3 1 (.vs2 2)) 7 2 = true := by decide +kernel

/-- R160: at 2·SEW, in the group of two registers at v4. -/
theorem test_vector_widen :
    runs (vec id) (.vaddw gt 4 1 (.vs2 2) false false) (fun t => t.me.rdE 4 0 64 == 12 && t.me.rdE 4 1 64 == 1) = true ∧
    runs (vec id) (.vmulw gt 4 1 (.vs2 2) false true) (fun t => t.me.rdE 4 1 64 == (2 ^ 32 - 1) * 2) = true := by decide +kernel

/-- R169 and R197 to R203: a compare writes both predicates of its pair; counts and searches go to scalar registers. -/
theorem test_vector_predicate :
    runs (vec id) (.vcmp gt 3 1 (.vs2 2) .ltu) (fun t => t.me.pBit 6 0 && !t.me.pBit 7 0 && !t.me.pBit 6 1 && t.me.pBit 7 1) = true ∧
    runs (vec id) (.vcmp gt 3 1 (.vs2 2) .lt) (fun t => t.me.pBit 6 0 && t.me.pBit 6 1) = true ∧
    runs (vec fun h => (h.wrP 9 0 false).wrP 9 1 true) (.pcount gt 3 9) (fun t => t.me.rdS 3 == 1) = true ∧
    runs (vec fun h => (h.wrP 9 0 false).wrP 9 1 true) (.pffs gt 3 9) (fun t => t.me.rdS 3 == 1) = true ∧
    runs (vec fun h => (h.wrP 9 0 false).wrP 9 1 true) (.psbf gt 8 9) (fun t => t.me.pBit 8 0 && !t.me.pBit 8 1) = true ∧
    runs (vec fun h => h.wrP 9 0 true) (.pkill 9 0) (fun t => !t.me.vec.plive.getLsbD 9 && t.me.rdP 9 == 0) = true := by decide +kernel

/-- R229, R238: posted commands take their place in the queue, and MZERO clears its tile. -/
theorem test_matrix :
    runs (hartIs fun h => { h with shape := { h.shape with talloc := 1 } }) (.mzero gs 0)
      (fun t => (t.core 0).mq.length == 1 && t.matrixBusy 0 &&
        runs t (.matrixCommandStart 0) fun u => u.matrixBusy 0 && runs u (.matrixCommandComplete 0) fun v => !v.matrixBusy 0) = true ∧
    runs (regsAre [0x0102030405060708]) (.mshape gs 2 1 false) (fun t => t.me.sc.msh == 0x0102030405060708 && t.me.rdS 2 == 0) = true := by
  decide +kernel

/-- R20 and R31: the header of the manual's example hands off three words; reset goes back to State.reset. -/
theorem test_events :
    runs (at_ 0x5A20000021800000) (.convoyHandoff 0) (fun t => (t.hart 0).q.queue.length == 1 && (t.hart 0).sc.pc == tcmBase + 32) = true ∧
    runs (regsAre [1]) .moduleReset (fun t => t == State.reset) = true ∧
    runs (regsAre []) (.interrupt 0 5) (fun t => (t.hart 0).q.irq == [5#64] && (t.hart 0).sc.latch) = true ∧
    runs (regsAre []) .modulePowerRemoval (fun t => !t.mgmt.powered) = true := by decide +kernel

/-! ### Witnesses: states that meet the hypotheses of the statements, clause by clause -/

/-- State.Commits for a guard that is always true, as a test. -/
def com (s : State) (rs : List SReg) : Bool := s.me.atCommit && s.me.guard gs && !s.me.pending rs

theorem com_iff (s : State) (rs : List SReg) : com s rs = true ↔ s.Commits gs rs := by
  simp [com, State.Commits, and_assoc]

/-- State.Drained as a test. -/
def dry (s : State) : Bool := s.me.q.run.isNone

theorem dry_iff (s : State) : dry s = true ↔ s.Drained := by simp [dry, State.Drained]

/-- VReady as a test. -/
def ready (s : State) (i : Instr) : Bool :=
  decide (s.me.q.status = .running) && i.wf && sewLegal (s.entry i).sew i &&
    (s.me.q.run.isSome || (vtLegal (s.entry i).vtype && slotLegal s.me (s.entry i) i [] []))

theorem ready_imp {s : State} {i : Instr} (h : ready s i = true) : VReady s i := by
  simp only [ready, Bool.and_eq_true, Bool.or_eq_true, decide_eq_true_eq] at h
  refine ⟨h.1.1.1, h.1.1.2, h.1.2, fun hr => ?_⟩
  rcases h.2 with k | k
  · simp [hr] at k
  · exact k

/-- A convoy of one VADD on two elements, and hart 0 with that convoy started. -/
def convoy : QEntry := ⟨0, [], [.vadd gt 3 1 (.vs2 2) false false], 1, 2, 0x6002, 0x38000#64, 0, 0, 0, 0, none, false, 0, [], []⟩
def started (f : Hart → Hart) : State := hartIs fun h => let h := f h; { h with q := { h.q with run := some ⟨convoy, 0, [], false, [], []⟩ } }

/-- Virtual addresses from 0 on map to the same physical addresses by one block, in ASID 0 of partition 0, which owns core 0,
ASID 0 and the pages below 2^29 (R85, R274). -/
def mapped (s : State) : State :=
  let m := Memory.write (Memory.write s.sto.mem 0x1000000 8 0x1010003) 0x1010000 8 0x7D
  let s := { s with sto := { s.sto with mem := m } }
  let s := s.updAsid 0 fun a => { a with root := some 0x1000000 }
  s.updPart 0 fun p => { p with exists_ := true, cores := [0], asids := [0], pages := [(0, 8192)] }

/-- StepRunsDecoded: an ADD at the program counter. ConvoyHandoff: the manual's header there. -/
theorem test_witness_step :
    (let s := at_ 0x007FC00000000000
     s.mgmt.powered && s.inputs.isEmpty && s.turn == .hart 0 && (s.hart 0).q.status == .running &&
     (s.gang (s.hart 0).shape.launch).stopReq.isNone && !s.paused 0 && (s.takeIrq 0).isNone && (s.hart 0).q.run.isNone &&
     (s.hart 0).q.queue.isEmpty &&
     match s.fetchWord 0 (s.hart 0).sc.pc with
     | .ok (t, w) => !isHeader w && (decodeIn .sc w).toOption == some (.add gs 0 0 0) && ((t.hart 0).bpBefore (t.hart 0).sc.pc 0).isNone
     | .error _ => false) = true ∧
    (let s := at_ 0x5A20000021800000
     s.mayIssue 0 &&
     match s.fetchWord 0 (s.hart 0).sc.pc with
     | .ok (t, w) => isHeader w && (t.hart 0).vec.vskipc == 0 && decide ((t.hart 0).q.queue.length < 32) && (t.hart 0).owed.isEmpty &&
        (t.hart 0).q.step.isNone
     | .error _ => false) = true := by decide +kernel

/-- MemoryInvariantStep: the reset state, and a state that lists bytes. -/
theorem test_witness_memory_invariant :
    State.reset.sto.mem.wf = true ∧ (filled (regsAre [])).sto.mem.wf = true ∧ (filled (regsAre [])).sto.mem ≠ [] ∧
    (match step (at_ 0x007FC00000000000) with | .next t => t.sto.mem.wf | _ => false) = true ∧ (at_ 0x007FC00000000000).sto.mem.wf = true := by
  decide +kernel

/-- EncodingRoundTrip: a well-formed instruction that has a word. FixedRegisters and ElementWrites: register numbers at the ends of
their ranges, elements of each width, the last register that a group reaches. -/
theorem test_witness_encoding_and_registers :
    Instr.wf (.add gs 31 31 31) = true ∧ (encode (.add gs 31 31 31)).isSome = true ∧ (31#5) ≠ 0#5 ∧ (15#4) ≠ 0#4 ∧ 127 ≠ 0 ∧ 127 < 128 ∧
    1 ≤ (at_ 0).me.shape.g ∧ 7 + 255 * 64 / (at_ 0).me.vlen < 64 ∧ 56 + 8 ≤ 64 := by decide +kernel

/-- GuardFalse: a false guard at the commit point. -/
theorem test_witness_guard :
    guardOf (.add gn 1 2 3) = some gn ∧ (regsAre []).me.atCommit = true ∧ (regsAre []).me.guard gn = false := by decide +kernel

/-- Committing states: with no convoy, and with a started one that writes none of the registers named. -/
theorem test_witness_commits :
    com (regsAre [1, 2]) [3, 1, 2] = true ∧ com (regsAre []) [] = true ∧ com (started id) [3, 1, 2] = true ∧
    dry (regsAre []) = true ∧ dry (started id) = false := by decide +kernel

/-- IntegerImmediate: shift amounts beyond 63. -/
theorem test_witness_immediate : (0x40#24).extractLsb' 6 18 ≠ 0 ∧ (0x800000#24).extractLsb' 6 18 ≠ 0 := by decide

/-- ScalarLoadsStores and MemoryFrame: accesses in the TCM and through a table entry, of every size. -/
theorem test_witness_accesses :
    ([1, 2, 4, 8].all fun k =>
      [filled (regsAre [tcm]), mapped (regsAre [0x100000])].all fun s =>
        let va := s.me.rdS 1 + (0#24).signExtend 64
        com s [2, 1] && decide (va.toNat < 2 ^ 55 ∧ va.toNat % k = 0) && ok (s.load s.cur .scalar va k .read) &&
        ok (s.store s.cur .scalar va (toBytes k 5)) && ok (s.locate (s.who s.cur) va .write) && s.sto.latent.isEmpty && !s.holding) = true ∧
    (match (mapped (regsAre [])).locate ((mapped (regsAre [])).who 0) 0x100000 .write with
      | .ok (_, t) => t.entry.isSome && t.loc == 0x100000
      | .error _ => false) = true := by decide +kernel

/-- ScalarAccessFaults: at the edge of the address space, and off by one. -/
theorem test_witness_access_faults :
    (let s (a : Nat) := regsAre [a]
     let va (a : Nat) := (s a).me.rdS 1 + (0#24).signExtend 64
     com (s (2 ^ 55)) [2, 1] && dry (s (2 ^ 55)) && decide (2 ^ 55 ≤ (va (2 ^ 55)).toNat) && decide ((va (2 ^ 55 - 1)).toNat < 2 ^ 55) &&
     ([2, 4, 8].all fun k => decide ((va (2 ^ 55 - 1)).toNat % k ≠ 0)) && !(s 0).me.pending [3]) = true := by decide +kernel

/-- Compare, BranchesAndJumps: even pairs, odd pairs, codes 10 and 15; targets at the edge. -/
theorem test_witness_branches :
    (14#4).extractLsb' 0 1 = 0#1 ∧ (1#5).extractLsb' 0 1 = 1#1 ∧ 10 ≤ ((10#19).extractLsb' 0 4).toNat ∧
    10 ≤ ((15#19).extractLsb' 0 4).toNat ∧ (1#5) ≠ 0#5 ∧
    (let t (a : Nat) := (regsAre [a]).me.rdS 1
     (t (2 ^ 55 - 8)).toNat < 2 ^ 55 ∧ (t (2 ^ 55 - 8)).toNat % 8 = 0 ∧ 2 ^ 55 ≤ (t (2 ^ 55)).toNat ∧
     (t (2 ^ 55 - 1)).toNat < 2 ^ 55 ∧ (t (2 ^ 55 - 1)).toNat % 8 ≠ 0) := by decide +kernel

/-- VectorBranches: a drained queue, a started convoy, a false guard; VL 0 and 4,096. -/
theorem test_witness_vector_branches :
    com (preds 0) [] = true ∧ com (preds 4096) [] = true ∧ dry (preds 4096) = true ∧ (preds 4096).me.vec.vl ≤ 4096 ∧
    com (started id) [] = true ∧ dry (started id) = false ∧ (started id).me.vec.vl ≤ 4096 ∧
    (started id).me.atCommit = true ∧ (started id).me.guard gn = false := by decide +kernel

/-- roundingOf, for a mode in the word and for FRM. -/
theorem test_witness_rounding :
    (let s := hartIs fun h => { h with sc := { h.sc with frm := rmodeCode .rup } }
     roundingOf s.me .dyn ⟨.rup, srRandom s.me.sc.srseed 0 s.me.vec.stripno⟩ ∧
     roundingOf s.me (.mode .rtz) ⟨.rtz, srRandom s.me.sc.srseed 0 s.me.vec.stripno⟩) :=
  ⟨⟨rfl, rfl⟩, rfl, rfl⟩

/-- FloatSpecials, Rounding, FloatMinMaxCompareClass: one encoding of F32 for each case. -/
theorem test_witness_float :
    (let f := fpFmt .f32
     let isInf (v : Nat) := decide (expOf f v = 2 ^ f.we - 1 ∧ fracOf f v = 0)
     let isZero (v : Nat) := decide (v % 2 ^ (f.we + f.wf) = 0)
     f.width == 32 && isInf 0x7F800000 && isInf 0xFF800000 && sigOf f 0xFF800000 && isZero 0 && isZero 0x80000000 &&
     sigOf f 0x80000001 && !isNaN f 0x80000001 && !isZero 0x80000001 && !isInf 0x80000001 && isNaN f 0x7F800001 && isSNaN f 0x7F800001 &&
     isNaN f 0xFFFFFFFF && !isSNaN f 0xFFFFFFFF && !isNaN f 0xFF800000) = true ∧
    (3 % 2 ^ 1 ≠ 0 ∧ 2 * (1 % 2 ^ 2) < 2 ^ 2 ∧ 2 ^ 2 < 2 * (3 % 2 ^ 2) ∧ 2 * (1 % 2 ^ 1) = 2 ^ 1 ∧ 4 % 2 ^ 2 = 0) ∧
    Cond.fpLegal .le = true ∧ (2#3 : BitVec 3) ≠ 0 := by decide +kernel

/-- CsrRegisters and CsrInstructions: registers that exist, are written, are read-only, are supervisor's; users and supervisors. -/
theorem test_witness_csr :
    (let u := regsAre [5]
     let v := hartIs fun h => { h with sc := { h.sc with mode := .sup } }
     com u [1] && dry u && decide (u.me.sc.mode = .user) && decide (v.me.sc.mode ≠ .user) && com v [1] &&
     csrExists 0x010 && csrWritable 0x010 && !csrSup 0x010 && csrExists 0x106 && csrWritable 0x106 && csrSup 0x106 &&
     csrExists 0x000 && !csrWritable 0x000 && !csrExists 0x009 && !csrExists 0xFFF && !csrWritable 0xFFF &&
     !u.csrReadWaits 0 0x010 && !u.csrWriteWaits 0 0x010 && !v.csrReadWaits 0 0x106 && !v.csrWriteWaits 0 0x106 &&
     ([8, 0x10, 0x12, 0x20, 0x23, 0x30, 0x33, 0x40, 0xBF, 0x100, 0x106, 0x180, 0x183].all fun k => csrExists k)) = true := by
  decide +kernel

/-- SetVectorLength and SetVectorLengthNew: legal and reserved types; VSLC 3 and 2; queued matrix commands; gangs of 1 and 2. -/
theorem test_witness_vector_length :
    vtLegal (0x6002#16 : BitVec 16).toNat = true ∧ vtLegal ((0x6002#16).setWidth 64) = true ∧ vtLegal ((0x4002#16).setWidth 64) = false ∧
    com (regsAre [8]) [3, 1, 2] = true ∧ dry (regsAre [8]) = true ∧ (regsAre [8]).matrixReads 0 = false ∧
    ((regsAre [8]).updCore 0 fun c => { c with mq := [⟨0, 0, 0, .mma, 0, 0, 0, 0, 0, 0, 0, 0, 0, 3, 0, none, none⟩] }).matrixReads 0 = true ∧
    (regsAre []).me.shape.gangsize ≤ 1 ∧ 1 < (hartIs fun h => { h with shape := { h.shape with gangsize := 2 } }).me.shape.gangsize := by
  decide +kernel

/-- Atomics: a read-modify-write that succeeds, and a CAS that finds its value or does not. -/
theorem test_witness_atomics :
    ([false, true].all fun dbl =>
      let k := if dbl then 8 else 4
      let s := filled (regsAre [tcm, 5])
      let va := s.me.rdS 1
      com s [3, 1, 2] && decide (va.toNat < 2 ^ 55 ∧ va.toNat % k = 0) && ok (s.rmw s.cur .scalar va k fun bs => some (toBytes k (ofBytes bs + 5))) &&
      ok (s.rmw s.cur .scalar va k fun bs => if ofBytes bs = 0 then some (toBytes k 5) else none) && s.sto.latent.isEmpty &&
      (s.hart 0).q.sheld.isEmpty && (toBytes k 5).length == k) = true := by decide +kernel

/-- A gang of one member, hart 0, with the barrier record `b`. -/
def gang1 (b : Barrier) (s : State) : State := s.updGang 0 fun g => { g with members := [0], live := 1, bar := b }

/-- FencesAndBarrier: not a member, waiting, arriving, the last to arrive; nothing pending, a pending generation, a past one. -/
theorem test_witness_barrier :
    (let s (p : Option (BitVec 16)) (b : Barrier) := gang1 b (hartIs fun h => { h with q := { h.q with barPend := p } })
     let part (s : State) := ((s.performBoth 0).gang (s.performBoth 0).me.shape.launch).bar.part.getLsbD (s.performBoth 0).me.shape.hartid
     let x := s none ⟨0xFFFF, 1, 0, 1⟩
     let b := (x.gang 0).bar
     com x [1] && dry x && part x && x.me.q.barPend.isNone && b.part &&& (b.arrived ||| 1#32 <<< x.me.shape.hartid) == b.part &&
     !part (s none ⟨0, 0, 0, 0⟩) && (s (some 5) ⟨5, 1, 1, 1⟩).me.q.barPend == some 5 && part (s (some 5) ⟨5, 1, 1, 1⟩) &&
     (s (some 4) ⟨5, 1, 0, 1⟩).me.q.barPend == some 4 && ((s none ⟨5, 3, 0, 3⟩).gang 0).bar.part &&& 1 != 3 &&
     (x.gang 0).live.getLsbD 0 && decide (0 < (x.gang 0).members.length)) = true := by decide +kernel

/-- EngineQueues: 15 and 16 entries queued; no result, one, one with a finished command of two entries behind 14 and 15. -/
theorem test_witness_engine_queues :
    (let s (c r f : Nat) := hartIs fun h => h.setEngine 0 ⟨List.replicate c 7, List.replicate r 9, if f = 0 then [] else [List.replicate f 1]⟩
     let e (x : State) := x.me.engine 0
     com (s 15 0 0) [1] && dry (s 15 0 0) && (e (s 15 0 0)).cmd.length == 15 && (e (s 16 0 0)).cmd.length == 16 && (e (s 0 0 0)).res.isEmpty &&
     (e (s 0 15 2)).res.length == 15 && (e (s 0 15 2)).fin == [[1, 1]] && (e (s 0 1 0)).fin.isEmpty &&
     (e (s 0 14 2)).res.length + 2 == 16) = true := by decide +kernel

/-- TileStampAndWait: an address in the scratchpad and one outside it; the latch set and clear; a WFE at the commit point. -/
theorem test_witness_stamp :
    (let s := hartIs fun h => let h := regs [0x7FFFFFFC000000 + 0x2000000 + 0xFFFF, tcm] h; { h with shape := { h.shape with spad := [3] } }
     com s [1, 2] && dry s && (s.me.tile s.cur (s.me.rdS 1)).isSome && (s.me.tile s.cur (s.me.rdS 2)).isNone && !s.me.sc.latch) = true ∧
    (let s := at_ 0x25BFC00000000000
     (s.hart 0).atCommit && (s.hart 0).guard gs && !(s.hart 0).sc.latch &&
     match s.fetchWord 0 (s.hart 0).sc.pc with
     | .ok (_, w) => (decodeIn .sc w).toOption == some (.wfe gs)
     | .error _ => false) = true := by decide +kernel

/-- Partition 0 with ASID 0, and a slate of it at `tcm`: one member, one hart per core, entry 0. -/
def slateIs (w : List Nat) (q : Nat) (s : State) : State :=
  let m := (List.range 8).foldl (fun m k => Memory.write m (tcmLoc 0 0x1000 + 8 * k) 8 ((w[k]?).getD 0)) s.sto.mem
  let one : QSlate := ⟨1, 0, [0, 1], 0, 0, false, true, false, 0, none, none⟩
  ({ s with sto := { s.sto with mem := m } }).updPart 0 fun p =>
    { p with exists_ := true, cores := [0], asids := [0], queue := List.replicate q one }

/-- LaunchAndExit: a malformed slate, one above the caller's priority, a full queue of its level and one with room for one; an
EXIT, and a member that ends. -/
theorem test_witness_launch :
    (let s (ctrl q : Nat) := slateIs [0, ctrl] q (regsAre [tcm])
     let at_ (ctrl q : Nat) (f : State → List Word → Bool) : Bool :=
       match ((s ctrl q).performBoth 0).load 0 .scalar ((s ctrl q).me.rdS 1) 64 .read with
       | .ok (u, bs) => f u (slateOf bs)
       | .error _ => false
     com (s 1 0) [2, 1] && dry (s 1 0) && decide (((s 1 0).me.rdS 1).toNat % 64 = 0) &&
     at_ 0 0 (fun u w => u.slateBad w) && at_ (1 + 2 ^ 48) 0 (fun u w => !u.slateBad w && !u.mayLaunch 0 w) &&
     at_ 1 128 (fun u w => !u.slateBad w && u.mayLaunch 0 w && u.queueFull w) &&
     at_ 1 127 (fun u w => !u.slateBad w && u.mayLaunch 0 w && !u.queueFull w) &&
     (s 1 0).me.q.mfault.isNone && decide ((s 1 0).me.shape.hartid < 32) &&
     (let x := hartIs fun h => { h with q := { h.q with status := .exiting } }
      (x.hart 0).q.status == .exiting && (x.hart 0).q.run.isNone && (x.hart 0).q.queue.isEmpty && !x.matrixBusy 0 && (x.hart 0).q.mfault.isNone) &&
     (let x := started fun h => { h with q := { h.q with status := .exiting } }
      (x.hart 0).q.status == .exiting && (x.hart 0).q.run.isSome)) = true := by decide +kernel

/-- CacheMaintenance: an address that translates; user mode and supervisor mode. -/
theorem test_witness_cache :
    (let s := mapped (regsAre [0x100000])
     let v := hartIs fun h => { h with sc := { h.sc with mode := .sup } }
     com s [1] && ok (s.locate (s.who 0) (s.me.rdS 1) .read) && s.sto.latent.isEmpty && Table.wf lineNone s.sto.lines &&
     com s [1, 2] && dry s && s.me.sc.mode == .user && v.me.sc.mode != .user && com v [1, 2] && dry v) = true := by decide +kernel

/-- TrapEntry and TrapsAndReturn: a hart that enters its handler, two that end, and a machine check that does not end one; SVC
with nothing held back; the modes and PMODE fields of ERET. -/
theorem test_witness_trap :
    (let s (m : Mode) (v st : Nat) := hartIs fun h => { h with sc := { h.sc with mode := m }, trap := { h.trap with tvec := w64 v, tstat := w64 st } }
     let ends (x : State) (c : BitVec 8) := decide (x.me.trap.tvec = 0 ∨ (c ≠ 0x1C#8 ∧ x.me.sc.mode = .sup ∧ x.me.trap.tstat.getLsbD 0 = false))
     !ends (s .user 0x4000 0) 1 && ends (s .user 0 1) 1 && ends (s .sup 0x4000 0) 1 && !ends (s .sup 0x4000 0) 0x1C && !ends (s .sup 0x4000 1) 1 &&
     (s .user 0x4000 0).me.q.step.isNone && com (s .user 0x4000 0) [] && dry (s .user 0x4000 0) &&
     (s .user 0x4000 0).performBoth 0 == s .user 0x4000 0 && !(s .user 0 0).mgmt.attached &&
     !(s .sup 0 4).me.trap.tstat.getLsbD 3 && (s .sup 0 8).me.trap.tstat.getLsbD 3 && (s .sup 0 0x44).me.trap.tstat.getLsbD 6 &&
     !(s .fw 0 8).me.trap.tstat.getLsbD 6) = true := by decide +kernel

/-- StreamInstructions and StreamFetch: types legal and not; a plain, a strided and a refused configuration; slots in each state;
a slot with one element to fetch, one without, and a paused partition. -/
theorem test_witness_streams :
    (let s := vec id
     let x (st sv bf : Nat) := hartIs fun h => h.setStream 2 { Stream.idle with state := st, savl := sv, buf := List.replicate bf 0 }
     let f (y : State) := decide ((((y.hart 0).stream 2).state = 1 ∨ ((y.hart 0).stream 2).state = 2) ∧
       ((y.hart 0).stream 2).fetched < ((y.hart 0).stream 2).consumed + ((y.hart 0).stream 2).savl ∧
       ((y.hart 0).stream 2).buf.length < 65536 / ((y.hart 0).stream 2).sew)
     com s [1, 2, 0, 0, 0] && dry s && vtLegal s.me.vec.vtype && !vtLegal (regsAre []).me.vec.vtype &&
     ([0, 1, 2, 3, 4].all fun st => ((x st 1 0).me.stream 2).state == st) && com (x 1 1 0) [3] && f (x 1 1 0) && f (x 2 1 0) && !f (x 1 0 0) &&
     !f (x 3 1 0) && !(x 1 1 0).paused 0 && ((x 1 1 0).updPart 0 fun p => { p with power := { p.power with step := 6 } }).paused 0 &&
     decide (min ((x 1 1 1).me.rdS 3).toNat 1 ≤ ((x 1 1 1).me.stream 2).buf.length)) = true := by decide +kernel

/-- MatrixUnit: a tile held and not held, B-store rows, a shape of one row and one pair; a full queue; commands at the head and
running. -/
theorem test_witness_matrix :
    (let msh : Word := w64 (1 * 2 ^ 16 + 1 * 2 ^ 32)
     let s := hartIs fun h => { regs [0, 128, 0, 1] h with
       sc := { (regs [0, 128, 0, 1] h).sc with msh := msh }
       vec := { h.vec with vtype := 0x6002 }
       shape := { h.shape with talloc := 3, bst := [0] } }
     let busy (k : MKind) (l : Nat) := s.updCore 0 fun c =>
       { c with mq := List.replicate l ⟨0, 0, 0, k, 0, 0, msh, 0, 0, 0, 0, 0, 0, 3, 0, none, none⟩ }
     let run (k : MKind) (a : Word) := s.updCore 0 fun c => { c with mrun := some ⟨⟨0, 0, 0, k, 0, 0, msh, a, 0, 0, 0, 0, 0, 3, 0, none, none⟩, 0, 0, 0, []⟩ }
     com s [1] && com s [1, 2, 3, 4, 5] && dry s && s.me.q.mfault.isNone && s.me.shape.talloc.getLsbD 1 && !s.me.shape.talloc.getLsbD 2 &&
     runs s (.mma gs 0 0 1) (fun t => t.matrixBusy 0) && runs s (.mbld gs 1 2 3 4 0) (fun t => t.matrixBusy 0) &&
     runs (hartIs fun h => { s.me with sc := { s.me.sc with msh := w64 (2 ^ 16 + 2 ^ 32 + 7 * 2 ^ 57 + 7 * 2 ^ 53) }, q := h.q })
       (.mmas gs 0 0 1) (fun t => t.matrixBusy 0) &&
     (s.core 0).mq.length == 0 && ((busy .mma 64).core 0).mq.length == 64 && (busy .mma 1).matrixBusy 0 && !s.matrixBusy 0 &&
     ((busy .mzero 1).core 0).mrun.isNone && !(busy .mzero 1).commandHeld ⟨0, 0, 0, .mzero, 0, 0, msh, 0, 0, 0, 0, 0, 0, 3, 0, none, none⟩ && !s.arrayHolds 0 &&
     ((run .mzero 0).core 0).mrun.isSome && (fld msh 31 16 == 1) &&
     (match (run .maccst (w64 (2 ^ 55))).store 0 .scalar (w64 (2 ^ 55)) (toBytes 64 0) with | .error _ => true | .ok _ => false) &&
     decide (((s.me.rdS 2).toNat + 1) % 128 ≠ 0)) = true := by decide +kernel

/-- Vector words on a hart: an instruction of each format that is ready alone, and in the started convoy; VL 0 and VL 2. -/
theorem test_witness_vector :
    ([Instr.vadd gt 3 1 (.vs2 2) true true, .vaddw gt 4 1 (.vs2 2) false false, .vmacc gt 3 1 .xa false false, .vnsrl gt 3 4 .xa false false,
      .vnclip gt 3 4 .xb false true, .vabs gt 3 1 true, .vavg gt 3 1 .ximm false true, .vfadd gt 3 1 (.vs2 2) .rup, .vfma gt 3 1 .xa .rne,
      .vfsqrt gt 3 1 .rne, .vfmin gt 3 1 .ximm, .vfclamp gt 3 1 .xb, .vfabs gt 3 1, .vfwadd gt 4 1 (.wide 6) .rne, .vfwma gt 4 1 (.vs2 2) .rne,
      .vfcvti gt 3 1 true .rtz false, .vicvtf gt 3 1 false .rne, .vfncvt gt 3 4 .rne true, .vfwcvt gt 4 1, .vcmp gt 3 1 .xa .le,
      .vfcmp gt 3 1 .xa .ne, .vmv gt 3 .xa, .vmv gt 3 (.vs2 1), .vmerge gt 3 1 .ximm, .vext gt 3 1 .xa, .vins gt 3 .ximm, .vid gt 3, .plogic gt 3,
      .pset gt 3, .psets gt 3 true, .pclr gt 3, .pfromv gt 3 1, .ptov gt 3 5, .psbf gt 3 5, .psif gt 3 5, .psof gt 3 5, .pcount gt 3 5,
      .pffs gt 3 5, .pkill 3 0, .vskip gt 3 1, .kadd gt 1 2 (.ks 3), .kmov gt 1 2, .kset gt 1 .xa, .kfromv gt 1 1 .xb, .vbind gt 3 1,
      .vunbind gt 3, .bfop gt 1 .xa, .vld gt 3 ⟨false, false, false⟩, .vlds gt 3 ⟨false, true, true⟩, .vldx gt 3 1 ⟨true, false, false⟩,
      .vldff gt 3 ⟨false, false, true⟩, .vldk gt 3 1 ⟨false, false, true⟩, .vldz 3 1, .vst gt 3 ⟨false, false, false⟩, .vsts gt 3 ⟨false, false, false⟩,
      .vstx gt 3 1 ⟨false, false, false⟩, .vstk gt 3 1 ⟨false, false, false⟩, .vamo gt 3 1 .add ⟨false, false, false⟩, .pld gt 3 ⟨false, false, false⟩,
      .pst gt 3 ⟨false, false, false⟩, .kld gt 1 ⟨false, false, false⟩, .kst gt 1 ⟨false, false, false⟩, .bfseq gt 1 ⟨false, false, false⟩,
      .bftab gt 1 ⟨false, false, false⟩, .strmbind gt 3 1 0, .strmunbind gt 1, .vpref gt false ⟨false, false, false⟩, .bfpass gt 0 8 0 0 16 0,
      .bfpassKp gt 0 8 0 0 16 1].all fun i =>
        ready (vec id) i && dry (vec id) && runs (vec fun h => { h with vec := { h.vec with vl := 0 } }) i fun _ => true) = true ∧
    ready (started id) (.vadd gt 3 1 (.vs2 2) false false) = true ∧ (vec id).groupTop (.vid gt 3) = 2 ∧
    ready (hartIs fun h => { h with vec := { h.vec with vl := 2, vtype := 0x6000 } }) (.vfcvt gt 3 1 .rne) = true ∧
    ready (hartIs fun h => { h with vec := { h.vec with vl := 2, vtype := 0x6002 }, shape := { h.shape with talloc := 1 } }) (.mdrn gt 3 0 .xa) = true := by
  decide +kernel

/-- Hart 0 with SEW 32, VL 2, and both operand registers of an instruction that stands alone at `tcm`. -/
def alone (f : Hart → Hart) : State :=
  filled (hartIs fun h => f ({ regs [tcm, tcm] h with vec := { h.vec with vl := 2, vtype := 0x6002 }, sc := { (regs [tcm, tcm] h).sc with pc := tcmBase } }))

/-- VectorLoads and VectorStores: elements, bytes and tables that are reached; stored sizes, packed and reserved codes. -/
theorem test_witness_vector_memory :
    (let s := alone id
     let e (code : Nat) : QEntry := ⟨0, [], [], 1, 2, 0x6002, w64 (0x38000 + 32 * code), w64 tcm, w64 tcm, 0, 0, none, false, 0, [], []⟩
     let c (code : Nat) : Ctx := ⟨0, 1, e code⟩
     let m : MemForm := ⟨false, false, false⟩
     ([AddrForm.unit, .strided, .indexed 9].all fun f => ok (s.loadElem (c 0) m f 0)) && ok (s.storeElem (c 0) m .unit 3 none 1) &&
     ok (readByte s 0 (w64 tcm)) && ok (writeByte s 0 (w64 tcm) 7) && ok (s.rmw 0 .vector (w64 tcm) 4 fun _ => some (toBytes 4 1)) &&
     storedOf 32 1 == .plain 1 && storedOf 32 19 == .packed 4 && storedOf 32 23 == .reserved && storedOf 32 31 == .reserved &&
     ok (s.load 0 .vector (w64 tcm) 4 .read) &&
     (elements [0, 1] (destination gt 3 (fun c x s => s.loadElem c m .unit x) (c 0)) (s.clearAsked 0)).isSome &&
     (elements [0, 1] (enabledOnly gt (fun c x s => s.storeElem c m .unit 3 none x) (c 0)) (s.clearAsked 0)).isSome) = true := by decide +kernel

/-- StoresAndStopsComplete: a hart whose two elements, their scales and their predicate bits all lie in its own TCM, with formats
that round nothing. -/
def near (s : State) (va : Word) (sz : Nat) : Bool :=
  decide (va.toNat < 2 ^ 55 ∧ va.toNat % sz = 0 ∧ localBase ≤ va.toNat ∧ ((s.hart 0).localLoc 0 va.toNat).isSome = true)

theorem test_witness_stores_complete :
    (let m : MemForm := ⟨false, false, false⟩
     let with_ (i : Instr) (xa xb : Nat) : State := alone fun h => { h with q := { h.q with
       run := some ⟨⟨0, [], [i], 1, 2, 0x6002, 0x38000, w64 xa, w64 xb, 0, 0, none, false, 0, [], []⟩, 0, [], false, [], []⟩ } }
     let one (i : Instr) (xb : Nat) (at_ : Ctx → Nat → State → List (Word × Nat)) : Bool :=
       let s := with_ i tcm xb
       let c : Ctx := ⟨s.cur, (s.me.entryFor i).2, s.entry i⟩
       ready s i && s.sto.latent.isEmpty && s.sto.poison.isEmpty && (upTo 0 2 == upTo s.me.vec.vstart (s.groupTop i)) &&
         storedOf c.e.sew (c.e.mfc.extractLsb' 10 5).toNat == .plain 4 && storedOf c.e.sew (c.e.mfc.extractLsb' 5 5).toNat == .plain 4 &&
         blockStarts c.e 0 2 == [0] && (upTo 0 2).all fun x => s.me.vguard gt x && (at_ c x s).all fun p => near s p.1 p.2
     !roundsCode 0 && one (.vst gt 3 m) 0 (fun c x _ => unitPlaces c.e (baseOf c m) 0 x) &&
     one (.vsts gt 3 m) 4 (fun c x _ => [(stridedAt c m x, 4)]) && one (.vstx gt 3 4 m) 0 (fun c x s => [(indexedAt c m 4 x s, 4)]) &&
     ([Instr.vstk gt 3 1 m, .vldk gt 3 1 m].all fun i => one i tcm fun c x _ => (scaleAt c x, 1) :: unitPlaces c.e (baseOf c m) 0 x) &&
     ([Instr.pld gt 1 m, .pst gt 1 m].all fun i => one i 0 fun c x _ => [(baseOf c m + BitVec.ofNat 64 (x / 8), 1)]) &&
     ([Instr.kld gt 1 m, .kst gt 1 m].all fun i => one i 4 fun c x _ => [(stridedAt c m (x / 2 ^ c.e.shift), 1)])) = true := by decide +kernel

/-- VectorOnce: reads that succeed; slots idle, configured, draining. -/
theorem test_witness_vector_once :
    (let s := alone id
     dry s && s.me.vec.vstart == 0 && s.me.vguard gt 0 && !s.me.vguard gnv 0 && ok (s.fetchAll 0 8 [w64 tcm, w64 (tcm + 8)]) &&
     ok (s.load 0 .vector (w64 tcm) 4 .read) && s.sto.latent.isEmpty) = true := by decide +kernel

/-- TileMoves: element places inside the tile, at its last row and column, and outside. ButterflyPass: a comparator whose checks
pass, and one that fails. -/
theorem test_witness_tile_pass :
    (let h := hartIs fun h => { h with vec := { h.vec with vl := 2, vtype := 0x6002 }, shape := { h.shape with talloc := 1 } }
     let place (b x : Nat) : Nat × Nat := (b + x / 256, x % 256)
     ready h (.mput gt 3 0 .ximm) && h.groupTop (.mput gt 3 0 .ximm) == 2 && decide ((place 31 1).1 ≤ 31 ∧ (place 31 1).2 ≤ 255) &&
     decide (31 < (place 32 0).1) && h.me.vguard gt 0) = true ∧
    (let s (o : Nat) := vec fun h => (h.wrO 1 (w64 o |>.setWidth 32)).wrQ 1 0xFF0
     let p : Pass := ⟨gt, 2, 2, 1, 1, 5, 0, false⟩
     ready (s 0) (.bfpass gt 2 2 1 1 5 0) && !bfActive (s 0).me.vec.bfstart &&
     (passCheck (s 0).me ((s 0).entry (.bfpass gt 2 2 1 1 5 0)) 0 p).isNone && (passCheck (s 0x0F000000).me ((s 0).entry (.bfpass gt 2 2 1 1 5 0)) 0 p).isSome &&
     decide (((s 0).entry (.bfpass gt 2 2 1 1 5 0)).vl ≠ 0)) = true := by decide +kernel

/-- HartEvents: an ADD and an undefined word at the commit point; a queued convoy, and one that holds a fault; no, one and two
ready harts, with and without shared lanes; an ASID that maps, and one that does not. -/
theorem test_witness_hart_events :
    (let s (w : Nat) := at_ w
     let f (w : Nat) (p : State → Word → Bool) : Bool := match (s w).fetchWord 0 ((s w).hart 0).sc.pc with | .ok (t, x) => p t x | .error _ => false
     (s 0).mayIssue 0 && ((s 0).hart 0).atCommit &&
     f 0x007FC00000000000 (fun t x => !isHeader x && (decodeIn .sc x).toOption == some (.add gs 0 0 0) && (t.hart 0).guard gs &&
       !(t.hart 0).pending [0, 0, 0] && (t.hart 0).q.step.isNone && ((t.hart 0).bpBefore (t.hart 0).sc.pc 0).isNone) &&
     f 0x3FC0000000000000 (fun t x => !isHeader x && (decodeIn .sc x).toOption.isNone && (t.hart 0).q.run.isNone)) = true ∧
    (let s (q : List QEntry) := hartIs fun h => { h with q := { h.q with queue := q } }
     let h := (s [convoy]).hart 0
     h.q.status == .running && !(s [convoy]).paused 0 && h.q.run.isNone && h.q.vvFence.isNone && (h.bpStart convoy).isNone && !h.inConvoyStep && (s [convoy]).goesOn 0 &&
     !((s [convoy]).updGang h.shape.launch fun g => { g with stopReq := some 0x1E#8 }).goesOn 0 &&
     ({ h with q := { h.q with bkpa := [(1, 0)], bkpc := [(1, w64 (2 ^ 63 + 7 * 2 ^ 16))] } } : Hart).bpStart convoy == some (1, none) &&
     convoy.fault.isNone && (h.consumed convoy).isEmpty && !(s [convoy]).convoyHeld 0 convoy 0 2 && (startErrs 0 convoy (s [convoy])).isEmpty) = true ∧
    (let two (a b : BitVec 4) := (started fun h => { h with shape := { h.shape with lanes := a } }).updHart 1 fun _ =>
       let h := (started id).hart 0
       { h with shape := { h.shape with lanes := b } }
     (regsAre []).readyHarts 0 == [] && (started id).readyHarts 0 == [0] && (two 1 2).readyHarts 0 == [0, 1] && (two 3 2).readyHarts 0 == [0, 1] &&
     passIn convoy == none && ok ((mapped (regsAre [])).locate ((mapped (regsAre [])).who 0) 0 .read) &&
     (match (mapped (regsAre [])).walkAsid (some 0) 0 0 with | .ok _ => true | .error _ => false) &&
     (match (mapped (regsAre [])).walkAsid (some 0) 1 0 with | .ok _ => false | .error e => e.reason != 9)) = true := by decide +kernel

/-- StopsAndQuanta: free and used slots; an interrupt first in line with IE 0 and 1; a waiting slate; a gang that may be
pre-empted and one that may not; no partition, and one slate that ages. -/
theorem test_witness_stops :
    (let s (ie : Nat) := hartIs fun h => { h with q := { h.q with irq := [5] }, trap := { h.trap with tstat := w64 ie } }
     let q : QSlate := ⟨7, 0, [0, 1], 0, 0, false, true, false, 0, none, none⟩
     let full := (List.range 3).foldl (fun s k => s.updHart (k + 1) fun _ => (at_ 0).hart 0) (at_ 0)
     let p := full.updPart 0 fun p => { p with exists_ := true, cores := [0], queue := [q] }
     let x (st : Status) := (hartIs fun h => { h with q := { h.q with status := st } }).updGang 3 fun g =>
       { g with cores := [0], members := [0], live := 1, slate := q, tiles := [0] }
     let aged := ({ p with quanta := p.quanta + 1 }).updPart 0 fun y => { y with queue := [{ q with waited := 1 }] }
     ((at_ 0).hart 5).q.status == .free && ((s 0).hart 0).q.status == .running && ((s 1).hart 0).q.irq == [5] && ((s 1).hart 0).q.step.isNone &&
     ((s 1).hart 0).trap.tstat.getLsbD 0 && !((s 0).hart 0).trap.tstat.getLsbD 0 && p.gangs.isEmpty && p.partsList == [0] &&
     (p.part 0).queue.find? (fun y => y.launch == 7) == some q && slateWord q.words 3 == 0 && slateWord q.words 4 == 0 && slateWord q.words 5 == 0 &&
     !slateCond q.words && aged.dispatch.isNone && aged.partsList == [0] && (at_ 0).gangs.isEmpty && (at_ 0).partsList.isEmpty &&
     ((x .running).mayPreempt ((x .running).gang 3)) && !((x .stopped).mayPreempt ((x .stopped).gang 3)) && ((x .running).gang 3).stopReq.isNone &&
     (((at_ 0).gang 3).cores.isEmpty)) = true := by decide +kernel

/-- Hart 0 with commands in the queue of an engine. -/
def pushed (eng : Nat) (l : List Nat) (s : State) : State := s.updHart 0 fun h => h.setEngine eng ⟨l.map w64, [], []⟩

/-- An engine's command stands at the head of its queue. -/
def stands (s : State) (eng : Nat) (op : Nat) : Bool :=
  match (s.hart 0).headCmd eng with
  | some c => !c.isEmpty && (s.hart 0).engineFree eng && !s.paused 0 && opOf c == op
  | none => false

/-- The scratchpad window of hart 0, one unit. -/
def pad : Nat := 0x7FFFFFFC000000 + 0x2000000
def padded (s : State) : State := s.updHart 0 fun h => { h with shape := { h.shape with spad := [3] } }

/-- EngineCommands: COPY, FILL, NOTE, DRAIN with no record, one and too little room, a reserved OP on each engine. -/
theorem test_witness_engine :
    (let s := filled (at_ 0)
     let copy := pushed 0 [2 ^ 56 + 4, tcm, tcm + 2] s
     let r : TraceRec := ⟨1, 2, 3, 4⟩
     let drain (len : Nat) (l : List TraceRec) := pushed 3 [0x10 * 2 ^ 56 + len, pad] (padded (s.updHart 0 fun h => { h with trc := { h.trc with recs := l } }))
     stands copy 0 1 && stands (pushed 0 [2 * 2 ^ 56 + 4, 5, tcm] s) 0 2 && stands (pushed 0 [3 * 2 ^ 56] s) 0 3 &&
     !stands (pushed 0 [2 ^ 56 + 4, tcm] s) 0 1 &&
     stands (drain 32 [r]) 3 0x10 && ((drain 32 [r]).hart 0).trc.recs == [r] && ((drain 0 []).hart 0).trc.recs == [] && stands (drain 31 [r]) 3 0x10 &&
     ((drain 31 [r]).hart 0).trc.drained == 0 && ((drain 31 [r]).hart 0).trc.lost == 0 && ((drain 31 [r]).hart 0).q.status != .free &&
     (match (drain 32 [r]).putBytes { ((drain 32 [r]).who 0) with tcm := false } (w64 pad) (toBytes 8 1 ++ toBytes 8 2 ++ toBytes 8 3 ++ toBytes 8 4) with
      | (u, k, none) => k == 32 && u.hart 0 == (drain 32 [r]).hart 0
      | (_, _, some _) => false) &&
     (match State.getDown (copy.who 0) 2 copy (w64 tcm + 4) 2 with
      | (u, bs, none) => bs == [0x82, 0x83] && (match State.putDown (copy.who 0) 2 u (w64 (tcm + 2) + 4) bs 0 with | (_, k, none) => k == 2 | (_, _, some _) => false)
      | (_, _, some _) => false) &&
     ok (copy.readUnit (copy.who 0) (w64 tcm) 4) && ok (copy.writeUnit (copy.who 0) (w64 tcm) [1, 2, 3, 4]) &&
     ([0, 1, 2, 3].all fun e => stands (pushed e [0xFF * 2 ^ 56] s) e 0xFF && !cmdKnown e 0xFF)) = true := by decide +kernel

/-- An open session 5 at port 0 of partition 0, and its key material. -/
def someKeys : List Byte := toBytes 88 0x0123456789ABCDEF
def linked (f : Session → Session) (s : State) : State :=
  (({ s with links := { s.links with ports := [(0, ⟨true, false, false⟩)] } }).setSession 5 (f { Session.none_ with
    port := 0, opened := true, initiator := true, keys := someKeys, rxNext := 1, txSeq := 1, fresh := true })).updPart 0 fun p => { p with exists_ := true, ports := [0], cores := [0] }

/-- LinkCommands: an OPEN at a port of the partition and at another; commands with and without their session; a REKEY that waits;
a message sent, and one received. -/
theorem test_witness_link_commands :
    (let s (l : List Nat) (f : Session → Session) := (linked f (padded (pushed 2 l (at_ 0)))).updGang 0 fun g => { g with cores := [0], members := [0], live := 1 }
     let p (l : List Nat) := pendingOf (s l id) 0 2 (l.map w64)
     let g := (s [] id).updGang 0 fun g => { g with cores := [0], members := [0], live := 1 }
     stands (s [0x30 * 2 ^ 56] id) 2 0x30 && (s [] id).portPart 0 == some 0 && (s [] id).portPart 1 == none && stands (s [0x31 * 2 ^ 56 + 5] id) 2 0x31 &&
     (s [] id).hasSession 5 && !(s [] id).hasSession 6 && ((s [] id).session 5).part == (p [0]).part && stands (s [0x32 * 2 ^ 56 + 5] id) 2 0x32 &&
     ((s [] id).session 5).hs.isNone && ((s [] id).session 5).unacked.isEmpty && ((s [] fun x => { x with unacked := [⟨1, [], 0, 0, []⟩] }).session 5).unacked != [] &&
     stands (s [0x33 * 2 ^ 56 + 5 * 2 ^ 32 + 4, pad, 0] id) 2 0x33 && !(s [] id).sendBad 0 0 4 && (s [] id).sendBad 0 1 4 &&
     (match (s [] id).getBytes ((s [] id).pendWho (p [0])) (w64 pad) 4 with | .ok (_, bs) => bs.length == 4 | .error _ => false) &&
     (match (s [] id).getBytes ((s [] id).pendWho (p [0])) (w64 tcm) 4 with | .ok _ => false | .error (_, e) => e.cause == 7) &&
     stands (s [0x34 * 2 ^ 56 + 5 * 2 ^ 32 + 4, pad, 0] id) 2 0x34 && ((s [] fun x => { x with inbox := [[1, 2]] }).session 5).inbox == [[1, 2]] &&
     ((s [] id).session 5).recvs.isEmpty && ((s [] id).session 5).inbox.isEmpty &&
     (match (s [] id).putBytes ((s [] id).pendWho (p [0])) (w64 pad) [1, 2] with | (_, k, none) => k == 2 | (_, _, some _) => false) &&
     (g.memberAt 0 0 == some 0) && (g.hart 0).q.status != .free && ((g.hart 0).engine 2).fin.isEmpty && decide (((g.hart 0).engine 2).res.length ≤ 14)) = true := by
  decide +kernel

/-- A frame of 32 bytes for session 5: its kind, no payload, SEQ 1, the tag of the peer. -/
def frame (kind : Nat) : List Byte := sealFrame someKeys false ⟨5, kind, 0, 1, 0⟩ []

/-- LinkEvents, frames: a frame that the peer sealed is accepted as new, and again as one that came before (R287). -/
theorem test_witness_frames : ∀ kind ∈ [0, 1, 3],
    (linked id (at_ 0)).accept 0 kind (frame kind) = some (5, ⟨5, kind, 0, 1, 0⟩, true, []) ∧
    (linked (fun x => { x with rxSeen := [1], rxHigh := 1 }) (at_ 0)).accept 0 kind (frame kind) = some (5, ⟨5, kind, 0, 1, 0⟩, false, []) := by
  intro kind hk
  have hk : kind = 0 ∨ kind = 1 ∨ kind = 3 := by simpa using hk
  rcases hk with rfl | rfl | rfl <;>
    exact ⟨State.accept_sealFrame (x := ⟨5, _, 0, 1, 0⟩) (p := []) (by decide +kernel) (by decide +kernel) (by decide +kernel) (by decide +kernel)
      (by decide +kernel) (by decide +kernel) (by decide) (by decide) (by decide) (by decide) (by decide) (by decide) (by decide),
      State.accept_sealFrame (s := linked (fun x => { x with rxSeen := [1], rxHigh := 1 }) (at_ 0)) (x := ⟨5, _, 0, 1, 0⟩) (p := [])
      (by decide +kernel) (by decide +kernel) (by decide +kernel) (by decide +kernel)
      (by decide +kernel) (by decide +kernel) (by decide) (by decide) (by decide) (by decide) (by decide) (by decide) (by decide)⟩

theorem test_witness_frames_session :
    (let s := linked id (at_ 0)
     (s.session 5).came.isEmpty && ((s.session 5).mark 5 (s.session 5).rxNext ⟨1, 0, []⟩).came.isEmpty && (s.session 5).commands.isEmpty &&
     !((linked fun x => { x with recvs := [pendingOf (at_ 0) 0 2 []] }) (at_ 0) |>.session 5).commands.isEmpty) = true := by decide +kernel

/-- LinkEvents: a frame of another port; handshake frames by length; timers with and without a frame that waits; a lane of a port
with its spare, without it, and of a port that is down. -/
theorem test_witness_link_events :
    (let s (f : Session → Session) := linked f (at_ 0)
     let hs : Handshake := ⟨true, false, [], [], [], none⟩
     let m (n : Nat) : List Byte := toBytes 2 0 ++ [2#8, 0#8] ++ toBytes 6 1 ++ toBytes 2 n ++ toBytes 4 0 ++ toBytes n 0
     let e : Early := ⟨1, 0, []⟩
     (s id).accept 1 0 (frame 0) == none && (s id).accept 0 1 (frame 0) == none && ((s id).port 0).up && ((s id).session 5).recvs.isEmpty &&
     ((s id).session 5).sends.isEmpty && ((s id).session 5).hs.isNone && ((s id).session 5).early.isEmpty && e.seq == ((s id).session 5).rxNext &&
     (handshakeFrame (m 145) 145).isSome && (handshakeFrame (m 259) 259).isSome && (handshakeFrame (m 114) 114).isSome &&
     (handshakeFrame (m 145) 114).isNone && ((s fun x => { x with hs := some hs }).session 5).hs == some hs &&
     ((s fun x => { x with unacked := [⟨1, [], 15, 0, []⟩] }).session 5).unacked == [⟨1, [], 15, 0, []⟩] &&
     ((s fun x => { x with unacked := [⟨1, [], 16, 0, []⟩] }).session 5).unacked == [⟨1, [], 16, 0, []⟩] &&
     !((s fun x => { x with opened := false }).session 5).opened && ((s id).session 5).mayRekey &&
     decide (2 ^ 32 < ((s fun x => { x with txSeq := 2 ^ 32 + 1 }).session 5).txSeq) && decide (2 ^ 32 ≤ ((s fun x => { x with rxHigh := 2 ^ 32 }).session 5).rxHigh) &&
     !((s id).port 0).spareUsed && !((s id).port 1).up && !((s id).port 0).retraining) = true := by decide +kernel

/-- LinkEvents, handshakes: a peer in the table; a peer whose message 2 and message 3 are signed soundly, and one whose key is
another (R286). -/
theorem test_witness_handshakes :
    (let key := toBytes 57 1
     let msg (n : Nat) (l : List Byte) : List Byte := FrameHdr.bytes ⟨5, 2, 0, 1, n⟩ ++ l
     let m1 := toBytes 56 7 ++ key ++ toBytes 32 9
     let s (k : List Byte) (h : Handshake) : State :=
       let s := linked (fun x => { x with hs := some h }) (at_ 0)
       { s with links := { s.links with peers := [(0, k)] } }
     let init : Handshake := ⟨true, true, [], m1, [], none⟩
     let resp : Handshake := ⟨false, true, [], m1, m1 ++ key ++ toBytes 57 0, none⟩
     (handshakeFrame (msg 145 m1) 145).isSome && (s key init).peerOf 0 (itemKey (framePayload (msg 145 m1))) == some 0 &&
     (handshakeFrame (msg 259 (m1 ++ key ++ toBytes 57 0)) 259).isSome && ((s key init).session 5).hs == some init && ((s key resp).session 5).hs == some resp &&
     itemKey (framePayload (msg 259 (m1 ++ key ++ toBytes 57 0))) == (s key init).peerKey 0 0 && itemKey m1 != (s (toBytes 57 2) init).peerKey 0 0 &&
     (framePayload (msg 259 (m1 ++ key ++ toBytes 57 0))).drop 145 == toBytes 57 1 ++ toBytes 57 0 && itemKey resp.msg1 == toBytes 57 1 &&
     (handshakeFrame (msg 114 (key ++ toBytes 57 0)) 114).isSome && framePayload (msg 114 (key ++ toBytes 57 0)) == toBytes 57 1 ++ toBytes 57 0) = true ∧
    ∀ m, ed448Verify (toBytes 57 1) m (toBytes 57 1 ++ toBytes 57 0) = true :=
  ⟨by decide +kernel, ed448Verify_neutral⟩

/-- A collective of two members of group 0, whose member 0 is this module. -/
def group2 (s : State) : State := { s with links := { s.links with groups := [(0, ⟨[0, 5], 0⟩)] } }
def coll (self : Nat) (parts : List (Nat × List (BitVec 32))) (s : State) : State :=
  let s := group2 s
  { s with links := { s.links with
      groups := [(0, ⟨[5, 5], self⟩)]
      colls := [⟨⟨0, 0, 0, true, 0, 1, [0x20 * 2 ^ 56 + 1, w64 tcm, 3, w64 (1 * 2 ^ 32 + 2 * 2 ^ 24 + 11 * 2 ^ 19)]⟩, 0, 3,
        w64 (1 * 2 ^ 32 + 2 * 2 ^ 24 + 11 * 2 ^ 19), 1, none, [7], parts⟩] } }

/-- CollectiveEvents: a malformed command, one of a member that coordinates, one whose coordinator has no session; contributions
early, matching, unknown and repeated, the last one and another; deadline and answers at both kinds of member. -/
theorem test_witness_collectives :
    (let w := 1 * 2 ^ 32 + 2 * 2 ^ 24 + 11 * 2 ^ 19
     let cmd (op m : Nat) := [op * 2 ^ 56 + 1, tcm, m, w]
     let s (self : Nat) (l : List Nat) := ({ (pushed 1 l (filled (at_ 0))) with
       links := { Links.reset with groups := [(0, ⟨[0, 0], self⟩)] } }).updPart 0 fun p => { p with accepted := 0x3F }
     let p (l : List Nat) := pendingOf (s 0 l) 0 1 (l.map w64)
     let x (m : Nat) : Contribution := ⟨5, 0, 0, m, 3, w64 w, [1]⟩
     let c (self : Nat) (parts : List (Nat × List (BitVec 32))) := (coll self parts (at_ 0)).collective 0 0
     let has (self : Nat) (parts : List (Nat × List (BitVec 32))) (f : State → Collective → Bool) : Bool :=
       match c self parts with | some y => f (coll self parts (at_ 0)) y | none => false
     stands (s 0 (cmd 0x20 3)) 1 0x20 && stands (s 0 (cmd 0x21 3)) 1 0x21 && (s 0 []).collBad (p (cmd 0x20 0)) false &&
     !(s 0 []).collBad (p (cmd 0x20 3)) false && !(s 0 []).collBad (p (cmd 0x21 3)) true && coordinatorOf 3 == 0 &&
     (s 1 []).reach 0 0 0 == none &&
     (match (s 0 []).getBytes ((s 0 []).who 0) (w64 tcm) 4 with | .ok (u, bs) => bs.length == 4 && u.links == (s 0 []).links | .error _ => false) &&
     (at_ 0).collective 0 0 == none && has 0 [(0, [7])] (fun s y => s.coordinates y && y.includes (x 1) && !y.includes (x 0)) &&
     has 0 [] (fun s y => s.coordinates y && y.includes (x 1) && !({ y with parts := [(1, [1])] } : Collective).parts.any fun q => q.1 == 0) &&
     has 1 [] (fun s y => !s.coordinates y) && has 0 [(0, [7])] (fun _ y => y.answer.mask == 1 && wireQuorum y.wire == 2) &&
     has 0 [(0, [7]), (1, [1])] (fun _ y => y.answer.mask == 3)) = true := by decide +kernel

/-- CollectiveEvents: a coordinator and a member whose sessions are open, and one whose session is over; a member that gives
nothing to a broadcast; a buffer that cannot be read; a group with quorum 2 and members 0 and 1. LinkEvents, timers. -/
theorem test_witness_reach :
    (let w := 1 * 2 ^ 32 + 2 * 2 ^ 24 + 11 * 2 ^ 19
     let x (m sid : Nat) : Contribution := ⟨sid, 0, 0, m, 3, w64 w, [1]⟩
     let up := coll 0 [(0, [7])] (linked id (at_ 0))
     let gone := coll 0 [(0, [7])] (linked (fun y => { y with opened := false }) (at_ 0))
     let other := coll 1 [] (linked id (at_ 0))
     let bad := (pushed 1 [0x20 * 2 ^ 56 + 1, 2 ^ 60, 3, w] other).updPart 0 fun p => { p with accepted := 0x3F }
     up.reach 0 0 1 == some 5 && gone.reach 0 0 1 == none && up.reach 0 0 1 != some (x 1 6).sid &&
     (match up.collective 0 0 with | some y => up.coordinates y && y.includes (x 1 5) && !y.includes (x 0 5) | none => false) &&
     (gone.collective 0 0).isSome && up.collective 0 1 == none && other.reach 0 0 0 == some 5 && coordinatorOf 3 != (other.group 0).self &&
     decide (some 0 ≠ some (other.group 0).self) &&
     (match bad.getBytes (bad.who 0) (w64 (2 ^ 60)) 4 with | .ok _ => false | .error (_, e) => e.cause == 5)) = true := by decide +kernel

/-- DebugEvents: an agent that owns the module and one that does not; harts running and stopped; a record that a DRAIN takes, and
one that is lost; a sample period of 10 and of 40. -/
theorem test_witness_debug :
    (let s (st : Status) := let s := hartIs fun h => { h with q := { h.q with status := st } }
       gang1 ⟨0, 0, 0, 0⟩ { s with mgmt := { s.mgmt with owner := some .driver } }
     let t (period : Nat) := hartIs fun h => { h with trc := { h.trc with trcCtl := w64 (4 + period * 2 ^ 16) } }
     decide ((s .running).mgmt.owner ≠ some .board) && (s .running).mgmt.owner == some .driver && ((s .running).hart 0).q.status == .running &&
     (s .running).performBoth 0 == s .running && ((s .running).gang 0).liveMembers == [0] && ((s .running).gang 0).memberHart 0 == 0 &&
     ((s .stopped).hart 0).q.status == .stopped && !(s .stopped).matrixBusy 0 && ((s .stopped).hart 0).q.mheld.isEmpty &&
     !((hartIs fun h => { h with q := { h.q with status := .stopped, mheld := [⟨0, [1], 0, 0, 0, 0, false, false⟩] } }).hart 0).q.mheld.isEmpty && !csrExists 0x009 &&
     ([10, 40].all fun k => fld ((t k).hart 0).trc.trcCtl 23 16 == k && ((t k).hart 0).trc.trcCtl.getLsbD 2) && !((t 10).hart 0).draining &&
     ((pushed 3 [0x10 * 2 ^ 56 + 64, tcm] (t 10)).hart 0).draining && ((at_ 0).hart 5).q.status == .free) = true := by decide +kernel

/-- A module whose owner is the driver, with partition 0 and ASID 1. -/
def owned (f : Mgmt → Mgmt) : State :=
  let s := (at_ 0).updPart 0 fun p => { p with exists_ := true, asids := [1], cores := [0], pages := [(0, 8192)] }
  { s with mgmt := f { s.mgmt with owner := some .driver } }

/-- BurxusCalls: before and after bring-up, an owner and another agent, agreed versions, records and shares that are refused, busy
and taken, a slate posted and withdrawn. -/
theorem test_witness_calls :
    (let s := owned id
     let free := owned fun m => { m with owner := none }
     let net := linked (fun x => { x with part := 32 }) s
     !s.heard .network && State.heard { net with links := { net.links with protectedPort := some 0 } } .network &&
     decide (State.reset.mgmt.stage < 7) && !s.mgmt.held && decide (7 ≤ s.mgmt.stage) && (s.part 0).exists_ && !(s.part 31).exists_ &&
     free.mgmt.owner.isNone && s.mgmt.owner == some .driver && (owned fun m => { m with handover := some .board }).mgmt.handover == some .board &&
     agentOf 3 == some .network && agentOf 4 == none && !(s.part 0).posted && ((s.updPart 0 fun p => { p with posted := true }).part 0).posted) = true ∧
    (let s := owned id
     let r (c : Nat) : PartRecord := ⟨[c], [2], [(8192, 1)], [], [1], [(0, 3)], 0, 0, 0, 100, 0⟩
     let bytes (p : Nat) := { s with sto := { s.sto with mem := Memory.write s.sto.mem 0x100000 9 (p + 3 * 2 ^ 64) } }
     let share (p : Nat) (f : State → Share → Bool) : Bool := match (bytes p).physBytes 0x100000 136 with
       | (u, some bs) => f u (shareOf (w64 (ofBytes (bs.take 8))) ((bs.drop 8).map fun b => b.toNat))
       | (_, none) => false
     s.mayName (.host .driver) 1 && !s.mayName (.host .driver) 2 && !s.rootBad 1 0x10000 && s.rootBad 1 0x8000 &&
     share (2 ^ 48 + 2 ^ 32) (fun u x => !u.shareBad 0 0 x && !((u.part 0).share 0).busy x) && share (129 * 2 ^ 32 + 2 ^ 48) (fun u x => u.shareBad 0 0 x) &&
     (let y := s.updPart 0 fun p => { p with shares := [(0, ⟨w64 (2 ^ 48 + 2 ^ 32 + 2 ^ 16), [5]⟩)] }
      ((y.part 0).share 0).busy ⟨w64 (2 ^ 48 + 2 ^ 32), [4]⟩) &&
     s.recordBad 1 (r 160) && s.recordBad 1 (r 0) && !s.recordBad 1 (r 1) && !s.recordBad 31 (r 159) && !(s.part 31).exists_ &&
     (s.mgmt.report[0]?).getD 0 / 2 ^ 62 % 4 != 2 && s.sto.lines.isEmpty && s.partsList == [0] &&
     (let y := (s.updPart 0 fun p => { p with queue := [⟨7, 0, [0, 1 + 2 ^ 56], 0, 0, false, true, false, 0, none, none⟩] })
      !y.recordBad 0 (r 0) && y.recordBusy 0 (r 0) && ((y.part 0).queue.any fun q => q.launch == 7 && q.image.isNone)) &&
     decide (s.agreed (.host .driver) < 2) && decide (2 ≤ (owned fun m => { m with versions := [(1, 2)] }).agreed (.host .driver))) = true ∧
    (let s := (owned id).updAsid 1 fun a => { a with root := some 0x1000000 }
     let m := Memory.write (Memory.write (Memory.write s.sto.mem 0x1000000 8 0x1010003) 0x1010000 8 0x7D) 0x100008 8 (1 + 2 ^ 56)
     let s := { s with sto := { s.sto with mem := m } }
     match s.mgmtLoad (mgmtWho 1 false (some 0)) 0x100000 64 with
     | (u, some bs) => !u.slateBad (slateOf bs) && !u.queueFull (slateOf bs)
     | (_, none) => false) = true := by decide +kernel

/-- BurxusCallsOfHarts: a BCALL at the program counter; a hart of supervisor mode with version 2; CACHE.LOCK outside and inside the
ways of the share; an Mbolux image of one word that is loaded, one with a bad header, one without room. -/
theorem test_witness_calls_of_harts :
    (let f (w : Nat) (n : Nat) : Bool := match (at_ w).peek n with | some (.bcall _ _ k) => k == 5 | _ => false
     f 0x253FC00040000005 0 && com (regsAre []) [1, 10, 11, 12, 13, 14, 15] && dry (regsAre []) && !(at_ 0).paused 0 &&
     com ({ (at_ 0) with cur := 0 }) [1, 10, 11, 12, 13, 14, 15]) = true ∧
    (let img : List Nat := [0x1584C424D, 0, 64, 8, 0, 0, 0, 1, 0x007FC00000000000]
     let s (img : List Nat) : State :=
       let s := hartIs fun h => { h with sc := { h.sc with mode := .sup } }
       let s := (mapped s).updAsid 0 fun a => { a with version := 2 }
       let m := (List.range img.length).foldl (fun m k => Memory.write m (0x100000 + 8 * k) 8 ((img[k]?).getD 0)) s.sto.mem
       ({ s with sto := { s.sto with mem := m } }).updPart 0 fun p => { p with accepted := 0x3F, shares := [(0, ⟨w64 (3 * 2 ^ 48 + 2 ^ 32), [5]⟩)] }
     let x := s img
     let load (y : State) (f : List Word → Bool) : Bool := match y.callBytes (.hart 0 1) 0x100000 64 with | (_, some hd) => f (slateOf hd) | (_, none) => false
     x.mboluxHome (.hart 0 1) 0x200000 == some (0, 0) && x.pageOwner 0x200000 == some 0 && x.mboluxHome (.host .driver) 0x200000 == some (0, 0) &&
     State.mayCall { x with mgmt := { x.mgmt with owner := some .driver } } (.host .driver) .s && x.mayCall (.hart 0 1) .s &&
     x.callPart (.hart 0 1) == some 0 && !x.mgmt.held && decide (7 ≤ x.mgmt.stage) && decide (2 ≤ (x.asid 0).version) && decide ((x.hart 0).sc.mode ≠ .user) && x.accepts 0 3 && x.accepts 0 0 &&
     !(mapped (at_ 0)).accepts 0 3 && (3 &&& ((x.part 0).share 0).ways) == 3 && (4 &&& ((x.part 0).share 0).ways) != 4 &&
     load x (fun w => !mboluxBad w) && load (s [1]) (fun w => mboluxBad w) &&
     (match x.callBytes (.hart 0 1) 0x100000 72 with | (_, some b) => b.length == 72 | (_, none) => false) && !shapeChanges 1 [0x007FC00000000000] &&
     shapeChanges 1 [0x1ABFC00000000000] && vlenOf (2 ^ 0) 0 == 16384 && (x.callPut (.hart 0 1) 0x200000 (toBytes 72 0)).2 &&
     decide (1 ≤ (at_ 0).agreed (.hart 0 1)) && ((at_ 0).hart 0).sc.mode == .user) = true := by decide +kernel

/-- A partition 0 with a budget of 100 W that draws `mw`, at a step, under a module limit. -/
def power (mw step forced limit : Nat) (hot : Bool) : State :=
  let s := (at_ 0).updPart 0 fun p => { p with exists_ := true, power := ⟨100, 0, step, mw, 0, if forced = 0 then [] else [forced]⟩ }
  { s with mgmt := { s.mgmt with limit := limit, hot := hot } }

/-- PowerEvents: over the budget and not, at steps 0, 5 and 6, forced by the limit and by the temperature, at 95 % and below. -/
theorem test_witness_power :
    (let s := power
     let w (x : State) := (x.part 0).power
     decide (1000 * (w (s 100001 5 0 3200 false)).budget < 100001) && (w (s 100001 5 0 3200 false)).step == 5 && (w (s 100001 6 0 3200 false)).step == 6 &&
     (s 100000 0 0 3200 false).forcing 0 == 0 && (s 100000 0 0 100 false).forcing 0 == 1 && (s 100000 0 0 100 true).forcing 0 == 2 &&
     (let x := s 100000 0 0 3200 false
      State.forcing { x with mgmt := { x.mgmt with drawn := 3200001 } } 0 == 3) &&
     decide (100 * 94999 < 95 * (1000 * (w (s 94999 1 0 3200 false)).budget)) && (w (s 94999 1 0 3200 false)).forced.isEmpty && (w (s 0 6 3 3200 false)).forced == [3] &&
     decide (95 * (1000 * 100) ≤ 100 * 95000) && !((at_ 0).part 0).exists_ && (s 0 0 0 3200 false).partsList == [0] && ((s 0 0 0 3200 false).part 0).pq.evt.isEmpty &&
     !((s 0 0 0 3200 false).part 0).pq.evtIen && (s 0 0 0 3200 false).mgmt.limit != 3199) = true := by decide +kernel

/-- ServiceEvents: pages that are owned and not; reserved and other codes of RAS_INJ; a core that is free, with and without its
spare; a stage that ends well, one that is held; stage 6 and stage 7. -/
theorem test_witness_service :
    (let s := mapped (at_ 0)
     s.sto.latent.isEmpty && decide ((s.hart 0).q.status ≠ .free) && s.pageOwner (8 * 128) == some 0 && (at_ 0).pageOwner (8 * 128) == none && (at_ 0).line? 8 == none &&
     ((s.part 0).exists_) && (0x3000000000000000#64).extractLsb' 60 2 == 3#2 && (0x2000000000000000#64).extractLsb' 60 2 != 3#2 &&
     !(0x2000000000000000#64).getLsbD 63 && placeOf 0 == .hbm && placeOf 0x10000000000 == .lpddr && placeOf (2 ^ 52 - 1) == .host &&
     !(at_ 0).isRetired 0 && decide (120 + (toBytes 8 1).length ≤ 128) && (at_ 0).gangs.isEmpty && (at_ 0).coreOwner 5 == none &&
     !Table.get false (at_ 0).mgmt.spares 0 && (at_ 0).mgmt.mgmtSpare && decide ((at_ 0).mgmt.stage ≥ 7) && decide (State.reset.mgmt.stage < 7) &&
     !State.reset.mgmt.held) = true ∧
    (let at_ (k : Nat) : State := { State.reset with mgmt := { State.reset.mgmt with stage := k } }
     let r : StageReport := ⟨false, 0, [], [7], [], [0], [1]⟩
     (at_ 5).mgmt.stage == 5 && (at_ 6).mgmt.stage == 6 && r.sparesBad.isEmpty && r.coresFailed == [7] && !r.portsDown.contains 1 &&
     decide ((at_ 1).mgmt.stage ∈ [1, 3] ∧ ({ r with held := true } : StageReport).held = true) && decide (2 ≤ ({ r with mgmtFailed := 2 } : StageReport).mgmtFailed)) =
      true := by decide +kernel

/-! ### Witnesses of the clauses on streams, the matrix engine, trims, stops and images -/

/-- Hart 0 with stream slot 2 configured at `tcm`, of SEW code `w` and stored code `c`. -/
def strm (w c : Nat) (f : Stream → Stream) : State :=
  filled (hartIs fun h => h.setStream 2 (f { Stream.idle with state := 1, savl := 8, base := w64 tcm, conf := w64 (w + 32 * c), sstride := 2 }))

/-- A length table and a coded word at `tcm`. -/
def coded (tab : Nat) (s : State) : State :=
  { s with sto := { s.sto with mem := Memory.write (Memory.write s.sto.mem (tcmLoc 0 0x1000) 128 tab) (tcmLoc 0 0x1080) 8 0xFF } }

/-- StreamElementRules and StreamCompletes: plain, packed, planar and coded elements that are read; an address outside the space, one
off by one; a scale entry that is read, and one that is not. -/
theorem test_witness_stream_elements :
    (let at_ (s : State) : Stream := (s.hart 0).stream 2
     let fails {α : Type} (x : Except AErr α) : Bool := match x with | .ok _ => false | .error _ => true
     let got {α : Type} (x : Except StreamErr α) : Bool := match x with | .ok _ => true | .error _ => false
     let p := strm 1 3 id
     let far := strm 1 3 fun x => { x with base := w64 (2 ^ 60) }
     let sc (k : Nat) := strm 1 3 fun x => { x with scaled := true, kbase := w64 k }
     let four := strm 1 19 id
     let bpn := strm 1 21 fun x => { x with base := w64 tcm }
     let z := coded 0x11 (strm 0 1 fun x => { x with conf := w64 (32 + 2 ^ 63) })
     storedOf (at_ p).sew (at_ p).code == .plain 2 && !(at_ p).zc && ok (p.streamRead 0 2 (w64 tcm)) && p.sto.latent.isEmpty && p.sto.lines.isEmpty &&
     p.sto.poison.isEmpty && !p.paused 0 && near p (w64 tcm) 2 && got ((at_ p).fetch 0 p) && decide ((at_ p).buf.length < 65536 / (at_ p).sew) &&
     fails (far.streamRead 0 2 (w64 (2 ^ 60))) && !got ((at_ far).fetch 0 far) && decide ((w64 (tcm + 1)).toNat % 2 ≠ 0) &&
     ok ((sc tcm).streamRead 0 1 (w64 tcm)) && near (sc tcm) (w64 tcm) 1 && fails ((sc (2 ^ 60)).streamRead 0 1 (w64 (2 ^ 60))) && (at_ (sc 0)).fetched % 2 ^ (at_ (sc 0)).shift == 0 &&
     storedOf (at_ four).sew (at_ four).code == .packed 4 && ok (four.streamPacked 0 [] (packedAt (w64 tcm) 4 0).1) &&
     (match storedOf (at_ bpn).sew (at_ bpn).code with | .bpn _ => true | _ => false) && (bpnErr (w64 tcm) 0 (at_ bpn).planes .read).isNone &&
     ok (bpn.streamPacked 0 [] [bpnAddr (w64 tcm) 0 0]) &&
     (at_ z).zc && (match (at_ z).zcWord 0 z with | .ok (_, y, l, _) => y.fetched == 0 && decide (0 - y.out < l.length) | .error _ => false) &&
     runs p (.streamFetch 0 2) (fun t => (at_ t).buf == [0x8180] && (at_ t).fetched == 1 && (at_ t).sbase == w64 (tcm + 2)) &&
     runs (sc tcm) (.streamFetch 0 2) (fun t => (at_ t).sbuf == [0x80] && (t.hart 0).sc.latch)) = true := by decide +kernel

/-- MatrixUnit: a command of each kind in progress, which nothing holds; whole rows and steps inside one; a stale register, a
first access that fails; windows that its accesses reach, at distinct places. -/
theorem test_witness_matrix_work :
    (let cmd (k : MKind) (m : Word) (vr : VReg) (sa : Word) (sn : Nat) : MCmd := ⟨0, 8, 0, k, 0, vr, m, sa, 0, 0, w64 sn, 0, 0, 3, 0, none, none⟩
     let s (k : MKind) (m : Word) (sa : Word) : State :=
       (filled (hartIs fun h => { h with shape := { h.shape with talloc := 3, bst := [0] } })).updCore 0 fun c => { c with mrun := some ⟨cmd k m 1 sa 1, 0, 0, 0, []⟩ }
     let works (x : State) : Bool := (x.core 0).mrun.isSome && !x.arrayHolds 0 && coreOf 0 == 0 && dry x && (x.hart 0).q.queue.isEmpty && (x.hart 0).q.stopped.isEmpty
     let kLen (n : Nat) : Word := w64 (n * 2 ^ 16 + 2 ^ 32)
     let quiet (x : State) : Bool := x.sto.latent.isEmpty && x.sto.lines.isEmpty && x.sto.poison.isEmpty && (x.hart 0).q.mheld.isEmpty && !x.holding
     let stale := (s .mma (kLen 1 ||| w64 (2 ^ 62)) 0)
     let at_ (a : Nat) : Option Nat := ((s .maccst 0 (w64 tcm)).hart 0).localLoc 0 (tcm + a)
     [MKind.mma, .mmas, .mbld, .maccld, .maccst, .mzero].all (fun k => works (s k (kLen 1) (w64 tcm)) && quiet (s k (kLen 1) (w64 tcm))) &&
     ((kLen 1).extractLsb' 16 16).toNat == 1 && decide (0 + 1 < (((kLen 257).extractLsb' 16 16).toNat + 255) / 256) &&
     decide (0 + 1 < ((w64 1 ||| kLen 1).extractLsb' 0 5).toNat + 1) && decide (0 + 1 < (slicePairs 3).length) &&
     (kLen 1 ||| w64 (2 ^ 62)).getLsbD 62 && !((stale.hart 0).binding 1).valid && (stale.hart 0).q.status != .free && !(kLen 1).getLsbD 62 &&
     [0].Nodup && decide ((w64 (7 * 2 ^ 53)).extractLsb' 53 4 = 7#4) && decide (3 * (0 + 1) ≤ 15 * 1024 / 16) &&
     ([0, 1, 511].all fun j => near (s .maccst 0 (w64 tcm)) (w64 (tcm + 64 * j)) 64) && at_ 0 == some (tcmLoc 0 0x1000) && at_ 1 == some (tcmLoc 0 0x1001) && at_ 32767 == some (tcmLoc 0 0x8FFF) &&
     (match (s .maccld 0 (w64 (2 ^ 54))).load 0 .matrix (w64 (2 ^ 54)) 64 .read with | .error _ => true | .ok _ => false) &&
     (match (s .mbld 0 (w64 (2 ^ 54))).load 0 .matrix (w64 (2 ^ 54)) 128 .read with | .error _ => true | .ok _ => false) &&
     runs (s .mzero 0 0) (.matrixCommandComplete 0) (fun t => (t.core 0).mrun.isNone) &&
     runs (s .maccst 0 (w64 (2 ^ 54))) (.matrixAsyncFault 0) (fun t => (t.hart 0).q.mfault.isSome)) = true := by decide +kernel

/-- VStops and TrimRules: an indexed load and a VLDFF whose first element is there and whose second is not. VectorOnce: a VLDZ in a run
that has just begun, whose table is at no address, which reaches its elements, and one that stops before them; the addresses of words
that stand alone. -/
theorem test_witness_stopped_loads :
    (let m : MemForm := ⟨false, false, false⟩
     let begun (i : Instr) (vtype mfc : Word) (xa : Nat) (imm : BitVec 16) (s : State) : State := s.updHart 0 fun h => { h with q := { h.q with
       run := some ⟨⟨0, [], [i], 1, 2, vtype, mfc, w64 xa, 0, imm, 0, none, false, 0, [], []⟩, 0, [], false, [], []⟩ } }
     let stops (i : Instr) (f : AddrForm) (s : State) : Bool :=
       let c : Ctx := ⟨0, (s.me.entryFor i).2, s.entry i⟩
       ready s i && s.groupTop i == 2 && match elements (upTo 0 1) (destination gt 3 (fun c x s => s.loadElem c m f x) c) (s.clearAsked 0) with
         | some t => t.me.vguard gt 1 && (match t.loadElem c m f 1 with | .error a => a.cause ∈ [0x05#8, 0x06#8, 0x07#8, 0x08#8] | .ok _ => false)
         | none => false
     let edge := tcmBase.toNat + 0x1C0000 - 4
     let last := alone fun h => { h with shape := { h.shape with tcm := List.range 28 } }
     let z (xa : Nat) (imm : BitVec 16) : State := begun (.vldz 3 1) 0x6000 (w64 (0x38000 + 32)) xa imm (coded 0x11 (alone id))
     let d (s : State) : Option (Nat × ZcEnd) := match Ctx.zcDecode ⟨0, 1, s.entry (.vldz 3 1)⟩ 2 s with | .ok (_, d, f) => some (d.n, f) | .error _ => none
     let low := mapped (alone id)
     stops (.vldx gt 3 1 m) (.indexed 1) (begun (.vldx gt 3 1 m) 0x6002 0x38000 tcm 0 (alone fun h => h.wrElem 1 1 32 (2 ^ 31))) &&
     stops (.vldff gt 3 m) .unit (begun (.vldff gt 3 m) 0x6002 0x38000 edge 0 last) &&
     ready (z tcm 1) (.vldz 3 1) && (z tcm 1).groupTop (.vldz 3 1) == 2 && d (z tcm 1) == some (2, .reached) && d (z tcm 0) == some (0, .stop) &&
     d (z (2 ^ 60) 1) == none && (match d (begun (.vldz 3 1) 0x6000 (w64 (0x38000 + 32)) tcm 1 (coded 0x10 (alone id))) with | some (0, .fail _) => true | _ => false) &&
     runs (z tcm 0) (.vldz 3 1) (fun t => t.me.vec.vl == 0) &&
     runs (z (2 ^ 60) 1) (.vldz 3 1) (fun t => t.me.q.run.isNone) &&
     ready low (.bfseq gt 1 m) && ready low (.bftab gt 1 m) && ok (low.fetchAll 0 8 [0, 8]) && ok (low.load 0 .vector 0 4 .read)) = true := by decide +kernel

/-- ScalarAccessFaults, AMO and CAS. CsrRegisters: registers of the lists. -/
theorem test_witness_atomic_faults :
    (let s (a : Nat) := regsAre [a]
     com (s (2 ^ 55)) [2, 1] && !(s 0).me.pending [3] && decide (2 ^ 55 ≤ ((s (2 ^ 55)).me.rdS 1).toNat) &&
     decide (((s (2 ^ 55 - 1)).me.rdS 1).toNat < 2 ^ 55 ∧ ((s (2 ^ 55 - 1)).me.rdS 1).toNat % 4 ≠ 0 ∧ ((s (2 ^ 55 - 1)).me.rdS 1).toNat % 8 ≠ 0)) = true := by
  decide +kernel

/-- InterruptRules: an interrupt that is taken beside a turn that commits, and one that yields to a breakpoint. TerminationRules: a
hart that runs until it ends, one whose EXIT comes first, and one that is stopped. -/
theorem test_witness_first :
    (let irq (w : Nat) (f : Hart → Hart) : State := (at_ w).updHart 0 fun h => let h := f h
       { h with q := { h.q with irq := [5] }, trap := { h.trap with tstat := 1 } }
     let add := 0x007FC00000000000
     let bp (h : Hart) : Hart := { h with q := { h.q with bkpa := [(0, tcmBase)], bkpc := [(0, w64 (2 ^ 63))] } }
     let both (s : State) (f : State → Bool) : Bool := (s.takeIrq 0).isSome && (s.hart 0).q.status == .running && (s.gang 0).stopReq.isNone &&
       !s.paused 0 && (match s.ownTurn 0 with | .next t => f t | _ => false)
     let stopped := (at_ add).updHart 0 fun h => { h with q := { h.q with status := .stopped } }
     both (irq add id) (fun t => (t.hart 0).q.status == .running && (t.hart 0).q.stopped.isEmpty) &&
     both (irq add bp) (fun t => (t.hart 0).q.status == .stopped) &&
     (((at_ add).first 0).hart 0).q.status == .running && (((at_ 0x247FC00000000000).first 0).hart 0).q.status == .exiting &&
     stopped.first 0 == stopped && runs (at_ add) (.termination (.hart 0)) (fun t => (t.hart 0).q.status == .free) &&
     runs (at_ 0x247FC00000000000) (.termination (.hart 0)) (fun t => (t.hart 0).q.status == .exiting)) = true := by decide +kernel

/-- A gang of slate 3 with the member that hart 0 runs, and its image after it is pre-empted. -/
def preempted : State × Option QSlate :=
  let s := (started id).updHart 0 fun h => { h with shape := { h.shape with launch := 3 } }
  let s := (s.updPart 0 fun p => { p with exists_ := true, cores := [0], asids := [0] }).updGang 3 fun g =>
    { g with cores := [0], members := [0], live := 1, slate := ⟨3, 0, [0, 1], 0, 0, false, true, false, 0, none, none⟩, tiles := [0] }
  match exec (.preemption 3) s with
  | .next t => (s, (t.part 0).queue.head?)
  | _ => (s, none)

/-- PreemptionRules: a gang that may be pre-empted, its member quiet, and paused; a saved slate that a place is found for, and its
member in its seat. QuantumRules: a slate that met an unmet DEP since the last boundary. -/
theorem test_witness_preemption :
    (let s := preempted.1
     let x := s.gang 3
     let u := (x.liveMembers.map x.memberHart).foldl State.first s
     let h := u.hart 0
     s.mayPreempt x && u.mayPreempt (u.gang 3) && (u.gang 3).cores == [0] && (u.gang 3).stopReq.isNone && (u.gang 3).members.Nodup && (u.gang 3).live.getLsbD 0 &&
     (u.gang 3).memberHart 0 == 0 && h.q.sheld.isEmpty && h.q.vheld.isEmpty && h.q.mheld.isEmpty && !h.draining && (u.core 0).mrun.isNone && (u.core 0).mq.isEmpty &&
     ((upTo 0 4).all fun e => (h.headCmd e).isNone) &&
     (s.updPart 0 fun p => { p with power := { p.power with step := 6 } }).paused 0 && h.stopConv.isSome) = true ∧
    (let free := (at_ 0).updPart 0 fun p => { p with exists_ := true, cores := [0], asids := [0] }
     let free := free.updHart 0 fun h => { h with q := { h.q with status := .free } }
     match preempted.2 with
     | some q => (match q.image, free.findSpot q 0 with
       | some i, some spot => (free.refusal q spot).isNone && (free.seats q spot.cores) == [(0, 0)] && ((i.harts[0]?).getD none).isSome &&
          (match (i.harts[0]?).getD none with
           | some (saved : Hart) => decide (((free.place q spot).hart 0).q.queue = saved.q.queue) && saved.q.queue.length == 1
           | none => false)
       | _, _ => false)
     | none => false) = true ∧
    (let q : QSlate := ⟨7, 0, [0, 1], 0, 0, false, true, true, 0, none, none⟩
     q.unmet && q.ready && q.image.isNone && decide (q.eff < 7)) = true := by decide +kernel

/-- EngineCommands: an access that fails, in each direction. CollectiveEvents: members that gave their elements, with a quorum and
without one, and a broadcast of the root's. -/
theorem test_witness_copy_and_result :
    (let s := filled (at_ 0)
     let w := s.who 0
     let fails {α : Type} (x : Except AErr α) : Bool := match x with | .ok _ => false | .error _ => true
     unitUp tcm 4 == 4 && ok (s.readUnit w (w64 (tcm + 4) - 4) 4) && fails (s.readUnit w (w64 (2 ^ 60)) 4) && fails (s.readUnit w (w64 (2 ^ 60 + 4) - 4) 4) &&
     ok (s.writeUnit w (w64 (tcm + 4) - 4) [1, 2, 3, 4]) && fails (s.writeUnit w (w64 (2 ^ 60)) [1, 2, 3, 4]) &&
     fails (s.writeUnit w (w64 (2 ^ 60 + 4) - 4) [1, 2, 3, 4])) = true ∧
    (let wire (q : Nat) := w64 (1 * 2 ^ 32 + q * 2 ^ 24 + 11 * 2 ^ 19)
     let c (q : Nat) (root : Option Nat) (parts : List (Nat × List (BitVec 32))) : Collective :=
       ⟨⟨0, 0, 0, true, 0, 1, []⟩, 0, 3, wire q, 1, root, [0x3F800000], parts⟩
     let two : List (Nat × List (BitVec 32)) := [(0, [0x3F800000]), (1, [0x40000000])]
     wireQuorum (wire 2) == 2 && (c 2 none two).answer.elems == [0x40400000] && (c 2 none two).answer.outcome == 0 &&
     (c 2 none (two.take 1)).answer.outcome == 2 && (c 1 none (two.take 1)).answer.outcome == 1 &&
     (c 2 (some 1) two).answer.elems == [0x40000000]) = true := by decide +kernel

/-- DebugEvents: a gang of two live members. ServiceEvents: a HELD module; a command in progress of a hart that has ended. BurxusCalls: a
group that names a session of the protected port. -/
theorem test_witness_service_more :
    (let a := at_ 0x007FC00000000000
     let s := (a.updHart 1 fun _ => a.hart 0).updGang 0 fun g => { g with cores := [0], members := [0, 1], live := 3 }
     let s := { s with mgmt := { s.mgmt with owner := some .driver } }
     let orphan : State := ((at_ 0).updHart 1 fun h => { h with q := { h.q with status := .free } }).updCore 0 fun c =>
       { c with mrun := some ⟨⟨1, 0, 0, .mma, 0, 0, 0, 0, 0, 0, 0, 0, 0, 3, 0, none, none⟩, 0, 0, 0, []⟩ }
     let port := linked (fun x => { x with part := 32 }) (at_ 0)
     (s.gang 0).liveMembers == [0, 1] && (s.gang 0).memberHart 1 == 1 &&
     runs s (.haltGang .driver 0) (fun t => (t.hart 0).q.status == .stopped && (t.hart 1).q.status == .stopped) &&
     (let held := { (at_ 0) with mgmt := { (at_ 0).mgmt with held := true } }
      runs held (.hostMemoryAccess true 0x1000 [1]) (fun t => t == held)) &&
     orphan.gangs.isEmpty && orphan.orphanRun 0 && !(at_ 0).orphanRun 0 &&
     port.hasSession 5 && (port.session 5).part == 32 && (port.group 0).self == 0) = true := by decide +kernel

/-- EarlyLoadRules: a load behind a queued convoy returns its data ahead of the commit point (R30), takes them when it commits, and is given
up where another load commits first. -/
theorem test_early_load :
    (let s := (filled (at_ (wordOf (.ldD gs 2 1 0)).toNat)).updHart 0 fun h =>
       let h := regs [tcm] h; { h with q := { h.q with queue := [convoy] } }
     let t := s.runAhead 0
     let u : State := { t with sto := { t.sto with mem := Memory.write t.sto.mem (tcmLoc 0 0x1000) 8 5 } }.updHart 0 fun h =>
       { h with q := { h.q with queue := [] } }
     (t.hart 0).q.region == [⟨tcmBase, w64 tcm, toBytes 8 0x8786858483828180⟩] && com u [2, 1] &&
     runs u (.ldD gs 2 1 0) (fun v => v.me.rdS 2 == 0x8786858483828180#64 && v.me.q.region.isEmpty) &&
     runs u (.ldW gs 2 1 0) (fun v => v.me.rdS 2 == 5 && v.me.q.region.isEmpty)) = true := by decide +kernel

/-- LoadRules: a packed word that is at hand, and one that a later write of the agent has changed (R102); a gathered line that a cached
access finds, and an access of the TCM, which is not cached (R86, R94). -/
theorem test_witness_packed_words :
    (let s := started id
     let h := (s.hart 0).keepWord ⟨1, 8, 64, 0x0102⟩
     let w : Held := ⟨64, [7], 0, 0, 0, 0, false, false⟩
     let m := (mapped s).updCore 0 fun c => c.gather (w64 0x100000) (w64 128) 4 0x100000
     (s.hart 0).wordRead 1 8 == none && h.wordRead 1 8 == some 0x0102 && (h.patchWords w).wordRead 1 8 == some 0x0107 &&
     (h.patchWords { w with loc := 72 }).wordRead 1 8 == some 0x0102 &&
     (match m.locate (m.whoOf 0 .vector) (w64 0x100000) .read with
      | .ok (v, t) => v.caches t && ((v.core 0).gatherHit t.loc 4).isSome && (v.hart 0).q.vheld.isEmpty && !v.poisoned t.loc && !v.isRetired t.loc
      | .error _ => false) &&
     (match (filled s).locate ((filled s).whoOf 0 .vector) (w64 tcm) .read with | .ok (v, t) => !v.caches t | .error _ => false)) = true := by
  decide +kernel

/-- MmaRules: a scaled command whose record is live, which its first step keeps (R210). HartEvents: a pass that waits for a command that reads
its register, and one that does not (R221). PreemptionRules: a member that stopped inside a pass. -/
theorem test_witness_scaled_and_pass :
    (let live (h : Hart) : Hart := let x := h.setBinding 1 ⟨2, true, false, 3, 0⟩; { x with vec := { x.vec with kgen := [] } }
     let k (msh : Word) : MCmd := ⟨0, 8, 0, .mma, 0, 1, msh, 0, 0, 0, 0, 0, 0, 3, 0, none, none⟩
     let scaled : Word := w64 (2 ^ 16 + 2 ^ 32 + 2 ^ 48 + 2 ^ 62)
     let s := (hartIs fun h => { live h with shape := { h.shape with talloc := 1, bst := [0] } }).updCore 0 fun c =>
       { c with mrun := some ⟨k (scaled ||| w64 1), 0, 0, 0, []⟩ }
     let pass : QEntry := { convoy with instrs := [.bfpass gt 1 1 1 1 5 0], seq := 1 }
     let queued (v : VReg) : State := (hartIs fun h => { h with q := { h.q with queue := [pass] } }).updCore 0 fun c =>
       { c with mq := [{ k (w64 (2 ^ 16 + 2 ^ 32)) with vreg := v }] }
     let saved (h : Hart) : Hart := { (h.wrO 1 5) with q := { h.q with run := some ⟨pass, 0, [], false, [], []⟩ } }
     !(s.hart 0).staleAt 1 && (k scaled).bind.isNone &&
     runs s (.matrixCommandComplete 0) (fun t => (t.core 0).mrun.isNone && (t.hart 0).q.mfault.isNone) &&
     pass.isPass && (queued 1).convoyHeld 0 pass 0 2 && runs (queued 1) (.convoyStart 0) (fun t => t == queued 1) &&
     !(queued 9).convoyHeld 0 pass 0 2 && ((saved (at_ 0).me).stoppedPass.map (·.o)) == some 1 && (saved (at_ 0).me).rdO 1 == 5) = true := by
  decide +kernel

/-- The module without power answers nothing but its reset. -/
theorem test_power_off :
    (let s := let s := at_ 0
       { s with mgmt := { s.mgmt with powered := false } }
     (match step s with | .next t => t == s | _ => false) &&
     (match step { s with inputs := [.event .moduleReset] } with | .next t => t == State.reset | _ => false)) = true := by decide +kernel

/-- R352, R366: an error in the tiles of a hart ends it with CODE 0x24 and adds a record of KIND 4 and PLACE 7 with TERM. -/
theorem test_hart_storage_lost :
    (match execPatrolRead 0 (.storage 0 .tiles true) (mapped (at_ 0)) with
     | .next t => (t.hart 0).q.status == .free && ((t.part 0).pq.ras.map fun r => (fld r.w0 62 56, fld r.w0 55 52, fld r.w0 37 37, r.w1)) == [(4, 7, 1, 0)]
     | _ => false) = true := by decide +kernel

end Sys2Proof.Tests
end

/-!
PROOFS. The scalar instructions of 09_scalar_instructions.md: integer results (R140, R141), vector branches (R147), and minimum,
maximum, comparison and classification of floating-point numbers (R149, R150, R152).
-/
namespace Sys2Proof.Machine
open Sys2Proof.Laws

/-! ### Scalar words: what they decode to, and how they complete -/

/-- A word that an instruction encodes to decodes to it, with no loss to `toOption`. -/
theorem decodeIn_of_encode {i : Instr} {u : WUnit} {w : Word} (hs : Encoding.Statement i) (hw : i.wf = true)
    (he : encode i = some ⟨u, w⟩) : decodeIn u w = .ok i := by
  have h : (decodeIn u w).toOption = some i := hs hw _ he
  cases hd : decodeIn u w with
  | error e =>
    rw [hd] at h
    cases h
  | ok j =>
    rw [hd] at h
    cases h
    rfl

theorem packSc_class (f : ScF) : (packSc f).extractLsb' 62 2 = 0#2 := by
  unfold packSc
  repeat rw [BitVec.extractLsb'_append_eq_of_le (by decide)]
  rfl

theorem decodeIn_packSc (f : ScF) : decodeIn .sc (packSc f) = decodeSc f := by
  simp only [decodeIn, packSc_class, if_true, splitSc_packSc]

/-- A word that does its work by `State.regOp` completes when it commits. -/
theorem acts_of_regOp {i : Instr} {s : State} {g : SG} {rs : List SReg} {f : Hart → Hart} (he : exec i s = s.regOp g rs f)
    (hc : s.Commits g rs) : Acts i s (f s.me).nextPc :=
  acts_setHart (he.trans (State.regOp_commits f hc))

/-! ### Integer results (R140) -/

theorem toInt_eq_zero_iff (b : Word) : b.toInt = 0 ↔ b = 0 :=
  ⟨fun h => BitVec.eq_of_toInt_eq (h.trans BitVec.toInt_zero.symm), fun h => h ▸ BitVec.toInt_zero⟩

theorem divS_toInt (a b : Word) : divS 64 a.toInt b.toInt =
    if b = 0 then (-1, a.toInt)
    else if a.toInt = -2 ^ 63 ∧ b.toInt = -1 then (a.toInt, 0)
    else (a.toInt.tdiv b.toInt, a.toInt - b.toInt * a.toInt.tdiv b.toInt) := by
  have hmin : (-((2 ^ (64 - 1) : Nat) : Int)) = -2 ^ 63 := by decide
  simp only [divS, toInt_eq_zero_iff, hmin, tquot, trem, Int.tmod_def]

theorem divU_toNat (a b : Word) : divU 64 a.toNat b.toNat =
    if b = 0 then (2 ^ 64 - 1, a.toNat) else (a.toNat / b.toNat, a.toNat - b.toNat * (a.toNat / b.toNat)) := by
  have h0 : b.toNat = 0 ↔ b = 0 := ⟨fun h => BitVec.eq_of_toNat_eq h, fun h => h ▸ rfl⟩
  simp only [divU, h0, Nat.mod_eq_sub_mul_div]

theorem aluDiv_eq (a b : Word) : aluDiv a b = if b = 0 then -1
    else if a.toInt = -2 ^ 63 ∧ b.toInt = -1 then a else BitVec.ofInt 64 (a.toInt.tdiv b.toInt) := by
  rw [aluDiv, divS_toInt]
  by_cases hb : b = 0
  · rw [if_pos hb, if_pos hb]
    rfl
  · rw [if_neg hb, if_neg hb]
    by_cases ho : a.toInt = -2 ^ 63 ∧ b.toInt = -1
    · rw [if_pos ho, if_pos ho]
      exact BitVec.ofInt_toInt
    · rw [if_neg ho, if_neg ho]

theorem aluRem_eq (a b : Word) : aluRem a b = if b = 0 then a
    else if a.toInt = -2 ^ 63 ∧ b.toInt = -1 then 0
    else BitVec.ofInt 64 (a.toInt - b.toInt * a.toInt.tdiv b.toInt) := by
  rw [aluRem, divS_toInt]
  by_cases hb : b = 0
  · rw [if_pos hb, if_pos hb]
    exact BitVec.ofInt_toInt
  · rw [if_neg hb, if_neg hb]
    by_cases ho : a.toInt = -2 ^ 63 ∧ b.toInt = -1
    · rw [if_pos ho, if_pos ho]
      rfl
    · rw [if_neg ho, if_neg ho]

theorem aluDivu_eq (a b : Word) : aluDivu a b = if b = 0 then BitVec.ofNat 64 (2 ^ 64 - 1)
    else BitVec.ofNat 64 (a.toNat / b.toNat) := by
  rw [aluDivu, divU_toNat, w64]
  by_cases hb : b = 0
  · rw [if_pos hb, if_pos hb]
  · rw [if_neg hb, if_neg hb]

theorem aluRemu_eq (a b : Word) : aluRemu a b = if b = 0 then a
    else BitVec.ofNat 64 (a.toNat - b.toNat * (a.toNat / b.toNat)) := by
  rw [aluRemu, divU_toNat, w64]
  by_cases hb : b = 0
  · rw [if_pos hb, if_pos hb]
    exact BitVec.eq_of_toNat_eq (Nat.mod_eq_of_lt a.isLt)
  · rw [if_neg hb, if_neg hb]

/-- Bits 127 to 64 of a product are its quotient by 2^64 rounded down. -/
theorem aluMulh_eq (a b : Word) : aluMulh a b = BitVec.ofInt 64 (a.toInt * b.toInt / 2 ^ 64) := by
  apply BitVec.eq_of_toNat_eq
  simp only [aluMulh, w64, pat, BitVec.toNat_ofNat, BitVec.toNat_ofInt]
  generalize a.toInt * b.toInt = x
  omega

/-- The shift amount b[5:0] of R140. -/
theorem toNat_low6 (b : Word) : (b.extractLsb' 0 6).toNat = b.toNat % 64 := by
  rw [BitVec.extractLsb'_toNat, Nat.shiftRight_zero]

theorem aluMin_eq (a b : Word) : aluMin a b = if a.toInt ≤ b.toInt then a else b := by
  simp only [aluMin, BitVec.slt_iff_toInt_lt]
  rcases Int.lt_trichotomy a.toInt b.toInt with h | h | h
  · rw [if_pos h, if_pos (Int.le_of_lt h)]
  · rw [if_neg (by omega), if_pos (Int.le_of_eq h), BitVec.eq_of_toInt_eq h]
  · rw [if_neg (by omega), if_neg (Int.not_le.mpr h)]

theorem aluMax_eq (a b : Word) : aluMax a b = if b.toInt ≤ a.toInt then a else b := by
  simp only [aluMax, BitVec.slt_iff_toInt_lt, ← Int.not_le, ite_not]

theorem aluMinu_eq (a b : Word) : aluMinu a b = if a.toNat ≤ b.toNat then a else b := by
  simp only [aluMinu, BitVec.ult_iff_toNat_lt]
  rcases Nat.lt_trichotomy a.toNat b.toNat with h | h | h
  · rw [if_pos h, if_pos (Nat.le_of_lt h)]
  · rw [if_neg (by omega), if_pos (Nat.le_of_eq h), BitVec.eq_of_toNat_eq h]
  · rw [if_neg (by omega), if_neg (Nat.not_le.mpr h)]

theorem aluMaxu_eq (a b : Word) : aluMaxu a b = if b.toNat ≤ a.toNat then a else b := by
  simp only [aluMaxu, BitVec.ult_iff_toNat_lt, ← Nat.not_le, ite_not]

theorem aluSll_eq (a b : Word) : aluSll a b = a <<< (b.extractLsb' 0 6).toNat := by rw [toNat_low6, aluSll]
theorem aluSrl_eq (a b : Word) : aluSrl a b = a >>> (b.extractLsb' 0 6).toNat := by rw [toNat_low6, aluSrl]
theorem aluSra_eq (a b : Word) : aluSra a b = a.sshiftRight (b.extractLsb' 0 6).toNat := by rw [toNat_low6, aluSra]

/-! ### The R-layout and I-layout forms -/

/-- An R-layout row, from the round trip of its word and the value of the operation that it executes as. -/
theorem rForm_of_aluOp {opc : BitVec 8} {mk : SG → SReg → SReg → SReg → Instr} {f : Word → Word → Word}
    (f' : Word → Word → Word) (hs : ∀ g sd sa sb, Encoding.Statement (mk g sd sa sb)) (hf : ∀ a b, f' a b = f a b)
    (hw : ∀ g sd sa sb, (mk g sd sa sb).wf = true := by intros; rfl)
    (hc : ∀ g sd sa sb, encode (mk g sd sa sb) = some ⟨.sc, packSc ⟨opc, g, sd, sa, sb, 0⟩⟩ := by intros; rfl)
    (he : ∀ g sd sa sb s, exec (mk g sd sa sb) s = aluOp s f' g sd sa sb := by intros; rfl) : RForm opc mk f := by
  intro g sd sa sb
  refine ⟨decodeIn_of_encode (hs g sd sa sb) (hw g sd sa sb) (hc g sd sa sb), fun s h => ?_⟩
  rw [← hf]
  exact acts_of_regOp (he g sd sa sb s) h

/-- An I-layout row, from the value of the R-layout operation that it executes as. -/
theorem iForm_of_immOp {i : Instr} {g : SG} {sd sa : SReg} {f : Word → Word} (f' : Word → Word → Word) (x : Word)
    (hf : ∀ a, f' a x = f a) (he : ∀ s, exec i s = immOp s f' g sd sa x := by intros; rfl) : IForm i g sd sa f := by
  intro s h
  rw [← hf]
  exact acts_of_regOp (he s) h

/-- Settles O10: each row executes as one operation on two registers, whose value is R140's by the lemma about that operation. -/
theorem integerRegister : Obligations.IntegerRegister :=
  ⟨rForm_of_aluOp (· + ·) Encoding.add fun _ _ => rfl,
   rForm_of_aluOp (· - ·) Encoding.sub fun _ _ => rfl,
   rForm_of_aluOp (· &&& ·) Encoding.and fun _ _ => rfl,
   rForm_of_aluOp (· ||| ·) Encoding.or fun _ _ => rfl,
   rForm_of_aluOp (· ^^^ ·) Encoding.xor fun _ _ => rfl,
   rForm_of_aluOp aluSll Encoding.sll aluSll_eq,
   rForm_of_aluOp aluSrl Encoding.srl aluSrl_eq,
   rForm_of_aluOp aluSra Encoding.sra aluSra_eq,
   rForm_of_aluOp (· * ·) Encoding.mul fun _ _ => rfl,
   rForm_of_aluOp aluMulh Encoding.mulh aluMulh_eq,
   rForm_of_aluOp aluMulhu Encoding.mulhu fun _ _ => rfl,
   rForm_of_aluOp aluDiv Encoding.div aluDiv_eq,
   rForm_of_aluOp aluDivu Encoding.divu aluDivu_eq,
   rForm_of_aluOp aluRem Encoding.rem aluRem_eq,
   rForm_of_aluOp aluRemu Encoding.remu aluRemu_eq,
   rForm_of_aluOp aluMin Encoding.min aluMin_eq,
   rForm_of_aluOp aluMax Encoding.max aluMax_eq,
   rForm_of_aluOp aluMinu Encoding.minu aluMinu_eq,
   rForm_of_aluOp aluMaxu Encoding.maxu aluMaxu_eq⟩

/-- The 18 bits above a shift amount lie in SB and in the upper part of FUNC. -/
theorem shiftField_eq_zero {imm : BitVec 24} (hsb : imm.extractLsb' 19 5 = 0#5) (hfn : imm.extractLsb' 6 13 = 0#13) :
    imm.extractLsb' 6 18 = 0#18 := by
  have h : imm.extractLsb' 19 5 ++ imm.extractLsb' 6 13 = imm.extractLsb' 6 18 :=
    BitVec.extractLsb'_append_extractLsb'_eq_extractLsb' rfl
  rw [← h, hsb, hfn]
  rfl

theorem need_of_not {p : Prop} [Decidable p] (h : ¬ p) (i : Instr) : need (decide p) i = .error .nonzeroField := by
  rw [need, decide_eq_false h]
  rfl

theorem decodeIn_shift_refused {g : SG} {sd sa sb : SReg} {fn : BitVec 19} (h : ¬ (sb = 0#5 ∧ fn.extractLsb' 6 13 = 0#13)) :
    decodeIn .sc (packSc ⟨0x26#8, g, sd, sa, sb, fn⟩) = .error .nonzeroField ∧
    decodeIn .sc (packSc ⟨0x27#8, g, sd, sa, sb, fn⟩) = .error .nonzeroField ∧
    decodeIn .sc (packSc ⟨0x28#8, g, sd, sa, sb, fn⟩) = .error .nonzeroField := by
  simp only [decodeIn_packSc, decodeSc, decodeScImm]
  exact ⟨need_of_not h _, need_of_not h _, need_of_not h _⟩

theorem decodeIn_reserved22 (g : SG) (sd sa sb : SReg) (fn : BitVec 19) :
    decodeIn .sc (packSc ⟨0x22#8, g, sd, sa, sb, fn⟩) = .error .reservedOpcode := by
  simp [decodeIn_packSc, decodeSc, decodeScImm]

/-- Settles O11: the words by the round trip of the encoder, the refused ones by the decoder's check of the bits above the shift
amount, and each result by that of its R-layout form. -/
theorem integerImmediate : Obligations.IntegerImmediate := by
  refine ⟨fun g sd sa imm => ⟨⟨?_, ?_, ?_, ?_, ?_, fun h => ?_⟩, ?_, ?_, ?_, ?_⟩, fun g sd sa sh => ?_, fun g sd imm => ?_⟩
  · exact decodeIn_of_encode (Encoding.addImm g sd sa imm) rfl rfl
  · exact decodeIn_reserved22 g sd sa _ _
  · exact decodeIn_of_encode (Encoding.andImm g sd sa imm) rfl rfl
  · exact decodeIn_of_encode (Encoding.orImm g sd sa imm) rfl rfl
  · exact decodeIn_of_encode (Encoding.xorImm g sd sa imm) rfl rfl
  · have hz : ¬ (imm.extractLsb' 19 5 = 0#5 ∧ (imm.extractLsb' 0 19).extractLsb' 6 13 = 0#13) := by
      rw [BitVec.extractLsb'_extractLsb'_of_le (by decide)]
      exact fun ⟨hsb, hfn⟩ => h (shiftField_eq_zero hsb hfn)
    exact decodeIn_shift_refused hz
  · exact iForm_of_immOp (· + ·) (imm.signExtend 64) fun _ => rfl
  · exact iForm_of_immOp (· &&& ·) (imm.setWidth 64) fun _ => rfl
  · exact iForm_of_immOp (· ||| ·) (imm.setWidth 64) fun _ => rfl
  · exact iForm_of_immOp (· ^^^ ·) (imm.setWidth 64) fun _ => rfl
  · have hsh : (sh.setWidth 64).toNat % 64 = sh.toNat := by
      rw [BitVec.toNat_setWidth]
      omega
    refine ⟨?_, iForm_of_immOp aluSll (sh.setWidth 64) fun a => ?_, iForm_of_immOp aluSrl (sh.setWidth 64) fun a => ?_,
      iForm_of_immOp aluSra (sh.setWidth 64) fun a => ?_⟩
    · rw [show sh.setWidth 19 = (0#13 ++ sh : BitVec 19) from BitVec.setWidth_eq_append (by decide)]
      exact ⟨decodeIn_of_encode (Encoding.sllImm g sd sa sh) rfl rfl, decodeIn_of_encode (Encoding.srlImm g sd sa sh) rfl rfl,
        decodeIn_of_encode (Encoding.sraImm g sd sa sh) rfl rfl⟩
    · rw [aluSll, hsh]
    · rw [aluSrl, hsh]
    · rw [aluSra, hsh]
  · exact ⟨decodeIn_of_encode (Encoding.lih g sd imm) rfl rfl, fun s h => acts_of_regOp (f := fun h => h.wrS sd _) rfl h⟩

end Sys2Proof.Machine

namespace Sys2Proof.Machine
open Sys2Proof.Laws

/-! ### Vector branches (R147) -/

theorem branchTo_eq (pc off : Word) : branchTo pc off = pc + 8 * off := by
  have h : off <<< 3 = 8 * off := by
    rw [BitVec.shiftLeft_eq_mul_twoPow, BitVec.mul_comm]
    rfl
  rw [branchTo, h]

theorem testBit_ones (w e : Nat) : (ones w).testBit e = decide (e < w) := Nat.testBit_two_pow_sub_one w e

theorem Hart.pBit_eq_testBit (h : Hart) {n e : Nat} (he : e < 4096) : h.pBit n e = (h.rdP n).testBit e := by
  by_cases hn : n = 0
  · rw [Hart.pBit, Hart.rdP, if_pos hn, testBit_ones, decide_eq_true he]
    exact decide_eq_true (.inl hn)
  · simp only [Hart.pBit, hn, false_or, Bool.decide_eq_true]

/-- The low bits of a number are those of `y`. -/
theorem mod_two_pow_eq_iff {x y n : Nat} (hy : y < 2 ^ n) : x % 2 ^ n = y ↔ ∀ e < n, x.testBit e = y.testBit e := by
  constructor
  · rintro rfl e he
    rw [Nat.testBit_mod_two_pow, decide_eq_true he, Bool.true_and]
  · intro h
    refine Nat.eq_of_testBit_eq fun e => ?_
    rw [Nat.testBit_mod_two_pow]
    by_cases he : e < n
    · rw [decide_eq_true he, Bool.true_and, h e he]
    · have hye : y < 2 ^ e := Nat.lt_of_lt_of_le hy (Nat.pow_le_pow_right (by decide) (Nat.not_lt.mp he))
      rw [decide_eq_false he, Bool.false_and, Nat.testBit_lt_two_pow hye]

/-- The elements below VL of a predicate, as one number. -/
def Hart.below (h : Hart) (n : Nat) : Nat := h.rdP n % 2 ^ h.vec.vl

theorem Hart.below_eq_iff (h : Hart) {n y : Nat} (hvl : h.vec.vl ≤ 4096) (hy : y < 2 ^ h.vec.vl) :
    h.below n = y ↔ ∀ e < h.vec.vl, h.pBit n e = y.testBit e := by
  rw [Hart.below, mod_two_pow_eq_iff hy]
  have hb : ∀ e < h.vec.vl, h.pBit n e = (h.rdP n).testBit e := fun e he => h.pBit_eq_testBit (Nat.lt_of_lt_of_le he hvl)
  exact ⟨fun H e he => (hb e he).trans (H e he), fun H e he => (hb e he).symm.trans (H e he)⟩

theorem Hart.below_ne_zero_eq_any (h : Hart) (n : Nat) (hvl : h.vec.vl ≤ 4096) :
    decide (h.below n ≠ 0) = (List.range h.vec.vl).any fun e => h.pBit n e := by
  rw [Bool.eq_iff_iff, decide_eq_true_eq, ne_eq, h.below_eq_iff hvl (Nat.two_pow_pos _)]
  simp only [Nat.zero_testBit, List.any_eq_true, List.mem_range, Classical.not_forall, Bool.not_eq_false, exists_prop]

theorem Hart.below_eq_ones_eq_all (h : Hart) (n : Nat) (hvl : h.vec.vl ≤ 4096) :
    decide (h.below n = 2 ^ h.vec.vl - 1) = (List.range h.vec.vl).all fun e => h.pBit n e := by
  rw [Bool.eq_iff_iff, decide_eq_true_eq, h.below_eq_iff hvl (Nat.sub_one_lt (Nat.ne_of_gt (Nat.two_pow_pos _)))]
  simp only [Nat.testBit_two_pow_sub_one, List.all_eq_true, List.mem_range]
  exact ⟨fun H e he => (H e he).trans (decide_eq_true he), fun H e he => (H e he).trans (decide_eq_true he).symm⟩

theorem exec_bany (g : SG) (p : PReg) (off : BitVec 22) (s : State) :
    exec (.bany g p off) s = predBranch s (fun _ x => decide (x ≠ 0)) g p off := rfl
theorem exec_ball (g : SG) (p : PReg) (off : BitVec 22) (s : State) :
    exec (.ball g p off) s = predBranch s (fun vl x => decide (x = 2 ^ vl - 1)) g p off := rfl
theorem exec_bnone (g : SG) (p : PReg) (off : BitVec 22) (s : State) :
    exec (.bnone g p off) s = predBranch s (fun _ x => decide (x = 0)) g p off := rfl

theorem acts_of_predBranch_false {i : Instr} {s : State} {taken : Nat → Nat → Bool} {g : SG} {p : PReg} {off : BitVec 22}
    (he : exec i s = predBranch s taken g p off) (hc : s.me.atCommit = true) (hg : s.me.guard g = false) :
    Acts i s s.me.nextPc :=
  acts_setHart (he.trans (State.scalar_false _ hc hg))

theorem acts_of_predBranch {i : Instr} {s : State} {taken : Nat → Nat → Bool} {g : SG} {p : PReg} {off : BitVec 22} {b : Bool}
    (he : exec i s = predBranch s taken g p off) (hc : s.Commits g []) (hd : s.Drained)
    (hb : taken s.me.vec.vl (s.me.below p.toNat) = b) :
    Acts i s (s.me.setPc (if b then s.me.sc.pc + 8 * off.signExtend 64 else s.me.sc.pc + 8)) := by
  rw [← hb, ← branchTo_eq]
  exact acts_setHart (he.trans ((State.scalar_commits _ hc).trans (State.drained_idle _ hd)))

theorem predBranch_waits {s : State} (taken : Nat → Nat → Bool) {g : SG} (p : PReg) (off : BitVec 22) (hc : s.Commits g [])
    (hd : ¬ s.Drained) : predBranch s taken g p off = .next s :=
  (State.scalar_commits _ hc).trans (State.drained_busy _ (Option.isSome_iff_ne_none.mpr hd))

/-- The fields of a vector branch, cut out of IMM29 (R126, R147). -/
theorem predBranch_fields (p : PReg) (off : BitVec 22) :
    (p ++ off : BitVec 29).extractLsb' 24 5 = p.extractLsb' 2 5 ∧
    (p ++ off : BitVec 29).extractLsb' 19 5 = p.extractLsb' 0 2 ++ off.extractLsb' 19 3 ∧
    (p ++ off : BitVec 29).extractLsb' 0 19 = off.extractLsb' 0 19 := by
  refine ⟨?_, ?_, ?_⟩
  · rw [BitVec.extractLsb'_append_eq_of_le (by decide)]
  · rw [BitVec.extractLsb'_append_eq_ite]
    rfl
  · rw [BitVec.extractLsb'_append_eq_of_add_le (by decide)]

theorem decodeIn_predBranch_sd {g : SG} {sd sa sb : SReg} {fn : BitVec 19} (hsd : sd ≠ 0#5) :
    decodeIn .sc (packSc ⟨0x4D#8, g, sd, sa, sb, fn⟩) = .error .nonzeroField ∧
    decodeIn .sc (packSc ⟨0x4E#8, g, sd, sa, sb, fn⟩) = .error .nonzeroField ∧
    decodeIn .sc (packSc ⟨0x4F#8, g, sd, sa, sb, fn⟩) = .error .nonzeroField := by
  simp only [decodeIn_packSc, decodeSc, decodeScBranch]
  exact ⟨need_of_not hsd _, need_of_not hsd _, need_of_not hsd _⟩

/-- Settles O17: the words by the round trip of the encoder, and each branch by what the predicate's elements below VL are as a
number: 0 when none is 1, and all ones when each is. -/
theorem vectorBranches : Obligations.VectorBranches := by
  refine ⟨fun g sd p off => ?_, fun g p off s hc hg => ?_, fun h e he => ?_, fun g p off s hc hvl => ⟨fun hd => ?_, fun hd => ?_⟩⟩
  · obtain ⟨hsa, hsb, hfn⟩ := predBranch_fields p off
    simp only [hsa, hsb, hfn]
    refine ⟨fun h0 => ?_, decodeIn_predBranch_sd⟩
    subst h0
    exact ⟨decodeIn_of_encode (Encoding.bany g p off) rfl rfl, decodeIn_of_encode (Encoding.ball g p off) rfl rfl,
      decodeIn_of_encode (Encoding.bnone g p off) rfl rfl⟩
  · exact ⟨acts_of_predBranch_false (exec_bany g p off s) hc hg, acts_of_predBranch_false (exec_ball g p off s) hc hg,
      acts_of_predBranch_false (exec_bnone g p off s) hc hg⟩
  · rfl
  · have hnone : decide (s.me.below p.toNat = 0) = !((List.range s.me.vec.vl).any fun e => s.me.pBit p.toNat e) := by
      rw [← s.me.below_ne_zero_eq_any _ hvl, decide_not, Bool.not_not]
    exact ⟨acts_of_predBranch (exec_bany g p off s) hc hd (s.me.below_ne_zero_eq_any _ hvl),
      acts_of_predBranch (exec_ball g p off s) hc hd (s.me.below_eq_ones_eq_all _ hvl),
      acts_of_predBranch (exec_bnone g p off s) hc hd hnone⟩
  · exact ⟨(exec_bany g p off s).trans (predBranch_waits _ p off hc hd), (exec_ball g p off s).trans (predBranch_waits _ p off hc hd),
      (exec_bnone g p off s).trans (predBranch_waits _ p off hc hd)⟩

end Sys2Proof.Machine

namespace Sys2Proof.Machine
open Sys2Proof.Laws

/-! ### Encodings of the binary formats, read by sign and magnitude field -/

/-- The magnitude field of an encoding: all bits below its sign. -/
def Fmt.mag (f : Fmt) (x : Nat) : Nat := x % 2 ^ (f.we + f.wf)

/-- A sign and a magnitude as an integer; both zeros are 0. -/
def signed (neg : Bool) (n : Nat) : Int := if neg then -(n : Int) else n

theorem signed_false (n : Nat) : signed false n = n := rfl
theorem signed_true (n : Nat) : signed true n = -n := rfl

/-- The integer significand of a finite encoding: the fraction, with the hidden bit of a normal number (R61). -/
def Fmt.significand (f : Fmt) (x : Nat) : Nat := if expOf f x = 0 then fracOf f x else 2 ^ f.wf + fracOf f x

/-- The exponent of the last place of the subnormal numbers (R61). -/
def Fmt.least (f : Fmt) : Int := 1 - (f.bias : Int) - f.wf

/-- How many places above `Fmt.least` the last place of a finite encoding lies. -/
def Fmt.shift (f : Fmt) (x : Nat) : Nat := expOf f x - 1

/-- The value of a finite magnitude field, as a multiple of the least subnormal number. -/
def Fmt.units (f : Fmt) (m : Nat) : Nat := f.significand m * 2 ^ f.shift m

theorem fpOrder_eq (f : Fmt) (x : Nat) : fpOrder f x = signed (sigOf f x) (f.mag x) := rfl

theorem expOf_mag (f : Fmt) (x : Nat) : expOf f (f.mag x) = expOf f x := by
  rw [expOf, expOf, Fmt.mag, Nat.add_comm f.we, Nat.pow_add, Nat.mod_mul_right_div_self, Nat.mod_mod]

theorem fracOf_mag (f : Fmt) (x : Nat) : fracOf f (f.mag x) = fracOf f x := by
  rw [fracOf, fracOf, Fmt.mag, Nat.mod_mod_of_dvd _ (Nat.pow_dvd_pow 2 (Nat.le_add_left _ _))]

theorem mag_eq (f : Fmt) (x : Nat) : f.mag x = fracOf f x + 2 ^ f.wf * expOf f x := by
  rw [Fmt.mag, fracOf, expOf, Nat.add_comm f.we, Nat.pow_add, Nat.mod_mul]

theorem fracOf_lt (f : Fmt) (x : Nat) : fracOf f x < 2 ^ f.wf := Nat.mod_lt _ (Nat.two_pow_pos _)

theorem expOf_le (f : Fmt) (x : Nat) : expOf f x ≤ 2 ^ f.we - 1 := Nat.le_sub_one_of_lt (Nat.mod_lt _ (Nat.two_pow_pos _))

theorem units_mag (f : Fmt) (x : Nat) : f.units (f.mag x) = f.significand x * 2 ^ f.shift x := by
  simp only [Fmt.units, Fmt.significand, Fmt.shift, expOf_mag, fracOf_mag]

theorem units_zero (f : Fmt) : f.units 0 = 0 := by
  have he : expOf f 0 = 0 := by rw [expOf, Nat.zero_div, Nat.zero_mod]
  have hf : fracOf f 0 = 0 := Nat.zero_mod _
  rw [Fmt.units, Fmt.significand, if_pos he, hf, Nat.zero_mul]

theorem units_lt (f : Fmt) (x : Nat) : f.units (f.mag x) < 2 ^ f.wf * 2 ^ expOf f x := by
  have hf := fracOf_lt f x
  rw [units_mag, Fmt.significand, Fmt.shift]
  rcases Nat.eq_zero_or_pos (expOf f x) with h0 | h0
  · rw [if_pos h0, h0, Nat.zero_sub, Nat.pow_zero, Nat.mul_one, Nat.mul_one]
    exact hf
  · have hp : 2 ^ expOf f x = 2 * 2 ^ (expOf f x - 1) := by rw [← Nat.pow_succ', Nat.succ_eq_add_one, Nat.sub_add_cancel h0]
    rw [if_neg (Nat.ne_of_gt h0), hp, ← Nat.mul_assoc]
    exact Nat.mul_lt_mul_of_pos_right (by omega) (Nat.two_pow_pos _)

theorem le_units (f : Fmt) {x : Nat} (h0 : 0 < expOf f x) : 2 ^ f.wf * 2 ^ (expOf f x - 1) ≤ f.units (f.mag x) := by
  rw [units_mag, Fmt.significand, Fmt.shift, if_neg (Nat.ne_of_gt h0)]
  exact Nat.mul_le_mul_right _ (Nat.le_add_right _ _)

/-- Finite values are ordered as their magnitude fields: a greater exponent outweighs every fraction. -/
theorem units_lt_units (f : Fmt) {x y : Nat} (h : f.mag x < f.mag y) : f.units (f.mag x) < f.units (f.mag y) := by
  rw [mag_eq, mag_eq] at h
  have hx := fracOf_lt f x
  have hy := fracOf_lt f y
  rcases Nat.lt_trichotomy (expOf f x) (expOf f y) with he | he | he
  · calc f.units (f.mag x) < 2 ^ f.wf * 2 ^ expOf f x := units_lt f x
      _ ≤ 2 ^ f.wf * 2 ^ (expOf f y - 1) := Nat.mul_le_mul_left _ (Nat.pow_le_pow_right (by decide) (Nat.le_sub_one_of_lt he))
      _ ≤ f.units (f.mag y) := le_units f (Nat.zero_lt_of_lt he)
  · rw [he] at h
    have hfr : fracOf f x < fracOf f y := Nat.lt_of_add_lt_add_right h
    rw [units_mag, units_mag, Fmt.shift, Fmt.shift, he]
    refine Nat.mul_lt_mul_of_pos_right ?_ (Nat.two_pow_pos _)
    rw [Fmt.significand, Fmt.significand, he]
    by_cases h0 : expOf f y = 0
    · rwa [if_pos h0, if_pos h0]
    · rw [if_neg h0, if_neg h0]
      exact Nat.add_lt_add_left hfr _
  · have hm : 2 ^ f.wf * (expOf f y + 1) ≤ 2 ^ f.wf * expOf f x := Nat.mul_le_mul_left _ he
    rw [Nat.mul_add_one] at hm
    omega

/-! ### Signed comparison -/

theorem units_eq_zero_iff (f : Fmt) (x : Nat) : f.units (f.mag x) = 0 ↔ f.mag x = 0 := by
  constructor
  · intro h
    refine Nat.eq_zero_of_not_pos fun hx => ?_
    have h0 : f.mag 0 = 0 := Nat.zero_mod _
    have hlt := units_lt_units f (x := 0) (y := x) (by omega)
    omega
  · intro h
    rw [h, units_zero]

theorem compare_congr {a b c d : Int} (hlt : a < b → c < d) (heq : a = b → c = d) (hgt : b < a → d < c) :
    compare c d = compare a b := by
  rcases Int.lt_trichotomy a b with h | h | h
  · rw [Int.compare_eq_lt.mpr h, Int.compare_eq_lt.mpr (hlt h)]
  · rw [Int.compare_eq_eq.mpr h, Int.compare_eq_eq.mpr (heq h)]
  · rw [Int.compare_eq_gt.mpr h, Int.compare_eq_gt.mpr (hgt h)]

theorem compare_mul_pos {a b k : Int} (hk : 0 < k) : compare (a * k) (b * k) = compare a b :=
  compare_congr (fun h => Int.mul_lt_mul_of_pos_right h hk) (fun h => by rw [h]) (fun h => Int.mul_lt_mul_of_pos_right h hk)

theorem signed_lt_signed {a b : Bool} {m n m' n' : Nat} (hlt : m < n → m' < n') (hgt : n < m → n' < m') (heq : m = n → m' = n')
    (hm : m' = 0 ↔ m = 0) (h : signed a m < signed b n) : signed a m' < signed b n' := by
  cases a <;> cases b <;> simp only [signed_false, signed_true] at h ⊢ <;> omega

theorem signed_eq_signed {a b : Bool} {m n m' n' : Nat} (heq : m = n → m' = n') (hm : m' = 0 ↔ m = 0) (hn : n' = 0 ↔ n = 0)
    (h : signed a m = signed b n) : signed a m' = signed b n' := by
  cases a <;> cases b <;> simp only [signed_false, signed_true] at h ⊢ <;> omega

/-- Signed values compare as their magnitude fields under the same signs. -/
theorem compare_signed_units (f : Fmt) (a b : Bool) (x y : Nat) :
    compare (signed a (f.units (f.mag x))) (signed b (f.units (f.mag y))) = compare (signed a (f.mag x)) (signed b (f.mag y)) := by
  have hx := units_eq_zero_iff f x
  have hy := units_eq_zero_iff f y
  have hxy := units_lt_units f (x := x) (y := y)
  have hyx := units_lt_units f (x := y) (y := x)
  have heq : f.mag x = f.mag y → f.units (f.mag x) = f.units (f.mag y) := fun h => by rw [h]
  exact compare_congr (signed_lt_signed hxy hyx heq hx) (signed_eq_signed heq hx hy)
    (signed_lt_signed hyx hxy (fun e => (heq e.symm).symm) hy)

theorem signed_mul (a : Bool) (m k : Nat) : signed a m * k = signed a (m * k) := by
  cases a
  · exact (Int.natCast_mul m k).symm
  · rw [signed_true, signed_true, Int.neg_mul, Int.natCast_mul]

theorem neg_le_signed (a : Bool) (n : Nat) : -(n : Int) ≤ signed a n := by
  cases a
  · rw [signed_false]
    omega
  · exact Int.le_refl _

theorem signed_le (a : Bool) (n : Nat) : signed a n ≤ n := by
  cases a
  · exact Int.le_refl _
  · rw [signed_true]
    omega

theorem compare_signed_top (a b : Bool) {n top : Nat} (h : n < top) :
    compare (signed a top) (signed b n) = if a then .lt else .gt := by
  have h1 := neg_le_signed b n
  have h2 := signed_le b n
  cases a with
  | false => exact Int.compare_eq_gt.mpr (show signed b n < (top : Int) by omega)
  | true => exact Int.compare_eq_lt.mpr (show -(top : Int) < signed b n by omega)

theorem compare_top_signed (a b : Bool) {n top : Nat} (h : n < top) :
    compare (signed b n) (signed a top) = if a then .gt else .lt := by
  rw [← Int.compare_swap, compare_signed_top a b h]
  cases a <;> rfl

theorem compare_tops (a b : Bool) {top : Nat} (h : 0 < top) :
    compare (signed a top) (signed b top) = if a = b then .eq else if a then .lt else .gt := by
  cases a <;> cases b
  · exact Int.compare_eq_eq.mpr rfl
  · exact Int.compare_eq_gt.mpr (show -(top : Int) < top by omega)
  · exact Int.compare_eq_lt.mpr (show -(top : Int) < top by omega)
  · exact Int.compare_eq_eq.mpr rfl

/-! ### Decoded values -/

/-- The formats whose encodings code infinities and NaNs as IEEE formats do, wide enough for a signalling NaN (R61, R62). -/
def Fmt.Ieee (f : Fmt) : Prop := f.sp = .ieee ∧ 2 < f.wf ∧ 0 < f.we

theorem fpFmt_ieee (p : FP) : (fpFmt p).Ieee := by cases p <;> exact ⟨rfl, by decide, by decide⟩

theorem imgGet_eq_expOf (f : Fmt) (x : Nat) : imgGet x f.wf f.we = expOf f x := by
  rw [imgGet, expOf, Nat.shiftRight_eq_div_pow]

theorem isNaN_of_fin {f : Fmt} {x : Nat} (he : expOf f x ≠ 2 ^ f.we - 1) : isNaN f x = false := by
  rw [isNaN, decide_eq_false he, Bool.false_and]

theorem isNaN_of_inf {f : Fmt} {x : Nat} (h0 : fracOf f x = 0) : isNaN f x = false := by
  rw [isNaN, decide_eq_false (not_not_intro h0), Bool.and_false]

theorem isNaN_of_nan {f : Fmt} {x : Nat} (he : expOf f x = 2 ^ f.we - 1) (h0 : fracOf f x ≠ 0) : isNaN f x = true := by
  rw [isNaN, decide_eq_true he, decide_eq_true h0, Bool.true_and]

theorem fracOf_eq_zero {f : Fmt} {x : Nat} (hx : isNaN f x = false) (he : expOf f x = 2 ^ f.we - 1) : fracOf f x = 0 :=
  Decidable.byContradiction fun h0 => Bool.false_ne_true (hx.symm.trans (isNaN_of_nan he h0))

section
variable {f : Fmt} (hf : f.Ieee)
include hf

theorem decode_inf {x : Nat} (he : expOf f x = 2 ^ f.we - 1) (h0 : fracOf f x = 0) : f.decode x = .inf (sigOf f x) := by
  simp only [Fmt.decode, hf.1, imgGet_eq_expOf, if_pos he]
  exact if_pos h0

theorem decode_nan {x : Nat} (he : expOf f x = 2 ^ f.we - 1) (h0 : fracOf f x ≠ 0) :
    f.decode x = .nan (!(fracOf f x).testBit (f.wf - 1)) := by
  simp only [Fmt.decode, hf.1, imgGet_eq_expOf, if_pos he]
  refine (if_neg h0).trans (congrArg FV.nan ?_)
  rw [decide_eq_true hf.2.1, Bool.true_and, fracOf]

theorem decode_fin {x : Nat} (he : expOf f x ≠ 2 ^ f.we - 1) :
    f.decode x = .fin (sigOf f x) (f.significand x) (f.least + f.shift x) false := by
  simp only [Fmt.decode, hf.1, imgGet_eq_expOf, if_neg he]
  rw [sigOf, Fmt.significand, Fmt.least, Fmt.shift, fracOf]
  by_cases h0 : expOf f x = 0
  · rw [if_pos h0, if_pos h0, h0, Nat.zero_sub, Int.natCast_zero, Int.add_zero]
  · have hs : (1 - (f.bias : Int) - f.wf) + (expOf f x - 1 : Nat) = (expOf f x : Int) - f.bias - f.wf := by omega
    rw [if_neg h0, if_neg h0, hs]

theorem isNaN_decode (x : Nat) : (f.decode x).isNaN = isNaN f x := by
  by_cases he : expOf f x = 2 ^ f.we - 1
  · by_cases h0 : fracOf f x = 0
    · exact (congrArg FV.isNaN (decode_inf hf he h0)).trans (isNaN_of_inf h0).symm
    · exact (congrArg FV.isNaN (decode_nan hf he h0)).trans (isNaN_of_nan he h0).symm
  · exact (congrArg FV.isNaN (decode_fin hf he)).trans (isNaN_of_fin he).symm

theorem isSNaN_decode (x : Nat) : (f.decode x).isSNaN = isSNaN f x := by
  have hs : isSNaN f x = (isNaN f x && !(fracOf f x).testBit (f.wf - 1)) := rfl
  by_cases he : expOf f x = 2 ^ f.we - 1
  · by_cases h0 : fracOf f x = 0
    · rw [hs, isNaN_of_inf h0, Bool.false_and]
      exact congrArg FV.isSNaN (decode_inf hf he h0)
    · rw [hs, isNaN_of_nan he h0, Bool.true_and]
      exact congrArg FV.isSNaN (decode_nan hf he h0)
  · rw [hs, isNaN_of_fin he, Bool.false_and]
    exact congrArg FV.isSNaN (decode_fin hf he)

theorem snan2_decode (x y : Nat) :
    snan2 (f.decode x) (f.decode y) = if isSNaN f x || isSNaN f y then 16#6 else 0#6 := by
  rw [snan2, isSNaN_decode hf, isSNaN_decode hf]
  rfl

omit hf in
/-- A finite value at a lower exponent, in units of the least subnormal number. -/
theorem signedAt_units (x : Nat) {u : Int} (hl : f.least ≤ u) (hu : u ≤ f.least + f.shift x) :
    signedAt (sigOf f x) (f.significand x) (f.least + f.shift x) u * (2 ^ (u - f.least).toNat : Nat) =
      signed (sigOf f x) (f.units (f.mag x)) := by
  have hs : f.shift x = (f.least + f.shift x - u).toNat + (u - f.least).toNat := by omega
  have hm : f.units (f.mag x) = f.significand x * 2 ^ (f.least + f.shift x - u).toNat * 2 ^ (u - f.least).toNat := by
    rw [units_mag, Nat.mul_assoc, ← Nat.pow_add, ← hs]
  rw [hm, ← signed_mul]
  rfl

omit hf in
/-- The magnitude field of a finite number lies below that of infinity. -/
theorem mag_lt_infMag {x : Nat} (he : expOf f x ≠ 2 ^ f.we - 1) : f.mag x < f.infMag := by
  have hlt : expOf f x + 1 ≤ 2 ^ f.we - 1 := Nat.lt_of_le_of_ne (expOf_le f x) he
  calc f.mag x = fracOf f x + 2 ^ f.wf * expOf f x := mag_eq f x
    _ < 2 ^ f.wf * (expOf f x + 1) := by rw [Nat.mul_add_one]; have := fracOf_lt f x; omega
    _ ≤ 2 ^ f.wf * (2 ^ f.we - 1) := Nat.mul_le_mul_left _ hlt
    _ = f.infMag := Nat.mul_comm _ _

omit hf in
theorem mag_eq_infMag {x : Nat} (he : expOf f x = 2 ^ f.we - 1) (h0 : fracOf f x = 0) : f.mag x = f.infMag := by
  rw [mag_eq, h0, he, Fmt.infMag, Nat.zero_add, Nat.mul_comm]

theorem infMag_pos : 0 < f.infMag :=
  Nat.mul_pos (Nat.sub_pos_of_lt (Nat.one_lt_two_pow (Nat.ne_of_gt hf.2.2))) (Nat.two_pow_pos _)

/-- Two numbers compare as their sign and magnitude fields (R61, R131). -/
theorem cmp_decode {x y : Nat} (hx : isNaN f x = false) (hy : isNaN f y = false) :
    (f.decode x).cmp (f.decode y) = some (compare (fpOrder f x) (fpOrder f y)) := by
  rw [fpOrder_eq, fpOrder_eq]
  by_cases hex : expOf f x = 2 ^ f.we - 1 <;> by_cases hey : expOf f y = 2 ^ f.we - 1
  · have h0x := fracOf_eq_zero hx hex
    have h0y := fracOf_eq_zero hy hey
    rw [decode_inf hf hex h0x, decode_inf hf hey h0y, mag_eq_infMag hex h0x, mag_eq_infMag hey h0y, compare_tops _ _ (infMag_pos hf)]
    rfl
  · have h0x := fracOf_eq_zero hx hex
    rw [decode_inf hf hex h0x, decode_fin hf hey, mag_eq_infMag hex h0x, compare_signed_top _ _ (mag_lt_infMag hey)]
    rfl
  · have h0y := fracOf_eq_zero hy hey
    rw [decode_inf hf hey h0y, decode_fin hf hex, mag_eq_infMag hey h0y, compare_top_signed _ _ (mag_lt_infMag hex)]
    rfl
  · rw [decode_fin hf hex, decode_fin hf hey, ← compare_signed_units]
    have hlx : f.least ≤ min (f.least + f.shift x) (f.least + f.shift y) := by omega
    rw [← signedAt_units x hlx (by omega), ← signedAt_units y hlx (by omega), compare_mul_pos (Int.natCast_pos.mpr (Nat.two_pow_pos _))]
    rfl

end

/-! ### FCMP -/

/-- A condition code of a floating-point compare on ordered operands, given by their order (R131). -/
def Cond.holdsFp (cc : Cond) (a b : Int) : Bool :=
  match cc with
  | .eq => decide (a = b)
  | .ne => decide (a ≠ b)
  | .lt => decide (a < b)
  | .ge => decide (b ≤ a)
  | .gt => decide (b < a)
  | .le => decide (a ≤ b)
  | _ => false

theorem FV.cmp_of_isNaN {a b : FV} (h : (a.isNaN || b.isNaN) = true) : a.cmp b = none := by
  cases a with
  | nan _ => rfl
  | inf _ | fin _ _ _ _ =>
    cases b with
    | nan _ => rfl
    | inf _ | fin _ _ _ _ => cases h

theorem fpCond_of_none {a b : FV} (cc : Cond) (h : a.cmp b = none) : (fpCond cc a b).1 = false := by
  cases cc <;> simp only [fpCond, h]

theorem fpCond_of_some {a b : FV} {m n : Int} (cc : Cond) (h : a.cmp b = some (compare m n)) :
    (fpCond cc a b).1 = Cond.holdsFp cc m n := by
  cases cc <;>
    simp only [fpCond, h, Cond.holdsFp, ne_eq, Int.compare_eq_lt, Int.compare_eq_eq, Int.compare_eq_gt, Int.not_lt]

/-- FCMP's condition and flags, from the encodings (R131, R150). -/
theorem fpCond_decode {f : Fmt} (hf : f.Ieee) (cc : Cond) (x y : Nat) :
    fpCond cc (f.decode x) (f.decode y) =
      (!(isNaN f x || isNaN f y) && Cond.holdsFp cc (fpOrder f x) (fpOrder f y),
        if (if cc = .eq ∨ cc = .ne then isSNaN f x || isSNaN f y else isNaN f x || isNaN f y) then 16#6 else 0#6) := by
  apply Prod.ext
  · cases hn : isNaN f x || isNaN f y with
    | true => exact fpCond_of_none cc (FV.cmp_of_isNaN (by rw [isNaN_decode hf, isNaN_decode hf, hn]))
    | false =>
      obtain ⟨hx, hy⟩ := Bool.or_eq_false_iff.mp hn
      exact fpCond_of_some cc (cmp_decode hf hx hy)
  · simp only [fpCond, snan2_decode hf, isNaN_decode hf, flagIf]
    by_cases hq : cc = .eq ∨ cc = .ne
    · rw [if_pos hq, if_pos hq]
    · rw [if_neg hq, if_neg hq]
      rfl

theorem exec_fcmp (g : SG) (cd : CReg) (sa sb : SReg) (cc : Cond) (p : FP) (s : State) :
    exec (.fcmp g cd sa sb cc p) s = s.regOp g [sa, sb] fun h =>
      let r := fpCond cc ((fpFmt p).decode (h.rdF p sa)) ((fpFmt p).decode (h.rdF p sb))
      (h.wrPair cd r.1).flags r.2 := rfl

theorem acts_fcmp {g : SG} {cd : CReg} {sa sb : SReg} {cc : Cond} {p : FP} {s : State} {r : Bool} {fl : BitVec 6}
    (hc : s.Commits g [sa, sb]) (hr : fpCond cc ((fpFmt p).decode (s.me.rdF p sa)) ((fpFmt p).decode (s.me.rdF p sb)) = (r, fl)) :
    Acts (.fcmp g cd sa sb cc p) s (((s.me.wrC cd r).wrC (cd + 1) (!r)).flags fl).nextPc := by
  have h := acts_of_regOp (exec_fcmp g cd sa sb cc p s) hc
  rwa [hr] at h

/-- The second part of O22: R150. -/
theorem floatCompareRules : FloatCompareRules := by
  intro g cd sa sb cc p s _ _ hc f x y a b ordered r flags
  have hr : fpCond cc (f.decode x) (f.decode y) = (r, flags) := by
    rw [fpCond_decode (fpFmt_ieee p)]
    cases cc <;> rfl
  exact acts_fcmp hc hr

/-! ### FMIN and FMAX -/

/-- The order of R149: that of the numbers, with −0 below +0. -/
def minMaxKey (f : Fmt) (v : Nat) : Int := if sigOf f v then fpOrder f v - 1 else fpOrder f v

theorem fpOrder_of_pos {f : Fmt} {x : Nat} (hs : sigOf f x = false) : fpOrder f x = f.mag x := by
  rw [fpOrder_eq, hs, signed_false]

theorem fpOrder_of_neg {f : Fmt} {x : Nat} (hs : sigOf f x = true) : fpOrder f x = -(f.mag x : Int) := by
  rw [fpOrder_eq, hs, signed_true]

theorem minMaxKey_of_pos {f : Fmt} {x : Nat} (hs : sigOf f x = false) : minMaxKey f x = fpOrder f x :=
  if_neg (fun h => Bool.false_ne_true (hs.symm.trans h))

theorem minMaxKey_of_neg {f : Fmt} {x : Nat} (hs : sigOf f x = true) : minMaxKey f x = fpOrder f x - 1 := if_pos hs

theorem minMaxKey_lt {f : Fmt} {x y : Nat} (h : fpOrder f x < fpOrder f y) : minMaxKey f x < minMaxKey f y := by
  cases hx : sigOf f x <;> cases hy : sigOf f y
  · rwa [minMaxKey_of_pos hx, minMaxKey_of_pos hy]
  · rw [fpOrder_of_pos hx, fpOrder_of_neg hy] at h
    omega
  · rw [minMaxKey_of_neg hx, minMaxKey_of_pos hy]
    omega
  · rw [minMaxKey_of_neg hx, minMaxKey_of_neg hy]
    omega

/-- An encoding is its magnitude field with its sign above it. -/
theorem eq_mag_add_sign {f : Fmt} {x : Nat} (hx : x < 2 ^ f.width) :
    x = f.mag x + 2 ^ (f.we + f.wf) * (sigOf f x).toNat := by
  have hq : x / 2 ^ (f.we + f.wf) < 2 := by
    rw [Nat.div_lt_iff_lt_mul (Nat.two_pow_pos _), ← Nat.pow_succ']
    rwa [Fmt.width, Nat.add_assoc, Nat.add_comm] at hx
  rw [sigOf, Nat.toNat_testBit, Nat.mod_eq_of_lt hq]
  exact (Nat.mod_add_div x _).symm

theorem minMaxKey_inj {f : Fmt} {x y : Nat} (hx : x < 2 ^ f.width) (hy : y < 2 ^ f.width)
    (h : minMaxKey f x = minMaxKey f y) : x = y := by
  have hsig : sigOf f x = sigOf f y ∧ f.mag x = f.mag y := by
    cases hsx : sigOf f x <;> cases hsy : sigOf f y
    · rw [minMaxKey_of_pos hsx, minMaxKey_of_pos hsy, fpOrder_of_pos hsx, fpOrder_of_pos hsy] at h
      exact ⟨rfl, by omega⟩
    · rw [minMaxKey_of_pos hsx, minMaxKey_of_neg hsy, fpOrder_of_pos hsx, fpOrder_of_neg hsy] at h
      omega
    · rw [minMaxKey_of_neg hsx, minMaxKey_of_pos hsy, fpOrder_of_neg hsx, fpOrder_of_pos hsy] at h
      omega
    · rw [minMaxKey_of_neg hsx, minMaxKey_of_neg hsy, fpOrder_of_neg hsx, fpOrder_of_neg hsy] at h
      exact ⟨rfl, by omega⟩
  rw [eq_mag_add_sign hx, eq_mag_add_sign hy, hsig.1, hsig.2]

theorem decide_signBit_le (f : Fmt) (x : Nat) : decide (f.signBit ≤ x % (2 * f.signBit)) = sigOf f x := by
  have hlt : x % f.signBit < f.signBit := Nat.mod_lt _ (Nat.two_pow_pos _)
  have hbit : sigOf f x = decide (x / f.signBit % 2 = 1) := Nat.testBit_eq_decide_div_mod_eq
  rw [hbit, Nat.mul_comm, Nat.mod_mul]
  rcases Nat.mod_two_eq_zero_or_one (x / f.signBit) with h | h
  · rw [h, decide_eq_false (by omega), decide_eq_false (by decide)]
  · rw [h, decide_eq_true (by omega), decide_eq_true rfl]

theorem minMaxKey_le_of_neg {f : Fmt} {x y : Nat} (h : fpOrder f x = fpOrder f y) (hs : sigOf f x = true) :
    minMaxKey f x ≤ minMaxKey f y := by
  rw [minMaxKey_of_neg hs]
  cases hy : sigOf f y
  · rw [minMaxKey_of_pos hy]
    omega
  · rw [minMaxKey_of_neg hy]
    omega

theorem minMaxKey_le_of_pos {f : Fmt} {x y : Nat} (h : fpOrder f x = fpOrder f y) (hs : sigOf f x = false) :
    minMaxKey f y ≤ minMaxKey f x := by
  rw [minMaxKey_of_pos hs]
  cases hy : sigOf f y
  · rw [minMaxKey_of_pos hy]
    omega
  · rw [minMaxKey_of_neg hy]
    omega

/-- At a tie of the order, either operand will do. -/
theorem ite_le_eq_right {a b : Int} {x y : Nat} (hinj : a = b → x = y) (h : a ≤ b) : (if b ≤ a then x else y) = y := by
  by_cases hba : b ≤ a
  · rw [if_pos hba, hinj (Int.le_antisymm h hba)]
  · rw [if_neg hba]

/-- R149 on two numbers: the lesser or the greater by `minMaxKey`. -/
theorem minMax_numbers {f : Fmt} (hf : f.Ieee) {x y : Nat} (hx : x < 2 ^ f.width) (hy : y < 2 ^ f.width)
    (hnx : isNaN f x = false) (hny : isNaN f y = false) (lesser : Bool) :
    (f.minMax (!lesser) x y).1 = if (if lesser then minMaxKey f x ≤ minMaxKey f y else minMaxKey f y ≤ minMaxKey f x) then x else y := by
  simp only [Fmt.minMax, isNaN_decode hf, hnx, hny, cmp_decode hf hnx hny, decide_signBit_le, Bool.false_eq_true, false_and, if_false]
  rcases Int.lt_trichotomy (fpOrder f x) (fpOrder f y) with h | h | h
  · have hk := minMaxKey_lt h
    rw [Int.compare_eq_lt.mpr h]
    cases lesser
    · exact (if_neg (Int.not_le.mpr hk)).symm
    · exact (if_pos (Int.le_of_lt hk)).symm
  · rw [Int.compare_eq_eq.mpr h]
    have hinj := minMaxKey_inj hx hy
    cases hs : sigOf f x with
    | true =>
      have hk := minMaxKey_le_of_neg h hs
      cases lesser
      · exact (ite_le_eq_right hinj hk).symm
      · exact (if_pos hk).symm
    | false =>
      have hk := minMaxKey_le_of_pos h hs
      cases lesser
      · exact (if_pos hk).symm
      · exact (ite_le_eq_right (fun e => hinj e.symm) hk).symm
  · have hk := minMaxKey_lt h
    rw [Int.compare_eq_gt.mpr h]
    cases lesser
    · exact (if_pos (Int.le_of_lt hk)).symm
    · exact (if_neg (Int.not_le.mpr hk)).symm

theorem minMax_flags (f : Fmt) (greater : Bool) (x y : Nat) :
    (f.minMax greater x y).2 = snan2 (f.decode x) (f.decode y) := by
  rw [Fmt.minMax]
  dsimp only
  split
  · rfl
  split
  · rfl
  split
  · rfl
  split <;> rfl

/-- R149: FMIN's (`lesser`) or FMAX's result and flags, from the encodings. -/
theorem minMax_decode {f : Fmt} (hf : f.Ieee) {x y : Nat} (hx : x < 2 ^ f.width) (hy : y < 2 ^ f.width) (lesser : Bool) :
    f.minMax (!lesser) x y =
      (if isNaN f x && isNaN f y then f.nan else if isNaN f x then y else if isNaN f y then x
        else if (if lesser then minMaxKey f x ≤ minMaxKey f y else minMaxKey f y ≤ minMaxKey f x) then x else y,
        if isSNaN f x || isSNaN f y then 16#6 else 0#6) := by
  apply Prod.ext
  · cases hnx : isNaN f x <;> cases hny : isNaN f y
    · exact minMax_numbers hf hx hy hnx hny lesser
    · simp only [Fmt.minMax, isNaN_decode hf, hnx, hny, Bool.false_eq_true, false_and, if_false, if_true, Bool.false_and]
    · simp only [Fmt.minMax, isNaN_decode hf, hnx, hny, Bool.false_eq_true, and_false, if_false, if_true, Bool.and_false]
    · simp only [Fmt.minMax, isNaN_decode hf, hnx, hny, and_self, if_true, Bool.and_self]
  · rw [minMax_flags, snan2_decode hf]

theorem acts_minMax {i : Instr} {greater : Bool} {g : SG} {sd sa sb : SReg} {p : FP} {s : State} {r : FR}
    (he : exec i s = minMaxOp s greater g sd sa sb p) (hc : s.Commits g [sd, sa, sb])
    (hr : (fpFmt p).minMax greater (s.me.rdF p sa) (s.me.rdF p sb) = r) : Rounds i s sd r := by
  subst hr
  exact acts_of_regOp he hc

theorem rdF_lt (h : Hart) (p : FP) (r : SReg) : h.rdF p r < 2 ^ (fpFmt p).width := Nat.mod_lt _ (Nat.two_pow_pos _)

theorem exec_fmin (g : SG) (sd sa sb : SReg) (p : FP) (s : State) :
    exec (.fmin g sd sa sb p) s = minMaxOp s false g sd sa sb p := rfl
theorem exec_fmax (g : SG) (sd sa sb : SReg) (p : FP) (s : State) :
    exec (.fmax g sd sa sb p) s = minMaxOp s true g sd sa sb p := rfl

/-- The first part of O22: R149. -/
theorem floatMinMaxRules : FloatMinMaxRules := by
  intro g sd sa sb p s hc f x y key flags pick
  have hr := minMax_decode (fpFmt_ieee p) (rdF_lt s.me p sa) (rdF_lt s.me p sb)
  exact ⟨acts_minMax (exec_fmin g sd sa sb p s) hc (hr true), acts_minMax (exec_fmax g sd sa sb p s) hc (hr false)⟩

/-! ### FCLASS -/

/-- The class of an encoding, as the bit of FCLASS (R152). -/
def classBit (f : Fmt) (x : Nat) : Nat :=
  if expOf f x = 2 ^ f.we - 1 then
    (if fracOf f x = 0 then (if sigOf f x then 0 else 7) else if (fracOf f x).testBit (f.wf - 1) then 9 else 8)
  else if expOf f x = 0 then
    (if fracOf f x = 0 then (if sigOf f x then 3 else 4) else if sigOf f x then 2 else 5)
  else if sigOf f x then 1 else 6

theorem classify_eq {f : Fmt} (hf : f.Ieee) (x : Nat) : f.classify x = 2 ^ classBit f x := by
  have hlt := fracOf_lt f x
  rw [Fmt.classify, classBit]
  by_cases he : expOf f x = 2 ^ f.we - 1
  · rw [if_pos he]
    by_cases h0 : fracOf f x = 0
    · rw [decode_inf hf he h0, if_pos h0]
      cases sigOf f x <;> rfl
    · rw [decode_nan hf he h0, if_neg h0]
      cases (fracOf f x).testBit (f.wf - 1) <;> rfl
  · rw [decode_fin hf he, if_neg he]
    have hp := Nat.two_pow_pos f.wf
    by_cases h0 : expOf f x = 0
    · rw [if_pos h0, Fmt.significand, if_pos h0]
      by_cases hz : fracOf f x = 0
      · simp only [if_pos hz]
        cases sigOf f x <;> rfl
      · simp only [if_neg hz, if_pos hlt]
        cases sigOf f x <;> rfl
    · rw [if_neg h0, Fmt.significand, if_neg h0]
      simp only [if_neg (show ¬ 2 ^ f.wf + fracOf f x = 0 by omega), if_neg (show ¬ 2 ^ f.wf + fracOf f x < 2 ^ f.wf by omega)]
      cases sigOf f x <;> rfl

theorem exec_fclass (g : SG) (sd sa : SReg) (p : FP) (s : State) :
    exec (.fclass g sd sa p) s = s.regOp g [sd, sa] fun h => h.wrS sd (w64 ((fpFmt p).classify (h.rdF p sa))) := rfl

theorem acts_fclass {g : SG} {sd sa : SReg} {p : FP} {s : State} (hc : s.Commits g [sd, sa]) :
    Acts (.fclass g sd sa p) s (s.me.wrS sd (w64 (2 ^ classBit (fpFmt p) (s.me.rdF p sa)))).nextPc := by
  rw [← classify_eq (fpFmt_ieee p)]
  exact acts_of_regOp (exec_fclass g sd sa p s) hc

theorem fpFn_rounding (rm : BitVec 3) (p : FP) (sc : BitVec 5) (sub : BitVec 4) : (fpFn rm p sc sub).extractLsb' 16 3 = rm := by
  unfold fpFn
  repeat rw [BitVec.extractLsb'_append_eq_of_le (by decide)]
  exact BitVec.extractLsb'_eq_self

theorem legal_of_not {p : Prop} [Decidable p] (h : ¬ p) (k : Except Reject Instr) : legal (decide p) k = .error .reservedValue := by
  rw [legal, decide_eq_false h]
  rfl

theorem decodeIn_fclass_refused (g : SG) (sd sa sb : SReg) {rm : BitVec 3} (p : FP) (sc : BitVec 5) {sub : BitVec 4}
    (h : rm ≠ 0 ∨ sub ≠ 0) : decodeIn .sc (packSc ⟨0x5A#8, g, sd, sa, sb, fpFn rm p sc sub⟩) = .error .reservedValue := by
  simp only [decodeIn_packSc, decodeSc, decodeScFp, fpFn_rounding, fpFn_fmt, fpFn_sub, fpOf_code, oper_some]
  exact legal_of_not (fun ⟨hrm, hsub⟩ => h.elim (· hrm) (· hsub)) _

/-- The third part of O22: R152. -/
theorem floatClassRules : FloatClassRules := by
  constructor
  · intro g sd sa p s hc f x bit
    exact ⟨decodeIn_of_encode (Encoding.fclass g sd sa p) rfl rfl, acts_fclass hc⟩
  · intro g sd sa sb rm p sc sub h
    rw [decodeIn_fclass_refused g sd sa sb p sc h]
    rfl

/-- Settles O22: finite encodings are ordered as their sign and magnitude fields, because a greater exponent outweighs every
fraction, so FMIN, FMAX and FCMP, which compare decoded values, answer as the encodings say. -/
theorem floatMinMaxCompareClass : Obligations.FloatMinMaxCompareClass :=
  ⟨floatMinMaxRules, floatCompareRules, floatClassRules⟩

end Sys2Proof.Machine

/-!
PROOFS. Trap entry of 26_stops_traps_and_context.md (R323), the traps that end the member instead (R325), and the held interrupt
(R318).
-/
namespace Sys2Proof.Machine

/-! ### Where a trap ends the member (R325) -/

theorem Hart.status_forget (h : Hart) : h.forget.q.status = .free := rfl

/-- A terminated hart's slot is free (R326). -/
theorem State.status_terminate (s : State) (n : Nat) (c : BitVec 8) : ((s.terminate n c).hart n).q.status = .free := by
  rw [State.terminate]
  split
  case isTrue hfree => exact hfree
  case isFalse => rw [State.hart_updHart, Hart.status_forget]

/-- An interrupt is held while TSTAT.IE = 0 (R318). -/
theorem State.takeIrq_masked {s : State} {n : Nat} (hie : tstatIE (s.hart n).trap.tstat = false) : s.takeIrq n = none := by
  rw [State.takeIrq]
  split
  case h_1 => exact if_neg fun ⟨_, _, h⟩ => Bool.false_ne_true (hie.symm.trans h)
  case h_2 => rfl

/-! ### Trap entry (R323) -/

/-- Trace records go to the hart's trace state, and nothing else of the hart changes (R304). -/
theorem State.hart_emitIf (s : State) (b n kind index : Nat) (pc : Word) (elem : Nat) (w2 w3 : Word) :
    ∃ trc, (s.emitIf b n kind index pc elem w2 w3).hart n = { s.hart n with trc := trc } := by
  rw [State.emitIf]
  split
  case isTrue =>
    rw [State.emit, State.hart_updHart]
    dsimp only
    split <;> exact ⟨_, rfl⟩
  case isFalse => exact ⟨_, rfl⟩

/-- What the handler finds in the trap registers (R323): TQ and TNPC change only when the stop fell inside a convoy. -/
def HTrap.entered (r : HTrap) (m : Mode) (x : Trap) (tpc resume : Word) (conv : Option (QEntry × Nat)) (bf : Bool) : HTrap :=
  { r with
    tcause := x.cause
    tval := x.tval
    tpc := tpc
    tindex := BitVec.ofNat 3 x.tindex
    telem := BitVec.ofNat 12 x.telem
    tdet := x.tdet
    tmpc := x.tmpc
    tnpc := if conv.isSome then resume else r.tnpc
    tq := conv.elim r.tq fun c => tqOf c.1 c.2
    tstat := tstatOf false (conv.isSome && bf) conv.isSome (modeCode m) (tstatIE r.tstat) false }

/-- A trap that does not end the member enters the handler: the hart from its performed state on (R113, R323). -/
theorem State.takeTrap_enters {s : State} {n : Nat} {x : Trap} {tpc resume : Word} {conv : Option (QEntry × Nat)} {bf : Bool}
    (hm : (s.hart n).sc.mode ≠ .fw) (hstep : (s.hart n).q.step = none)
    (hends : ¬ ((s.hart n).trap.tvec = 0 ∨
      (x.cause ≠ 0x1C#8 ∧ tstatIE (s.hart n).trap.tstat = false ∧ (s.hart n).sc.mode = .sup))) :
    let h0 := (s.performBoth n).hart n
    ∃ t, s.takeTrap n x tpc conv resume bf = .next t ∧
      (t.hart n).sc = { h0.sc with mode := .sup, pc := h0.trap.tvec } ∧ (t.hart n).vec = h0.vec ∧ (t.hart n).str = h0.str ∧
      (t.hart n).q.status = .running ∧ (t.hart n).q.queue = [] ∧ (t.hart n).q.run = none ∧
      (t.hart n).trap = h0.trap.entered h0.sc.mode x tpc resume conv bf := by
  obtain ⟨trc, htrc⟩ := (s.performBoth n).hart_emitIf 1 n 2 x.tindex tpc x.telem (w64 x.cause.toNat) x.tval
  rw [State.takeTrap]
  simp only [hm, hends, hstep, if_false, Option.isSome_none, Bool.false_eq_true]
  refine ⟨_, rfl, ?_⟩
  rw [State.hart_updHart, htrc]
  cases conv <;> exact ⟨rfl, rfl, rfl, rfl, rfl, rfl, rfl⟩

/-! ### Reading the trap registers (R57, R322) -/

section
variable (s : State) (n : Nat)

theorem State.csrRead_tcause : s.csrRead n 0x100 = (s.hart n).trap.tcause.setWidth 64 := rfl
theorem State.csrRead_tval : s.csrRead n 0x101 = (s.hart n).trap.tval := rfl
theorem State.csrRead_tpc : s.csrRead n 0x102 = (s.hart n).trap.tpc := rfl
theorem State.csrRead_tindex : s.csrRead n 0x103 = (s.hart n).trap.tindex.setWidth 64 := rfl
theorem State.csrRead_telem : s.csrRead n 0x104 = (s.hart n).trap.telem.setWidth 64 := rfl
theorem State.csrRead_tvec : s.csrRead n 0x105 = (s.hart n).trap.tvec := rfl
theorem State.csrRead_tstat : s.csrRead n 0x106 = (s.hart n).trap.tstat := rfl
theorem State.csrRead_tnpc : s.csrRead n 0x107 = (s.hart n).trap.tnpc := rfl
theorem State.csrRead_tscr : s.csrRead n 0x10E = (s.hart n).trap.tscr := rfl
theorem State.csrRead_tdet : s.csrRead n 0x10F = (s.hart n).trap.tdet := rfl
theorem State.csrRead_tmpc : s.csrRead n 0x112 = (s.hart n).trap.tmpc := rfl

theorem State.csrRead_tq : ∀ i : Fin 6, s.csrRead n (0x108 + i) = Table.get 0 (s.hart n).trap.tq i
  | 0 | 1 | 2 | 3 | 4 | 5 => rfl

end

/-- The fields of a TSTAT value (R57). -/
theorem tstatOf_fields (inmm inbf incv : Bool) (m : Mode) (pie ie : Bool) :
    let st := tstatOf inmm inbf incv (modeCode m) pie ie
    st.getLsbD 0 = ie ∧ st.getLsbD 1 = pie ∧ st.extractLsb' 2 2 = BitVec.ofNat 2 (modeCode m) ∧
      st.getLsbD 6 = incv ∧ st.getLsbD 7 = inbf ∧ st.getLsbD 8 = inmm := by
  revert inmm inbf incv pie ie
  cases m <;> decide

/-- TQ[0] to TQ[5] hold the queue entry (R322). -/
theorem tqOf_fields (e : QEntry) (vl : Nat) :
    Table.get 0 (tqOf e vl) 0 = w64 vl ∧ Table.get 0 (tqOf e vl) 1 = e.vtype ∧ Table.get 0 (tqOf e vl) 2 = e.mfc ∧
      Table.get 0 (tqOf e vl) 3 = e.xa ∧ Table.get 0 (tqOf e vl) 4 = e.xb ∧
      Table.get 0 (tqOf e vl) 5 = w64 (e.strip.toNat * 2 ^ 32 + e.imm.toNat) := by
  simp only [tqOf, List.foldl_cons, List.foldl_nil, Table.get_set, reduceCtorEq, Nat.reduceEqDiff,
    Nat.zero_ne_one, if_true, if_false, and_self]

/-- What the handler reads of the queue entry it stopped in (R322, R323). -/
theorem State.csrRead_tqOf {t : State} {n : Nat} {e : QEntry} {vl : Nat} (h : (t.hart n).trap.tq = tqOf e vl) :
    t.csrRead n 0x108 = w64 vl ∧ t.csrRead n 0x109 = e.vtype ∧ t.csrRead n 0x10A = e.mfc ∧ t.csrRead n 0x10B = e.xa ∧
      t.csrRead n 0x10C = e.xb ∧ t.csrRead n 0x10D = w64 (e.strip.toNat * 2 ^ 32 + e.imm.toNat) := by
  have hq (i : Fin 6) : t.csrRead n (0x108 + i) = Table.get 0 (tqOf e vl) i := by rw [t.csrRead_tq n i, h]
  obtain ⟨h0, h1, h2, h3, h4, h5⟩ := tqOf_fields e vl
  exact ⟨(hq 0).trans h0, (hq 1).trans h1, (hq 2).trans h2, (hq 3).trans h3, (hq 4).trans h4, (hq 5).trans h5⟩

/-- Settles O33: a trap either terminates the hart, whose slot is then free, or enters the handler with the trap registers of
`HTrap.entered`, which the CSR numbers read back. -/
theorem trapEntry : Obligations.TrapEntry := by
  intro s n x tpc resume conv bf h h0 hm hstep ends
  have hends : ends ↔ h.trap.tvec = 0 ∨ (x.cause ≠ 0x1C#8 ∧ tstatIE h.trap.tstat = false ∧ h.sc.mode = .sup) :=
    or_congr_right (and_congr_right fun _ => and_comm)
  refine ⟨State.takeIrq_masked, fun he => ⟨_, State.takeTrap_ends hm (hends.mp he), s.status_terminate n x.cause⟩, fun he => ?_⟩
  obtain ⟨t, ht, hsc, hvec, hstr, hstatus, hqueue, hrun, htrap⟩ :=
    State.takeTrap_enters (tpc := tpc) (resume := resume) (conv := conv) (bf := bf) hm hstep fun hc => he (hends.mpr hc)
  obtain ⟨hie, hpie, hpmode, hincv, hinbf, hinmm⟩ :=
    tstatOf_fields false (conv.isSome && bf) conv.isSome h0.sc.mode (tstatIE h0.trap.tstat) false
  refine ⟨t, ht, hsc, hvec, hstr, hstatus, hqueue, hrun, ?_⟩
  simp only [t.csrRead_tcause, t.csrRead_tval, t.csrRead_tpc, t.csrRead_tindex, t.csrRead_telem, t.csrRead_tvec, t.csrRead_tstat,
    t.csrRead_tnpc, t.csrRead_tscr, t.csrRead_tdet, t.csrRead_tmpc, htrap]
  refine ⟨rfl, rfl, rfl, (BitVec.ofNat_toNat 64 _).symm, (BitVec.ofNat_toNat 64 _).symm, rfl, rfl, rfl, rfl,
    ⟨hie, hpie, hpmode.trans ?_, hincv, hinbf, hinmm⟩, rfl, ?_⟩
  · cases h0.sc.mode <;> rfl
  · rintro e vl rfl
    exact State.csrRead_tqOf (by rw [htrap]; rfl)

end Sys2Proof.Machine
